-- ==== Sys2Proof/Word.lean ====
section
/-! DEFINITION. The widths of the block's registers, memory elements and port words (spec/00_scope.md R11, R15). -/

namespace Sys2Proof

/-- A 32-bit register, port word, SIG or ENER element (R11, R15). -/
abbrev Word := BitVec 32

/-- A 16-bit NORM or BAND element (R15). -/
abbrev Half := BitVec 16

/-- A byte: an FBUF element, or a field of the command word (R15, R90). -/
abbrev Byte := BitVec 8

end Sys2Proof
end

