-- ==== Sys2Proof/Config.lean ====
section
/-! DEFINITION. What an implementation fixes: the parameters of spec/00_scope.md R9, the constants of R10, and the
free values the spec leaves open, each an opaque constant without a body. -/

namespace Sys2Proof

/-- The encoder's angle function `ANGLE_FN` (R9, R207, decision D27, U3): the block's default, the reference definition
of R207, or any other function that R207 allows.  `other k` is the `k`-th of the free functions `Config.angleRaw`. -/
inductive AngleSel where
  /-- The reference ANGLE_FN of R207, which every vector of spec/95_test_vectors.md uses. -/
  | reference
  /-- Any other total function with R207's three properties (assumption 2). -/
  | other (k : Nat)
  deriving DecidableEq, Repr

/-- The implementation parameters of R9.  They are the machine's arguments: State carries them unchanged. -/
structure Params where
  /-- `FBUF_BYTES`: size in bytes of the frame byte buffer. -/
  fbufBytes : Nat
  /-- `NBANDS_MAX`: largest band count CFG_NBANDS may hold. -/
  nbandsMax : Nat
  /-- `FRAME_MAX`: largest frame length (bins per channel). -/
  frameMax : Nat
  /-- `EXT_BITS`: width of the carry run-length counter RC_EXT. -/
  extBits : Nat
  /-- `ANGLE_FN`: the encoder's angle function. -/
  angle : AngleSel
  deriving DecidableEq, Repr

/-- The default values of R9. -/
def Params.defaults : Params :=
  { fbufBytes := 2048, nbandsMax := 32, frameMax := 1024, extBits := 16, angle := .reference }

/-- The legal ranges of R9. -/
def Params.legal (p : Params) : Bool :=
  decide (1 ≤ p.fbufBytes) && decide (p.fbufBytes ≤ 16384) &&
  decide (1 ≤ p.nbandsMax) && decide (p.nbandsMax ≤ 255) &&
  decide (1 ≤ p.frameMax) && decide (p.frameMax ≤ 2048) &&
  decide (8 ≤ p.extBits) && decide (p.extBits ≤ 32)

namespace Config

/-! ### The constants of R10 -/

/-- `SYM_MAX`, the largest output symbol, `2^SYM_BITS - 1`. -/
@[simp] def symMax : Nat := 255
/-- `TOP`, the largest value of RC_RNG, `1 << (CODE_BITS - 1)`. -/
@[simp] def top : Nat := 2147483648
/-- `BOT`, the renormalization threshold, `TOP >> SYM_BITS`. -/
@[simp] def bot : Nat := 8388608
/-- `RAW_MAX`, the largest bit count of one raw-bit command. -/
@[simp] def rawMax : Nat := 25
/-- `FT_MAX`, the largest total frequency. -/
@[simp] def ftMax : Nat := 65536
/-- `GRAN_MAX`, the largest tell granularity. -/
@[simp] def granMax : Nat := 3
/-- `EPS`, the energy floor in SIG units. -/
@[simp] def eps : Nat := 1
/-- `QB_MAX`, the largest angle resolution. -/
@[simp] def qbMax : Nat := 14
/-- `THETA_MAX`, a quarter turn on the angle scale. -/
@[simp] def thetaMax : Nat := 16384
/-- `W_MS`, 1/sqrt(2) in Q14. -/
@[simp] def wMs : Nat := 11585
/-- `BAND_W_MAX`, the largest band width in bins. -/
@[simp] def bandWMax : Nat := 256

/-! ### Free values (no body: nothing in Lean can evaluate one) -/

/-- What a memory byte holds that nothing has written since power-on number `n` (R41, R290, U1: any value per
element).  Arguments: the number of the power-on, the byte's port address (assumption 1). -/
opaque powerOnByte : Nat → Nat → BitVec 8

/-- What a memory byte holds after a command that could have written it has faulted (R270, U2: any value per element).
Arguments: the number of the draw, the byte's port address (assumption 3). -/
opaque faultByte : Nat → Nat → BitVec 8

/-- How many host reads of STATUS are answered with BUSY = 1 before the running command completes (R71, R310, U5: a
command takes any finite time).  Argument: the number of the draw (assumption 4). -/
opaque pollsBeforeDone : Nat → Nat

/-- What RC_NBITS_TOTAL holds after a command whose exact sum does not fit its 32 bits: the spec states no result there
(assumption 5).  Argument: the exact sum. -/
opaque bitCountOverflow : Nat → BitVec 32

/-- The raw material of a free ANGLE_FN: `Sys2Proof.Machine.angleFn` makes a function with R207's properties of it
(assumption 2).  Arguments: which function, `s`, `m`. -/
opaque angleRaw : Nat → Nat → Nat → Nat

end Config

end Sys2Proof
end

