-- ==== Sys2Proof/Syntax.lean ====
section
/-! DEFINITION. The commands of the block: one constructor per row of spec/opcode_table.json (spec/30_encoding.md R94).
A field is the byte A or B of the command word (R90); Sys2Proof/WellFormed.lean says which values of B a row admits. -/

namespace Sys2Proof

/-- The 24 commands of R94.  Wide operands are not in the word (R92): they are ARG0, ARG1 and ARG2. -/
inductive Instr where
  /-- NOP (R250). -/
  | nop
  /-- RC_ENC_INIT (R114). -/
  | rcEncInit
  /-- RC_ENCODE (R115). -/
  | rcEncode
  /-- RC_ENC_BITS (R116), A = nbits. -/
  | rcEncBits (nbits : Byte)
  /-- RC_ENC_DONE (R117). -/
  | rcEncDone
  /-- RC_TELL (R141), A = g. -/
  | rcTell (g : Byte)
  /-- RC_DEC_INIT (R132). -/
  | rcDecInit
  /-- RC_DECODE (R133). -/
  | rcDecode
  /-- RC_DEC_UPDATE (R134). -/
  | rcDecUpdate
  /-- RC_DEC_BITS (R135), A = nbits. -/
  | rcDecBits (nbits : Byte)
  /-- BE_COMPUTE (R172). -/
  | beCompute
  /-- BE_NORMALISE (R174). -/
  | beNormalise
  /-- BE_DENORMALISE (R175). -/
  | beDenormalise
  /-- BE_RENORM_ALL (R177). -/
  | beRenormAll
  /-- BE_RENORM_BAND (R178), A = band, B[1:0] = channel mask. -/
  | beRenormBand (band mask : Byte)
  /-- ST_MIX (R203), A = band, B[0] = mode, B[1] = inverse. -/
  | stMix (band sel : Byte)
  /-- ST_QB (R211), A = band. -/
  | stQb (band : Byte)
  /-- ST_THETA_ENC (R212), A = band, B[3:0] = qb. -/
  | stThetaEnc (band qb : Byte)
  /-- ST_THETA_DEC (R213), A = band, B[3:0] = qb. -/
  | stThetaDec (band qb : Byte)
  /-- ST_SPLIT (R216), A = band. -/
  | stSplit (band : Byte)
  /-- ST_SCALE (R217), A = band. -/
  | stScale (band : Byte)
  /-- ST_SIGN2_ENC (R218), A = band. -/
  | stSign2Enc (band : Byte)
  /-- ST_SIGN2_DEC (R219), A = band. -/
  | stSign2Dec (band : Byte)
  /-- ST_SIGN2_REBUILD (R220), A = band. -/
  | stSign2Rebuild (band : Byte)
  deriving DecidableEq, Repr

end Sys2Proof
end

