-- ==== Sys2Proof/WellFormed.lean ====
section
/-! DEFINITION. Which command terms have a word (spec/30_encoding.md R94, R95): an unused bit of B must be 0. -/

namespace Sys2Proof

/-- The mask and selector forms use B[1:0] only (R94: bits 23:18 are fixed at 0). -/
def fitsTwoBits (b : Byte) : Bool := decide (b.toNat < 4)

/-- The angle forms use B[3:0] only (R94: bits 23:20 are fixed at 0). -/
def fitsFourBits (b : Byte) : Bool := decide (b.toNat < 16)

/-- A command term is well formed when its fields fit the bits its row leaves free (R94, R95).  A value in a used field
that the command does not accept is well formed: the command checks it (R95). -/
def Instr.wellFormed : Instr → Bool
  | .nop => true
  | .rcEncInit => true
  | .rcEncode => true
  | .rcEncBits _ => true
  | .rcEncDone => true
  | .rcTell _ => true
  | .rcDecInit => true
  | .rcDecode => true
  | .rcDecUpdate => true
  | .rcDecBits _ => true
  | .beCompute => true
  | .beNormalise => true
  | .beDenormalise => true
  | .beRenormAll => true
  | .beRenormBand _ mask => fitsTwoBits mask
  | .stMix _ sel => fitsTwoBits sel
  | .stQb _ => true
  | .stThetaEnc _ qb => fitsFourBits qb
  | .stThetaDec _ qb => fitsFourBits qb
  | .stSplit _ => true
  | .stScale _ => true
  | .stSign2Enc _ => true
  | .stSign2Dec _ => true
  | .stSign2Rebuild _ => true

end Sys2Proof
end

