-- ==== Sys2Proof/Decode.lean ====
section
/-! DEFINITION. The command word: the opcode map of spec/30_encoding.md R94, the decoder of R97, the encoder of R90 and
R98, and the host's entry `decodeTableWord`. -/

namespace Sys2Proof

/-- One row of the opcode map (R94). -/
structure OpcodeRow where
  /-- The mnemonic, as spec/opcode_table.json spells it. -/
  mnemonic : String
  /-- The value of the fixed bits. -/
  fixed : Word
  /-- The fixed bits (1 = fixed). -/
  mask : Word
  /-- The command of a selecting word whose fields A and B have these values. -/
  build : Byte → Byte → Instr

/-- The encoder side of the range coder (R94, OPC 0x00 to 0x05, with NOP). -/
def encoderRows : List OpcodeRow :=
  [ ⟨"NOP",         0x00000000#32, 0xFFFFFFFF#32, fun _ _ => .nop⟩,
    ⟨"RC_ENC_INIT", 0x00000001#32, 0xFFFFFFFF#32, fun _ _ => .rcEncInit⟩,
    ⟨"RC_ENCODE",   0x00000002#32, 0xFFFFFFFF#32, fun _ _ => .rcEncode⟩,
    ⟨"RC_ENC_BITS", 0x00000003#32, 0xFFFF00FF#32, fun a _ => .rcEncBits a⟩,
    ⟨"RC_ENC_DONE", 0x00000004#32, 0xFFFFFFFF#32, fun _ _ => .rcEncDone⟩,
    ⟨"RC_TELL",     0x00000005#32, 0xFFFF00FF#32, fun a _ => .rcTell a⟩ ]

/-- The decoder side of the range coder (R94, OPC 0x09 to 0x0C). -/
def decoderRows : List OpcodeRow :=
  [ ⟨"RC_DEC_INIT",   0x00000009#32, 0xFFFFFFFF#32, fun _ _ => .rcDecInit⟩,
    ⟨"RC_DECODE",     0x0000000A#32, 0xFFFFFFFF#32, fun _ _ => .rcDecode⟩,
    ⟨"RC_DEC_UPDATE", 0x0000000B#32, 0xFFFFFFFF#32, fun _ _ => .rcDecUpdate⟩,
    ⟨"RC_DEC_BITS",   0x0000000C#32, 0xFFFF00FF#32, fun a _ => .rcDecBits a⟩ ]

/-- The band energy commands (R94, OPC 0x10 to 0x14). -/
def bandRows : List OpcodeRow :=
  [ ⟨"BE_COMPUTE",     0x00000010#32, 0xFFFFFFFF#32, fun _ _ => .beCompute⟩,
    ⟨"BE_NORMALISE",   0x00000011#32, 0xFFFFFFFF#32, fun _ _ => .beNormalise⟩,
    ⟨"BE_DENORMALISE", 0x00000012#32, 0xFFFFFFFF#32, fun _ _ => .beDenormalise⟩,
    ⟨"BE_RENORM_ALL",  0x00000013#32, 0xFFFFFFFF#32, fun _ _ => .beRenormAll⟩,
    ⟨"BE_RENORM_BAND", 0x00000014#32, 0xFFFC00FF#32, fun a b => .beRenormBand a b⟩ ]

/-- The stereo commands (R94, OPC 0x20 to 0x28). -/
def stereoRows : List OpcodeRow :=
  [ ⟨"ST_MIX",           0x00000020#32, 0xFFFC00FF#32, fun a b => .stMix a b⟩,
    ⟨"ST_QB",            0x00000021#32, 0xFFFF00FF#32, fun a _ => .stQb a⟩,
    ⟨"ST_THETA_ENC",     0x00000022#32, 0xFFF000FF#32, fun a b => .stThetaEnc a b⟩,
    ⟨"ST_THETA_DEC",     0x00000023#32, 0xFFF000FF#32, fun a b => .stThetaDec a b⟩,
    ⟨"ST_SPLIT",         0x00000024#32, 0xFFFF00FF#32, fun a _ => .stSplit a⟩,
    ⟨"ST_SCALE",         0x00000025#32, 0xFFFF00FF#32, fun a _ => .stScale a⟩,
    ⟨"ST_SIGN2_ENC",     0x00000026#32, 0xFFFF00FF#32, fun a _ => .stSign2Enc a⟩,
    ⟨"ST_SIGN2_DEC",     0x00000027#32, 0xFFFF00FF#32, fun a _ => .stSign2Dec a⟩,
    ⟨"ST_SIGN2_REBUILD", 0x00000028#32, 0xFFFF00FF#32, fun a _ => .stSign2Rebuild a⟩ ]

/-- The opcode map of R94, in its order. -/
def opcodeTable : List OpcodeRow := encoderRows ++ decoderRows ++ bandRows ++ stereoRows

/-- Field OPC, bits 7:0 (R90). -/
def fieldOpc (w : Word) : Byte := w.extractLsb' 0 8

/-- Field A, bits 15:8 (R90). -/
def fieldA (w : Word) : Byte := w.extractLsb' 8 8

/-- Field B, bits 23:16 (R90). -/
def fieldB (w : Word) : Byte := w.extractLsb' 16 8

/-- Field RSV, bits 31:24 (R90). -/
def fieldRsv (w : Word) : Byte := w.extractLsb' 24 8

/-- Whether the word selects the row: `w & mask = match` (R94). -/
def OpcodeRow.selects (r : OpcodeRow) (w : Word) : Bool := (w &&& r.mask) == r.fixed

/-- Why a word is no command; either way the command raises ILLEGAL_CMD (R95, R96). -/
inductive DecodeError where
  /-- The OPC value is in no row of R94 (R96). -/
  | reservedOpcode (opc : Byte)
  /-- The OPC value has a row, but RSV, an unused field or an unused bit of B is not 0 (R95). -/
  | nonzeroUnusedBits (mnemonic : String)
  deriving DecidableEq, Repr

/-- Which of the two kinds of illegal word this is (R95, R96). -/
def decodeErrorOf (w : Word) : DecodeError :=
  match opcodeTable.find? (fun r => fieldOpc r.fixed == fieldOpc w) with
  | some r => .nonzeroUnusedBits r.mnemonic
  | none => .reservedOpcode (fieldOpc w)

/-- The decoding procedure of R97, total on any word: the row the word selects, or the reason it selects none. -/
def decode (w : Word) : Except DecodeError Instr :=
  match opcodeTable.find? (fun r => r.selects w) with
  | some r => .ok (r.build (fieldA w) (fieldB w))
  | none => .error (decodeErrorOf w)

/-- The command word with these fields and RSV = 0 (R90). -/
def commandWord (opc a b : Byte) : Word := 0#8 ++ b ++ a ++ opc

/-- The word of a command (R94, R98): a field the command does not use is 0. -/
def encode : Instr → Word
  | .nop => commandWord 0x00#8 0#8 0#8
  | .rcEncInit => commandWord 0x01#8 0#8 0#8
  | .rcEncode => commandWord 0x02#8 0#8 0#8
  | .rcEncBits n => commandWord 0x03#8 n 0#8
  | .rcEncDone => commandWord 0x04#8 0#8 0#8
  | .rcTell g => commandWord 0x05#8 g 0#8
  | .rcDecInit => commandWord 0x09#8 0#8 0#8
  | .rcDecode => commandWord 0x0A#8 0#8 0#8
  | .rcDecUpdate => commandWord 0x0B#8 0#8 0#8
  | .rcDecBits n => commandWord 0x0C#8 n 0#8
  | .beCompute => commandWord 0x10#8 0#8 0#8
  | .beNormalise => commandWord 0x11#8 0#8 0#8
  | .beDenormalise => commandWord 0x12#8 0#8 0#8
  | .beRenormAll => commandWord 0x13#8 0#8 0#8
  | .beRenormBand b mask => commandWord 0x14#8 b mask
  | .stMix b sel => commandWord 0x20#8 b sel
  | .stQb b => commandWord 0x21#8 b 0#8
  | .stThetaEnc b qb => commandWord 0x22#8 b qb
  | .stThetaDec b qb => commandWord 0x23#8 b qb
  | .stSplit b => commandWord 0x24#8 b 0#8
  | .stScale b => commandWord 0x25#8 b 0#8
  | .stSign2Enc b => commandWord 0x26#8 b 0#8
  | .stSign2Dec b => commandWord 0x27#8 b 0#8
  | .stSign2Rebuild b => commandWord 0x28#8 b 0#8

/-- The mnemonic of a command (R94). -/
def Instr.mnemonic : Instr → String
  | .nop => "NOP"
  | .rcEncInit => "RC_ENC_INIT"
  | .rcEncode => "RC_ENCODE"
  | .rcEncBits _ => "RC_ENC_BITS"
  | .rcEncDone => "RC_ENC_DONE"
  | .rcTell _ => "RC_TELL"
  | .rcDecInit => "RC_DEC_INIT"
  | .rcDecode => "RC_DECODE"
  | .rcDecUpdate => "RC_DEC_UPDATE"
  | .rcDecBits _ => "RC_DEC_BITS"
  | .beCompute => "BE_COMPUTE"
  | .beNormalise => "BE_NORMALISE"
  | .beDenormalise => "BE_DENORMALISE"
  | .beRenormAll => "BE_RENORM_ALL"
  | .beRenormBand _ _ => "BE_RENORM_BAND"
  | .stMix _ _ => "ST_MIX"
  | .stQb _ => "ST_QB"
  | .stThetaEnc _ _ => "ST_THETA_ENC"
  | .stThetaDec _ _ => "ST_THETA_DEC"
  | .stSplit _ => "ST_SPLIT"
  | .stScale _ => "ST_SCALE"
  | .stSign2Enc _ => "ST_SIGN2_ENC"
  | .stSign2Dec _ => "ST_SIGN2_DEC"
  | .stSign2Rebuild _ => "ST_SIGN2_REBUILD"

/-- The command word of an opcode-table entry whose low `nbits` bits are `w` and whose other bits are 0.  A command is
exactly one 32-bit word (R91), so there is no byte order to apply (R68). -/
def tableWord (nbits w : Nat) : Word := BitVec.ofNat 32 (w % 2 ^ nbits)

/-- What the decoder reads from the word an opcode-table entry stands for. -/
def decodeTableWord (nbits w : Nat) : Option Instr :=
  match decode (tableWord nbits w) with
  | .ok i => some i
  | .error _ => none

end Sys2Proof
end

