-- ==== Sys2Proof/Machine/State.lean ====
section
/-! DEFINITION. The machine's state (spec/10_state.md), the reasons a step can stop, and the state after reset
(spec/70_reset_and_hazards.md R292).  STATE IS PLAIN DATA. -/

namespace Sys2Proof.Machine

/-- The fault codes 1 to 7 of R261.  Code 0 (NONE) is the absence of a fault; codes 8 to 15 are never reported (U12). -/
inductive FaultCode where
  /-- 1: reserved opcode, or a non-zero reserved or unused bit in the command word. -/
  | illegalCmd
  /-- 2: the mode descriptor is not valid, or a stereo command with `C != 2`. -/
  | mode
  /-- 3: range-coder command in the wrong state. -/
  | rcState
  /-- 4: an operand out of its legal range. -/
  | badOperand
  /-- 5: RC_DEC_UPDATE whose interval does not contain the pending decoded value. -/
  | rcSymbol
  /-- 6: the carry run-length counter would exceed its width. -/
  | carryOvf
  /-- 7: an encoder write would pass the other part of the frame. -/
  | bufOvf
  deriving DecidableEq, Repr

/-- STATUS.RC_DIR (R25): 0 encode, 1 decode. -/
inductive Direction where
  | encode
  | decode
  deriving DecidableEq, Repr

/-- The range coder's state: the registers of R33 and the four STATUS bits R33 names with them. -/
structure Coder where
  /-- RC_VAL: the encoder's `low`, the decoder's distance from the top of the interval. -/
  val : Word
  /-- RC_RNG: the size of the current interval. -/
  rng : Word
  /-- RC_REM bits 7:0: the buffered byte, or the last byte read. -/
  rem : Byte
  /-- RC_REM bit 8, REM_VALID. -/
  remValid : Bool
  /-- RC_EXT, EXT_BITS wide: the count of buffered 0xFF bytes. -/
  ext : Word
  /-- RC_OFFS: bytes written or read at the front of FBUF. -/
  offs : Word
  /-- RC_END_OFFS: raw-bit bytes written or read at the end of FBUF. -/
  endOffs : Word
  /-- RC_END_WIN: the raw-bit window. -/
  endWin : Word
  /-- RC_NEND_BITS: the count of valid bits in RC_END_WIN. -/
  nendBits : Word
  /-- RC_NBITS_TOTAL: the bit counter used by tell. -/
  nbitsTotal : Word
  /-- RC_STORAGE: the frame size in bytes. -/
  storage : Word
  /-- RC_DQ: the quotient saved by the last RC_DECODE. -/
  dq : Word
  /-- RC_DFT: `ft` of the pending RC_DECODE. -/
  dft : Word
  /-- RC_DFS: the value the pending RC_DECODE returned. -/
  dfs : Word
  /-- STATUS.RC_INIT: an init command has completed since reset. -/
  inited : Bool
  /-- STATUS.RC_DIR. -/
  dir : Direction
  /-- STATUS.RC_FIN: RC_ENC_DONE has completed for the current encode frame. -/
  fin : Bool
  /-- STATUS.RC_DPEND: a RC_DECODE result awaits its RC_DEC_UPDATE. -/
  dpend : Bool
  deriving DecidableEq, Repr

/-- The stereo state registers of R36. -/
structure Stereo where
  /-- ST_THETA: the quantized angle, 0 .. 16384. -/
  theta : Word
  /-- ST_IMID: the mid weight, Q15. -/
  imid : Word
  /-- ST_ISIDE: the side weight, Q15. -/
  iside : Word
  /-- ST_DELTA: the bit-split delta, two's complement; its values are R210's (assumption 15). -/
  delta : Word
  /-- ST_MAGM: the mid magnitude measured by ST_THETA_ENC. -/
  magm : Word
  /-- ST_MAGS: the side magnitude measured by ST_THETA_ENC. -/
  mags : Word
  /-- ST_SIGN, one bit: the 2-coefficient sign. -/
  sign : Bool
  deriving DecidableEq, Repr

/-- Every register of spec/10_state.md that holds anything (ID, HWCFG0 and HWCFG1 are constants, CMD is write-only). -/
structure Regs where
  /-- CTRL.IRQ_EN (R24). -/
  irqEn : Bool
  /-- STATUS.DONE (R25). -/
  done : Bool
  /-- STATUS.FAULT and STATUS.FAULT_CODE (R25, R261): `none` is FAULT = 0 with code 0, `some c` is FAULT = 1 with the
  code of `c`. -/
  fault : Option FaultCode
  /-- FAULT_CMD (R27): the word of the command that faulted. -/
  faultCmd : Word
  /-- ARG0 (R22). -/
  arg0 : Word
  /-- ARG1 (R22). -/
  arg1 : Word
  /-- ARG2 (R22). -/
  arg2 : Word
  /-- RES0 (R22). -/
  res0 : Word
  /-- RES1 (R22). -/
  res1 : Word
  /-- CFG_CHANNELS (R29). -/
  cfgChannels : Word
  /-- CFG_NBANDS (R30). -/
  cfgNbands : Word
  /-- CFG_FRAME_LEN (R30). -/
  cfgFrameLen : Word
  /-- The range coder's registers and STATUS bits (R33). -/
  rc : Coder
  /-- The stereo registers (R36). -/
  st : Stereo
  deriving DecidableEq, Repr

/-- The block's storage: FBUF, SIG, NORM, ENER and BAND (R31, R37 to R40), each byte under its port address (R61, R63
to R67).  `cells` lists the bytes written since power-on number `power`, addresses strictly rising; a byte that is not
listed has no value of its own and reads as the free value `Config.powerOnByte power address` (R41; assumption 1). -/
structure Memory where
  power : Nat
  cells : List Host.Cell
  deriving DecidableEq, Repr

/-- The engine's hidden phase (R21).  `polls` is the model's own: how many STATUS reads the port has answered since the
command `cmd` was accepted (R71; assumption 4). -/
inductive Phase where
  | idle
  | busy (cmd : Word) (polls : Nat)
  deriving DecidableEq, Repr

/-- What the host does at the port (R60, R69) or to the block (R290). -/
inductive PortEvent where
  /-- A read of `bytes` bytes at a port address; the legal width is 4. -/
  | read (addr : BitVec 16) (bytes : Nat)
  /-- A write of `bytes` bytes at a port address; the legal width is 4. -/
  | write (addr : BitVec 16) (bytes : Nat) (value : Word)
  /-- Hardware (power-on) reset. -/
  | powerOn
  deriving DecidableEq, Repr

/-- What the port answers to one access (R62, R69, R71). -/
inductive Reply where
  /-- A legal read's data. -/
  | data (value : Word)
  /-- A legal write was performed, or ignored as its rule says. -/
  | written
  /-- A bus error on a read, with the data that comes with it. -/
  | readError (value : Word)
  /-- A bus error on a write. -/
  | writeError
  deriving DecidableEq, Repr

/-- The whole machine. -/
structure State where
  /-- The implementation parameters (R9), which HWCFG0 and HWCFG1 read (R28); no step changes them. -/
  hw : Params
  /-- The registers. -/
  regs : Regs
  /-- The memories. -/
  mem : Memory
  /-- PHASE (R21). -/
  phase : Phase
  /-- The model's own: what the host has issued at the port and the port has not performed yet, oldest first (R71,
  R73; assumption 6). -/
  port : List PortEvent
  /-- The model's own: the port's answers so far, newest first (assumption 6). -/
  replies : List Reply
  /-- The model's own: how many draws of free values have been made (assumptions 3 and 4). -/
  draws : Nat
  deriving DecidableEq, Repr

/-- Why the machine stops.  No command of R94 stops in a state that a run from reset reaches: these are raised only
where a rule's own pseudocode has no result. -/
inductive Fault where
  /-- Raised by RC_DECODE, ST_THETA_DEC and RC_TELL when a register invariant of R34 is broken so that the rule divides
  by zero or shifts by a negative amount.  Safe: the spec gives no result (assumption 7). -/
  | noResult
  /-- Raised by the renormalization of R113 and R131 when RC_RNG is 0, where the rule's loop never ends.  Safe
  (assumption 7). -/
  | endless
  /-- Raised by a coder access to an FBUF index at or above FBUF_BYTES, which does not exist (R37, R72).  Safe
  (assumption 7). -/
  | noElement
  deriving DecidableEq, Repr

/-- Why exec has no meaning for a command. -/
inductive Refusal where
  /-- Raised by exec for a command whose meaning is not written yet.  Safe: the model says nothing of it.  No arm of
  exec is left so. -/
  | notModelled (mnemonic : String)
  deriving DecidableEq, Repr

/-- Every coder register 0, RC_INIT, RC_DIR, RC_FIN and RC_DPEND 0 (R292). -/
def Coder.reset : Coder :=
  { val := 0#32, rng := 0#32, rem := 0#8, remValid := false, ext := 0#32, offs := 0#32, endOffs := 0#32,
    endWin := 0#32, nendBits := 0#32, nbitsTotal := 0#32, storage := 0#32, dq := 0#32, dft := 0#32, dfs := 0#32,
    inited := false, dir := .encode, fin := false, dpend := false }

/-- Every stereo register 0 (R292). -/
def Stereo.reset : Stereo :=
  { theta := 0#32, imid := 0#32, iside := 0#32, delta := 0#32, magm := 0#32, mags := 0#32, sign := false }

/-- The reset value of every register (R292). -/
def Regs.reset : Regs :=
  { irqEn := false, done := false, fault := none, faultCmd := 0#32, arg0 := 0#32, arg1 := 0#32, arg2 := 0#32,
    res0 := 0#32, res1 := 0#32, cfgChannels := 0#32, cfgNbands := 0#32, cfgFrameLen := 0#32,
    rc := Coder.reset, st := Stereo.reset }

/-- The block with the default parameters right after its first power-on (R290, R292): registers at their reset values,
PHASE idle, no memory element written, nothing issued at the port. -/
def State.reset : State :=
  { hw := Params.defaults, regs := Regs.reset, mem := { power := 0, cells := [] }, phase := .idle, port := [],
    replies := [], draws := 0 }

end Sys2Proof.Machine
end

