-- ==== Sys2Proof/Machine/Arith.lean ====
section
/-! DEFINITION. The integer primitives of spec/00_scope.md R12 to R14.  All pseudocode arithmetic is on mathematical
integers; a value is narrowed only where a register or memory element is written. -/

namespace Sys2Proof.Machine

/-- `x >> n` for an integer: floor division by `2^n` (R12). -/
def asr (x : Int) (n : Nat) : Int := x / ((2 ^ n : Nat) : Int)

/-- `clamp(lo, hi, x) = max(lo, min(hi, x))` (R12). -/
def clamp (lo hi x : Int) : Int := max lo (min hi x)

/-- `tdiv(a, b)`: the quotient rounded toward zero, `sign(a)*sign(b) * (|a| // |b|)` (R13). -/
def tdiv (a b : Int) : Int := a.sign * b.sign * ((a.natAbs / b.natAbs : Nat) : Int)

/-- The bits `k-1 .. 0` of the square root, highest first, on top of the bits `r` already found. -/
def isqrtBits : Nat → Nat → Nat → Nat
  | 0, _, r => r
  | k + 1, x, r => if (r + 2 ^ k) * (r + 2 ^ k) ≤ x then isqrtBits k x (r + 2 ^ k) else isqrtBits k x r

/-- `isqrt(x)`: the largest integer `r` with `r*r <= x` (R13), found bit by bit. -/
def isqrt (x : Nat) : Nat := isqrtBits (Nat.log2 x / 2 + 1) x 0

/-- `ilog2(x)` for `x > 0`: `floor(log2 x)` (R13). -/
def ilog2 (x : Nat) : Nat := Nat.log2 x

/-- `ilog(x)`: 0 if `x = 0`, otherwise the number of bits of `x` (R13). -/
def ilog (x : Nat) : Nat := if x = 0 then 0 else ilog2 x + 1

/-- `zlog2(x)`: 0 if `x = 0`, otherwise `ilog2(x)` (R13). -/
def zlog2 (x : Nat) : Nat := if x = 0 then 0 else ilog2 x

/-- `vshr(x, s)`: `x >> s` if `s >= 0`, otherwise `x << (-s)` (R13). -/
def vshr (x s : Int) : Int := if 0 ≤ s then asr x s.toNat else x * ((2 ^ (-s).toNat : Nat) : Int)

/-- `frac_mul16(a, b) = (16384 + a*b) >> 15` (R13). -/
def fracMul16 (a b : Int) : Int := asr (16384 + a * b) 15

/-- `sat16` (R14). -/
def sat16 (x : Int) : Int := clamp (-32768) 32767 x

/-- `sat32` (R14). -/
def sat32 (x : Int) : Int := clamp (-2147483648) 2147483647 x

/-- `satu32` (R14). -/
def satu32 (x : Int) : Int := clamp 0 4294967295 x

/-- A non-negative integer written to a 32-bit register.  Every value a rule writes this way fits (R34, R35, R116;
assumption 8). -/
def regNat (n : Nat) : Word := BitVec.ofNat 32 n

/-- An integer written to a 32-bit register as two's complement, `mod 2^32` (R11, R12). -/
def regInt (x : Int) : Word := BitVec.ofInt 32 x

end Sys2Proof.Machine
end

