-- ==== Sys2Proof/Machine/Ops.lean ====
section
/-! DEFINITION. The operations over memory and registers that every meaning shares: reading and writing the memories
(spec/20_memory.md R63 to R67), completing a command, and taking a fault (spec/60_exceptions.md R262, R270).  There is no
return from a fault (R276): the only ways out are the soft reset and the power-on reset of Machine/Port.lean. -/

namespace Sys2Proof.Machine

/-! ### The byte memory -/

/-- The byte listed under an address, if any. -/
def lookup : List Host.Cell → Nat → Option Byte
  | [], _ => none
  | (k, v) :: rest, a => if a = k then some v else lookup rest a

/-- List a byte under an address, keeping the addresses strictly rising. -/
def insertCell (a : Nat) (b : Byte) : List Host.Cell → List Host.Cell
  | [] => [(a, b)]
  | (k, v) :: rest =>
    if a < k then (a, b) :: (k, v) :: rest
    else if a = k then (a, b) :: rest
    else (k, v) :: insertCell a b rest

/-- The addresses are strictly rising: the canonical form.  An unlisted byte has no value a listed one could equal. -/
def rising : List Host.Cell → Bool
  | [] => true
  | [_] => true
  | (k, _) :: (k', v') :: rest => decide (k < k') && rising ((k', v') :: rest)

/-- The canonical form of a memory. -/
def Memory.wf (m : Memory) : Bool := rising m.cells

/-- The byte at an address: the listed one, or the free value of a byte not written since power-on (R41). -/
def Memory.byte (m : Memory) (a : Nat) : Byte :=
  match lookup m.cells a with
  | some b => b
  | none => Config.powerOnByte m.power a

/-- Write one byte. -/
def Memory.setByte (m : Memory) (a : Nat) (b : Byte) : Memory := { m with cells := insertCell a b m.cells }

/-- The 16-bit element whose bytes are at `a` (low) and `a + 1` (high). -/
def Memory.half (m : Memory) (a : Nat) : Half := m.byte (a + 1) ++ m.byte a

/-- Write a 16-bit element. -/
def Memory.setHalf (m : Memory) (a : Nat) (v : Half) : Memory :=
  (m.setByte a (v.extractLsb' 0 8)).setByte (a + 1) (v.extractLsb' 8 8)

/-- The 32-bit element whose bytes are at `a` (lowest) to `a + 3` (highest). -/
def Memory.word (m : Memory) (a : Nat) : Word := m.byte (a + 3) ++ m.byte (a + 2) ++ m.byte (a + 1) ++ m.byte a

/-- Write a 32-bit element. -/
def Memory.setWord (m : Memory) (a : Nat) (v : Word) : Memory :=
  (((m.setByte a (v.extractLsb' 0 8)).setByte (a + 1) (v.extractLsb' 8 8)).setByte (a + 2)
    (v.extractLsb' 16 8)).setByte (a + 3) (v.extractLsb' 24 8)

/-! ### The five memories, each element under its port offset -/

/-- `BAND[i]` (R63). -/
def bandAddr (i : Nat) : Nat := 0x0400 + 4 * i

/-- `ENER[c][b]` (R64). -/
def enerAddr (c b : Nat) : Nat := 0x0800 + 4 * (256 * c + b)

/-- `FBUF[i]` (R65): byte `i` of the window, little-endian within each word. -/
def fbufAddr (i : Nat) : Nat := 0x4000 + i

/-- `SIG[k]` (R66). -/
def sigAddr (k : Nat) : Nat := 0x8000 + 4 * k

/-- `NORM[k]` (R67). -/
def normAddr (k : Nat) : Nat := 0xC000 + 4 * k

/-- `BAND[i]`, unsigned. -/
def Memory.band (m : Memory) (i : Nat) : Nat := (m.half (bandAddr i)).toNat

/-- `ENER[c][b]`, unsigned. -/
def Memory.ener (m : Memory) (c b : Nat) : Nat := (m.word (enerAddr c b)).toNat

/-- `FBUF[i]`. -/
def Memory.fbuf (m : Memory) (i : Nat) : Nat := (m.byte (fbufAddr i)).toNat

/-- `sext_32(SIG[k])`. -/
def Memory.sig (m : Memory) (k : Nat) : Int := (m.word (sigAddr k)).toInt

/-- `sext_16(NORM[k])`. -/
def Memory.norm (m : Memory) (k : Nat) : Int := (m.half (normAddr k)).toInt

/-- `ENER[c][b] <- v` for each listed `((c, b), v)`. -/
def Memory.setEners (m : Memory) (ws : List ((Nat × Nat) × Int)) : Memory :=
  ws.foldl (fun m w => m.setWord (enerAddr w.1.1 w.1.2) (regInt w.2)) m

/-- `SIG[k] <- v` for each listed `(k, v)`, stored as 32-bit two's complement. -/
def Memory.setSigs (m : Memory) (ws : List (Nat × Int)) : Memory :=
  ws.foldl (fun m w => m.setWord (sigAddr w.1) (regInt w.2)) m

/-- `NORM[k] <- v` for each listed `(k, v)`, stored as 16-bit two's complement. -/
def Memory.setNorms (m : Memory) (ws : List (Nat × Int)) : Memory :=
  ws.foldl (fun m w => m.setHalf (normAddr w.1) (BitVec.ofInt 16 w.2)) m

/-! ### Running a command -/

/-- Why a command's pseudocode ends early. -/
inductive Stop where
  /-- `raise Fault(CODE)` (R262). -/
  | raised (c : FaultCode)
  /-- The rule has no result in this state, which no run from reset reaches. -/
  | undefined (f : Fault)
  deriving DecidableEq, Repr

/-- A stretch of pseudocode: its result, or why it ended early. -/
abbrev Run (α : Type) := Except Stop α

/-- `raise Fault(CODE)` (R262). -/
def raise (α : Type) (c : FaultCode) : Run α := .error (.raised c)

/-- `if not p: raise Fault(CODE)`. -/
def check (p : Bool) (c : FaultCode) : Run Unit := if p then .ok () else .error (.raised c)

/-- A command completes without a fault: DONE is set at the same step as its results (R273) and PHASE is idle (R21). -/
def State.complete (s : State) : State := { s with regs := { s.regs with done := true }, phase := .idle }

/-- Memory after a fault: each listed byte holds an unspecified value (R270, U2), draw `n` of the free values. -/
def Memory.unspecify (m : Memory) (n : Nat) (touched : List Nat) : Memory :=
  touched.foldl (fun m a => m.setByte a (Config.faultByte n a)) m

/-- TAKING A FAULT: fault entry (R270) for the command `word`, from the state before the command.  Every register keeps
its value but STATUS and FAULT_CMD; the memory bytes `touched` are unspecified. -/
def faultEntry (c : FaultCode) (word : Word) (touched : List Nat) (s : State) : State :=
  { s with
    regs := { s.regs with fault := some c, faultCmd := word, done := true }
    mem := s.mem.unspecify s.draws touched
    phase := .idle
    draws := s.draws + 1 }

/-- PERFORM a command: run its pseudocode on the state before it; then complete, or take the fault it raised (R262,
R270, R273).  `touched` lists the memory bytes that are unspecified after such a fault (R270, U2; assumption 3). -/
def perform (i : Instr) (touched : List Nat) (body : Run State) (s : State) : Host.Outcome State Fault Refusal :=
  match body with
  | .ok t => .next t.complete
  | .error (.raised c) => .next (faultEntry c (encode i) touched s)
  | .error (.undefined f) => .fault f

/-- The word of an illegal command raises ILLEGAL_CMD "and does nothing else" (R95). -/
def illegalCommand (word : Word) (s : State) : State := faultEntry .illegalCmd word [] s

end Sys2Proof.Machine
end

