-- ==== Sys2Proof/Machine/Operands.lean ====
section
/-! DEFINITION. The operand forms: ARG registers, CMD fields and the mode descriptor (spec/30_encoding.md R92, R93;
spec/00_scope.md R16; spec/10_state.md R32), and the checks the commands share (R110, R170, R200). -/

namespace Sys2Proof.Machine

/-- `x[ARG0]`, unsigned (R92). -/
def State.arg0 (s : State) : Nat := s.regs.arg0.toNat
/-- `x[ARG1]`, unsigned (R92). -/
def State.arg1 (s : State) : Nat := s.regs.arg1.toNat
/-- `x[ARG2]`, unsigned (R92). -/
def State.arg2 (s : State) : Nat := s.regs.arg2.toNat
/-- `sext_32(x[ARG0])` (R92, R93). -/
def State.arg0Signed (s : State) : Int := s.regs.arg0.toInt

/-- `CMD.B[n]` (R92). -/
def fieldBit (b : Byte) (n : Nat) : Bool := b.getLsbD n

/-- `CMD.B[1:0]` (R92, R93). -/
def lowTwoBits (b : Byte) : Nat := b.toNat % 4

/-- `CMD.B[3:0]` (R92, R93). -/
def lowFourBits (b : Byte) : Nat := b.toNat % 16

/-- `C = x[CFG_CHANNELS]` (R16). -/
def State.channels (s : State) : Nat := s.regs.cfgChannels.toNat
/-- `NB = x[CFG_NBANDS]` (R16). -/
def State.nbands (s : State) : Nat := s.regs.cfgNbands.toNat
/-- `L = x[CFG_FRAME_LEN]` (R16). -/
def State.frameLen (s : State) : Nat := s.regs.cfgFrameLen.toNat

/-- `N_b = BAND[b+1] - BAND[b]` (R16). -/
def Memory.width (m : Memory) (b : Nat) : Nat := m.band (b + 1) - m.band b

/-- `[BAND[b] .. BAND[b+1] - 1]`, the bins of band `b` (R16). -/
def Memory.bins (m : Memory) (b : Nat) : List Nat := List.range' (m.band b) (m.width b)

/-- `k = j*C + c` for each bin `j` of band `b`: the SIG and NORM indices of a channel of a band (R16). -/
def State.bandIndices (s : State) (c b : Nat) : List Nat := (s.mem.bins b).map (fun j => j * s.channels + c)

/-- Every `(c, b)` with `c < C` and `b < NB`, channel by channel. -/
def State.channelBands (s : State) : List (Nat × Nat) :=
  (List.range s.channels).flatMap (fun c => (List.range s.nbands).map (fun b => (c, b)))

/-- `MODE_OK` (R32), its conjuncts in the rule's order. -/
def modeOk (s : State) : Bool :=
  (decide (s.channels = 1) || decide (s.channels = 2)) &&
  (decide (1 ≤ s.nbands) && decide (s.nbands ≤ s.hw.nbandsMax)) &&
  (decide (1 ≤ s.frameLen) && decide (s.frameLen ≤ s.hw.frameMax)) &&
  decide (s.mem.band 0 = 0) &&
  (List.range s.nbands).all (fun b =>
    decide (s.mem.band b < s.mem.band (b + 1)) &&
    decide (s.mem.band (b + 1) - s.mem.band b ≤ Config.bandWMax)) &&
  decide (s.mem.band s.nbands ≤ s.frameLen)

/-- `BE_REQ()` (R170). -/
def beReq (s : State) : Run Unit := check (modeOk s) .mode

/-- `ST_REQ()` (R200). -/
def stReq (s : State) : Run Unit := do
  beReq s
  check (decide (s.channels = 2)) .mode

/-- `ST_BAND(b)` (R200). -/
def stBand (s : State) (b : Nat) : Run Unit := check (decide (b < s.nbands)) .badOperand

/-- `RC_REQ(dir, fin_ok)` (R110). -/
def rcReq (c : Coder) (dir : Direction) (finOk : Bool) : Run Unit := do
  check c.inited .rcState
  check (decide (c.dir = dir)) .rcState
  check (!(decide (dir = .encode) && c.fin && !finOk)) .rcState

/-! ### The memory that is unspecified after a fault (R270, U2; assumption 3)

The elements are those the block implements, of the bands that C, NB and BAND name as they stand: MODE is no exception,
since R170's "changes nothing" is about the command before its fault entry.  That a band's NORM elements are R16's even
for a stereo command with `C != 2` is the model's choice, marked at State.bandNormBytes. -/

/-- FBUF bytes `0 .. RC_STORAGE - 1`: those of every range coder command and every coding stereo command. -/
def State.frameBytes (s : State) : List Nat :=
  (List.range (min s.regs.rc.storage.toNat s.hw.fbufBytes)).map fbufAddr

/-- Bin `j` is in band `b`, and the band is in use (R16). -/
def State.inBand (s : State) (b j : Nat) : Bool :=
  decide (b < s.nbands) && decide (b < s.hw.nbandsMax) && decide (s.mem.band b ≤ j) && decide (j < s.mem.band (b + 1))

/-- Bin `j` is in a band in use. -/
def State.coversBin (s : State) (j : Nat) : Bool :=
  (List.range (min s.nbands s.hw.nbandsMax)).any (fun b => s.inBand b j)

/-- Bin `j` is one that R175 sets to 0: `BAND[NB] .. L - 1`. -/
def State.zeroesBin (s : State) (j : Nat) : Bool :=
  decide (s.nbands ≤ s.hw.nbandsMax) && decide (s.mem.band s.nbands ≤ j) && decide (j < s.frameLen)

/-- The SIG and NORM indices `k = j*C + c`, `c < C`, of the bins `j` with this property (R16). -/
def State.indicesOf (s : State) (p : Nat → Bool) : List Nat :=
  if s.channels = 0 then [] else (List.range (2 * s.hw.frameMax)).filter (fun k => p (k / s.channels))

/-- The two bytes of each of these NORM elements. -/
def normBytes (ks : List Nat) : List Nat := ks.flatMap (fun k => [normAddr k, normAddr k + 1])

/-- The four bytes of the element at an address. -/
def wordBytes (a : Nat) : List Nat := [a, a + 1, a + 2, a + 3]

/-- The NORM elements of band `b`, in every channel: what a fault of BE_RENORM_BAND, ST_MIX, ST_SCALE or ST_SIGN2_REBUILD
leaves unspecified.  DESIGN CHOICE (assumption 3): when a stereo command takes MODE with `C != 2`, a valid mono descriptor
among the cases, R270 does not say whether the band's elements are R16's `NORM[j*C + c]` with the C that stands or the
`NORM[2j]` and `NORM[2j+1]` that the stereo rules write; the model takes R16's.  With `C = 2` the two are the same.
Unsafe for a claim that an element outside R16's is kept. -/
def State.bandNormBytes (s : State) (b : Nat) : List Nat := normBytes (s.indicesOf (s.inBand b))

/-- The NORM elements of every band in use, in every channel. -/
def State.coveredNormBytes (s : State) : List Nat := normBytes (s.indicesOf s.coversBin)

/-- The SIG elements that BE_DENORMALISE writes: of every band in use and of the zeroed bins, in every channel. -/
def State.coveredSigBytes (s : State) : List Nat :=
  (s.indicesOf (fun j => s.coversBin j || s.zeroesBin j)).flatMap (fun k => wordBytes (sigAddr k))

/-- The ENER elements of every band in use, in every channel. -/
def State.coveredEnerBytes (s : State) : List Nat :=
  (List.range (min s.channels 2)).flatMap (fun c =>
    (List.range (min s.nbands s.hw.nbandsMax)).flatMap (fun b => wordBytes (enerAddr c b)))

end Sys2Proof.Machine
end

