-- ==== Sys2Proof/Machine/BandEnergy.lean ====
section
/-! DEFINITION. The band energy commands (spec/41_band_energy.md R170 to R178).  When MODE_OK holds, no two elements a
command writes coincide and no command reads an element it wrote before (R32, R72, R176), so a command's new elements are
computed from the memory before it and then stored together. -/

namespace Sys2Proof.Machine

/-- `band_energy(c, b)` (R171) of the list of the band's SIG values. -/
def bandEnergy (xs : List Int) : Int :=
  let m := (xs.map Int.natAbs).foldl max 0
  if m = 0 then Config.eps
  else
    let sh : Int := (ilog2 m : Int) - 10
    let acc := (xs.map (fun x => (vshr x sh).natAbs * (vshr x sh).natAbs)).sum
    satu32 (Config.eps + vshr (isqrt acc) (-sh))

/-- `band_energy(c, b)` (R171). -/
def State.bandEnergy (s : State) (c b : Nat) : Int :=
  Machine.bandEnergy ((s.bandIndices c b).map (fun k => s.mem.sig k))

/-- BE_COMPUTE (R172). -/
def execBeCompute (s : State) : Host.Outcome State Fault Refusal :=
  perform .beCompute s.coveredEnerBytes (do
    beReq s
    let new := s.channelBands.map (fun p => (p, s.bandEnergy p.1 p.2))
    .ok { s with mem := s.mem.setEners new }) s

/-- The new NORM element of R174: `sat16(tdiv(sext_32(SIG[k]) * 2^14, ENER[c][b]))`. -/
def normalised (x : Int) (e : Nat) : Int := sat16 (tdiv (x * 16384) e)

/-- BE_NORMALISE (R174).  Its BAD_OPERAND is raised before any NORM element is written, and R270 still calls the NORM
elements of the covered bands unspecified after it (assumption 9). -/
def execBeNormalise (s : State) : Host.Outcome State Fault Refusal :=
  perform .beNormalise s.coveredNormBytes (do
    beReq s
    check (s.channelBands.all (fun p => decide (s.mem.ener p.1 p.2 ≠ 0))) .badOperand
    let new := s.channelBands.flatMap (fun p =>
      (s.bandIndices p.1 p.2).map (fun k => (k, normalised (s.mem.sig k) (s.mem.ener p.1 p.2))))
    .ok { s with mem := s.mem.setNorms new }) s

/-- The new SIG element of R175: `sat32((sext_16(NORM[k]) * ENER[c][b]) >> 14)`. -/
def denormalised (x : Int) (e : Nat) : Int := sat32 (asr (x * e) 14)

/-- The SIG indices R175 sets to 0: bins `BAND[NB] .. L - 1` of every channel. -/
def State.zeroFilled (s : State) : List Nat :=
  (List.range s.channels).flatMap (fun c =>
    (List.range' (s.mem.band s.nbands) (s.frameLen - s.mem.band s.nbands)).map (fun j => j * s.channels + c))

/-- BE_DENORMALISE (R175). -/
def execBeDenormalise (s : State) : Host.Outcome State Fault Refusal :=
  perform .beDenormalise s.coveredSigBytes (do
    beReq s
    let scaled := s.channelBands.flatMap (fun p =>
      (s.bandIndices p.1 p.2).map (fun k => (k, denormalised (s.mem.norm k) (s.mem.ener p.1 p.2))))
    .ok { s with mem := s.mem.setSigs (scaled ++ s.zeroFilled.map (fun k => (k, 0))) }) s

/-- The sum of the squares of these NORM elements. -/
def Memory.normSquares (m : Memory) (ks : List Nat) : Nat :=
  (ks.map (fun k => (m.norm k).natAbs * (m.norm k).natAbs)).sum

/-- `renorm_vec(K)` (R176): the new values of the NORM elements `K`. -/
def Memory.renormVec (m : Memory) (ks : List Nat) : List (Nat × Int) :=
  ks.map (fun k => (k, sat16 (tdiv (m.norm k * 16384) (isqrt (1 + m.normSquares ks)))))

/-- BE_RENORM_ALL (R177). -/
def execBeRenormAll (s : State) : Host.Outcome State Fault Refusal :=
  perform .beRenormAll s.coveredNormBytes (do
    beReq s
    let new := s.channelBands.flatMap (fun p => s.mem.renormVec (s.bandIndices p.1 p.2))
    .ok { s with mem := s.mem.setNorms new }) s

/-- The channels of a mask (R178): `c < C` with `mask[c] = 1`. -/
def State.maskedChannels (s : State) (mask : Byte) : List Nat :=
  (List.range s.channels).filter (fun c => fieldBit mask c)

/-- BE_RENORM_BAND (R178). -/
def execBeRenormBand (band mask : Byte) (s : State) : Host.Outcome State Fault Refusal :=
  perform (.beRenormBand band mask) (s.bandNormBytes band.toNat) (do
    beReq s
    check (decide (band.toNat < s.nbands) && decide (lowTwoBits mask ≠ 0) &&
      !(decide (s.channels = 1) && fieldBit mask 1)) .badOperand
    let new := (s.maskedChannels mask).flatMap (fun c => s.mem.renormVec (s.bandIndices c band.toNat))
    .ok { s with mem := s.mem.setNorms new }) s

end Sys2Proof.Machine
end

