-- ==== Sys2Proof/Machine/Coder.lean ====
section
/-! DEFINITION. The range coder's shared algorithms (spec/40_range_coder.md R111 to R117, R130 to R135, R140).  They act
on the coder's registers and the memory only, so what they leave alone shows in their types. -/

namespace Sys2Proof.Machine

/-- What a coder algorithm works on: the coder's registers and the memory. -/
structure Rc where
  coder : Coder
  mem : Memory
  deriving DecidableEq, Repr

/-- The coder's registers and the memory of a state. -/
def State.rcView (s : State) : Rc := { coder := s.regs.rc, mem := s.mem }

/-- The state with these coder registers and this memory. -/
def State.putRc (s : State) (x : Rc) : State := { s with regs := { s.regs with rc := x.coder }, mem := x.mem }

/-- RC_NBITS_TOTAL after counting up to `n`.  The register has 32 bits and the spec states no result for a sum that does
not fit: that value is free (assumption 5). -/
def bitCount (n : Nat) : Word := if n < 2 ^ 32 then BitVec.ofNat 32 n else Config.bitCountOverflow n

/-! ### Encoder (R111 to R117) -/

/-- `write_front(v)` (R111). -/
def writeFront (hw : Params) (v : Nat) (x : Rc) : Run Rc :=
  let o := x.coder.offs.toNat
  let e := x.coder.endOffs.toNat
  if x.coder.storage.toNat ≤ o + e then .error (.raised .bufOvf)
  else if hw.fbufBytes ≤ o then .error (.undefined .noElement)
  else .ok { coder := { x.coder with offs := regNat (o + 1) },
             mem := x.mem.setByte (fbufAddr o) (BitVec.ofNat 8 v) }

/-- `write_end(v)` (R111). -/
def writeEnd (hw : Params) (v : Nat) (x : Rc) : Run Rc :=
  let o := x.coder.offs.toNat
  let e := x.coder.endOffs.toNat
  let at_ := x.coder.storage.toNat - (e + 1)
  if x.coder.storage.toNat ≤ o + e then .error (.raised .bufOvf)
  else if hw.fbufBytes ≤ at_ then .error (.undefined .noElement)
  else .ok { coder := { x.coder with endOffs := regNat (e + 1) },
             mem := x.mem.setByte (fbufAddr at_) (BitVec.ofNat 8 v) }

/-- `while RC_EXT > 0` of R112: write the run of buffered 0xFF bytes as `v`, counting RC_EXT down from the first
argument. -/
def flushRun (hw : Params) (v : Nat) : Nat → Rc → Run Rc
  | 0, x => .ok x
  | n + 1, x => do
    let y ← writeFront hw v x
    flushRun hw v n { y with coder := { y.coder with ext := regNat n } }

/-- `carry_out(c)` (R112). -/
def carryOut (hw : Params) (c : Nat) (x : Rc) : Run Rc :=
  if c = Config.symMax then
    if x.coder.ext.toNat = 2 ^ hw.extBits - 1 then .error (.raised .carryOvf)
    else .ok { x with coder := { x.coder with ext := regNat (x.coder.ext.toNat + 1) } }
  else do
    let carry := c / 256
    let y ← if x.coder.remValid then writeFront hw ((x.coder.rem.toNat + carry) % 256) x else .ok x
    let z ← flushRun hw ((Config.symMax + carry) % 256) y.coder.ext.toNat y
    .ok { z with coder := { z.coder with rem := BitVec.ofNat 8 c, remValid := true } }

/-- The registers after one pass of the loop of R113, its symbol already out. -/
def encShift (c : Coder) : Coder :=
  { c with val := regNat (c.val.toNat * 256 % Config.top), rng := regNat (c.rng.toNat * 256)
           nbitsTotal := bitCount (c.nbitsTotal.toNat + 8) }

/-- `enc_normalize()` (R113), at most `n` passes: from a non-zero RC_RNG three suffice. -/
def encNormalizeLoop (hw : Params) : Nat → Rc → Run Rc
  | 0, x => if x.coder.rng.toNat ≤ Config.bot then .error (.undefined .endless) else .ok x
  | n + 1, x =>
    if x.coder.rng.toNat ≤ Config.bot then do
      let y ← carryOut hw (x.coder.val.toNat / 2 ^ 23) x
      encNormalizeLoop hw n { y with coder := encShift y.coder }
    else .ok x

/-- `enc_normalize()` (R113). -/
def encNormalize (hw : Params) (x : Rc) : Run Rc := encNormalizeLoop hw 3 x

/-- The interval narrowing of `rc_encode(fl, fh, ft)` (R115), before renormalization. -/
def encNarrow (fl fh ft : Nat) (c : Coder) : Coder :=
  let r := c.rng.toNat / ft
  if 0 < fl then
    { c with val := regInt (c.val.toNat + c.rng.toNat - r * (ft - fl)), rng := regNat (r * (fh - fl)) }
  else
    { c with rng := regInt (c.rng.toNat - r * (ft - fh)) }

/-- `rc_encode(fl, fh, ft)` (R115). -/
def rcEncode (hw : Params) (fl fh ft : Nat) (x : Rc) : Run Rc :=
  encNormalize hw { x with coder := encNarrow fl fh ft x.coder }

/-- Write `k` whole bytes of a raw-bit window `w`, low byte first (the loops of R116 and R117). -/
def drainWindow (hw : Params) : Nat → Nat → Rc → Run Rc
  | 0, _, x => .ok x
  | k + 1, w, x => do
    let y ← writeEnd hw (w % 256) x
    drainWindow hw k (w / 256) y

/-- `rc_enc_bits(v, n)` (R116).  The loop of the rule writes `u // 8` bytes: all the whole bytes of the window. -/
def rcEncBits (hw : Params) (v n : Nat) (x : Rc) : Run Rc := do
  let w := x.coder.endWin.toNat
  let u := x.coder.nendBits.toNat
  let k := if 32 < u + n then u / 8 else 0
  let y ← drainWindow hw k w x
  let w' := w / 256 ^ k
  let u' := u - 8 * k
  .ok { y with coder := { y.coder with
          endWin := regNat (w' ||| (v * 2 ^ u')), nendBits := regNat (u' + n)
          nbitsTotal := bitCount (x.coder.nbitsTotal.toNat + n) } }

/-- The first loop of R117: `k` symbols of the final code value `e`. -/
def emitCode (hw : Params) : Nat → Nat → Rc → Run Rc
  | 0, _, x => .ok x
  | k + 1, e, x => do
    let y ← carryOut hw (e / 2 ^ 23) x
    emitCode hw k (e * 256 % Config.top) y

/-- `(v + msk) & ~msk`, `~` within 32 bits (R117). -/
def roundUpTo (v msk : Nat) : Nat := (v + msk) &&& (4294967295 - msk)

/-- The bit count `l` and code value `end` of R117: the fewest bits that disambiguate the final interval. -/
def finalCode (c : Coder) : Nat × Nat :=
  let l := 32 - ilog c.rng.toNat
  let msk := (Config.top - 1) / 2 ^ l
  let e := roundUpTo c.val.toNat msk
  if c.val.toNat + c.rng.toNat ≤ (e ||| msk) then
    (l + 1, roundUpTo c.val.toNat (msk / 2))
  else (l, e)

/-- `FBUF[i] <- 0` for `i in RC_OFFS .. RC_STORAGE - RC_END_OFFS - 1` (R117). -/
def zeroGap (hw : Params) (x : Rc) : Run Rc :=
  let o := x.coder.offs.toNat
  let stop := x.coder.storage.toNat - x.coder.endOffs.toNat
  if hw.fbufBytes < stop then .error (.undefined .noElement)
  else .ok { x with mem := (List.range' o (stop - o)).foldl (fun m i => m.setByte (fbufAddr i) 0#8) x.mem }

/-- The last fewer-than-8 raw bits `w`, ORed into the byte before the end part (R117); `spare` is the number of unused
low bits of the last front byte. -/
def orLastBits (hw : Params) (w u spare : Nat) (x : Rc) : Run Rc :=
  let o := x.coder.offs.toNat
  let e := x.coder.endOffs.toNat
  let st := x.coder.storage.toNat
  if u = 0 then .ok x
  else if st ≤ e then .error (.raised .bufOvf)
  else if st ≤ o + e ∧ spare < u then .error (.raised .bufOvf)
  else if hw.fbufBytes ≤ st - e - 1 then .error (.undefined .noElement)
  else .ok { x with mem := x.mem.setByte (fbufAddr (st - e - 1))
                             (x.mem.byte (fbufAddr (st - e - 1)) ||| BitVec.ofNat 8 w) }

/-- `carry_out(0)` when a byte or a 0xFF run is buffered, which flushes both (R117). -/
def flushPending (hw : Params) (x : Rc) : Run Rc :=
  if x.coder.remValid || decide (0 < x.coder.ext.toNat) then carryOut hw 0 x else .ok x

/-- `done()` (R117), its checks already passed. -/
def rcEncDone (hw : Params) (x : Rc) : Run Rc := do
  let l := (finalCode x.coder).1
  let k := (l + 7) / 8
  let y ← emitCode hw k (finalCode x.coder).2 x
  let z ← flushPending hw y
  let w := z.coder.endWin.toNat
  let u := z.coder.nendBits.toNat
  let d ← drainWindow hw (u / 8) w z
  let g ← zeroGap hw d
  let w' := w / 256 ^ (u / 8)
  let f ← orLastBits hw w' (u % 8) (8 * k - l) g
  .ok { f with coder := { f.coder with endWin := regNat w', nendBits := regNat (u % 8), fin := true } }

/-- The coder registers `rc_enc_init(storage)` leaves (R114). -/
def encInitCoder (storage : Nat) : Coder :=
  { Coder.reset with
    storage := regNat storage, rng := regNat Config.top, nbitsTotal := 33#32
    inited := true, dir := .encode, fin := false, dpend := false }

/-! ### Decoder (R130 to R135) -/

/-- `read_front()` (R130). -/
def readFront (hw : Params) (x : Rc) : Run (Nat × Coder) :=
  let o := x.coder.offs.toNat
  if o < x.coder.storage.toNat then
    if hw.fbufBytes ≤ o then .error (.undefined .noElement)
    else .ok (x.mem.fbuf o, { x.coder with offs := regNat (o + 1) })
  else .ok (0, x.coder)

/-- `read_end()` (R130). -/
def readEnd (hw : Params) (x : Rc) : Run (Nat × Coder) :=
  let e := x.coder.endOffs.toNat
  let st := x.coder.storage.toNat
  if e < st then
    if hw.fbufBytes ≤ st - (e + 1) then .error (.undefined .noElement)
    else .ok (x.mem.fbuf (st - (e + 1)), { x.coder with endOffs := regNat (e + 1) })
  else .ok (0, x.coder)

/-- The registers after one pass of the loop of R131, `b` being the byte it read and `c` the registers after the
read. -/
def decShift (b : Nat) (c : Coder) : Coder :=
  let sym := ((c.rem.toNat * 256) ||| b) / 2
  { c with
    nbitsTotal := bitCount (c.nbitsTotal.toNat + 8), rng := regNat (c.rng.toNat * 256), rem := BitVec.ofNat 8 b
    val := regNat ((c.val.toNat * 256 + (Config.symMax - sym % 256)) % Config.top) }

/-- `dec_normalize()` (R131), at most `n` passes: from a non-zero RC_RNG three suffice. -/
def decNormalizeLoop (hw : Params) : Nat → Rc → Run Rc
  | 0, x => if x.coder.rng.toNat ≤ Config.bot then .error (.undefined .endless) else .ok x
  | n + 1, x =>
    if x.coder.rng.toNat ≤ Config.bot then do
      let r ← readFront hw x
      decNormalizeLoop hw n { x with coder := decShift r.1 r.2 }
    else .ok x

/-- `dec_normalize()` (R131). -/
def decNormalize (hw : Params) (x : Rc) : Run Rc := decNormalizeLoop hw 3 x

/-- The coder registers of R132 before its first read. -/
def decInitCoder (storage : Nat) : Coder :=
  { Coder.reset with
    storage := regNat storage, rng := 128#32, nbitsTotal := 9#32
    inited := true, dir := .decode, fin := false, dpend := false }

/-- `init(buffer)` of the decoder (R132), its check already passed. -/
def rcDecInit (hw : Params) (storage : Nat) (m : Memory) : Run Rc := do
  let r ← readFront hw { coder := decInitCoder storage, mem := m }
  decNormalize hw { coder := { r.2 with rem := BitVec.ofNat 8 r.1, remValid := true
                                        val := regNat (127 - r.1 / 2) }, mem := m }

/-- `rc_decode(ft)` (R133): the value `fs` and the registers with the pending record. -/
def rcDecode (ft : Nat) (c : Coder) : Run (Nat × Coder) :=
  let q := c.rng.toNat / ft
  if q = 0 then .error (.undefined .noResult)
  else
    let fs := ft - min (c.val.toNat / q + 1) ft
    .ok (fs, { c with dq := regNat q, dft := regNat ft, dfs := regNat fs, dpend := true })

/-- The interval step of `rc_update(fl, fh, ft)` (R134), before renormalization. -/
def decNarrow (fl fh ft : Nat) (c : Coder) : Coder :=
  let t := c.dq.toNat * (ft - fh)
  { c with
    val := regInt (c.val.toNat - t)
    rng := if 0 < fl then regNat (c.dq.toNat * (fh - fl)) else regInt (c.rng.toNat - t)
    dpend := false }

/-- `rc_update(fl, fh, ft)` (R134). -/
def rcUpdate (hw : Params) (fl fh ft : Nat) (x : Rc) : Run Rc :=
  decNormalize hw { x with coder := decNarrow fl fh ft x.coder }

/-- The refill loop of R135: `k` bytes from the end onto the window `w` of `a` bits. -/
def refillWindow (hw : Params) : Nat → Nat → Nat → Rc → Run (Nat × Coder)
  | 0, w, _, x => .ok (w, x.coder)
  | k + 1, w, a, x => do
    let r ← readEnd hw x
    refillWindow hw k (w ||| (r.1 * 2 ^ a)) (a + 8) { x with coder := r.2 }

/-- `rc_dec_bits(n)` (R135): the bits and the registers.  From `a < n` bits the loop of the rule reads
`(24 - a) // 8 + 1` bytes: until the window holds more than 24 bits. -/
def rcDecBits (hw : Params) (n : Nat) (x : Rc) : Run (Nat × Coder) := do
  let a := x.coder.nendBits.toNat
  let k := if a < n then (24 - a) / 8 + 1 else 0
  let r ← refillWindow hw k x.coder.endWin.toNat a x
  .ok (r.1 % 2 ^ n,
       { r.2 with endWin := regNat (r.1 / 2 ^ n), nendBits := regNat (a + 8 * k - n)
                  nbitsTotal := bitCount (r.2.nbitsTotal.toNat + n) })

/-! ### Tell (R140) -/

/-- The refinement loop of R140: `g` squarings of `r`, each giving one more bit of `l`. -/
def tellLoop : Nat → Nat → Nat → Nat
  | 0, _, l => l
  | g + 1, r, l =>
    let r2 := r * r / 2 ^ 15
    let bit := r2 / 2 ^ 16
    tellLoop g (r2 / 2 ^ bit) (2 * l + bit)

/-- `tell(g)` (R140) from RC_NBITS_TOTAL and RC_RNG. -/
def tell (g : Nat) (c : Coder) : Int :=
  let l := ilog c.rng.toNat
  ((c.nbitsTotal.toNat * 2 ^ g : Nat) : Int) - (tellLoop g (c.rng.toNat / 2 ^ (l - 16)) l : Nat)

end Sys2Proof.Machine
end

