-- ==== Sys2Proof/Machine/RangeCoder.lean ====
section
/-! DEFINITION. The range coder commands (spec/40_range_coder.md R114 to R117, R132 to R135, R141), one meaning each. -/

namespace Sys2Proof.Machine

/-- RC_ENC_INIT (R114). -/
def execRcEncInit (s : State) : Host.Outcome State Fault Refusal :=
  perform .rcEncInit s.frameBytes (do
    check (decide (s.arg0 ≤ s.hw.fbufBytes)) .badOperand
    .ok (s.putRc { coder := encInitCoder s.arg0, mem := s.mem })) s

/-- RC_ENCODE (R115). -/
def execRcEncode (s : State) : Host.Outcome State Fault Refusal :=
  perform .rcEncode s.frameBytes (do
    rcReq s.regs.rc .encode false
    check (decide (1 ≤ s.arg2) && decide (s.arg2 ≤ Config.ftMax) && decide (s.arg0 < s.arg1) &&
      decide (s.arg1 ≤ s.arg2)) .badOperand
    let x ← rcEncode s.hw s.arg0 s.arg1 s.arg2 s.rcView
    .ok (s.putRc x)) s

/-- RC_ENC_BITS (R116). -/
def execRcEncBits (nbits : Byte) (s : State) : Host.Outcome State Fault Refusal :=
  perform (.rcEncBits nbits) s.frameBytes (do
    rcReq s.regs.rc .encode false
    check (decide (1 ≤ nbits.toNat) && decide (nbits.toNat ≤ Config.rawMax) &&
      decide (s.arg0 < 2 ^ nbits.toNat)) .badOperand
    let x ← rcEncBits s.hw s.arg0 nbits.toNat s.rcView
    .ok (s.putRc x)) s

/-- RC_ENC_DONE (R117). -/
def execRcEncDone (s : State) : Host.Outcome State Fault Refusal :=
  perform .rcEncDone s.frameBytes (do
    rcReq s.regs.rc .encode false
    let x ← rcEncDone s.hw s.rcView
    .ok (s.putRc x)) s

/-- RC_TELL (R141).  The shift of R140 by `l - 16` has no result when `l < 16`, which R34 excludes. -/
def execRcTell (g : Byte) (s : State) : Host.Outcome State Fault Refusal :=
  perform (.rcTell g) s.frameBytes (do
    check s.regs.rc.inited .rcState
    check (decide (g.toNat ≤ Config.granMax)) .badOperand
    if ilog s.regs.rc.rng.toNat < 16 then .error (.undefined .noResult)
    else .ok { s with regs := { s.regs with res0 := regInt (tell g.toNat s.regs.rc) } }) s

/-- RC_DEC_INIT (R132). -/
def execRcDecInit (s : State) : Host.Outcome State Fault Refusal :=
  perform .rcDecInit s.frameBytes (do
    check (decide (s.arg0 ≤ s.hw.fbufBytes)) .badOperand
    let x ← rcDecInit s.hw s.arg0 s.mem
    .ok (s.putRc x)) s

/-- RC_DECODE (R133). -/
def execRcDecode (s : State) : Host.Outcome State Fault Refusal :=
  perform .rcDecode s.frameBytes (do
    rcReq s.regs.rc .decode false
    check (decide (1 ≤ s.arg2) && decide (s.arg2 ≤ Config.ftMax)) .badOperand
    let r ← rcDecode s.arg2 s.regs.rc
    .ok { s with regs := { s.regs with rc := r.2, res0 := regNat r.1 } }) s

/-- RC_DEC_UPDATE (R134). -/
def execRcDecUpdate (s : State) : Host.Outcome State Fault Refusal :=
  perform .rcDecUpdate s.frameBytes (do
    rcReq s.regs.rc .decode false
    check (s.regs.rc.dpend && decide (s.regs.arg2 = s.regs.rc.dft)) .rcState
    check (decide (s.arg0 < s.arg1) && decide (s.arg1 ≤ s.arg2)) .badOperand
    check (decide (s.arg0 ≤ s.regs.rc.dfs.toNat) && decide (s.regs.rc.dfs.toNat < s.arg1)) .rcSymbol
    let x ← rcUpdate s.hw s.arg0 s.arg1 s.arg2 s.rcView
    .ok (s.putRc x)) s

/-- RC_DEC_BITS (R135). -/
def execRcDecBits (nbits : Byte) (s : State) : Host.Outcome State Fault Refusal :=
  perform (.rcDecBits nbits) s.frameBytes (do
    rcReq s.regs.rc .decode false
    check (decide (1 ≤ nbits.toNat) && decide (nbits.toNat ≤ Config.rawMax)) .badOperand
    let r ← rcDecBits s.hw nbits.toNat s.rcView
    .ok { s with regs := { s.regs with rc := r.2, res0 := regNat r.1 } }) s

end Sys2Proof.Machine
end

