-- ==== Sys2Proof/Machine/Trig.lean ====
section
/-! DEFINITION. The angle functions of the stereo unit (spec/42_stereo.md R206 to R210), on integers alone. -/

namespace Sys2Proof.Machine

/-- `bcos(x)` for `x` in `0 .. 16384` (R206). -/
def bcos (x : Nat) : Int :=
  let tmp : Int := min 32767 (asr (4096 + x * x) 13)
  let x2 : Int := (32767 - tmp) + fracMul16 tmp (-7651 + fracMul16 tmp (8277 + fracMul16 (-626) tmp))
  1 + min x2 32766

/-- `s * bcos(t) - m * bcos(16384 - t)`, whose absolute value R207 minimises; it is non-increasing in `t`. -/
def angleGap (s m t : Nat) : Int := s * bcos t - m * bcos (16384 - t)

/-- The smallest `t` in `lo .. lo + 2^k - 1` with `angleGap s m t <= v`, or `lo + 2^k - 1` if there is none: binary
search over a non-increasing function, which R207 allows. -/
def angleSearch (s m : Nat) (v : Int) : Nat → Nat → Nat
  | 0, lo => lo
  | k + 1, lo =>
    if angleGap s m (lo + 2 ^ k - 1) ≤ v then angleSearch s m v k lo else angleSearch s m v k (lo + 2 ^ k)

/-- The smallest `t` in `0 .. 16384` with `angleGap s m t <= v`, or 16384 if there is none. -/
def angleFirst (s m : Nat) (v : Int) : Nat :=
  if angleGap s m 16383 ≤ v then angleSearch s m v 14 0 else 16384

/-- The reference ANGLE_FN (R207): the smallest `t` that minimises `|angleGap s m t|`.  `z` is where the gap first is
not positive; the least absolute value is there or, on the plateau of smallest positive gap, just before it. -/
def angleReference (s m : Nat) : Nat :=
  if s = 0 then 0
  else if m = 0 then Config.thetaMax
  else
    let z := angleFirst s m 0
    if z = 0 then 0
    else if 0 < angleGap s m z then angleFirst s m (angleGap s m z)
    else if angleGap s m (z - 1) ≤ -angleGap s m z then angleFirst s m (angleGap s m (z - 1))
    else z

/-- The largest of `f 0 .. f n`. -/
def maxUpTo (f : Nat → Nat) : Nat → Nat
  | 0 => f 0
  | n + 1 => max (f (n + 1)) (maxUpTo f n)

/-- The largest magnitude a band can have (R205). -/
def magnitudeMax : Nat := 524288

/-- A free ANGLE_FN (assumption 2): the least function with the three properties of R207 that is above
`Config.angleRaw k` on `1 <= s`, `1 <= m <= 2^19`.  Every function R207 allows agrees, on the magnitudes of R205, with
one of these. -/
def angleOther (k s m : Nat) : Nat :=
  if s = 0 then 0
  else if m = 0 then Config.thetaMax
  else if magnitudeMax < m then 0
  else maxUpTo (fun i => maxUpTo (fun j => min Config.thetaMax (Config.angleRaw k (1 + i) (m + j)))
        (magnitudeMax - m)) (s - 1)

/-- `ANGLE_FN(s, m)` (R207): the parameter of R9. -/
def angleFn (a : AngleSel) (s m : Nat) : Nat :=
  match a with
  | .reference => angleReference s m
  | .other k => angleOther k s m

/-- `quantize(itheta, qb)` (R208). -/
def quantize (itheta qb : Nat) : Nat := (itheta * 2 ^ qb + 8192) / 2 ^ 14

/-- `dequantize(tq, qb)` (R208). -/
def dequantize (tq qb : Nat) : Nat := tq * 2 ^ (14 - qb)

/-- `log2tan(isin, icos)` for arguments in `1 .. 32767` (R209). -/
def log2tan (isin icos : Nat) : Int :=
  let lc := ilog icos
  let ls := ilog isin
  let c : Int := (icos * 2 ^ (15 - lc) : Nat)
  let s : Int := (isin * 2 ^ (15 - ls) : Nat)
  ((ls : Int) - (lc : Int)) * 2048 + fracMul16 s (fracMul16 s (-2597) + 7932)
    - fracMul16 c (fracMul16 c (-2597) + 7932)

/-- The mid weight, side weight and bit-split delta. -/
structure Weights where
  mid : Int
  side : Int
  delta : Int
  deriving DecidableEq, Repr

/-- `TRIG(theta, N)` (R210): the edges are exact and use no trigonometry.  DEDUCED (assumption 15): the delta is R210's,
with no clamp to the range R36's table gives, which a band of 154 bins or more can leave. -/
def trig (theta n : Nat) : Weights :=
  if theta = 0 then { mid := 32767, side := 0, delta := -16384 }
  else if theta = 16384 then { mid := 0, side := 32767, delta := 16384 }
  else
    let im := bcos theta
    let is := bcos (16384 - theta)
    { mid := im, side := is, delta := fracMul16 (((n - 1) * 128 : Nat) : Int) (log2tan is.toNat im.toNat) }

end Sys2Proof.Machine
end

