-- ==== Sys2Proof/Machine/Stereo.lean ====
section
/-! DEFINITION. The stereo commands (spec/42_stereo.md R200 to R220), one meaning each.  In band `b`, bin `j`, channel 0
is `NORM[2j]` and channel 1 is `NORM[2j+1]`. -/

namespace Sys2Proof.Machine

/-- The mixing weights `(a1, a2)` of R201; `intensity` is mode 1. -/
def mixWeights (m : Memory) (b : Nat) (intensity : Bool) : Int × Int :=
  if intensity then
    let e0 := m.ener 0 b
    let e1 := m.ener 1 b
    let sh : Int := (zlog2 (max e0 e1) : Int) - 13
    let l := vshr e0 sh
    let r := vshr e1 sh
    let nrm : Int := Config.eps + isqrt (Config.eps + l.natAbs * l.natAbs + r.natAbs * r.natAbs)
    (tdiv (l * 16384) nrm, tdiv (r * 16384) nrm)
  else (Config.wMs, Config.wMs)

/-- The new pair of one bin (R203) from its two NORM elements. -/
def mixPair (w : Int × Int) (intensity inverse : Bool) (l r0 : Int) : Int × Int :=
  let d : Int := if inverse then -1 else 1
  let r : Int := if intensity && inverse then 0 else r0
  (sat16 (asr (w.1 * l) 14 + asr (d * w.2 * r) 14), sat16 (asr (w.1 * r) 14 - asr (d * w.2 * l) 14))

/-- For each bin `j` of a band, the writes of `NORM[2j]` and `NORM[2j+1]` that `f` makes of their values. -/
def Memory.mapPairs (m : Memory) (js : List Nat) (f : Int → Int → Int × Int) : List (Nat × Int) :=
  js.flatMap (fun j =>
    [ (2 * j, (f (m.norm (2 * j)) (m.norm (2 * j + 1))).1),
      (2 * j + 1, (f (m.norm (2 * j)) (m.norm (2 * j + 1))).2) ])

/-- ST_MIX (R203). -/
def execStMix (band sel : Byte) (s : State) : Host.Outcome State Fault Refusal :=
  perform (.stMix band sel) (s.bandNormBytes band.toNat) (do
    stReq s
    stBand s band.toNat
    let weights := mixWeights s.mem band.toNat (fieldBit sel 0)
    let new := s.mem.mapPairs (s.mem.bins band.toNat) (mixPair weights (fieldBit sel 0) (fieldBit sel 1))
    .ok { s with mem := s.mem.setNorms new }) s

/-- ST_QB (R211): `clamp(0, QB_MAX, tdiv(bits - 32, 16 * max(1, N - 1)))`. -/
def angleResolution (bits : Int) (n : Nat) : Int := clamp 0 Config.qbMax (tdiv (bits - 32) (16 * max 1 (n - 1) : Nat))

/-- ST_QB (R211). -/
def execStQb (band : Byte) (s : State) : Host.Outcome State Fault Refusal :=
  perform (.stQb band) [] (do
    stReq s
    stBand s band.toNat
    let qb := angleResolution s.arg0Signed (s.mem.width band.toNat)
    .ok { s with regs := { s.regs with res0 := regInt qb } }) s

/-- The band's mid (`c = 0`) or side (`c = 1`) magnitude (R205). -/
def Memory.magnitude (m : Memory) (b c : Nat) : Nat := isqrt (m.normSquares ((m.bins b).map (fun j => 2 * j + c)))

/-- `ST_THETA <- theta` and `TRIG(theta, N)` (R210, R212, R213); ST_DELTA is stored as 32-bit two's complement
(R210; assumption 15). -/
def setAngle (theta n : Nat) (st : Stereo) : Stereo :=
  { st with theta := regNat theta, imid := regInt (trig theta n).mid, iside := regInt (trig theta n).side
            delta := regInt (trig theta n).delta }

/-- ST_THETA_ENC (R212). -/
def execStThetaEnc (band qb : Byte) (s : State) : Host.Outcome State Fault Refusal :=
  perform (.stThetaEnc band qb) s.frameBytes (do
    stReq s
    rcReq s.regs.rc .encode false
    stBand s band.toNat
    check (decide (lowFourBits qb ≤ Config.qbMax)) .badOperand
    let q := lowFourBits qb
    let m := s.mem.magnitude band.toNat 0
    let sd := s.mem.magnitude band.toNat 1
    let tq := quantize (angleFn s.hw.angle sd m) q
    let x ← rcEncode s.hw tq (tq + 1) (2 ^ q + 1) s.rcView
    let st := setAngle (dequantize tq q) (s.mem.width band.toNat) s.regs.st
    let st' : Stereo := { st with magm := regNat m, mags := regNat sd }
    .ok { s with regs := { s.regs with rc := x.coder, res0 := regNat tq, st := st' }, mem := x.mem }) s

/-- ST_THETA_DEC (R213). -/
def execStThetaDec (band qb : Byte) (s : State) : Host.Outcome State Fault Refusal :=
  perform (.stThetaDec band qb) s.frameBytes (do
    stReq s
    rcReq s.regs.rc .decode false
    stBand s band.toNat
    check (decide (lowFourBits qb ≤ Config.qbMax)) .badOperand
    let q := lowFourBits qb
    let r ← rcDecode (2 ^ q + 1) s.regs.rc
    let x ← rcUpdate s.hw r.1 (r.1 + 1) (2 ^ q + 1) { coder := r.2, mem := s.mem }
    let st := setAngle (dequantize r.1 q) (s.mem.width band.toNat) s.regs.st
    .ok { s with regs := { s.regs with rc := x.coder, res0 := regNat r.1, st := st } }) s

/-- Whether ST_THETA is away from the two edge angles (R216, R218). -/
def Stereo.nonEdge (st : Stereo) : Bool := decide (st.theta.toNat ≠ 0) && decide (st.theta.toNat ≠ Config.thetaMax)

/-- `(mbits, sbits)` of R216. -/
def splitBits (bits : Int) (n : Nat) (st : Stereo) : Int × Int :=
  if n = 2 then
    let sb : Int := if st.nonEdge then 8 else 0
    (bits - sb, sb)
  else
    let mb := max 0 (min bits (tdiv (bits - st.delta.toInt) 2))
    (mb, bits - mb)

/-- ST_SPLIT (R216). -/
def execStSplit (band : Byte) (s : State) : Host.Outcome State Fault Refusal :=
  perform (.stSplit band) [] (do
    stReq s
    stBand s band.toNat
    let r := splitBits s.arg0Signed (s.mem.width band.toNat) s.regs.st
    .ok { s with regs := { s.regs with res0 := regInt r.1, res1 := regInt r.2 } }) s

/-- The Q15 rounding multiply of R217. -/
def scaled (v : Int) (w : Nat) : Int := sat16 (asr (v * w + 16384) 15)

/-- ST_SCALE (R217). -/
def execStScale (band : Byte) (s : State) : Host.Outcome State Fault Refusal :=
  perform (.stScale band) (s.bandNormBytes band.toNat) (do
    stReq s
    stBand s band.toNat
    let new := s.mem.mapPairs (s.mem.bins band.toNat)
      (fun x y => (scaled x s.regs.st.imid.toNat, scaled y s.regs.st.iside.toNat))
    .ok { s with mem := s.mem.setNorms new }) s

/-- The coded channel slot of R218: 1 when `ST_THETA > 8192`. -/
def Stereo.codedChannel (st : Stereo) : Nat := if 8192 < st.theta.toNat then 1 else 0

/-- The 2-coefficient sign of R218: whether the cross product of the coded vector and the other is negative. -/
def Memory.crossNegative (m : Memory) (j0 c : Nat) : Bool :=
  decide (m.norm (2 * j0 + c) * m.norm (2 * j0 + 3 - c) - m.norm (2 * j0 + 2 + c) * m.norm (2 * j0 + 1 - c) < 0)

/-- ST_SIGN2_ENC (R218). -/
def execStSign2Enc (band : Byte) (s : State) : Host.Outcome State Fault Refusal :=
  perform (.stSign2Enc band) s.frameBytes (do
    stReq s
    rcReq s.regs.rc .encode false
    stBand s band.toNat
    check (decide (s.mem.width band.toNat = 2)) .badOperand
    let c := s.regs.st.codedChannel
    let sign := s.regs.st.nonEdge && s.mem.crossNegative (s.mem.band band.toNat) c
    let x ← if s.regs.st.nonEdge then rcEncBits s.hw sign.toNat 1 s.rcView else .ok s.rcView
    let st : Stereo := { s.regs.st with sign := sign }
    .ok { s with regs := { s.regs with rc := x.coder, res0 := regNat c, st := st }, mem := x.mem }) s

/-- ST_SIGN2_DEC (R219). -/
def execStSign2Dec (band : Byte) (s : State) : Host.Outcome State Fault Refusal :=
  perform (.stSign2Dec band) s.frameBytes (do
    stReq s
    rcReq s.regs.rc .decode false
    stBand s band.toNat
    check (decide (s.mem.width band.toNat = 2)) .badOperand
    let r ← if s.regs.st.nonEdge then rcDecBits s.hw 1 s.rcView else .ok (0, s.regs.rc)
    let st : Stereo := { s.regs.st with sign := decide (r.1 = 1) }
    .ok { s with regs := { s.regs with rc := r.2, res0 := regNat s.regs.st.codedChannel, st := st } }) s

/-- The two writes of R220: the coded vector turned by +90 or -90 degrees. -/
def Memory.rebuilt (m : Memory) (j0 c : Nat) (sign : Bool) : List (Nat × Int) :=
  let sg : Int := if sign then -1 else 1
  [ (2 * j0 + 1 - c, sat16 (-sg * m.norm (2 * j0 + 2 + c))),
    (2 * j0 + 3 - c, sat16 (sg * m.norm (2 * j0 + c))) ]

/-- ST_SIGN2_REBUILD (R220). -/
def execStSign2Rebuild (band : Byte) (s : State) : Host.Outcome State Fault Refusal :=
  perform (.stSign2Rebuild band) (s.bandNormBytes band.toNat) (do
    stReq s
    stBand s band.toNat
    check (decide (s.mem.width band.toNat = 2)) .badOperand
    let new := s.mem.rebuilt (s.mem.band band.toNat) s.regs.st.codedChannel s.regs.st.sign
    .ok { s with mem := s.mem.setNorms new }) s

end Sys2Proof.Machine
end

