-- ==== Sys2Proof/Machine/System.lean ====
section
/-! DEFINITION. The system command (spec/43_system.md R250). -/

namespace Sys2Proof.Machine

/-- NOP (R250): nothing but completion. -/
def execNop (s : State) : Host.Outcome State Fault Refusal := perform .nop [] (.ok s) s

end Sys2Proof.Machine
end

