-- ==== Sys2Proof/Machine/Dispatch.lean ====
section
/-! DEFINITION. The meaning of each command: one arm per constructor. -/

namespace Sys2Proof.Machine

def exec (i : Instr) (s : State) : Host.Outcome State Fault Refusal :=
  match i with
  | .nop => Sys2Proof.Machine.execNop s
  | .rcEncInit => Sys2Proof.Machine.execRcEncInit s
  | .rcEncode => Sys2Proof.Machine.execRcEncode s
  | .rcEncBits nbits => Sys2Proof.Machine.execRcEncBits nbits s
  | .rcEncDone => Sys2Proof.Machine.execRcEncDone s
  | .rcTell g => Sys2Proof.Machine.execRcTell g s
  | .rcDecInit => Sys2Proof.Machine.execRcDecInit s
  | .rcDecode => Sys2Proof.Machine.execRcDecode s
  | .rcDecUpdate => Sys2Proof.Machine.execRcDecUpdate s
  | .rcDecBits nbits => Sys2Proof.Machine.execRcDecBits nbits s
  | .beCompute => Sys2Proof.Machine.execBeCompute s
  | .beNormalise => Sys2Proof.Machine.execBeNormalise s
  | .beDenormalise => Sys2Proof.Machine.execBeDenormalise s
  | .beRenormAll => Sys2Proof.Machine.execBeRenormAll s
  | .beRenormBand band mask => Sys2Proof.Machine.execBeRenormBand band mask s
  | .stMix band sel => Sys2Proof.Machine.execStMix band sel s
  | .stQb band => Sys2Proof.Machine.execStQb band s
  | .stThetaEnc band qb => Sys2Proof.Machine.execStThetaEnc band qb s
  | .stThetaDec band qb => Sys2Proof.Machine.execStThetaDec band qb s
  | .stSplit band => Sys2Proof.Machine.execStSplit band s
  | .stScale band => Sys2Proof.Machine.execStScale band s
  | .stSign2Enc band => Sys2Proof.Machine.execStSign2Enc band s
  | .stSign2Dec band => Sys2Proof.Machine.execStSign2Dec band s
  | .stSign2Rebuild band => Sys2Proof.Machine.execStSign2Rebuild band s

end Sys2Proof.Machine
end

