-- ==== Sys2Proof/Machine/Flags.lean ====
section
/-! DEFINITION. The flags and fields of STATUS, CTRL and RC_REM as the host reads them (spec/10_state.md R24, R25, R33;
spec/60_exceptions.md R261) and the IRQ output (R272). -/

namespace Sys2Proof.Machine

/-- One bit of a word. -/
def flagBit (b : Bool) (n : Nat) : Word := if b then 1#32 <<< n else 0#32

/-- The code of R261. -/
def FaultCode.code : FaultCode → Nat
  | .illegalCmd => 1
  | .mode => 2
  | .rcState => 3
  | .badOperand => 4
  | .rcSymbol => 5
  | .carryOvf => 6
  | .bufOvf => 7

/-- STATUS.FAULT_CODE: 0 while FAULT = 0 (R25). -/
def faultCodeOf (f : Option FaultCode) : Nat :=
  match f with
  | none => 0
  | some c => c.code

/-- STATUS.BUSY: 1 while `PHASE = BUSY(...)` (R25). -/
def State.busy (s : State) : Bool :=
  match s.phase with
  | .idle => false
  | .busy _ _ => true

/-- STATUS (R25); the reserved bits read 0 (R62). -/
def State.statusWord (s : State) : Word :=
  flagBit s.busy 0 ||| flagBit s.regs.done 1 ||| flagBit s.regs.fault.isSome 2 |||
  (BitVec.ofNat 32 (faultCodeOf s.regs.fault) <<< 8) |||
  flagBit s.regs.rc.inited 16 ||| flagBit (decide (s.regs.rc.dir = .decode)) 17 |||
  flagBit s.regs.rc.fin 18 ||| flagBit s.regs.rc.dpend 19

/-- CTRL (R24): SRST and the reserved bits read 0. -/
def State.ctrlWord (s : State) : Word := flagBit s.regs.irqEn 1

/-- RC_REM, zero-extended (R33, R62): REM_VALID over the byte. -/
def Coder.remWord (c : Coder) : Word := flagBit c.remValid 8 ||| c.rem.setWidth 32

/-- The IRQ output (R272): `x[CTRL].IRQ_EN and x[STATUS].DONE`. -/
def State.irq (s : State) : Bool := s.regs.irqEn && s.regs.done

end Sys2Proof.Machine
end

