-- ==== Sys2Proof/Machine/Port.lean ====
section
/-! DEFINITION. The host port: the address map and the effect of one host access (spec/20_memory.md R60 to R71), the soft
reset and the power-on reset (spec/70_reset_and_hazards.md R290 to R292). -/

namespace Sys2Proof.Machine

/-- The registers of the address map (R61). -/
inductive Reg where
  | id | ctrl | status | cmd | arg0 | arg1 | arg2 | res0 | res1 | faultCmd
  | cfgChannels | cfgNbands | cfgFrameLen
  | rcVal | rcRng | rcRem | rcExt | rcOffs | rcEndOffs | rcEndWin | rcNendBits | rcNbitsTotal | rcStorage
  | rcDq | rcDft | rcDfs
  | stTheta | stImid | stIside | stDelta | stMagm | stMags | stSign
  | hwcfg0 | hwcfg1
  deriving DecidableEq, Repr

/-- The offsets of the control, operand, result and mode descriptor registers (R61). -/
def controlMap : List (Nat × Reg) :=
  [ (0x0000, Reg.id), (0x0004, Reg.ctrl), (0x0008, Reg.status), (0x000C, Reg.cmd), (0x0010, Reg.arg0),
    (0x0014, Reg.arg1), (0x0018, Reg.arg2), (0x0020, Reg.res0), (0x0024, Reg.res1), (0x0028, Reg.faultCmd),
    (0x0030, Reg.cfgChannels), (0x0034, Reg.cfgNbands), (0x0038, Reg.cfgFrameLen) ]

/-- The offsets of the range coder registers (R61). -/
def coderMap : List (Nat × Reg) :=
  [ (0x0040, Reg.rcVal), (0x0044, Reg.rcRng), (0x0048, Reg.rcRem), (0x004C, Reg.rcExt), (0x0050, Reg.rcOffs),
    (0x0054, Reg.rcEndOffs), (0x0058, Reg.rcEndWin), (0x005C, Reg.rcNendBits), (0x0060, Reg.rcNbitsTotal),
    (0x0064, Reg.rcStorage), (0x0068, Reg.rcDq), (0x006C, Reg.rcDft), (0x0070, Reg.rcDfs) ]

/-- The offsets of the stereo and parameter registers (R61). -/
def stereoMap : List (Nat × Reg) :=
  [ (0x0080, Reg.stTheta), (0x0084, Reg.stImid), (0x0088, Reg.stIside), (0x008C, Reg.stDelta), (0x0090, Reg.stMagm),
    (0x0094, Reg.stMags), (0x0098, Reg.stSign), (0x00F8, Reg.hwcfg0), (0x00FC, Reg.hwcfg1) ]

/-- The register offsets (R61). -/
def regMap : List (Nat × Reg) := controlMap ++ coderMap ++ stereoMap

/-- What an aligned offset names (R61 to R67). -/
inductive Target where
  /-- A register. -/
  | reg (r : Reg)
  /-- `BAND[i]`. -/
  | band (i : Nat)
  /-- `ENER[c][b]`. -/
  | ener (c b : Nat)
  /-- FBUF window word `w`: bytes `FBUF[4w] .. FBUF[4w+3]`. -/
  | fbuf (w : Nat)
  /-- `SIG[k]`. -/
  | sig (k : Nat)
  /-- `NORM[k]`. -/
  | norm (k : Nat)
  /-- An unimplemented offset, or an element beyond a memory's implemented size (R62). -/
  | absent
  deriving DecidableEq, Repr

/-- The register at an offset, if there is one. -/
def regAt (a : Nat) : Target :=
  match regMap.find? (fun p => p.1 == a) with
  | some p => .reg p.2
  | none => .absent

/-- What the aligned offset `a` names (R61 to R67), for a block with these parameters. -/
def target (hw : Params) (a : Nat) : Target :=
  if a < 0x0400 then regAt a
  else if a < 0x0800 then
    let i := (a - 0x0400) / 4
    if i ≤ hw.nbandsMax then .band i else .absent
  else if a < 0x1000 then
    let e := (a - 0x0800) / 4
    if e % 256 < hw.nbandsMax then .ener (e / 256) (e % 256) else .absent
  else if a < 0x4000 then .absent
  else if a < 0x8000 then .fbuf ((a - 0x4000) / 4)
  else if a < 0xC000 then
    let k := (a - 0x8000) / 4
    if k < 2 * hw.frameMax then .sig k else .absent
  else
    let k := (a - 0xC000) / 4
    if k < 2 * hw.frameMax then .norm k else .absent

/-! ### Reads (R61 to R67): no side effect (R70) -/

/-- What reading a register returns (R22 to R36). -/
def readReg (s : State) : Reg → Word
  | .id => 0x43454C54#32
  | .ctrl => s.ctrlWord
  | .status => s.statusWord
  | .cmd => 0#32
  | .arg0 => s.regs.arg0
  | .arg1 => s.regs.arg1
  | .arg2 => s.regs.arg2
  | .res0 => s.regs.res0
  | .res1 => s.regs.res1
  | .faultCmd => s.regs.faultCmd
  | .cfgChannels => s.regs.cfgChannels
  | .cfgNbands => s.regs.cfgNbands
  | .cfgFrameLen => s.regs.cfgFrameLen
  | .rcVal => s.regs.rc.val
  | .rcRng => s.regs.rc.rng
  | .rcRem => s.regs.rc.remWord
  | .rcExt => s.regs.rc.ext
  | .rcOffs => s.regs.rc.offs
  | .rcEndOffs => s.regs.rc.endOffs
  | .rcEndWin => s.regs.rc.endWin
  | .rcNendBits => s.regs.rc.nendBits
  | .rcNbitsTotal => s.regs.rc.nbitsTotal
  | .rcStorage => s.regs.rc.storage
  | .rcDq => s.regs.rc.dq
  | .rcDft => s.regs.rc.dft
  | .rcDfs => s.regs.rc.dfs
  | .stTheta => s.regs.st.theta
  | .stImid => s.regs.st.imid
  | .stIside => s.regs.st.iside
  | .stDelta => s.regs.st.delta
  | .stMagm => s.regs.st.magm
  | .stMags => s.regs.st.mags
  | .stSign => flagBit s.regs.st.sign 0
  | .hwcfg0 => BitVec.ofNat 32 s.hw.fbufBytes
  | .hwcfg1 => BitVec.ofNat 32 (s.hw.nbandsMax + 2 ^ 8 * s.hw.extBits + 2 ^ 16 * s.hw.frameMax)

/-- A byte of the FBUF window: 0 at or above FBUF_BYTES (R65). -/
def fbufRead (s : State) (i : Nat) : Byte := if i < s.hw.fbufBytes then s.mem.byte (fbufAddr i) else 0#8

/-- What a legal read of a target returns (R62 to R67). -/
def readTarget (s : State) : Target → Word
  | .reg r => readReg s r
  | .band i => (s.mem.half (bandAddr i)).setWidth 32
  | .ener c b => s.mem.word (enerAddr c b)
  | .fbuf w => fbufRead s (4 * w + 3) ++ fbufRead s (4 * w + 2) ++ fbufRead s (4 * w + 1) ++ fbufRead s (4 * w)
  | .sig k => s.mem.word (sigAddr k)
  | .norm k => (s.mem.half (normAddr k)).signExtend 32
  | .absent => 0#32

/-! ### Writes -/

/-- SOFT RESET (R291): every register takes its reset value; every memory element keeps its own. -/
def softReset (s : State) : State := { s with regs := Regs.reset, phase := .idle }

/-- POWER-ON RESET (R290): every register takes its reset value, PHASE is idle, and no memory element has been written
since (R41). -/
def powerOnReset (s : State) : State :=
  { s with regs := Regs.reset, phase := .idle, mem := { power := s.mem.power + 1, cells := [] } }

/-- A write of CMD while PHASE is idle (R21, R26): the engine takes the word, unless STATUS.FAULT = 1 (R275). -/
def writeCmd (s : State) (v : Word) : State :=
  if s.regs.fault.isSome then s else { s with phase := .busy v 0, draws := s.draws + 1 }

/-- A write of CTRL (R24): bit 0 is the soft reset and the other bits are then ignored; else bit 1 is IRQ_EN. -/
def writeCtrl (s : State) (v : Word) : State :=
  if v.getLsbD 0 then softReset s else { s with regs := { s.regs with irqEn := v.getLsbD 1 } }

/-- A write of STATUS clears DONE if bit 1 of the written word is 1 (R25). -/
def writeStatus (s : State) (v : Word) : State :=
  if v.getLsbD 1 then { s with regs := { s.regs with done := false } } else s

/-- A legal write of a register (R61): a write to a read-only register is ignored (R62). -/
def writeReg (s : State) (v : Word) : Reg → State
  | .ctrl => writeCtrl s v
  | .status => writeStatus s v
  | .cmd => writeCmd s v
  | .arg0 => { s with regs := { s.regs with arg0 := v } }
  | .arg1 => { s with regs := { s.regs with arg1 := v } }
  | .arg2 => { s with regs := { s.regs with arg2 := v } }
  | .cfgChannels => { s with regs := { s.regs with cfgChannels := v } }
  | .cfgNbands => { s with regs := { s.regs with cfgNbands := v } }
  | .cfgFrameLen => { s with regs := { s.regs with cfgFrameLen := v } }
  | .id => s
  | .res0 => s
  | .res1 => s
  | .faultCmd => s
  | .rcVal => s
  | .rcRng => s
  | .rcRem => s
  | .rcExt => s
  | .rcOffs => s
  | .rcEndOffs => s
  | .rcEndWin => s
  | .rcNendBits => s
  | .rcNbitsTotal => s
  | .rcStorage => s
  | .rcDq => s
  | .rcDft => s
  | .rcDfs => s
  | .stTheta => s
  | .stImid => s
  | .stIside => s
  | .stDelta => s
  | .stMagm => s
  | .stMags => s
  | .stSign => s
  | .hwcfg0 => s
  | .hwcfg1 => s

/-- Store a byte of the FBUF window, ignored at or above FBUF_BYTES (R65). -/
def fbufWrite (hw : Params) (m : Memory) (i : Nat) (b : Byte) : Memory :=
  if i < hw.fbufBytes then m.setByte (fbufAddr i) b else m

/-- The four bytes of FBUF window word `w`, little-endian (R65). -/
def fbufWriteWord (hw : Params) (m : Memory) (w : Nat) (v : Word) : Memory :=
  fbufWrite hw (fbufWrite hw (fbufWrite hw (fbufWrite hw m (4 * w) (v.extractLsb' 0 8)) (4 * w + 1)
    (v.extractLsb' 8 8)) (4 * w + 2) (v.extractLsb' 16 8)) (4 * w + 3) (v.extractLsb' 24 8)

/-- A legal write of a target (R62 to R67). -/
def writeTarget (s : State) (v : Word) : Target → State
  | .reg r => writeReg s v r
  | .band i => { s with mem := s.mem.setHalf (bandAddr i) (v.extractLsb' 0 16) }
  | .ener c b => { s with mem := s.mem.setWord (enerAddr c b) v }
  | .fbuf w => { s with mem := fbufWriteWord s.hw s.mem w v }
  | .sig k => { s with mem := s.mem.setWord (sigAddr k) v }
  | .norm k => { s with mem := s.mem.setHalf (normAddr k) (v.extractLsb' 0 16) }
  | .absent => s

/-! ### One access -/

/-- The legal access (R69): 32 bits wide at a multiple of 4. -/
def legalAccess (addr : BitVec 16) (bytes : Nat) : Bool := decide (bytes = 4) && decide (addr.toNat % 4 = 0)

/-- The port answers the host. -/
def State.answer (s : State) (r : Reply) : State := { s with replies := r :: s.replies }

/-- While a command runs, one more STATUS read has been answered. -/
def State.countPoll (s : State) : State :=
  match s.phase with
  | .idle => s
  | .busy w n => { s with phase := .busy w (n + 1) }

/-- One host event takes effect (R60 to R71, R290); it is no longer in the port's list. -/
def serve (e : PortEvent) (s : State) : State :=
  match e with
  | .read addr bytes =>
    if legalAccess addr bytes then (s.answer (.data (readTarget s (target s.hw addr.toNat)))).countPoll
    else s.answer (.readError 0#32)
  | .write addr bytes v =>
    if legalAccess addr bytes then (writeTarget s v (target s.hw addr.toNat)).answer .written
    else s.answer .writeError
  | .powerOn => powerOnReset s

/-- A legal read of STATUS, the one access a running command does not hold (R71). -/
def isStatusRead (e : PortEvent) : Bool :=
  match e with
  | .read addr bytes => decide (bytes = 4) && decide (addr.toNat = 0x0008)
  | .write _ _ _ => false
  | .powerOn => false

/-- Whether the oldest event at the port takes effect before the engine's next step (R71, R73): always while PHASE is
idle; while a command runs, a power-on reset, or a STATUS read that comes before the command completes, which is when
the free value `Config.pollsBeforeDone` says (R310, U5; assumption 4). DESIGN CHOICE (assumption 6): a power-on reset
is ready at once only as the oldest event; one issued behind an access that R71 holds waits with it, since R71 and R290
say nothing of that case. -/
def portReady (s : State) (e : PortEvent) : Bool :=
  match s.phase with
  | .idle => true
  | .busy _ polls =>
    decide (e = .powerOn) || (isStatusRead e && decide (polls < Config.pollsBeforeDone s.draws))

end Sys2Proof.Machine
end

