-- ==== Sys2Proof/Machine/Step.lean ====
section
/-! DEFINITION. One step of the block: the host's next access takes effect, or the engine performs its command
(spec/10_state.md R20, R21; spec/20_memory.md R71, R73). -/

namespace Sys2Proof.Machine

/-- The engine's step (R21, R97): perform the command it holds; wait when it holds none (R293). -/
def engineStep (s : State) : Host.Outcome State Fault Refusal :=
  match s.phase with
  | .idle => .next s
  | .busy w _ =>
    match decode w with
    | .ok i => exec i s
    | .error _ => .next (illegalCommand w s)

/-- One step (R20, R21, R71, R73): the oldest event at the port takes effect if it may, else the engine acts.
DESIGN CHOICE (assumption 6): R71 and R290 do not say what becomes of an access that a running command already holds
when a power-on reset arrives. Here the access stays ahead of the reset in the port's list, so the command completes,
then the held access takes effect, then the reset. -/
def step (s : State) : Host.Outcome State Fault Refusal :=
  match s.port with
  | [] => engineStep s
  | e :: rest => if portReady s e then .next (serve e { s with port := rest }) else engineStep s

/-- The state in which the engine holds the command word and no host access comes first, so that the very next step
performs it (R21; assumption 10). -/
def State.withFetchWord (s : State) (nbits w : Nat) : State :=
  { s with phase := .busy (tableWord nbits w) 0, port := [] }

end Sys2Proof.Machine
end

