-- ==== Sys2Proof/Safety.lean ====
section
/-! DEFINITION. The terms claims are stated in: which states a run reaches (the invariants of spec/10_state.md R34 and
R35 and of the rules that derive them), which bytes a command may change, and what a safe step is. -/

namespace Sys2Proof.Machine

/-! ### Invariants of the coder -/

/-- R34, the range invariant, and R35, the interval invariants of the two directions. -/
abbrev Coder.intervalOk (c : Coder) : Prop :=
  c.inited = true →
    Config.bot < c.rng.toNat ∧ c.rng.toNat ≤ Config.top ∧
    (c.dir = .encode → c.val.toNat + c.rng.toNat ≤ 4294967295) ∧
    (c.dir = .decode → c.val.toNat < c.rng.toNat)

/-- The frame fits FBUF and the cursors stay inside it; the encoder's two parts do not meet (R72, R111, R114, R132). -/
abbrev Coder.frameOk (hw : Params) (c : Coder) : Prop :=
  c.storage.toNat ≤ hw.fbufBytes ∧ c.offs.toNat ≤ c.storage.toNat ∧ c.endOffs.toNat ≤ c.storage.toNat ∧
  (c.dir = .encode → c.offs.toNat + c.endOffs.toNat ≤ c.storage.toNat)

/-- RC_END_WIN holds RC_NEND_BITS bits, at most 32 (R33, R116, R135), and RC_EXT fits its width (R33). -/
abbrev Coder.windowOk (hw : Params) (c : Coder) : Prop :=
  c.nendBits.toNat ≤ 32 ∧ c.endWin.toNat < 2 ^ c.nendBits.toNat ∧ c.ext.toNat < 2 ^ hw.extBits

/-- A pending record is that of the current interval (R133), and only a decoder holds one; only an encoder is finished
(R117). -/
abbrev Coder.lifecycleOk (c : Coder) : Prop :=
  (c.dpend = true →
    c.inited = true ∧ c.dir = .decode ∧ 1 ≤ c.dft.toNat ∧ c.dft.toNat ≤ Config.ftMax ∧
    c.dq.toNat = c.rng.toNat / c.dft.toNat ∧
    c.dfs.toNat = c.dft.toNat - min (c.val.toNat / c.dq.toNat + 1) c.dft.toNat) ∧
  (c.fin = true → c.inited = true ∧ c.dir = .encode)

/-- The invariants of the coder together. -/
abbrev Coder.ok (hw : Params) (c : Coder) : Prop :=
  c.intervalOk ∧ c.frameOk hw ∧ c.windowOk hw ∧ c.lifecycleOk

/-- The stereo registers hold values in their stated ranges (R36).  ST_DELTA's range is that of the values R210 computes:
the largest are vector 4.3's for a band of width 256 at the angles 1 and 16383.  R36's table gives -16384 to 16384, which
R210 leaves for a band of 154 bins or more and for no narrower one (DEDUCED, assumption 15). -/
abbrev Stereo.ok (st : Stereo) : Prop :=
  st.theta.toNat ≤ Config.thetaMax ∧ st.imid.toNat ≤ 32767 ∧ st.iside.toNat ≤ 32767 ∧
  -27364 ≤ st.delta.toInt ∧ st.delta.toInt ≤ 27364

/-- The invariant every step keeps: legal parameters (R9), memory in canonical form, the coder's and the stereo
registers' invariants, and no command running while STATUS.FAULT = 1 (R275). -/
abbrev State.ok (s : State) : Prop :=
  s.hw.legal = true ∧ s.mem.wf = true ∧ s.regs.rc.ok s.hw ∧ s.regs.st.ok ∧
  (s.regs.fault ≠ none → s.phase = .idle)

/-! ### The memories -/

/-- The address is a byte of an element the block implements (R63 to R67). -/
def implemented (hw : Params) (a : Nat) : Bool :=
  (decide (0x0400 ≤ a) && decide (a < 0x0400 + 4 * (hw.nbandsMax + 1)) && decide (a % 4 < 2)) ||
  (decide (0x0800 ≤ a) && decide (a < 0x1000) && decide ((a - 0x0800) / 4 % 256 < hw.nbandsMax)) ||
  (decide (0x4000 ≤ a) && decide (a < 0x4000 + hw.fbufBytes)) ||
  (decide (0x8000 ≤ a) && decide (a < 0x8000 + 8 * hw.frameMax)) ||
  (decide (0xC000 ≤ a) && decide (a < 0xC000 + 8 * hw.frameMax) && decide (a % 4 < 2))

/-- Only bytes of implemented elements are listed (R72: no access leaves its memory). -/
abbrev State.memInside (s : State) : Prop := ∀ p ∈ s.mem.cells, implemented s.hw p.1 = true

/-- Every byte outside `touched` reads as before. -/
def Memory.sameBut (m m' : Memory) (touched : Nat → Prop) : Prop := ∀ a, ¬ touched a → m'.byte a = m.byte a

/-- No byte. -/
def noByte : Nat → Prop := fun _ => False

/-- The FBUF bytes `lo .. hi - 1`. -/
def frameRange (lo hi : Nat) : Nat → Prop := fun a => fbufAddr lo ≤ a ∧ a < fbufAddr hi

/-- The bytes of these NORM elements. -/
def normElems (ks : List Nat) : Nat → Prop := fun a => ∃ k ∈ ks, a = normAddr k ∨ a = normAddr k + 1

/-- The bytes of these SIG elements. -/
def sigElems (ks : List Nat) : Nat → Prop := fun a => ∃ k ∈ ks, sigAddr k ≤ a ∧ a ≤ sigAddr k + 3

/-- The bytes of these ENER elements. -/
def enerElems (ps : List (Nat × Nat)) : Nat → Prop :=
  fun a => ∃ p ∈ ps, enerAddr p.1 p.2 ≤ a ∧ a ≤ enerAddr p.1 p.2 + 3

/-! ### Commands -/

/-- The coder is ready for a command of this direction: `RC_REQ(dir, false)` passes (R110). -/
abbrev Coder.ready (c : Coder) (dir : Direction) : Prop :=
  c.inited = true ∧ c.dir = dir ∧ (dir = .encode → c.fin = false)

/-- The command completes from `s` with `t`'s registers and memory: DONE is set, PHASE is idle and nothing else of the
machine changes (R273). -/
def completesWith (i : Instr) (s : State) (regs : Regs) (mem : Memory) : Prop :=
  exec i s = .next { s with regs := { regs with done := true }, mem := mem, phase := .idle }

/-- The command faults from `s` with this code: STATUS.FAULT, FAULT_CODE, DONE and FAULT_CMD are written, every other
register keeps its value, and the memory bytes outside `touched` read as before (R270). -/
def faultsWith (i : Instr) (s : State) (c : FaultCode) (touched : Nat → Prop) : Prop :=
  ∃ m, exec i s = .next { s with
      regs := { s.regs with fault := some c, faultCmd := encode i, done := true }
      mem := m, phase := .idle, draws := s.draws + 1 } ∧
    s.mem.sameBut m touched

/-! ### What a command may write -/

/-- The NORM and SIG indices of every band in use, in every channel (R16). -/
def State.coveredIndices (s : State) : List Nat := s.channelBands.flatMap (fun p => s.bandIndices p.1 p.2)

/-- The NORM indices of one band, in every channel (R16). -/
def State.bandElements (s : State) (b : Nat) : List Nat := (List.range s.channels).flatMap (fun c => s.bandIndices c b)

/-- A stereo command may run on band `b`: the mode is valid, there are two channels and the band is in use (R200). -/
abbrev State.stereoBand (s : State) (b : Nat) : Prop := modeOk s = true ∧ s.channels = 2 ∧ b < s.nbands

/-! ### The coder's arithmetic, in the rules' own numbers -/

/-- The interval `(bottom, size)` that the symbol `[fl, fh)` of `ft` narrows `(low, rng)` to (R115). -/
def narrowed (low rng fl fh ft : Nat) : Nat × Nat :=
  if fl = 0 then (low, rng - rng / ft * (ft - fh))
  else (low + (rng - rng / ft * (ft - fl)), rng / ft * (fh - fl))

/-- How many output symbols the encoder has produced: bytes written at the front, the buffered byte, the 0xFF run
(R33). -/
def Coder.symbolsOut (c : Coder) : Nat := c.offs.toNat + c.remValid.toNat + c.ext.toNat

/-- There is room for `n` more symbols after the pending ones, in the frame and in the 0xFF run (R111, R112). -/
abbrev State.roomFor (s : State) (n : Nat) : Prop :=
  s.regs.rc.offs.toNat + s.regs.rc.endOffs.toNat + s.regs.rc.ext.toNat + n ≤ s.regs.rc.storage.toNat ∧
  s.regs.rc.ext.toNat + n < 2 ^ s.hw.extBits

/-- `encNormalize`'s first `k` symbols from the bottom `v` of the interval, oldest first (R113); R117 emits its code value
the same way. -/
def codeSymbols : Nat → Nat → List Nat
  | 0, _ => []
  | k + 1, v => v / 2 ^ 23 :: codeSymbols k (v * 256 % Config.top)

/-- Where the encoder's front part stands: RC_OFFS, RC_EXT and RC_REM.REM_VALID (R33). -/
structure Front where
  offs : Nat
  ext : Nat
  buffered : Bool
  deriving DecidableEq, Repr

/-- The front of a coder. -/
def Coder.front (c : Coder) : Front := { offs := c.offs.toNat, ext := c.ext.toNat, buffered := c.remValid }

/-- The front after these output symbols, or the fault the first of them that cannot be taken raises (R111, R112, R268,
R269): a 0xFF symbol lengthens the run, which holds at most `extMax`; any other writes the buffered byte and the run, and
the front cursor cannot pass `room`. -/
def Front.after (extMax room : Nat) : List Nat → Front → Except FaultCode Front
  | [], f => .ok f
  | c :: rest, f =>
    if c = 255 then
      if f.ext = extMax then .error .carryOvf
      else Front.after extMax room rest { f with ext := f.ext + 1 }
    else
      let n := f.offs + f.buffered.toNat + f.ext
      if room < n then .error .bufOvf
      else Front.after extMax room rest { offs := n, ext := 0, buffered := true }

/-- The front of the state's encoder after these output symbols, below the bytes the end part holds. -/
def State.frontAfter (s : State) (symbols : List Nat) : Except FaultCode Front :=
  Front.after (2 ^ s.hw.extBits - 1) (s.regs.rc.storage.toNat - s.regs.rc.endOffs.toNat) symbols s.regs.rc.front

/-- The loop of R113 and R131 makes `k` passes on an interval of this size: as many as bring it above `BOT`. -/
abbrev renormPasses (size k : Nat) : Prop :=
  Config.bot < size * 256 ^ k ∧ ∀ j, j < k → size * 256 ^ j ≤ Config.bot

/-- `c'` is the encoder `c` after narrowing to the interval `(low, size)` and `k` passes of renormalization (R113, R115):
`k` symbols are out and only the interval, the pending symbols, the front cursor and the bit counter change. -/
abbrev Coder.encoded (c c' : Coder) (low size k : Nat) : Prop :=
  renormPasses size k ∧
  c'.rng.toNat = size * 256 ^ k ∧
  c'.val.toNat = (if k = 0 then low else low * 256 ^ k % Config.top) ∧
  c'.symbolsOut = c.symbolsOut + k ∧
  (c.nbitsTotal.toNat + 8 * k < 2 ^ 32 → c'.nbitsTotal.toNat = c.nbitsTotal.toNat + 8 * k) ∧
  c' = { c with val := c'.val, rng := c'.rng, rem := c'.rem, remValid := c'.remValid, ext := c'.ext, offs := c'.offs
                nbitsTotal := c'.nbitsTotal }

/-- The next `k` front bytes of a frame as one number, most significant first; bytes past the frame are 0 (R118,
R130). -/
def Memory.frontBytes (m : Memory) (storage offs k : Nat) : Nat :=
  (List.range k).foldl (fun v i => v * 256 + (if offs + i < storage then m.fbuf (offs + i) else 0)) 0

/-- The next `k` end bytes of a frame as one number, least significant first; bytes past the frame are 0 (R118,
R130). -/
def Memory.endBytes (m : Memory) (storage offs k : Nat) : Nat :=
  ((List.range k).map (fun i => (if offs + i < storage then m.fbuf (storage - 1 - (offs + i)) else 0) * 256 ^ i)).sum

/-- `c'` is the decoder `c` after its interval became `size` and its distance `dist`, and `k` passes of renormalization
over the frame in `m` (R131, R134): only those, the front cursor, the bit counter and the pending record change. -/
abbrev Coder.decoded (c c' : Coder) (m : Memory) (dist size k : Nat) : Prop :=
  renormPasses size k ∧
  c'.rng.toNat = size * 256 ^ k ∧
  c'.val.toNat = dist * 256 ^ k +
    (256 ^ k - 1 - (c.rem.toNat * 256 ^ k + m.frontBytes c.storage.toNat c.offs.toNat k) / 2 % 256 ^ k) ∧
  c'.rem.toNat = (c.rem.toNat * 256 ^ k + m.frontBytes c.storage.toNat c.offs.toNat k) % 256 ∧
  c'.offs.toNat = min (c.offs.toNat + k) c.storage.toNat ∧
  (c.nbitsTotal.toNat + 8 * k < 2 ^ 32 → c'.nbitsTotal.toNat = c.nbitsTotal.toNat + 8 * k) ∧
  c' = { c with val := c'.val, rng := c'.rng, rem := c'.rem, offs := c'.offs, nbitsTotal := c'.nbitsTotal
                dq := c'.dq, dft := c'.dft, dfs := c'.dfs, dpend := c'.dpend }

/-- The number the encoder's front part stands for: the bytes written, then the buffered byte if there is one, then the
0xFF run, most significant first (R112, R118). -/
def Rc.produced (x : Rc) : Nat :=
  let written := x.mem.frontBytes x.coder.offs.toNat 0 x.coder.offs.toNat
  let buffered := if x.coder.remValid then written * 256 + x.coder.rem.toNat else written
  buffered * 256 ^ x.coder.ext.toNat + (256 ^ x.coder.ext.toNat - 1)

/-- No carry can reach a buffered byte of 255, or the missing byte before a 0xFF run: in those cases the interval stays
below bit 31 (R112). -/
abbrev Coder.carrySafe (c : Coder) : Prop :=
  (c.remValid = false ∨ c.rem.toNat = 255) → c.val.toNat + c.rng.toNat ≤ Config.top

/-- The block's encoder, if it holds one, is safe from a lost carry (R112). -/
abbrev State.carryOk (s : State) : Prop :=
  s.regs.rc.inited = true → s.regs.rc.dir = .encode → s.regs.rc.carrySafe

/-- From `s` to `t` the encoder coded the symbol `[fl, fh)` of `ft` and lost nothing (R112, R113, R115): with `P` the
number the produced symbols stand for, the bottom of the interval in the whole code value is `P * 2^31 + RC_VAL`, and it
moved to the bottom of the narrowed interval, exactly. -/
def State.codedExactly (s t : State) (fl fh ft : Nat) : Prop :=
  let v := narrowed s.regs.rc.val.toNat s.regs.rc.rng.toNat fl fh ft
  t.regs.rc.carrySafe ∧
  ∃ k ≤ 3, renormPasses v.2 k ∧ t.regs.rc.rng.toNat = v.2 * 256 ^ k ∧
    t.rcView.produced * 2 ^ 31 + t.regs.rc.val.toNat = (s.rcView.produced * 2 ^ 31 + v.1) * 256 ^ k ∧
    t.regs.rc.symbolsOut = s.regs.rc.symbolsOut + k

/-- R140's refinement of `(r, l)`: square, keep the top bit, and shift by it. -/
def tellStep (p : Nat × Nat) : Nat × Nat :=
  let r := p.1 * p.1 / 2 ^ 15
  let bit := r / 2 ^ 16
  (r / 2 ^ bit, 2 * p.2 + bit)

/-- `tell(0)` (R140). -/
def Coder.wholeBits (c : Coder) : Int := c.nbitsTotal.toNat - (ilog c.rng.toNat : Nat)

/-- The block goes on: the step answers a next state. -/
def steps (s : State) : Prop := ∃ t, step s = .next t

end Sys2Proof.Machine

namespace Sys2Proof

open Machine

/-! ### What a command is and may write -/

/-- The bytes a command may write when it completes: those of the elements its rule names (R72). -/
def Instr.writes (i : Instr) (s : State) : Nat → Prop :=
  match i with
  | .nop => noByte
  | .rcEncInit => noByte
  | .rcEncode => frameRange 0 s.regs.rc.storage.toNat
  | .rcEncBits _ => frameRange 0 s.regs.rc.storage.toNat
  | .rcEncDone => frameRange 0 s.regs.rc.storage.toNat
  | .rcTell _ => noByte
  | .rcDecInit => noByte
  | .rcDecode => noByte
  | .rcDecUpdate => noByte
  | .rcDecBits _ => noByte
  | .beCompute => enerElems s.channelBands
  | .beNormalise => normElems s.coveredIndices
  | .beDenormalise => sigElems (s.coveredIndices ++ s.zeroFilled)
  | .beRenormAll => normElems s.coveredIndices
  | .beRenormBand band _ => normElems (s.bandElements band.toNat)
  | .stMix band _ => normElems (s.bandElements band.toNat)
  | .stQb _ => noByte
  | .stThetaEnc _ _ => frameRange 0 s.regs.rc.storage.toNat
  | .stThetaDec _ _ => noByte
  | .stSplit _ => noByte
  | .stScale band => normElems (s.bandElements band.toNat)
  | .stSign2Enc _ => frameRange 0 s.regs.rc.storage.toNat
  | .stSign2Dec _ => noByte
  | .stSign2Rebuild band => normElems (s.bandElements band.toNat)

/-- The bytes a command may change, whether it completes or faults: `Instr.writes`, and the whole frame for a range coder
or coding stereo command, which a fault leaves unspecified (R72, R270; assumption 3). -/
def Instr.footprint (i : Instr) (s : State) : Nat → Prop :=
  match i with
  | .nop => Instr.writes .nop s
  | .rcEncInit => frameRange 0 s.regs.rc.storage.toNat
  | .rcEncode => frameRange 0 s.regs.rc.storage.toNat
  | .rcEncBits _ => frameRange 0 s.regs.rc.storage.toNat
  | .rcEncDone => frameRange 0 s.regs.rc.storage.toNat
  | .rcTell _ => frameRange 0 s.regs.rc.storage.toNat
  | .rcDecInit => frameRange 0 s.regs.rc.storage.toNat
  | .rcDecode => frameRange 0 s.regs.rc.storage.toNat
  | .rcDecUpdate => frameRange 0 s.regs.rc.storage.toNat
  | .rcDecBits _ => frameRange 0 s.regs.rc.storage.toNat
  | .beCompute => Instr.writes .beCompute s
  | .beNormalise => Instr.writes .beNormalise s
  | .beDenormalise => Instr.writes .beDenormalise s
  | .beRenormAll => Instr.writes .beRenormAll s
  | .beRenormBand band sel => Instr.writes (.beRenormBand band sel) s
  | .stMix band sel => Instr.writes (.stMix band sel) s
  | .stQb band => Instr.writes (.stQb band) s
  | .stThetaEnc _ _ => frameRange 0 s.regs.rc.storage.toNat
  | .stThetaDec _ _ => frameRange 0 s.regs.rc.storage.toNat
  | .stSplit band => Instr.writes (.stSplit band) s
  | .stScale band => Instr.writes (.stScale band) s
  | .stSign2Enc _ => frameRange 0 s.regs.rc.storage.toNat
  | .stSign2Dec _ => frameRange 0 s.regs.rc.storage.toNat
  | .stSign2Rebuild band => Instr.writes (.stSign2Rebuild band) s

/-- The direction the coder must have for a command that codes symbols (R110). -/
def Instr.direction : Instr → Option Direction
  | .rcEncode => some .encode
  | .rcEncBits _ => some .encode
  | .rcEncDone => some .encode
  | .rcDecode => some .decode
  | .rcDecUpdate => some .decode
  | .rcDecBits _ => some .decode
  | .stThetaEnc _ _ => some .encode
  | .stThetaDec _ _ => some .decode
  | .stSign2Enc _ => some .encode
  | .stSign2Dec _ => some .decode
  | .nop => none
  | .rcEncInit => none
  | .rcTell _ => none
  | .rcDecInit => none
  | .beCompute => none
  | .beNormalise => none
  | .beDenormalise => none
  | .beRenormAll => none
  | .beRenormBand _ _ => none
  | .stMix _ _ => none
  | .stQb _ => none
  | .stSplit _ => none
  | .stScale _ => none
  | .stSign2Rebuild _ => none

/-- The coder passes the direction check of the command, if it has one (R110). -/
def Instr.coderReady (i : Instr) (c : Coder) : Prop := ∀ dir, i.direction = some dir → c.ready dir

/-- The band index a command names in field A (R93). -/
def Instr.bandField : Instr → Option Nat
  | .beRenormBand band _ => some band.toNat
  | .stMix band _ => some band.toNat
  | .stQb band => some band.toNat
  | .stThetaEnc band _ => some band.toNat
  | .stThetaDec band _ => some band.toNat
  | .stSplit band => some band.toNat
  | .stScale band => some band.toNat
  | .stSign2Enc band => some band.toNat
  | .stSign2Dec band => some band.toNat
  | .stSign2Rebuild band => some band.toNat
  | .nop => none
  | .rcEncInit => none
  | .rcEncode => none
  | .rcEncBits _ => none
  | .rcEncDone => none
  | .rcTell _ => none
  | .rcDecInit => none
  | .rcDecode => none
  | .rcDecUpdate => none
  | .rcDecBits _ => none
  | .beCompute => none
  | .beNormalise => none
  | .beDenormalise => none
  | .beRenormAll => none

/-- The five band energy commands (R170). -/
def Instr.isBand : Instr → Bool
  | .beCompute => true
  | .beNormalise => true
  | .beDenormalise => true
  | .beRenormAll => true
  | .beRenormBand _ _ => true
  | .nop => false
  | .rcEncInit => false
  | .rcEncode => false
  | .rcEncBits _ => false
  | .rcEncDone => false
  | .rcTell _ => false
  | .rcDecInit => false
  | .rcDecode => false
  | .rcDecUpdate => false
  | .rcDecBits _ => false
  | .stMix _ _ => false
  | .stQb _ => false
  | .stThetaEnc _ _ => false
  | .stThetaDec _ _ => false
  | .stSplit _ => false
  | .stScale _ => false
  | .stSign2Enc _ => false
  | .stSign2Dec _ => false
  | .stSign2Rebuild _ => false

/-- The nine stereo commands (R200). -/
def Instr.isStereo : Instr → Bool
  | .stMix _ _ => true
  | .stQb _ => true
  | .stThetaEnc _ _ => true
  | .stThetaDec _ _ => true
  | .stSplit _ => true
  | .stScale _ => true
  | .stSign2Enc _ => true
  | .stSign2Dec _ => true
  | .stSign2Rebuild _ => true
  | .nop => false
  | .rcEncInit => false
  | .rcEncode => false
  | .rcEncBits _ => false
  | .rcEncDone => false
  | .rcTell _ => false
  | .rcDecInit => false
  | .rcDecode => false
  | .rcDecUpdate => false
  | .rcDecBits _ => false
  | .beCompute => false
  | .beNormalise => false
  | .beDenormalise => false
  | .beRenormAll => false
  | .beRenormBand _ _ => false

/-- The range coder commands other than the two inits (R110, R141). -/
def Instr.isCoder : Instr → Bool
  | .rcEncode => true
  | .rcEncBits _ => true
  | .rcEncDone => true
  | .rcTell _ => true
  | .rcDecode => true
  | .rcDecUpdate => true
  | .rcDecBits _ => true
  | .nop => false
  | .rcEncInit => false
  | .rcDecInit => false
  | .beCompute => false
  | .beNormalise => false
  | .beDenormalise => false
  | .beRenormAll => false
  | .beRenormBand _ _ => false
  | .stMix _ _ => false
  | .stQb _ => false
  | .stThetaEnc _ _ => false
  | .stThetaDec _ _ => false
  | .stSplit _ => false
  | .stScale _ => false
  | .stSign2Enc _ => false
  | .stSign2Dec _ => false
  | .stSign2Rebuild _ => false

end Sys2Proof
end

