-- ==== Sys2Proof/Certificates/Slice0/Obligations.lean ====
section
/-! DEFINITION. The statements for the provers, each a formal reading of rules of spec/. -/

open Sys2Proof Sys2Proof.Machine

/-! ### The command word -/

/-- Decoding the word of any well-formed command gives the command back, whatever its fields (R90, R94, R98). -/
def Obligations.DecodeOfEncode : Prop :=
  ∀ i : Instr, i.wellFormed = true → decode (encode i) = .ok i

/-- A word that decodes is the word of a well-formed command: decoding drops no bit (R90, R94, R95). -/
def Obligations.EncodeOfDecode : Prop :=
  ∀ (w : Word) (i : Instr), decode w = .ok i → i.wellFormed = true ∧ encode i = w

/-- R97: at most one row of the opcode map selects a word; the decoder answers exactly the selected row's command; and
the engine takes ILLEGAL_CMD for a word that no row selects. -/
def Obligations.DecodingProcedure : Prop :=
  (∀ (w : Word) (r r' : OpcodeRow), r ∈ opcodeTable → r' ∈ opcodeTable → r.selects w = true → r'.selects w = true →
    r.mnemonic = r'.mnemonic ∧ r.fixed = r'.fixed ∧ r.mask = r'.mask) ∧
  (∀ (w : Word) (i : Instr), decode w = .ok i ↔
    ∃ r ∈ opcodeTable, r.selects w = true ∧ i = r.build (fieldA w) (fieldB w)) ∧
  (∀ (s : State) (w : Word) (n : Nat), s.phase = .busy w n → s.port = [] →
    (∀ r ∈ opcodeTable, r.selects w = false) →
    step s = .next { s with
      regs := { s.regs with fault := some .illegalCmd, faultCmd := w, done := true }
      phase := .idle, draws := s.draws + 1 })

/-- R95, R96: the reserved opcodes, a non-zero RSV, a non-zero bit of B that the row does not use (bits 7:2 for
BE_RENORM_BAND and ST_MIX, bits 7:4 for ST_THETA_ENC and ST_THETA_DEC, every bit for the others) and a non-zero A where
the row does not use A are in no row, and NOP is the one word 0x00000000. -/
def Obligations.IllegalWords : Prop :=
  (∀ w : Word,
    (let o := (fieldOpc w).toNat
     (0x06 ≤ o ∧ o ≤ 0x08) ∨ (0x0D ≤ o ∧ o ≤ 0x0F) ∨ (0x15 ≤ o ∧ o ≤ 0x1F) ∨ 0x29 ≤ o) →
    ∀ r ∈ opcodeTable, r.selects w = false) ∧
  (∀ w : Word, fieldRsv w ≠ 0#8 → ∀ r ∈ opcodeTable, r.selects w = false) ∧
  (∀ w : Word, 16 ≤ (fieldB w).toNat → ∀ r ∈ opcodeTable, r.selects w = false) ∧
  (∀ w : Word, fieldOpc w ∈ [0x14#8, 0x20#8] → 4 ≤ (fieldB w).toNat → ∀ r ∈ opcodeTable, r.selects w = false) ∧
  (∀ w : Word, fieldOpc w ∉ [0x14#8, 0x20#8, 0x22#8, 0x23#8] → fieldB w ≠ 0#8 →
    ∀ r ∈ opcodeTable, r.selects w = false) ∧
  (∀ w : Word, fieldOpc w ∈ [0x00#8, 0x01#8, 0x02#8, 0x04#8, 0x09#8, 0x0A#8, 0x0B#8, 0x10#8, 0x11#8, 0x12#8, 0x13#8] →
    fieldA w ≠ 0#8 → ∀ r ∈ opcodeTable, r.selects w = false) ∧
  (∀ w : Word, fieldOpc w = 0x22#8 → (fieldB w).toNat < 16 → fieldRsv w = 0#8 →
    decode w = .ok (.stThetaEnc (fieldA w) (fieldB w))) ∧
  (∀ w : Word, decode w = .ok .nop ↔ w = 0#32)

/-- A few words written out from R90 and R94 decode to their commands. -/
def Obligations.SampleWords : Prop :=
  decode 0x00000000#32 = .ok .nop ∧
  decode 0x00000305#32 = .ok (.rcTell 3#8) ∧
  decode 0x00001903#32 = .ok (.rcEncBits 25#8) ∧
  decode 0x00010014#32 = .ok (.beRenormBand 0#8 1#8) ∧
  decode 0x000E0722#32 = .ok (.stThetaEnc 7#8 14#8) ∧
  decode 0x00030020#32 = .ok (.stMix 0#8 3#8)

/-! ### The engine's step and the faults -/

/-- R20, R21, R71: when the engine holds a word that decodes and no host access comes first, the step performs the
decoded command; when the next host access may take effect, the step performs that access; and an idle block with no
access waits. -/
def Obligations.StepRunsDecodedCommand : Prop :=
  (∀ (s : State) (w : Word) (n : Nat) (i : Instr), s.phase = .busy w n → decode w = .ok i →
    (∀ e rest, s.port = e :: rest → portReady s e = false) → step s = exec i s) ∧
  (∀ (s : State) (e : PortEvent) (rest : List PortEvent), s.port = e :: rest → portReady s e = true →
    step s = .next (serve e { s with port := rest })) ∧
  (∀ s : State, s.phase = .idle → s.port = [] → step s = .next s)

/-- R262, R270: a command that reaches a next state from an unfaulted one either completes without a fault, or takes one
fault: then every register keeps its value but STATUS and FAULT_CMD, which holds the command's word, PHASE is idle, and
only bytes of the command's own memory elements may differ (which bytes those are is assumption 3). -/
def Obligations.FaultsArePrecise : Prop :=
  ∀ (i : Instr) (s t : State), s.regs.fault = none → exec i s = .next t →
    t.regs.fault = none ∨ ∃ c, faultsWith i s c (i.footprint s) ∧ t.regs.fault = some c

/-- R272, R273: a performed command sets DONE, with or without a fault, and leaves PHASE idle, so that IRQ then shows
IRQ_EN; DONE is cleared by nothing but a STATUS write with bit 1 set or a reset; and a CMD write that is ignored because
of a fault does not set it.  In every state IRQ is IRQ_EN and DONE, as CTRL and STATUS read, so it is low once DONE is
cleared. -/
def Obligations.DoneAndIrq : Prop :=
  (∀ (s t : State) (w : Word) (n : Nat), s.phase = .busy w n → engineStep s = .next t →
    t.regs.done = true ∧ t.phase = .idle ∧ t.irq = t.regs.irqEn) ∧
  (∀ (s : State) (v : Word) (rest : List PortEvent), s.phase = .idle → s.port = .write 0x000C#16 4 v :: rest →
    s.regs.fault ≠ none → ∃ t, step s = .next t ∧ t.regs.done = s.regs.done) ∧
  (∀ s t : State, step s = .next t → s.regs.done = true → t.regs.done = false →
    ∃ e rest, s.port = e :: rest ∧
      (e = .powerOn ∨ (∃ v : Word, e = .write 0x0008#16 4 v ∧ v.getLsbD 1 = true) ∨
        (∃ v : Word, e = .write 0x0004#16 4 v ∧ v.getLsbD 0 = true))) ∧
  (∀ s : State, s.irq = ((readReg s .ctrl).getLsbD 1 && (readReg s .status).getLsbD 1) ∧
    (readReg s .ctrl).getLsbD 1 = s.regs.irqEn ∧ (readReg s .status).getLsbD 1 = s.regs.done ∧
    (s.regs.done = false → s.irq = false))

/-- R22, R33, R36, R251: no command writes ARG0 to ARG2, CTRL, CFG_* or BAND; RES0 and RES1 are written only by the
commands that name them (R93), the coder's registers only by the coder commands and the stereo commands that code, the
stereo registers only by ST_THETA_ENC, ST_THETA_DEC, ST_SIGN2_ENC and ST_SIGN2_DEC. -/
def Obligations.OnlyNamedRegistersChange : Prop :=
  ∀ (i : Instr) (s t : State), exec i s = .next t →
    (t.regs.irqEn = s.regs.irqEn ∧ t.regs.arg0 = s.regs.arg0 ∧ t.regs.arg1 = s.regs.arg1 ∧ t.regs.arg2 = s.regs.arg2 ∧
      t.regs.cfgChannels = s.regs.cfgChannels ∧ t.regs.cfgNbands = s.regs.cfgNbands ∧
      t.regs.cfgFrameLen = s.regs.cfgFrameLen ∧ t.hw = s.hw ∧ t.port = s.port ∧ t.replies = s.replies) ∧
    (∀ k : Nat, k < 256 → t.mem.band k = s.mem.band k) ∧
    (t.regs.res0 ≠ s.regs.res0 → i.mnemonic ∈ ["RC_TELL", "RC_DECODE", "RC_DEC_BITS", "ST_QB", "ST_THETA_ENC",
      "ST_THETA_DEC", "ST_SPLIT", "ST_SIGN2_ENC", "ST_SIGN2_DEC"]) ∧
    (t.regs.res1 ≠ s.regs.res1 → i.mnemonic = "ST_SPLIT") ∧
    (t.regs.rc ≠ s.regs.rc → i.direction.isSome = true ∨ i = .rcEncInit ∨ i = .rcDecInit) ∧
    (t.regs.st ≠ s.regs.st → i.mnemonic ∈ ["ST_THETA_ENC", "ST_THETA_DEC", "ST_SIGN2_ENC", "ST_SIGN2_DEC"])

/-- R72, R270: a command that completes changes only bytes of the elements its rule names; whatever way it ends, only those
and, for a range coder or coding stereo command, bytes of the frame may change (the model's reading of R270 in
assumption 3). -/
def Obligations.CommandsStayInTheirElements : Prop :=
  ∀ (i : Instr) (s t : State), exec i s = .next t →
    s.mem.sameBut t.mem (i.footprint s) ∧
    (s.regs.fault = none → t.regs.fault = none → s.mem.sameBut t.mem (i.writes s))

/-- R170, R200, R270: with an invalid mode descriptor every band and stereo command takes MODE, and with a valid
descriptor of one channel every stereo command does; every register but STATUS and FAULT_CMD keeps its value, and no
memory byte changes but those R270 leaves unspecified.  That R170's "changes nothing" does not keep those is the model's
reading, and that the NORM elements of a stereo command's band are R16's when C is not 2 is its choice (assumption 3). -/
def Obligations.ModeChecks : Prop :=
  (∀ (i : Instr) (s : State), i.isBand = true ∨ i.isStereo = true → modeOk s = false →
    faultsWith i s .mode (i.footprint s)) ∧
  (∀ (i : Instr) (s : State), i.isStereo = true → s.channels ≠ 2 → faultsWith i s .mode (i.footprint s))

/-- R110, R141, R200: a command that codes takes RC_STATE unless the coder was initialised in its direction and, when
encoding, is not finished; RC_TELL takes it unless the coder was initialised.  Which bytes may then differ is the model's
reading of R270 (assumption 3). -/
def Obligations.CoderStateChecked : Prop :=
  (∀ (i : Instr) (s : State), i.isCoder = true → i.direction ≠ none → ¬ i.coderReady s.regs.rc →
    faultsWith i s .rcState (i.footprint s)) ∧
  (∀ (i : Instr) (s : State), i.isStereo = true → i.direction ≠ none → modeOk s = true → s.channels = 2 →
    ¬ i.coderReady s.regs.rc → faultsWith i s .rcState (i.footprint s)) ∧
  (∀ (g : Byte) (s : State), s.regs.rc.inited = false → faultsWith (.rcTell g) s .rcState ((Instr.rcTell g).footprint s))

/-- R110 to R141, R266, R267: the operand checks of the coder commands, each after its state check; RC_DEC_UPDATE checks
the pending record, then its operands, then that the interval holds the decoded value.  Which bytes may then differ is
the model's reading of R270 (assumption 3). -/
def Obligations.CoderOperandsChecked : Prop :=
  (∀ s : State, s.hw.fbufBytes < s.arg0 →
    faultsWith .rcEncInit s .badOperand (Instr.rcEncInit.footprint s) ∧
    faultsWith .rcDecInit s .badOperand (Instr.rcDecInit.footprint s)) ∧
  (∀ s : State, s.regs.rc.ready .encode →
    ¬ (1 ≤ s.arg2 ∧ s.arg2 ≤ 65536 ∧ s.arg0 < s.arg1 ∧ s.arg1 ≤ s.arg2) →
    faultsWith .rcEncode s .badOperand (Instr.rcEncode.footprint s)) ∧
  (∀ (s : State) (n : Byte), s.regs.rc.ready .encode → ¬ (1 ≤ n.toNat ∧ n.toNat ≤ 25 ∧ s.arg0 < 2 ^ n.toNat) →
    faultsWith (.rcEncBits n) s .badOperand ((Instr.rcEncBits n).footprint s)) ∧
  (∀ (s : State) (g : Byte), s.regs.rc.inited = true → 3 < g.toNat →
    faultsWith (.rcTell g) s .badOperand ((Instr.rcTell g).footprint s)) ∧
  (∀ s : State, s.regs.rc.ready .decode → ¬ (1 ≤ s.arg2 ∧ s.arg2 ≤ 65536) →
    faultsWith .rcDecode s .badOperand (Instr.rcDecode.footprint s)) ∧
  (∀ (s : State) (n : Byte), s.regs.rc.ready .decode → ¬ (1 ≤ n.toNat ∧ n.toNat ≤ 25) →
    faultsWith (.rcDecBits n) s .badOperand ((Instr.rcDecBits n).footprint s)) ∧
  (∀ s : State, s.regs.rc.ready .decode →
    (¬ (s.regs.rc.dpend = true ∧ s.arg2 = s.regs.rc.dft.toNat) →
      faultsWith .rcDecUpdate s .rcState (Instr.rcDecUpdate.footprint s)) ∧
    (s.regs.rc.dpend = true → s.arg2 = s.regs.rc.dft.toNat → ¬ (s.arg0 < s.arg1 ∧ s.arg1 ≤ s.arg2) →
      faultsWith .rcDecUpdate s .badOperand (Instr.rcDecUpdate.footprint s)) ∧
    (s.regs.rc.dpend = true → s.arg2 = s.regs.rc.dft.toNat → s.arg0 < s.arg1 → s.arg1 ≤ s.arg2 →
      ¬ (s.arg0 ≤ s.regs.rc.dfs.toNat ∧ s.regs.rc.dfs.toNat < s.arg1) →
      faultsWith .rcDecUpdate s .rcSymbol (Instr.rcDecUpdate.footprint s)))

/-- R178, R200, R212, R213, R218 to R220: the operand checks of the band and stereo commands, each after the mode and the
coder check: the band index, the channel mask, the angle resolution, the band width.  Which bytes may then differ is the
model's reading of R270 (assumption 3). -/
def Obligations.BandOperandsChecked : Prop :=
  (∀ (i : Instr) (s : State) (b : Nat), i.isStereo = true → modeOk s = true → s.channels = 2 → i.coderReady s.regs.rc →
    i.bandField = some b → s.nbands ≤ b → faultsWith i s .badOperand (i.footprint s)) ∧
  (∀ (s : State) (b k : Byte), modeOk s = true →
    s.nbands ≤ b.toNat ∨ k.toNat % 4 = 0 ∨ (s.channels = 1 ∧ k.getLsbD 1 = true) →
    faultsWith (.beRenormBand b k) s .badOperand ((Instr.beRenormBand b k).footprint s)) ∧
  (∀ (s : State) (b q : Byte), s.stereoBand b.toNat → q.toNat % 16 = 15 →
    (s.regs.rc.ready .encode → faultsWith (.stThetaEnc b q) s .badOperand ((Instr.stThetaEnc b q).footprint s)) ∧
    (s.regs.rc.ready .decode → faultsWith (.stThetaDec b q) s .badOperand ((Instr.stThetaDec b q).footprint s))) ∧
  (∀ (s : State) (b : Byte), s.stereoBand b.toNat → s.mem.width b.toNat ≠ 2 →
    (s.regs.rc.ready .encode → faultsWith (.stSign2Enc b) s .badOperand ((Instr.stSign2Enc b).footprint s)) ∧
    (s.regs.rc.ready .decode → faultsWith (.stSign2Dec b) s .badOperand ((Instr.stSign2Dec b).footprint s)) ∧
    faultsWith (.stSign2Rebuild b) s .badOperand ((Instr.stSign2Rebuild b).footprint s))

/-! ### Reset and the fault state -/

/-- R294: with every register at its reset value, every band and stereo command takes MODE, every coder command but the
two inits takes RC_STATE, and NOP completes.  No fault changes memory then: C, NB and RC_STORAGE are 0, so R270 leaves no
element unspecified (as assumption 3 reads it). -/
def Obligations.CommandsAfterReset : Prop :=
  ∀ s : State, s.regs = Regs.reset →
    (∀ i : Instr, i.isBand = true ∨ i.isStereo = true → faultsWith i s .mode noByte) ∧
    (∀ i : Instr, i.isCoder = true → faultsWith i s .rcState noByte) ∧
    completesWith .nop s s.regs s.mem

/-- R21, R26, R275: a CMD write to an idle block hands the word to the engine while STATUS.FAULT = 0, and changes no
register, no memory and not PHASE while STATUS.FAULT = 1. -/
def Obligations.CommandWrites : Prop :=
  ∀ (s : State) (v : Word) (rest : List PortEvent), s.phase = .idle → s.port = .write 0x000C#16 4 v :: rest →
    (s.regs.fault = none → ∃ t, step s = .next t ∧ t.phase = .busy v 0 ∧ t.regs = s.regs ∧ t.mem = s.mem ∧
      t.port = rest ∧ t.replies = .written :: s.replies) ∧
    (s.regs.fault ≠ none → step s = .next { s with port := rest, replies := .written :: s.replies })

/-- R276: once STATUS.FAULT is set, a step keeps it and its code unless it is a hardware reset or a soft reset, and a
reset puts every register, the coder's among them, to its reset value. -/
def Obligations.OnlyResetClearsFault : Prop :=
  ∀ s t : State, s.ok → step s = .next t → s.regs.fault ≠ none →
    t.regs.fault = s.regs.fault ∨
    (t.regs = Regs.reset ∧ ∃ e rest, s.port = e :: rest ∧
      (e = .powerOn ∨ ∃ v : Word, e = .write 0x0004#16 4 v ∧ v.getLsbD 0 = true))

/-- R290 to R292: a soft reset puts every register to its reset value, ignores the other written bits and keeps every
memory element; it waits for a running command; a power-on reset says nothing of memory and does not wait (that it takes
effect while a command runs is the model's reading, assumption 6); and with every register reset, an idle block's
registers read as R292 says and IRQ is low. -/
def Obligations.ResetsWork : Prop :=
  (∀ (s : State) (v : Word) (rest : List PortEvent), s.phase = .idle → s.port = .write 0x0004#16 4 v :: rest →
    v.getLsbD 0 = true →
    step s = .next { s with regs := Regs.reset, port := rest, replies := .written :: s.replies }) ∧
  (∀ (s : State) (w v : Word) (n : Nat) (rest : List PortEvent), s.phase = .busy w n →
    s.port = .write 0x0004#16 4 v :: rest → step s = engineStep s) ∧
  (∀ (s : State) (rest : List PortEvent), s.port = .powerOn :: rest →
    ∃ m, step s = .next { s with regs := Regs.reset, phase := .idle, port := rest, mem := m }) ∧
  (∀ (s : State) (r : Reg), s.regs = Regs.reset → s.phase = .idle → s.irq = false ∧
    readReg s r =
      if r = .id then 0x43454C54#32
      else if r = .hwcfg0 then BitVec.ofNat 32 s.hw.fbufBytes
      else if r = .hwcfg1 then BitVec.ofNat 32 (s.hw.nbandsMax + s.hw.extBits * 256 + s.hw.frameMax * 65536)
      else 0#32)

/-! ### The host port -/

/-- R25, R261: every bit of STATUS as the host reads it, the code of each fault, and what a STATUS write does. -/
def Obligations.StatusBits : Prop :=
  (∀ (s : State) (n : Nat), n < 32 → (readReg s .status).getLsbD n =
    if n = 0 then decide (s.phase ≠ .idle)
    else if n = 1 then s.regs.done
    else if n = 2 then decide (s.regs.fault ≠ none)
    else if 8 ≤ n ∧ n ≤ 11 then (faultCodeOf s.regs.fault).testBit (n - 8)
    else if n = 16 then s.regs.rc.inited
    else if n = 17 then decide (s.regs.rc.dir = .decode)
    else if n = 18 then s.regs.rc.fin
    else if n = 19 then s.regs.rc.dpend
    else false) ∧
  (faultCodeOf none = 0 ∧ faultCodeOf (some .illegalCmd) = 1 ∧ faultCodeOf (some .mode) = 2 ∧
    faultCodeOf (some .rcState) = 3 ∧ faultCodeOf (some .badOperand) = 4 ∧ faultCodeOf (some .rcSymbol) = 5 ∧
    faultCodeOf (some .carryOvf) = 6 ∧ faultCodeOf (some .bufOvf) = 7) ∧
  (∀ (s : State) (v : Word), writeReg s v .status =
    if v.getLsbD 1 then { s with regs := { s.regs with done := false } } else s)

/-- R62, R69, R70: an access that is not 32 bits wide at a multiple of 4 gets a bus error, a read with data 0, and changes
nothing else; a legal read changes nothing but the answer; a write to a read-only register, to an unimplemented offset or
to an element beyond a memory's size is ignored; an unimplemented offset or such an element reads 0, and so does CMD.
R22, R24, R29, R30, R61: which register each offset names; a write of ARG0 to ARG2, of a CFG register, or of CTRL without
SRST stores the word (in CTRL its bit 1), which then reads back, and changes nothing else.  A write of STATUS clears DONE
where bit 1 of the word is set.  R61, R63 to R67: every legal write is the write of what its offset names (the memory
windows: the statements ElementWindows and FrameWindow).  R22 to R36, R62: what a read of each register returns (STATUS:
the statement StatusBits), narrower registers zero-extended. -/
def Obligations.PortAccesses : Prop :=
  (∀ (s : State) (a : BitVec 16) (n : Nat), n ≠ 4 ∨ a.toNat % 4 ≠ 0 →
    serve (.read a n) s = { s with replies := .readError 0#32 :: s.replies } ∧
    ∀ v : Word, serve (.write a n v) s = { s with replies := .writeError :: s.replies }) ∧
  (∀ (s : State) (a : BitVec 16), s.phase = .idle → a.toNat % 4 = 0 →
    serve (.read a 4) s = { s with replies := .data (readTarget s (target s.hw a.toNat)) :: s.replies }) ∧
  (∀ (s : State) (a : BitVec 16) (v : Word), a.toNat % 4 = 0 →
    (let t := writeTarget s v (target s.hw a.toNat)
     serve (.write a 4 v) s = { t with replies := .written :: s.replies } ∧ t.hw = s.hw ∧ t.port = s.port)) ∧
  (∀ (s : State) (a : BitVec 16), a.toNat % 4 = 0 →
    (let absent :=
       (0x0404 + 4 * s.hw.nbandsMax ≤ a.toNat ∧ a.toNat < 0x0800) ∨
       (0x0800 ≤ a.toNat ∧ a.toNat < 0x1000 ∧ s.hw.nbandsMax ≤ (a.toNat - 0x0800) / 4 % 256) ∨
       (0x1000 ≤ a.toNat ∧ a.toNat < 0x4000) ∨
       (0x4000 + s.hw.fbufBytes ≤ a.toNat ∧ a.toNat < 0x8000) ∨
       (0x8000 + 8 * s.hw.frameMax ≤ a.toNat ∧ a.toNat < 0xC000) ∨ 0xC000 + 8 * s.hw.frameMax ≤ a.toNat
     (a.toNat = 0x0000 ∨ (0x001C ≤ a.toNat ∧ a.toNat ≤ 0x002C) ∨ (0x003C ≤ a.toNat ∧ a.toNat < 0x0400) ∨ absent →
       ∀ v : Word, serve (.write a 4 v) s = { s with replies := .written :: s.replies }) ∧
     (a.toNat = 0x000C ∨ a.toNat = 0x001C ∨ a.toNat = 0x002C ∨ a.toNat = 0x003C ∨
         (0x0074 ≤ a.toNat ∧ a.toNat ≤ 0x007C) ∨ (0x009C ≤ a.toNat ∧ a.toNat ≤ 0x00F4) ∨
         (0x0100 ≤ a.toNat ∧ a.toNat < 0x0400) ∨ absent →
       readTarget s (target s.hw a.toNat) = 0#32))) ∧
  (∀ hw : Params, ∀ p ∈ [ (0x0000, Reg.id), (0x0004, Reg.ctrl), (0x0008, Reg.status), (0x000C, Reg.cmd),
      (0x0010, Reg.arg0), (0x0014, Reg.arg1), (0x0018, Reg.arg2), (0x0020, Reg.res0), (0x0024, Reg.res1),
      (0x0028, Reg.faultCmd), (0x0030, Reg.cfgChannels), (0x0034, Reg.cfgNbands), (0x0038, Reg.cfgFrameLen),
      (0x0040, Reg.rcVal), (0x0044, Reg.rcRng), (0x0048, Reg.rcRem), (0x004C, Reg.rcExt), (0x0050, Reg.rcOffs),
      (0x0054, Reg.rcEndOffs), (0x0058, Reg.rcEndWin), (0x005C, Reg.rcNendBits), (0x0060, Reg.rcNbitsTotal),
      (0x0064, Reg.rcStorage), (0x0068, Reg.rcDq), (0x006C, Reg.rcDft), (0x0070, Reg.rcDfs), (0x0080, Reg.stTheta),
      (0x0084, Reg.stImid), (0x0088, Reg.stIside), (0x008C, Reg.stDelta), (0x0090, Reg.stMagm), (0x0094, Reg.stMags),
      (0x0098, Reg.stSign), (0x00F8, Reg.hwcfg0), (0x00FC, Reg.hwcfg1) ], target hw p.1 = .reg p.2) ∧
  (∀ (s : State) (v : Word),
    serve (.write 0x0010#16 4 v) s = { s with regs := { s.regs with arg0 := v }, replies := .written :: s.replies } ∧
    serve (.write 0x0014#16 4 v) s = { s with regs := { s.regs with arg1 := v }, replies := .written :: s.replies } ∧
    serve (.write 0x0018#16 4 v) s = { s with regs := { s.regs with arg2 := v }, replies := .written :: s.replies } ∧
    serve (.write 0x0030#16 4 v) s =
      { s with regs := { s.regs with cfgChannels := v }, replies := .written :: s.replies } ∧
    serve (.write 0x0034#16 4 v) s = { s with regs := { s.regs with cfgNbands := v }, replies := .written :: s.replies } ∧
    serve (.write 0x0038#16 4 v) s =
      { s with regs := { s.regs with cfgFrameLen := v }, replies := .written :: s.replies } ∧
    (v.getLsbD 0 = false → serve (.write 0x0004#16 4 v) s =
      { s with regs := { s.regs with irqEn := v.getLsbD 1 }, replies := .written :: s.replies }) ∧
    serve (.write 0x0008#16 4 v) s =
      { s with regs := { s.regs with done := s.regs.done && !v.getLsbD 1 }, replies := .written :: s.replies } ∧
    (∀ r ∈ [Reg.arg0, Reg.arg1, Reg.arg2, Reg.cfgChannels, Reg.cfgNbands, Reg.cfgFrameLen],
      readReg (writeReg s v r) r = v ∧ ∀ r', r' ≠ r → readReg (writeReg s v r) r' = readReg s r') ∧
    (v.getLsbD 0 = false → readReg (writeReg s v .ctrl) .ctrl = if v.getLsbD 1 then 2#32 else 0#32)) ∧
  (∀ s : State, s.hw.legal = true →
    (let r := s.regs
     readReg s .id = 0x43454C54#32 ∧ readReg s .ctrl = (if r.irqEn then 2#32 else 0#32) ∧ readReg s .cmd = 0#32 ∧
     readReg s .arg0 = r.arg0 ∧ readReg s .arg1 = r.arg1 ∧ readReg s .arg2 = r.arg2 ∧ readReg s .res0 = r.res0 ∧
     readReg s .res1 = r.res1 ∧ readReg s .faultCmd = r.faultCmd ∧ readReg s .cfgChannels = r.cfgChannels ∧
     readReg s .cfgNbands = r.cfgNbands ∧ readReg s .cfgFrameLen = r.cfgFrameLen ∧ readReg s .rcVal = r.rc.val ∧
     readReg s .rcRng = r.rc.rng ∧
     (readReg s .rcRem).toNat = r.rc.rem.toNat + (if r.rc.remValid then 256 else 0) ∧
     readReg s .rcExt = r.rc.ext ∧ readReg s .rcOffs = r.rc.offs ∧ readReg s .rcEndOffs = r.rc.endOffs ∧
     readReg s .rcEndWin = r.rc.endWin ∧ readReg s .rcNendBits = r.rc.nendBits ∧
     readReg s .rcNbitsTotal = r.rc.nbitsTotal ∧ readReg s .rcStorage = r.rc.storage ∧ readReg s .rcDq = r.rc.dq ∧
     readReg s .rcDft = r.rc.dft ∧ readReg s .rcDfs = r.rc.dfs ∧ readReg s .stTheta = r.st.theta ∧
     readReg s .stImid = r.st.imid ∧ readReg s .stIside = r.st.iside ∧ readReg s .stDelta = r.st.delta ∧
     readReg s .stMagm = r.st.magm ∧ readReg s .stMags = r.st.mags ∧
     readReg s .stSign = (if r.st.sign then 1#32 else 0#32) ∧ (readReg s .hwcfg0).toNat = s.hw.fbufBytes ∧
     (readReg s .hwcfg1).toNat % 2 ^ 8 = s.hw.nbandsMax ∧ (readReg s .hwcfg1).toNat / 2 ^ 8 % 2 ^ 8 = s.hw.extBits ∧
     (readReg s .hwcfg1).toNat / 2 ^ 16 = s.hw.frameMax))

/-- R63, R64, R66, R67: where each element is, what a read of it returns, what a window write stores and what it leaves
alone: BAND zero-extends 16 bits, NORM sign-extends 16 bits, ENER and SIG move 32 bits.  R70: a window write changes that
memory alone, no register and nothing else of the block. -/
def Obligations.ElementWindows : Prop :=
  ∀ (s : State) (v : Word), s.hw.legal = true →
    (∀ i, i ≤ s.hw.nbandsMax → target s.hw (0x0400 + 4 * i) = .band i ∧
      (readTarget s (.band i)).toNat = s.mem.band i ∧
      readTarget (writeTarget s v (.band i)) (.band i) = (v.setWidth 16).setWidth 32 ∧
      writeTarget s v (.band i) = { s with mem := (writeTarget s v (.band i)).mem } ∧
      s.mem.sameBut (writeTarget s v (.band i)).mem (fun a => a = bandAddr i ∨ a = bandAddr i + 1)) ∧
    (∀ c b, c < 2 → b < s.hw.nbandsMax → target s.hw (0x0800 + 4 * (256 * c + b)) = .ener c b ∧
      (readTarget s (.ener c b)).toNat = s.mem.ener c b ∧
      readTarget (writeTarget s v (.ener c b)) (.ener c b) = v ∧
      writeTarget s v (.ener c b) = { s with mem := (writeTarget s v (.ener c b)).mem } ∧
      s.mem.sameBut (writeTarget s v (.ener c b)).mem (enerElems [(c, b)])) ∧
    (∀ k, k < 2 * s.hw.frameMax → target s.hw (0x8000 + 4 * k) = .sig k ∧
      (readTarget s (.sig k)).toInt = s.mem.sig k ∧
      readTarget (writeTarget s v (.sig k)) (.sig k) = v ∧
      writeTarget s v (.sig k) = { s with mem := (writeTarget s v (.sig k)).mem } ∧
      s.mem.sameBut (writeTarget s v (.sig k)).mem (sigElems [k])) ∧
    (∀ k, k < 2 * s.hw.frameMax → target s.hw (0xC000 + 4 * k) = .norm k ∧
      (readTarget s (.norm k)).toInt = s.mem.norm k ∧
      readTarget (writeTarget s v (.norm k)) (.norm k) = (v.setWidth 16).signExtend 32 ∧
      writeTarget s v (.norm k) = { s with mem := (writeTarget s v (.norm k)).mem } ∧
      s.mem.sameBut (writeTarget s v (.norm k)).mem (normElems [k]))

/-- R65: the FBUF window is little-endian; bytes at or above FBUF_BYTES read 0 and are not written.  R70: a window write
changes that memory alone. -/
def Obligations.FrameWindow : Prop :=
  ∀ (s : State) (w i : Nat) (v : Word), w < 4096 → i < 4 →
    target s.hw (0x4000 + 4 * w) = .fbuf w ∧
    (readTarget s (.fbuf w)).extractLsb' (8 * i) 8 =
      (if 4 * w + i < s.hw.fbufBytes then s.mem.byte (fbufAddr (4 * w + i)) else 0#8) ∧
    (writeTarget s v (.fbuf w)).mem.byte (fbufAddr (4 * w + i)) =
      (if 4 * w + i < s.hw.fbufBytes then v.extractLsb' (8 * i) 8 else s.mem.byte (fbufAddr (4 * w + i))) ∧
    writeTarget s v (.fbuf w) = { s with mem := (writeTarget s v (.fbuf w)).mem } ∧
    s.mem.sameBut (writeTarget s v (.fbuf w)).mem (frameRange (4 * w) (4 * w + 4))

/-- R71, R73: while a command runs, an access other than a STATUS read or a power-on waits and the engine's step comes
first: the decoded command is performed, or a word that no row selects takes ILLEGAL_CMD.  A STATUS read that is answered
shows BUSY = 1 over the registers before the command, and changes none.  That an illegal access waits too is the model's
reading (assumption 17); how many STATUS reads come before the command completes is free (assumption 4). -/
def Obligations.AccessesWaitForTheCommand : Prop :=
  ∀ (s : State) (w : Word) (n : Nat) (e : PortEvent) (rest : List PortEvent),
    s.phase = .busy w n → s.port = e :: rest →
    (e ≠ .powerOn → e ≠ .read 0x0008#16 4 → step s = engineStep s) ∧
    (e = .read 0x0008#16 4 →
      step s = engineStep s ∨
      step s = .next { s with
        port := rest, replies := .data (s.statusWord) :: s.replies, phase := .busy w (n + 1) } ∧
      s.statusWord.getLsbD 0 = true) ∧
    (∀ i : Instr, decode w = .ok i → engineStep s = exec i s) ∧
    ((∀ r ∈ opcodeTable, r.selects w = false) → engineStep s = .next { s with
      regs := { s.regs with fault := some .illegalCmd, faultCmd := w, done := true }
      phase := .idle, draws := s.draws + 1 })

/-! ### Invariants -/

/-- R34, R35 and the rules that derive them, R9, R33, R36, R72, R133, R275: every step keeps the machine's invariant: the
parameters stay legal, memory stays canonical, the coder's interval, cursors, window and pending record and the stereo
registers stay in their ranges, and no command runs while STATUS.FAULT = 1.  The range of ST_DELTA is the one R210's
values have, -27364 to 27364, and not the narrower one of R36's table (assumption 15). -/
def Obligations.EveryStepKeepsInvariant : Prop :=
  ∀ s t : State, s.ok → step s = .next t → t.ok

/-- The invariant holds after reset, whatever legal parameters the block has, and so does that of EncodedValueIsExact. -/
def Obligations.InvariantAtReset : Prop :=
  State.reset.ok ∧ State.reset.memInside ∧ State.reset.carryOk ∧
  ∀ p : Params, p.legal = true → ({ State.reset with hw := p }).ok

/-- No state that meets the invariant stops the machine: the step always answers a next state (R20, R95: every word is
performed or raises a fault that the spec describes). -/
def Obligations.MachineNeverStops : Prop :=
  ∀ s : State, s.ok → ∃ t, step s = .next t

/-- R72: no step, of the engine or the host, writes a byte outside the implemented elements of the memories. -/
def Obligations.NoAccessLeavesMemory : Prop :=
  ∀ s t : State, s.ok → s.memInside → step s = .next t → t.memInside

/-! ### The range coder -/

/-- R250: NOP completes and does nothing else. -/
def Obligations.NopCompletes : Prop := ∀ s : State, completesWith .nop s s.regs s.mem

/-- R114: RC_ENC_INIT, whatever the coder's state, with the tell of a new frame (R141). -/
def Obligations.EncoderInit : Prop :=
  ∀ s : State, s.arg0 ≤ s.hw.fbufBytes →
    ∃ c : Coder, completesWith .rcEncInit s { s.regs with rc := c } s.mem ∧
      c = { val := 0#32, rng := 0x80000000#32, rem := 0#8, remValid := false, ext := 0#32, offs := 0#32,
            endOffs := 0#32, endWin := 0#32, nendBits := 0#32, nbitsTotal := 33#32, storage := s.regs.arg0,
            dq := 0#32, dft := 0#32, dfs := 0#32, inited := true, dir := .encode, fin := false, dpend := false } ∧
      tell 0 c = 1 ∧ tell 3 c = 8

/-- R115: RC_ENCODE of a symbol whose interval needs no renormalization completes whatever room is left, writes RC_VAL
and RC_RNG alone and no memory. -/
def Obligations.EncodeWithoutOutput : Prop :=
  ∀ s : State, s.ok → s.regs.rc.ready .encode → 1 ≤ s.arg2 → s.arg2 ≤ 65536 → s.arg0 < s.arg1 → s.arg1 ≤ s.arg2 →
    (let v := narrowed s.regs.rc.val.toNat s.regs.rc.rng.toNat s.arg0 s.arg1 s.arg2
     8388608 < v.2 →
      v.1 < 2 ^ 32 ∧ v.2 < 2 ^ 32 ∧
      completesWith .rcEncode s
        { s.regs with rc := { s.regs.rc with val := BitVec.ofNat 32 v.1, rng := BitVec.ofNat 32 v.2 } } s.mem)

/-- R111 to R113, R115, R268, R269: RC_ENCODE of any legal symbol narrows the interval and renormalizes it in at most three
passes, each producing one symbol.  It takes CARRY_OVF or BUF_OVF exactly when one of these symbols cannot be taken, and
completes when all can: then only front bytes the cursor passes are written.  Room for three symbols in the frame and in
the 0xFF run always suffices. -/
def Obligations.EncodeCompletes : Prop :=
  ∀ s : State, s.ok → s.regs.rc.ready .encode → 1 ≤ s.arg2 → s.arg2 ≤ 65536 → s.arg0 < s.arg1 → s.arg1 ≤ s.arg2 →
    (let v := narrowed s.regs.rc.val.toNat s.regs.rc.rng.toNat s.arg0 s.arg1 s.arg2
     ∃ k ≤ 3, renormPasses v.2 k ∧
      (s.roomFor 3 → ∃ f, s.frontAfter (codeSymbols k v.1) = .ok f) ∧
      (∀ f, s.frontAfter (codeSymbols k v.1) = .ok f →
        ∃ c m, completesWith .rcEncode s { s.regs with rc := c } m ∧ s.regs.rc.encoded c v.1 v.2 k ∧ c.front = f ∧
          s.mem.sameBut m (frameRange s.regs.rc.offs.toNat c.offs.toNat)) ∧
      (∀ code, s.frontAfter (codeSymbols k v.1) = .error code →
        faultsWith .rcEncode s code (Instr.rcEncode.footprint s)))

/-- R112, R113, R115, R212: the carry scheme loses nothing.  RC_ENCODE of its symbol, and ST_THETA_ENC of the symbol
`[tq, tq + 1)` of `2^qb + 1` (RES0 is `tq`: EncodeAngle), move the bottom of the interval in the whole code value, which
the frame's front bytes, RC_REM, RC_EXT and RC_VAL hold together, to the bottom of the narrowed interval, exactly.  What
this needs of the encoder (that a carry always finds a buffered byte below 255) every step keeps, and R114's RC_ENC_INIT
establishes. -/
def Obligations.EncodedValueIsExact : Prop :=
  (∀ s t : State, s.ok → s.carryOk → step s = .next t → t.carryOk) ∧
  (∀ s t : State, s.regs.fault = none → exec .rcEncInit s = .next t → t.regs.fault = none → t.regs.rc.carrySafe) ∧
  (∀ s t : State, s.ok → s.regs.rc.carrySafe → s.regs.fault = none → exec .rcEncode s = .next t →
    t.regs.fault = none → s.codedExactly t s.arg0 s.arg1 s.arg2) ∧
  (∀ (s t : State) (b qb : Byte), s.ok → s.regs.rc.carrySafe → s.regs.fault = none →
    exec (.stThetaEnc b qb) s = .next t → t.regs.fault = none →
    s.codedExactly t t.regs.res0.toNat (t.regs.res0.toNat + 1) (2 ^ (qb.toNat % 16) + 1))

/-- R116: RC_ENC_BITS packs its bits above those in the window, writes the window's whole bytes first when it would pass
32 bits, low byte first from the end of the frame, and takes BUF_OVF when they do not fit. -/
def Obligations.EncodeRawBits : Prop :=
  ∀ (s : State) (nbits : Byte), s.ok → s.regs.rc.ready .encode → 1 ≤ nbits.toNat → nbits.toNat ≤ 25 →
    s.arg0 < 2 ^ nbits.toNat →
    (let c := s.regs.rc
     let u := c.nendBits.toNat
     let k := if 32 < u + nbits.toNat then u / 8 else 0
     (c.offs.toNat + c.endOffs.toNat + k ≤ c.storage.toNat →
       ∃ c' m, completesWith (.rcEncBits nbits) s { s.regs with rc := c' } m ∧
         c' = { c with endOffs := c'.endOffs, endWin := c'.endWin, nendBits := c'.nendBits
                       nbitsTotal := c'.nbitsTotal } ∧
         c'.endOffs.toNat = c.endOffs.toNat + k ∧
         c'.nendBits.toNat = u - 8 * k + nbits.toNat ∧
         c'.endWin.toNat = c.endWin.toNat / 256 ^ k + s.arg0 * 2 ^ (u - 8 * k) ∧
         (c.nbitsTotal.toNat + nbits.toNat < 2 ^ 32 → c'.nbitsTotal.toNat = c.nbitsTotal.toNat + nbits.toNat) ∧
         (∀ i, i < k → m.fbuf (c.storage.toNat - 1 - (c.endOffs.toNat + i)) = c.endWin.toNat / 256 ^ i % 256) ∧
         s.mem.sameBut m (frameRange (c.storage.toNat - c'.endOffs.toNat) (c.storage.toNat - c.endOffs.toNat))) ∧
     (c.storage.toNat < c.offs.toNat + c.endOffs.toNat + k →
       faultsWith (.rcEncBits nbits) s .bufOvf ((Instr.rcEncBits nbits).footprint s)))

/-- R111, R112, R117, R268, R269: RC_ENC_DONE emits the symbols of a final code value whose bits are the fewest that
disambiguate the final interval: fewer leave no block of code values inside it.  It takes
CARRY_OVF or BUF_OVF when one of them cannot be taken, BUF_OVF when the flushed front, the raw bytes and the last raw bits
do not fit (the last bits may share the spare low bits of the last front byte), and completes otherwise; eight bytes of
room always suffice.  When it completes it finishes the frame, leaves RC_VAL, RC_RNG and RC_NBITS_TOTAL as they were,
leaves 0 in RC_REM's byte and in RC_EXT and sets REM_VALID where anything was produced, zeroes the gap between the two parts and puts the raw bits at the end.  The front bytes are exactly what was produced
followed by the final code value, its spare bits 0 but for shared raw bits; and followed by any bits at all, they are a
code value inside the final interval. -/
def Obligations.FinishFrame : Prop :=
  ∀ s : State, s.ok → s.regs.rc.ready .encode →
    (let c := s.regs.rc
     let st := c.storage.toNat
     let l0 := 32 - ilog c.rng.toNat
     let up := fun j : Nat => (c.val.toNat + (2 ^ j - 1)) / 2 ^ j * 2 ^ j
     let final : Nat × Nat :=
       if c.val.toNat + c.rng.toNat ≤ up (31 - l0) + (2 ^ (31 - l0) - 1) then (l0 + 1, up (30 - l0)) else (l0, up (31 - l0))
     let k := (final.1 + 7) / 8
     let u := c.nendBits.toNat
     let o := c.symbolsOut + k
     let e := c.endOffs.toNat + u / 8
     let fits := o + e ≤ st ∧ (u % 8 = 0 ∨ (e < st ∧ (o + e < st ∨ u % 8 ≤ 8 * k - final.1)))
     k ≤ 2 ∧ (∀ l x, l < final.1 → 2 ^ (31 - l) ∣ x → c.val.toNat ≤ x →
       c.val.toNat + c.rng.toNat < x + 2 ^ (31 - l)) ∧
     (s.roomFor 8 → (∃ f, s.frontAfter (codeSymbols k final.2) = .ok f) ∧ fits ∧ o + e < st) ∧
     (∀ code, s.frontAfter (codeSymbols k final.2) = .error code →
       faultsWith .rcEncDone s code (Instr.rcEncDone.footprint s)) ∧
     (∀ f, s.frontAfter (codeSymbols k final.2) = .ok f → ¬ fits →
       faultsWith .rcEncDone s .bufOvf (Instr.rcEncDone.footprint s)) ∧
     (∀ f, s.frontAfter (codeSymbols k final.2) = .ok f → fits →
       ∃ c' m, completesWith .rcEncDone s { s.regs with rc := c' } m ∧
         c' = { c with rem := c'.rem, remValid := c'.remValid, ext := c'.ext, offs := c'.offs, endOffs := c'.endOffs
                       endWin := c'.endWin, nendBits := c'.nendBits, fin := true } ∧
         (if k = 0 ∧ c.remValid = false ∧ c.ext = 0#32 then
            c'.rem = c.rem ∧ c'.remValid = c.remValid ∧ c'.ext = c.ext
          else c'.rem = 0#8 ∧ c'.remValid = true ∧ c'.ext = 0#32) ∧
         c'.offs.toNat = o ∧ c'.endOffs.toNat = e ∧ c'.nendBits.toNat = u % 8 ∧
         c'.endWin.toNat = c.endWin.toNat / 256 ^ (u / 8) ∧
         (∀ j, o ≤ j → j + 1 < st - e → m.fbuf j = 0) ∧
         (o + e < st → m.fbuf (st - e - 1) = c'.endWin.toNat) ∧
         (∀ j, j < u / 8 → m.fbuf (st - 1 - (c.endOffs.toNat + j)) = c.endWin.toNat / 256 ^ j % 256) ∧
         (c.carrySafe →
           (let whole := s.rcView.produced * 2 ^ 31 + c.val.toNat
            let code := m.frontBytes o 0 o * 2 ^ (31 - 8 * k)
            code = s.rcView.produced * 2 ^ 31 + final.2 +
              (if u % 8 ≠ 0 ∧ o + e = st then c'.endWin.toNat * 2 ^ (31 - 8 * k) else 0) ∧
            whole ≤ code ∧ code + (2 ^ (31 - 8 * k) - 1) < whole + c.rng.toNat ∧
            (u % 8 ≠ 0 → m.fbuf (st - e - 1) % 2 ^ (u % 8) = c'.endWin.toNat))) ∧
         s.mem.sameBut m (frameRange c.offs.toNat (st - c.endOffs.toNat))))

/-- R114, R117: a frame in which nothing was encoded finishes in any frame size, even 0, and reads all zero. -/
def Obligations.FinishEmptyFrame : Prop :=
  ∀ s : State, s.ok → s.regs.rc.ready .encode →
    s.regs.rc = { encInitCoder s.regs.rc.storage.toNat with nbitsTotal := s.regs.rc.nbitsTotal } →
    ∃ m, completesWith .rcEncDone s { s.regs with rc := { s.regs.rc with fin := true } } m ∧
      (∀ j, j < s.regs.rc.storage.toNat → m.fbuf j = 0) ∧
      s.mem.sameBut m (frameRange 0 s.regs.rc.storage.toNat)

/-- R140, R141: RC_TELL completes in either direction and in any coder state after an init, changing RES0 alone.  The
result is RC_NBITS_TOTAL in the unit of the granularity `g` less what `g` squaring steps make of the bits `l` of RC_RNG and
its top 16 bits `r`: each step replaces `r` by `r^2 >> 15`, shifted back below `2^16`, and doubles `l`, adding the bit
shifted out.  With granularity 0 it is RC_NBITS_TOTAL less `l`, and each finer result lies in the previous unit. -/
def Obligations.TellCompletes : Prop :=
  ∀ (s : State) (g : Byte), s.ok → s.regs.rc.inited = true → g.toNat ≤ 3 →
    completesWith (.rcTell g) s { s.regs with res0 := BitVec.ofInt 32 (tell g.toNat s.regs.rc) } s.mem ∧
    (∀ l, 16 ≤ l → 2 ^ (l - 1) ≤ s.regs.rc.rng.toNat → s.regs.rc.rng.toNat < 2 ^ l →
      tell g.toNat s.regs.rc =
        ((s.regs.rc.nbitsTotal.toNat * 2 ^ g.toNat : Nat) : Int) -
          ((tellStep^[g.toNat] (s.regs.rc.rng.toNat / 2 ^ (l - 16), l)).2 : Nat)) ∧
    (∀ r l, 2 ^ 15 ≤ r → r < 2 ^ 16 →
      (r * r / 2 ^ 15 < 2 ^ 16 → tellStep (r, l) = (r * r / 2 ^ 15, 2 * l)) ∧
      (2 ^ 16 ≤ r * r / 2 ^ 15 → tellStep (r, l) = (r * r / 2 ^ 16, 2 * l + 1))) ∧
    tell 0 s.regs.rc = s.regs.rc.wholeBits ∧
    2 * tell g.toNat s.regs.rc - 1 ≤ tell (g.toNat + 1) s.regs.rc ∧
    tell (g.toNat + 1) s.regs.rc ≤ 2 * tell g.toNat s.regs.rc

/-- R131, R132: RC_DEC_INIT, whatever the coder's state: the interval is whole, and RC_VAL is what the first four frame
bytes, zeros past the frame, leave below its top. -/
def Obligations.DecoderInit : Prop :=
  ∀ s : State, s.arg0 ≤ s.hw.fbufBytes →
    ∃ c : Coder, completesWith .rcDecInit s { s.regs with rc := c } s.mem ∧
      c = { val := c.val, rng := 0x80000000#32, rem := c.rem, remValid := true, ext := 0#32, offs := c.offs,
            endOffs := 0#32, endWin := 0#32, nendBits := 0#32, nbitsTotal := 33#32, storage := s.regs.arg0,
            dq := 0#32, dft := 0#32, dfs := 0#32, inited := true, dir := .decode, fin := false, dpend := false } ∧
      c.offs.toNat = min 4 s.arg0 ∧
      c.val.toNat = 2 ^ 31 - 1 - s.mem.frontBytes s.arg0 0 4 / 2 ∧
      c.rem.toNat = s.mem.frontBytes s.arg0 0 4 % 256 ∧
      tell 0 c = 1 ∧ tell 3 c = 8

/-- R133: RC_DECODE answers `fs` below `ft`, saves the pending record and changes nothing else of the coder. -/
def Obligations.DecodeSymbol : Prop :=
  ∀ s : State, s.ok → s.regs.rc.ready .decode → 1 ≤ s.arg2 → s.arg2 ≤ 65536 →
    (let q := s.regs.rc.rng.toNat / s.arg2
     let fs := s.arg2 - min (s.regs.rc.val.toNat / q + 1) s.arg2
     0 < q ∧ fs < s.arg2 ∧
     completesWith .rcDecode s
       { s.regs with
         res0 := BitVec.ofNat 32 fs
         rc := { s.regs.rc with dq := BitVec.ofNat 32 q, dft := s.regs.arg2, dfs := BitVec.ofNat 32 fs, dpend := true } }
       s.mem)

/-- R131, R134: RC_DEC_UPDATE of an interval that holds the decoded value completes, consumes the pending record, narrows
the interval as the encoder does and renormalizes with the next frame bytes. -/
def Obligations.CommitSymbol : Prop :=
  ∀ s : State, s.ok → s.regs.rc.ready .decode → s.regs.rc.dpend = true → s.arg2 = s.regs.rc.dft.toNat →
    s.arg0 < s.arg1 → s.arg1 ≤ s.arg2 → s.arg0 ≤ s.regs.rc.dfs.toNat → s.regs.rc.dfs.toNat < s.arg1 →
    (let t := s.regs.rc.rng.toNat / s.arg2 * (s.arg2 - s.arg1)
     let size := (narrowed 0 s.regs.rc.rng.toNat s.arg0 s.arg1 s.arg2).2
     t ≤ s.regs.rc.val.toNat ∧ s.regs.rc.val.toNat - t < size ∧
     ∃ c k, k ≤ 3 ∧ completesWith .rcDecUpdate s { s.regs with rc := c } s.mem ∧
       s.regs.rc.decoded c s.mem (s.regs.rc.val.toNat - t) size k ∧
       c.dpend = false ∧ c.dq = s.regs.rc.dq ∧ c.dft = s.regs.rc.dft ∧ c.dfs = s.regs.rc.dfs)

/-- R135: RC_DEC_BITS returns the next `nbits` raw bits, least significant first, refilling the window from the end of
the frame until it holds more than 24 bits; it leaves the pending record alone. -/
def Obligations.DecodeRawBits : Prop :=
  ∀ (s : State) (nbits : Byte), s.ok → s.regs.rc.ready .decode → 1 ≤ nbits.toNat → nbits.toNat ≤ 25 →
    (let c := s.regs.rc
     let a := c.nendBits.toNat
     let k := if a < nbits.toNat then (24 - a) / 8 + 1 else 0
     let window := c.endWin.toNat + s.mem.endBytes c.storage.toNat c.endOffs.toNat k * 2 ^ a
     ∃ c' : Coder, completesWith (.rcDecBits nbits) s
         { s.regs with rc := c', res0 := BitVec.ofNat 32 (window % 2 ^ nbits.toNat) } s.mem ∧
       c' = { c with endOffs := c'.endOffs, endWin := c'.endWin, nendBits := c'.nendBits, nbitsTotal := c'.nbitsTotal } ∧
       c'.endOffs.toNat = min (c.endOffs.toNat + k) c.storage.toNat ∧
       c'.endWin.toNat = window / 2 ^ nbits.toNat ∧
       c'.nendBits.toNat = a + 8 * k - nbits.toNat ∧
       (c.nbitsTotal.toNat + nbits.toNat < 2 ^ 32 → c'.nbitsTotal.toNat = c.nbitsTotal.toNat + nbits.toNat))

/-- R142, one operation at a time: from the same RC_NBITS_TOTAL and RC_RNG, an encoder's RC_ENCODE and a decoder's
RC_DEC_UPDATE of the same symbol, and RC_ENC_BITS and RC_DEC_BITS of as many bits, leave the same RC_NBITS_TOTAL and
RC_RNG, so the same tell at every granularity. -/
def Obligations.TellAgrees : Prop :=
  ∀ e d e' d' : State, e.ok → d.ok → e.regs.fault = none → d.regs.fault = none →
    e.regs.rc.nbitsTotal = d.regs.rc.nbitsTotal → e.regs.rc.rng = d.regs.rc.rng →
    e'.regs.fault = none → d'.regs.fault = none →
    (e.regs.arg0 = d.regs.arg0 ∧ e.regs.arg1 = d.regs.arg1 ∧ e.regs.arg2 = d.regs.arg2 ∧
      exec .rcEncode e = .next e' ∧ exec .rcDecUpdate d = .next d') ∨
    (∃ n : Byte, exec (.rcEncBits n) e = .next e' ∧ exec (.rcDecBits n) d = .next d') →
    e'.regs.rc.nbitsTotal = d'.regs.rc.nbitsTotal ∧ e'.regs.rc.rng = d'.regs.rc.rng ∧
    ∀ g, tell g e'.regs.rc = tell g d'.regs.rc

/-- R144: no command of a frame makes tell(0) decrease, while RC_NBITS_TOTAL stays in its 32 bits (past them its value is
free, assumption 5). -/
def Obligations.TellNeverDecreases : Prop :=
  ∀ (i : Instr) (s t : State), s.ok → s.regs.rc.inited = true → i ≠ .rcEncInit → i ≠ .rcDecInit →
    s.regs.rc.nbitsTotal.toNat + 25 < 2 ^ 32 → exec i s = .next t → s.regs.rc.wholeBits ≤ t.regs.rc.wholeBits

/-! ### The band energy engine -/

/-- R171 to R173: BE_COMPUTE writes the magnitude of every band in use of every channel, each at least 1, and nothing
else.  A band of zeros has magnitude 1; otherwise, with `p` the exponent of the largest absolute value, the coefficients
are scaled by `2^(10 - p)`, flooring, and the root of their sum of squares is scaled back, plus 1 and saturated. -/
def Obligations.ComputeEnergies : Prop :=
  ∀ s : State, s.hw.legal = true → modeOk s = true →
    ∃ m, completesWith .beCompute s s.regs m ∧
      (∀ c b, c < s.channels → b < s.nbands → (m.ener c b : Int) = s.bandEnergy c b ∧ 1 ≤ m.ener c b ∧
        (let xs := (List.range' (s.mem.band b) (s.mem.band (b + 1) - s.mem.band b)).map
           (fun j => s.mem.sig (j * s.channels + c))
         ((∀ x ∈ xs, x = 0) → m.ener c b = 1) ∧
         (∀ p : Nat, (∀ x ∈ xs, x.natAbs < 2 ^ (p + 1)) → (∃ x ∈ xs, 2 ^ p ≤ x.natAbs) →
           (10 ≤ p → m.ener c b = min 4294967295
             (1 + isqrt (xs.map (fun x => (x / 2 ^ (p - 10)).natAbs ^ 2)).sum * 2 ^ (p - 10))) ∧
           (p < 10 → m.ener c b = min 4294967295
             (1 + isqrt (xs.map (fun x => (x * 2 ^ (10 - p)).natAbs ^ 2)).sum / 2 ^ (10 - p)))))) ∧
      s.mem.sameBut m (enerElems s.channelBands)

/-- R174: BE_NORMALISE divides each coefficient of each band in use by its band's energy, rounding toward zero and
saturating; a zero energy of a band in use raises BAD_OPERAND, after which the NORM elements of the bands in use may
differ, as R270 says (assumption 9). -/
def Obligations.NormaliseBands : Prop :=
  ∀ s : State, modeOk s = true →
    ((∀ c b, c < s.channels → b < s.nbands → s.mem.ener c b ≠ 0) →
      ∃ m, completesWith .beNormalise s s.regs m ∧
        (∀ c b j, c < s.channels → b < s.nbands → s.mem.band b ≤ j → j < s.mem.band (b + 1) →
          m.norm (j * s.channels + c) =
            sat16 (tdiv (s.mem.sig (j * s.channels + c) * 2 ^ 14) (s.mem.ener c b))) ∧
        s.mem.sameBut m (normElems s.coveredIndices)) ∧
    (∀ c b, c < s.channels → b < s.nbands → s.mem.ener c b = 0 →
      faultsWith .beNormalise s .badOperand (Instr.beNormalise.footprint s))

/-- R175: BE_DENORMALISE scales each coefficient of each band in use by its band's energy, flooring and saturating, and
zeroes the bins from the last boundary to the frame length. -/
def Obligations.DenormaliseBands : Prop :=
  ∀ s : State, modeOk s = true →
    ∃ m, completesWith .beDenormalise s s.regs m ∧
      (∀ c b j, c < s.channels → b < s.nbands → s.mem.band b ≤ j → j < s.mem.band (b + 1) →
        m.sig (j * s.channels + c) =
          sat32 (s.mem.norm (j * s.channels + c) * (s.mem.ener c b : Int) / 2 ^ 14)) ∧
      (∀ c j, c < s.channels → s.mem.band s.nbands ≤ j → j < s.frameLen → m.sig (j * s.channels + c) = 0) ∧
      s.mem.sameBut m (fun a => ∃ k, k < s.frameLen * s.channels ∧ sigAddr k ≤ a ∧ a ≤ sigAddr k + 3)

/-- R176 to R178: BE_RENORM_ALL and BE_RENORM_BAND divide each coefficient of a band of a channel by the root of one more
than the band's sum of squares as it was before the command. -/
def Obligations.RenormaliseBands : Prop :=
  ∀ s : State, modeOk s = true →
    (∃ m, completesWith .beRenormAll s s.regs m ∧
      (∀ c b j, c < s.channels → b < s.nbands → s.mem.band b ≤ j → j < s.mem.band (b + 1) →
        m.norm (j * s.channels + c) =
          sat16 (tdiv (s.mem.norm (j * s.channels + c) * 2 ^ 14) (isqrt (1 + s.mem.normSquares (s.bandIndices c b))))) ∧
      s.mem.sameBut m (normElems s.coveredIndices)) ∧
    (∀ b k : Byte, b.toNat < s.nbands → k.toNat % 4 ≠ 0 → ¬ (s.channels = 1 ∧ k.getLsbD 1 = true) →
      ∃ m, completesWith (.beRenormBand b k) s s.regs m ∧
        (∀ c j, c < s.channels → k.getLsbD c = true → s.mem.band b.toNat ≤ j → j < s.mem.band (b.toNat + 1) →
          m.norm (j * s.channels + c) =
            sat16 (tdiv (s.mem.norm (j * s.channels + c) * 2 ^ 14)
              (isqrt (1 + s.mem.normSquares (s.bandIndices c b.toNat))))) ∧
        s.mem.sameBut m (fun a => ∃ c, c < s.channels ∧ k.getLsbD c = true ∧
          normElems (s.bandIndices c b.toNat) a))

/-- R180: the band commands neither read nor write FBUF, a coder register or a stereo register (two runs that differ
only there end alike), only BE_COMPUTE changes ENER, and they run whatever the coder's state.  That a fault leaves the
same free bytes in both runs is the model's (assumption 3). -/
def Obligations.BandCommandsIgnoreTheCoder : Prop :=
  ∀ (i : Instr) (s s' : State), s.hw.legal = true → i.isBand = true →
    s' = { s with regs := { s.regs with rc := s'.regs.rc, st := s'.regs.st }, mem := s'.mem } →
    s.mem.sameBut s'.mem (fun a => 0x4000 ≤ a ∧ a < 0x8000) →
    ∃ t t', exec i s = .next t ∧ exec i s' = .next t' ∧
      t' = { t with regs := { t.regs with rc := s'.regs.rc, st := s'.regs.st }, mem := t'.mem } ∧
      t.regs.rc = s.regs.rc ∧ t.regs.st = s.regs.st ∧
      t.mem.sameBut t'.mem (fun a => 0x4000 ≤ a ∧ a < 0x8000) ∧
      (∀ a, 0x4000 ≤ a → a < 0x8000 → t.mem.byte a = s.mem.byte a ∧ t'.mem.byte a = s'.mem.byte a) ∧
      (i ≠ .beCompute → ∀ a, 0x0800 ≤ a → a < 0x1000 → t.mem.byte a = s.mem.byte a)

/-! ### The stereo unit -/

/-- R201, R203: ST_MIX rotates each pair of the band; mid/side uses the weight 11585 for both; intensity uses the two
energies, scaled by `2^(13 - p)` with `p` the exponent of the larger one and divided by their norm in Q14, or 0 and 0 for
two zero energies; and the intensity inverse takes the side slot as zero. -/
def Obligations.MixBand : Prop :=
  ∀ (s : State) (b sel : Byte), s.stereoBand b.toNat →
    (let w := mixWeights s.mem b.toNat (sel.getLsbD 0)
     let d : Int := if sel.getLsbD 1 then -1 else 1
     (sel.getLsbD 0 = false → w = (11585, 11585)) ∧
     (sel.getLsbD 0 = true →
       (let e0 := s.mem.ener 0 b.toNat
        let e1 := s.mem.ener 1 b.toNat
        (e0 = 0 → e1 = 0 → w = (0, 0)) ∧
        (∀ p : Nat, 2 ^ p ≤ max e0 e1 → max e0 e1 < 2 ^ (p + 1) →
          (let l := if 13 ≤ p then e0 / 2 ^ (p - 13) else e0 * 2 ^ (13 - p)
           let r := if 13 ≤ p then e1 / 2 ^ (p - 13) else e1 * 2 ^ (13 - p)
           let n := 1 + isqrt (1 + l * l + r * r)
           w = (((l * 16384 / n : Nat) : Int), ((r * 16384 / n : Nat) : Int)))))) ∧
     w.1 * w.1 + w.2 * w.2 < 2 ^ 28 ∧
     ∃ m, completesWith (.stMix b sel) s s.regs m ∧
       (∀ j, s.mem.band b.toNat ≤ j → j < s.mem.band (b.toNat + 1) →
         (let l := s.mem.norm (2 * j)
          let r := if sel.getLsbD 0 && sel.getLsbD 1 then 0 else s.mem.norm (2 * j + 1)
          m.norm (2 * j) = sat16 (w.1 * l / 2 ^ 14 + d * w.2 * r / 2 ^ 14) ∧
          m.norm (2 * j + 1) = sat16 (w.1 * r / 2 ^ 14 - d * w.2 * l / 2 ^ 14))) ∧
       s.mem.sameBut m (normElems (s.bandElements b.toNat)))

/-- R211: ST_QB, its result in 0 to 14, and 0 for every budget of at most 47 eighth-bits. -/
def Obligations.AngleResolution : Prop :=
  ∀ (s : State) (b : Byte), s.stereoBand b.toNat →
    ∃ q : Nat, q ≤ 14 ∧ completesWith (.stQb b) s { s.regs with res0 := BitVec.ofNat 32 q } s.mem ∧
      (q : Int) = max 0 (min 14 (tdiv (s.arg0Signed - 32) (16 * max 1 (s.mem.width b.toNat - 1) : Nat))) ∧
      (s.arg0Signed ≤ 47 → q = 0)

/-- R205, R208, R210, R212: ST_THETA_ENC measures the band, quantizes the angle ANGLE_FN gives, codes it as one of
`2^qb + 1` equal symbols and sets the stereo registers to R210's weights and delta; ST_SIGN and NORM stay.  As RC_ENCODE
does, it takes CARRY_OVF or BUF_OVF exactly when a symbol it puts out cannot be taken, and room for three always
suffices. -/
def Obligations.EncodeAngle : Prop :=
  ∀ (s : State) (b qb : Byte), s.ok → s.stereoBand b.toNat → s.regs.rc.ready .encode → qb.toNat % 16 ≤ 14 →
    (let q := qb.toNat % 16
     let m := isqrt (s.mem.normSquares ((s.mem.bins b.toNat).map (fun j => 2 * j)))
     let sd := isqrt (s.mem.normSquares ((s.mem.bins b.toNat).map (fun j => 2 * j + 1)))
     let tq := (angleFn s.hw.angle sd m * 2 ^ q + 8192) / 2 ^ 14
     let theta := tq * 2 ^ (14 - q)
     let n := s.mem.width b.toNat
     let w := trig theta n
     let v := narrowed s.regs.rc.val.toNat s.regs.rc.rng.toNat tq (tq + 1) (2 ^ q + 1)
     tq ≤ 2 ^ q ∧ m ≤ 2 ^ 19 ∧ sd ≤ 2 ^ 19 ∧
     (theta = 0 → w = { mid := 32767, side := 0, delta := -16384 }) ∧
     (theta = 16384 → w = { mid := 0, side := 32767, delta := 16384 }) ∧
     (theta ≠ 0 → theta ≠ 16384 → w =
       { mid := bcos theta, side := bcos (16384 - theta)
         delta := (16384 + ((n - 1) * 128 : Nat) * log2tan (bcos (16384 - theta)).toNat (bcos theta).toNat) / 2 ^ 15 }) ∧
     ∃ k ≤ 3, renormPasses v.2 k ∧
      (s.roomFor 3 → ∃ f, s.frontAfter (codeSymbols k v.1) = .ok f) ∧
      (∀ f, s.frontAfter (codeSymbols k v.1) = .ok f →
        ∃ c mem, completesWith (.stThetaEnc b qb) s
           { s.regs with
             rc := c, res0 := BitVec.ofNat 32 tq
             st := { theta := BitVec.ofNat 32 theta, imid := BitVec.ofInt 32 w.mid
                     iside := BitVec.ofInt 32 w.side, delta := BitVec.ofInt 32 w.delta, magm := BitVec.ofNat 32 m
                     mags := BitVec.ofNat 32 sd, sign := s.regs.st.sign } } mem ∧
         s.regs.rc.encoded c v.1 v.2 k ∧ c.front = f ∧
         s.mem.sameBut mem (frameRange s.regs.rc.offs.toNat c.offs.toNat)) ∧
      (∀ code, s.frontAfter (codeSymbols k v.1) = .error code →
        faultsWith (.stThetaEnc b qb) s code ((Instr.stThetaEnc b qb).footprint s)))

/-- R133, R134, R210, R213: ST_THETA_DEC decodes and commits one of `2^qb + 1` equal symbols and sets the stereo
registers to R210's weights and delta for its angle; ST_MAGM, ST_MAGS, ST_SIGN and all memory stay.  The record of the
decoding, its quotient, total and value, stays in RC_DQ, RC_DFT and RC_DFS, no longer pending. -/
def Obligations.DecodeAngle : Prop :=
  ∀ (s : State) (b qb : Byte), s.ok → s.stereoBand b.toNat → s.regs.rc.ready .decode → qb.toNat % 16 ≤ 14 →
    (let q := qb.toNat % 16
     let ft := 2 ^ q + 1
     let rate := s.regs.rc.rng.toNat / ft
     let tq := ft - min (s.regs.rc.val.toNat / rate + 1) ft
     let theta := tq * 2 ^ (14 - q)
     let n := s.mem.width b.toNat
     let w := trig theta n
     tq ≤ 2 ^ q ∧
     (theta = 0 → w = { mid := 32767, side := 0, delta := -16384 }) ∧
     (theta = 16384 → w = { mid := 0, side := 32767, delta := 16384 }) ∧
     (theta ≠ 0 → theta ≠ 16384 → w =
       { mid := bcos theta, side := bcos (16384 - theta)
         delta := (16384 + ((n - 1) * 128 : Nat) * log2tan (bcos (16384 - theta)).toNat (bcos theta).toNat) / 2 ^ 15 }) ∧
     ∃ c k, k ≤ 3 ∧ completesWith (.stThetaDec b qb) s
         { s.regs with
           rc := c, res0 := BitVec.ofNat 32 tq
           st := { s.regs.st with theta := BitVec.ofNat 32 theta, imid := BitVec.ofInt 32 w.mid
                                  iside := BitVec.ofInt 32 w.side, delta := BitVec.ofInt 32 w.delta } } s.mem ∧
       s.regs.rc.decoded c s.mem (s.regs.rc.val.toNat - rate * (ft - (tq + 1)))
         (narrowed 0 s.regs.rc.rng.toNat tq (tq + 1) ft).2 k ∧
       c.dpend = false ∧ c.dq = BitVec.ofNat 32 rate ∧ c.dft = BitVec.ofNat 32 ft ∧ c.dfs = BitVec.ofNat 32 tq)

/-- R216: ST_SPLIT writes RES0 and RES1 alone, and the two shares always add up to the budget. -/
def Obligations.SplitBudget : Prop :=
  ∀ (s : State) (b : Byte), s.stereoBand b.toNat →
    ∃ mb sb : Int, mb + sb = s.arg0Signed ∧
      completesWith (.stSplit b) s { s.regs with res0 := BitVec.ofInt 32 mb, res1 := BitVec.ofInt 32 sb } s.mem ∧
      (s.mem.width b.toNat = 2 →
        sb = if s.regs.st.theta.toNat = 0 ∨ s.regs.st.theta.toNat = 16384 then 0 else 8) ∧
      (s.mem.width b.toNat ≠ 2 →
        mb = max 0 (min s.arg0Signed (tdiv (s.arg0Signed - s.regs.st.delta.toInt) 2)))

/-- R217: ST_SCALE multiplies the band's mid slots by ST_IMID and its side slots by ST_ISIDE, rounding in Q15; R215: a
zero weight gives exactly zero coefficients. -/
def Obligations.ScaleBand : Prop :=
  ∀ (s : State) (b : Byte), s.stereoBand b.toNat →
    ∃ m, completesWith (.stScale b) s s.regs m ∧
      (∀ j, s.mem.band b.toNat ≤ j → j < s.mem.band (b.toNat + 1) →
        m.norm (2 * j) = sat16 ((s.mem.norm (2 * j) * (s.regs.st.imid.toNat : Int) + 16384) / 2 ^ 15) ∧
        m.norm (2 * j + 1) = sat16 ((s.mem.norm (2 * j + 1) * (s.regs.st.iside.toNat : Int) + 16384) / 2 ^ 15) ∧
        (s.regs.st.imid = 0#32 → m.norm (2 * j) = 0) ∧ (s.regs.st.iside = 0#32 → m.norm (2 * j + 1) = 0)) ∧
      s.mem.sameBut m (normElems (s.bandElements b.toNat))

/-- R116, R135, R218, R219: ST_SIGN2_ENC and ST_SIGN2_DEC of a band of width 2; RES0 is 1 when the angle is above 8192.  At
an edge angle both complete, the sign is 0 and no bit moves.  At any other angle the encoder's sign is that of the cross
product, and it writes that one raw bit exactly as RC_ENC_BITS writes one bit: above those in the window, the window's
four whole bytes first when it is full, or BUF_OVF when they do not fit.  The decoder completes and its sign is the one
raw bit that RC_DEC_BITS reads: the window's lowest, after a refill to 32 bits when the window is empty. -/
def Obligations.TwoCoefficientSign : Prop :=
  ∀ (s : State) (b : Byte), s.ok → s.stereoBand b.toNat → s.mem.width b.toNat = 2 →
    (let st := s.regs.st
     let edge := st.theta.toNat = 0 ∨ st.theta.toNat = 16384
     let c := if 8192 < st.theta.toNat then 1 else 0
     let j := s.mem.band b.toNat
     let rc := s.regs.rc
     let u := rc.nendBits.toNat
     (rc.ready .encode →
       (let sign := decide (s.mem.norm (2 * j + c) * s.mem.norm (2 * j + 3 - c) <
                            s.mem.norm (2 * j + 2 + c) * s.mem.norm (2 * j + 1 - c))
        let k := if u = 32 then 4 else 0
        (edge → completesWith (.stSign2Enc b) s
          { s.regs with st := { st with sign := false }, res0 := BitVec.ofNat 32 c } s.mem) ∧
        (¬ edge → rc.offs.toNat + rc.endOffs.toNat + k ≤ rc.storage.toNat →
          ∃ (rc' : Coder) (m : Memory), completesWith (.stSign2Enc b) s
              { s.regs with rc := rc', res0 := BitVec.ofNat 32 c, st := { st with sign := sign } } m ∧
            rc' = { rc with endOffs := rc'.endOffs, endWin := rc'.endWin, nendBits := rc'.nendBits
                            nbitsTotal := rc'.nbitsTotal } ∧
            rc'.endOffs.toNat = rc.endOffs.toNat + k ∧
            rc'.nendBits.toNat = u - 8 * k + 1 ∧
            rc'.endWin.toNat = rc.endWin.toNat / 256 ^ k + sign.toNat * 2 ^ (u - 8 * k) ∧
            (rc.nbitsTotal.toNat + 1 < 2 ^ 32 → rc'.nbitsTotal.toNat = rc.nbitsTotal.toNat + 1) ∧
            (∀ i, i < k → m.fbuf (rc.storage.toNat - 1 - (rc.endOffs.toNat + i)) = rc.endWin.toNat / 256 ^ i % 256) ∧
            s.mem.sameBut m
              (frameRange (rc.storage.toNat - rc'.endOffs.toNat) (rc.storage.toNat - rc.endOffs.toNat))) ∧
        (¬ edge → rc.storage.toNat < rc.offs.toNat + rc.endOffs.toNat + k →
          faultsWith (.stSign2Enc b) s .bufOvf ((Instr.stSign2Enc b).footprint s)))) ∧
     (rc.ready .decode →
       (let k := if u = 0 then 4 else 0
        let window := rc.endWin.toNat + s.mem.endBytes rc.storage.toNat rc.endOffs.toNat k * 2 ^ u
        (edge → completesWith (.stSign2Dec b) s
          { s.regs with st := { st with sign := false }, res0 := BitVec.ofNat 32 c } s.mem) ∧
        (¬ edge →
          ∃ rc' : Coder, completesWith (.stSign2Dec b) s
              { s.regs with rc := rc', res0 := BitVec.ofNat 32 c, st := { st with sign := decide (window % 2 = 1) } }
              s.mem ∧
            rc' = { rc with endOffs := rc'.endOffs, endWin := rc'.endWin, nendBits := rc'.nendBits
                            nbitsTotal := rc'.nbitsTotal } ∧
            rc'.endOffs.toNat = min (rc.endOffs.toNat + k) rc.storage.toNat ∧
            rc'.endWin.toNat = window / 2 ∧
            rc'.nendBits.toNat = u + 8 * k - 1 ∧
            (rc.nbitsTotal.toNat + 1 < 2 ^ 32 → rc'.nbitsTotal.toNat = rc.nbitsTotal.toNat + 1)))))

/-- R220: ST_SIGN2_REBUILD turns the coded vector of a band of width 2 by a quarter turn, its direction ST_SIGN, into the
other slot; the coded vector stays. -/
def Obligations.RebuildVector : Prop :=
  ∀ (s : State) (b : Byte), s.stereoBand b.toNat → s.mem.width b.toNat = 2 →
    (let c := if 8192 < s.regs.st.theta.toNat then 1 else 0
     let j := s.mem.band b.toNat
     let x0 := s.mem.norm (2 * j + c)
     let x1 := s.mem.norm (2 * j + 2 + c)
     ∃ m, completesWith (.stSign2Rebuild b) s s.regs m ∧
       m.norm (2 * j + 1 - c) = sat16 (if s.regs.st.sign then x1 else -x1) ∧
       m.norm (2 * j + 3 - c) = sat16 (if s.regs.st.sign then -x0 else x0) ∧
       m.norm (2 * j + c) = x0 ∧ m.norm (2 * j + 2 + c) = x1 ∧
       s.mem.sameBut m (normElems [2 * j + 1 - c, 2 * j + 3 - c]))

/-- R223: no stereo command changes ENER or SIG; only ST_THETA_ENC and ST_SIGN2_ENC change FBUF when they complete; only
ST_MIX, ST_SCALE and ST_SIGN2_REBUILD may change NORM.  After a fault of one of the four coding commands the frame's bytes
may differ too: the model's reading of R270 (assumption 3). -/
def Obligations.StereoCommandsKeepEnergies : Prop :=
  ∀ (i : Instr) (s t : State), s.hw.legal = true → i.isStereo = true → exec i s = .next t → ∀ a,
    (a < 0x4000 ∨ (0x8000 ≤ a ∧ a < 0xC000) → t.mem.byte a = s.mem.byte a) ∧
    (0x4000 ≤ a → a < 0x8000 → i.mnemonic ∉ ["ST_THETA_ENC", "ST_THETA_DEC", "ST_SIGN2_ENC", "ST_SIGN2_DEC"] →
      t.mem.byte a = s.mem.byte a) ∧
    (0x4000 ≤ a → a < 0x8000 → i.mnemonic ∉ ["ST_THETA_ENC", "ST_SIGN2_ENC"] → s.regs.fault = none →
      t.regs.fault = none → t.mem.byte a = s.mem.byte a) ∧
    (0xC000 ≤ a → i.mnemonic ∉ ["ST_MIX", "ST_SCALE", "ST_SIGN2_REBUILD"] → t.mem.byte a = s.mem.byte a)

/-! ### The integer primitives and the angle functions -/

/-- R13: `isqrt` is the largest integer whose square is at most its argument. -/
def Obligations.IsqrtIsLargest : Prop :=
  ∀ x : Nat, isqrt x * isqrt x ≤ x ∧ ∀ r : Nat, r * r ≤ x → r ≤ isqrt x

/-- R206, R207, R209: the block's cosine and log-tangent, each by its rule's formula; and the reference angle is the
smallest angle of least error against that cosine. -/
def Obligations.ReferenceAngleIsBest : Prop :=
  (∀ x : Nat, x ≤ 16384 →
    (let round : Int → Int := fun y => (16384 + y) / 32768
     let t : Int := min 32767 ((4096 + x * x) / 8192 : Nat)
     bcos x = 1 + min 32766 (32767 - t + round (t * (-7651 + round (t * (8277 + round (-626 * t))))))) ∧
    1 ≤ bcos x ∧ bcos x ≤ 32767) ∧
  (∀ isin icos p q : Nat, 2 ^ p ≤ isin → isin < 2 ^ (p + 1) → p < 15 → 2 ^ q ≤ icos → icos < 2 ^ (q + 1) → q < 15 →
    (let round : Int → Int := fun y => (16384 + y) / 32768
     let s : Int := (isin * 2 ^ (14 - p) : Nat)
     let c : Int := (icos * 2 ^ (14 - q) : Nat)
     log2tan isin icos =
       ((p : Int) - q) * 2048 + round (s * (round (s * -2597) + 7932)) - round (c * (round (c * -2597) + 7932)))) ∧
  ∀ s m : Nat, 0 < s → 0 < m →
    angleReference s m ≤ 16384 ∧
    ∀ t : Nat, t ≤ 16384 →
      (angleGap s m (angleReference s m)).natAbs ≤ (angleGap s m t).natAbs ∧
      ((angleGap s m t).natAbs = (angleGap s m (angleReference s m)).natAbs → angleReference s m ≤ t)

/-- R207: every free ANGLE_FN of the model is one that the rule allows: total, in 0 to 16384, exact at the two edges, and
monotone in each argument; and the reference has the first two properties. -/
def Obligations.AngleFunctionsAreAllowed : Prop :=
  (∀ (a : AngleSel) (s m : Nat), angleFn a s m ≤ 16384 ∧ angleFn a 0 m = 0 ∧ (0 < s → angleFn a s 0 = 16384)) ∧
  (∀ (k s s' m : Nat), s ≤ s' → angleFn (.other k) s m ≤ angleFn (.other k) s' m) ∧
  (∀ (k s m m' : Nat), m ≤ m' → angleFn (.other k) s m' ≤ angleFn (.other k) s m)

/-- R208: quantizing and dequantizing an angle gives the nearest multiple of the step, ties upward, and keeps the two
edge angles. -/
def Obligations.QuantizedAngleIsNearest : Prop :=
  ∀ t qb : Nat, t ≤ 16384 → qb ≤ 14 →
    (let d := dequantize (quantize t qb) qb
     quantize t qb ≤ 2 ^ qb ∧ d % 2 ^ (14 - qb) = 0 ∧ d ≤ 16384 ∧
     2 * d ≤ 2 * t + 2 ^ (14 - qb) ∧ 2 * t < 2 * d + 2 ^ (14 - qb) ∧
     (t = 0 → d = 0) ∧ (t = 16384 → d = 16384))
end

