-- ==== Sys2Proof/Laws/Arith.lean ====
section
/-! SUPPORT. The ranges and the basic equations of the integer primitives (R12 to R14). -/

namespace Sys2Proof.Machine

theorem asr_eq (x : Int) (n : Nat) : asr x n = x / 2 ^ n := by simp [asr]

theorem clamp_range {lo hi x : Int} (h : lo ≤ hi) : lo ≤ clamp lo hi x ∧ clamp lo hi x ≤ hi := by
  unfold clamp; omega

theorem clamp_of_mem {lo hi x : Int} (h1 : lo ≤ x) (h2 : x ≤ hi) : clamp lo hi x = x := by
  unfold clamp; omega

theorem sat16_range (x : Int) : -32768 ≤ sat16 x ∧ sat16 x ≤ 32767 := clamp_range (by norm_num)
theorem sat32_range (x : Int) : -2147483648 ≤ sat32 x ∧ sat32 x ≤ 2147483647 := clamp_range (by norm_num)
theorem satu32_range (x : Int) : 0 ≤ satu32 x ∧ satu32 x ≤ 4294967295 := clamp_range (by norm_num)

@[simp] theorem sat16_zero : sat16 0 = 0 := rfl

/-- Rounding toward zero: `tdiv` is Lean's `Int.tdiv`. -/
theorem tdiv_eq (a b : Int) : tdiv a b = a.tdiv b := by
  obtain ⟨n, rfl | rfl⟩ := a.eq_nat_or_neg <;> obtain ⟨m, rfl | rfl⟩ := b.eq_nat_or_neg <;>
    rcases Nat.eq_zero_or_pos n with rfl | hn <;> rcases Nat.eq_zero_or_pos m with rfl | hm <;>
    simp_all [tdiv, Int.sign_eq_one_of_pos, Int.neg_tdiv, Int.tdiv_neg]

/-- A 16-bit element holds every value `sat16` gives. -/
theorem ofInt16_toInt_of_range {x : Int} (h1 : -32768 ≤ x) (h2 : x ≤ 32767) : (BitVec.ofInt 16 x).toInt = x := by
  rw [BitVec.toInt_ofInt, Int.bmod_eq_of_le] <;> omega

/-- A 32-bit element holds every value `sat32` gives. -/
theorem regInt_toInt_of_range {x : Int} (h1 : -2147483648 ≤ x) (h2 : x ≤ 2147483647) : (regInt x).toInt = x := by
  rw [regInt, BitVec.toInt_ofInt, Int.bmod_eq_of_le] <;> omega

/-- A 32-bit element holds every value `satu32` gives. -/
theorem regInt_toNat_of_range {x : Int} (h1 : 0 ≤ x) (h2 : x ≤ 4294967295) : ((regInt x).toNat : Int) = x := by
  rw [regInt, BitVec.toNat_ofInt]; omega

end Sys2Proof.Machine
end

