-- ==== Sys2Proof/Laws/Memory.lean ====
section
/-! SUPPORT. The laws of the byte memory: what a write leaves readable, and that every memory operation keeps the
canonical form. -/

namespace Sys2Proof.Machine

/-! ### The cell list -/

/-- A listed byte is the one written last under its address; every other address is listed as before. -/
theorem lookup_insertCell (a : Nat) (b : Byte) (cs : List Host.Cell) (a' : Nat) :
    lookup (insertCell a b cs) a' = if a' = a then some b else lookup cs a' := by
  induction cs with
  | nil => simp [insertCell, lookup]
  | cons c rest ih =>
    obtain ⟨k, v⟩ := c
    unfold insertCell
    split_ifs with h1 h2 h3 h4 h5 <;> simp_all [lookup]

/-- Inserting keeps the least address from falling below a bound. -/
theorem rising_cons_insertCell (k : Nat) (v : Byte) (a : Nat) (b : Byte) (cs : List Host.Cell) (hk : k < a)
    (h : rising ((k, v) :: cs) = true) : rising ((k, v) :: insertCell a b cs) = true := by
  induction cs generalizing k v with
  | nil => simp [insertCell, rising, hk]
  | cons c rest ih =>
    obtain ⟨k', v'⟩ := c
    simp only [rising, Bool.and_eq_true, decide_eq_true_eq] at h
    unfold insertCell
    split_ifs with h1 h2
    · simp [rising, hk, h1, h.2]
    · subst h2
      cases rest with
      | nil => simp [rising, hk]
      | cons d rest' => simpa [rising, hk] using h.2
    · simp only [rising, Bool.and_eq_true, decide_eq_true_eq]
      exact ⟨h.1, ih k' v' (by omega) h.2⟩

/-- A write keeps the addresses strictly rising. -/
theorem rising_insertCell (a : Nat) (b : Byte) (cs : List Host.Cell) (h : rising cs = true) :
    rising (insertCell a b cs) = true := by
  cases cs with
  | nil => simp [insertCell, rising]
  | cons c rest =>
    obtain ⟨k, v⟩ := c
    unfold insertCell
    split_ifs with h1 h2
    · simp [rising, h1, h]
    · subst h2
      cases rest with
      | nil => simp [rising]
      | cons d rest' => simpa [rising] using h
    · exact rising_cons_insertCell k v a b rest (by omega) h

/-- A write lists its own address and no other new one. -/
theorem mem_insertCell {a : Nat} {b : Byte} {cs : List Host.Cell} {p : Host.Cell} (h : p ∈ insertCell a b cs) :
    p = (a, b) ∨ p ∈ cs := by
  induction cs with
  | nil => simpa [insertCell] using h
  | cons c rest ih =>
    obtain ⟨k, v⟩ := c
    unfold insertCell at h
    split_ifs at h with h1 h2
    · simpa using h
    · rcases List.mem_cons.1 h with h | h
      · exact .inl h
      · exact .inr (List.mem_cons_of_mem _ h)
    · rcases List.mem_cons.1 h with h | h
      · exact .inr (h ▸ List.mem_cons_self)
      · rcases ih h with h | h
        · exact .inl h
        · exact .inr (List.mem_cons_of_mem _ h)

/-! ### One byte -/

/-- Reading a byte after a byte write: the written byte at its address, and the byte before elsewhere. -/
theorem Memory.byte_setByte (m : Memory) (a : Nat) (b : Byte) (a' : Nat) :
    (m.setByte a b).byte a' = if a' = a then b else m.byte a' := by
  simp only [Memory.byte, Memory.setByte, lookup_insertCell]
  split_ifs <;> simp_all

@[simp] theorem Memory.byte_setByte_same (m : Memory) (a : Nat) (b : Byte) : (m.setByte a b).byte a = b := by
  simp [Memory.byte_setByte]

theorem Memory.byte_setByte_other (m : Memory) {a a' : Nat} (b : Byte) (h : a' ≠ a) :
    (m.setByte a b).byte a' = m.byte a' := by
  simp [Memory.byte_setByte, h]

@[simp] theorem Memory.power_setByte (m : Memory) (a : Nat) (b : Byte) : (m.setByte a b).power = m.power := rfl

theorem Memory.wf_setByte (m : Memory) (a : Nat) (b : Byte) (h : m.wf = true) : (m.setByte a b).wf = true :=
  rising_insertCell a b m.cells h

/-- A byte write lists its own address and no other new one. -/
theorem Memory.mem_setByte {m : Memory} {a : Nat} {b : Byte} {p : Host.Cell} (h : p ∈ (m.setByte a b).cells) :
    p.1 = a ∨ p ∈ m.cells := by
  rcases mem_insertCell h with h | h
  · exact .inl (by rw [h])
  · exact .inr h

/-! ### 16-bit and 32-bit elements -/

theorem half_bytes (v : Half) : v.extractLsb' 8 8 ++ v.extractLsb' 0 8 = v := by
  rw [BitVec.extractLsb'_append_extractLsb'_eq_extractLsb' (by rfl)]
  exact BitVec.extractLsb'_eq_self

theorem word_bytes (v : Word) :
    v.extractLsb' 24 8 ++ v.extractLsb' 16 8 ++ v.extractLsb' 8 8 ++ v.extractLsb' 0 8 = v := by
  rw [BitVec.extractLsb'_append_extractLsb'_eq_extractLsb' (by rfl),
    BitVec.extractLsb'_append_extractLsb'_eq_extractLsb' (by rfl),
    BitVec.extractLsb'_append_extractLsb'_eq_extractLsb' (by rfl)]
  exact BitVec.extractLsb'_eq_self

/-- A byte read after a 16-bit write: the write changes its two bytes alone. -/
theorem Memory.byte_setHalf_other (m : Memory) {a a' : Nat} (v : Half) (h : a' ≠ a ∧ a' ≠ a + 1) :
    (m.setHalf a v).byte a' = m.byte a' := by
  simp [Memory.setHalf, Memory.byte_setByte, h.1, h.2]

/-- A byte read after a 32-bit write: the write changes its four bytes alone. -/
theorem Memory.byte_setWord_other (m : Memory) {a a' : Nat} (v : Word) (h : a' < a ∨ a + 3 < a') :
    (m.setWord a v).byte a' = m.byte a' := by
  unfold Memory.setWord
  repeat rw [Memory.byte_setByte_other _ _ (by omega)]

@[simp] theorem Memory.half_setHalf_same (m : Memory) (a : Nat) (v : Half) : (m.setHalf a v).half a = v := by
  simp only [Memory.half, Memory.setHalf, Memory.byte_setByte_same]
  rw [Memory.byte_setByte_other _ _ (by omega), Memory.byte_setByte_same, half_bytes]

@[simp] theorem Memory.word_setWord_same (m : Memory) (a : Nat) (v : Word) : (m.setWord a v).word a = v := by
  unfold Memory.word Memory.setWord
  rw [Memory.byte_setByte_same]
  rw [Memory.byte_setByte_other _ _ (show a + 2 ≠ a + 3 by omega), Memory.byte_setByte_same]
  rw [Memory.byte_setByte_other _ _ (show a + 1 ≠ a + 3 by omega),
    Memory.byte_setByte_other _ _ (show a + 1 ≠ a + 2 by omega), Memory.byte_setByte_same]
  rw [Memory.byte_setByte_other _ _ (show a ≠ a + 3 by omega), Memory.byte_setByte_other _ _ (show a ≠ a + 2 by omega),
    Memory.byte_setByte_other _ _ (show a ≠ a + 1 by omega), Memory.byte_setByte_same]
  exact word_bytes v

/-- Two 16-bit elements whose bytes do not meet. -/
theorem Memory.half_setHalf_other (m : Memory) {a a' : Nat} (v : Half) (h : a' + 1 < a ∨ a + 1 < a') :
    (m.setHalf a v).half a' = m.half a' := by
  unfold Memory.half
  rw [Memory.byte_setHalf_other _ _ (by omega), Memory.byte_setHalf_other _ _ (by omega)]

/-- Two 32-bit elements whose bytes do not meet. -/
theorem Memory.word_setWord_other (m : Memory) {a a' : Nat} (v : Word) (h : a' + 3 < a ∨ a + 3 < a') :
    (m.setWord a v).word a' = m.word a' := by
  unfold Memory.word
  rw [Memory.byte_setWord_other _ _ (by omega), Memory.byte_setWord_other _ _ (by omega),
    Memory.byte_setWord_other _ _ (by omega), Memory.byte_setWord_other _ _ (by omega)]

theorem Memory.wf_setHalf (m : Memory) (a : Nat) (v : Half) (h : m.wf = true) : (m.setHalf a v).wf = true :=
  Memory.wf_setByte _ _ _ (Memory.wf_setByte _ _ _ h)

theorem Memory.wf_setWord (m : Memory) (a : Nat) (v : Word) (h : m.wf = true) : (m.setWord a v).wf = true :=
  Memory.wf_setByte _ _ _ (Memory.wf_setByte _ _ _ (Memory.wf_setByte _ _ _ (Memory.wf_setByte _ _ _ h)))

@[simp] theorem Memory.power_setHalf (m : Memory) (a : Nat) (v : Half) : (m.setHalf a v).power = m.power := rfl
@[simp] theorem Memory.power_setWord (m : Memory) (a : Nat) (v : Word) : (m.setWord a v).power = m.power := rfl

theorem Memory.mem_setHalf {m : Memory} {a : Nat} {v : Half} {p : Host.Cell} (h : p ∈ (m.setHalf a v).cells) :
    p.1 = a ∨ p.1 = a + 1 ∨ p ∈ m.cells := by
  rcases Memory.mem_setByte h with h | h
  · exact .inr (.inl h)
  · rcases Memory.mem_setByte h with h | h
    · exact .inl h
    · exact .inr (.inr h)

theorem Memory.mem_setWord {m : Memory} {a : Nat} {v : Word} {p : Host.Cell} (h : p ∈ (m.setWord a v).cells) :
    (a ≤ p.1 ∧ p.1 ≤ a + 3) ∨ p ∈ m.cells := by
  rcases Memory.mem_setByte h with h | h
  · exact .inl (by omega)
  rcases Memory.mem_setByte h with h | h
  · exact .inl (by omega)
  rcases Memory.mem_setByte h with h | h
  · exact .inl (by omega)
  rcases Memory.mem_setByte h with h | h
  · exact .inl (by omega)
  exact .inr h

/-! ### Lists of element writes -/

/-- An invariant that every single write keeps is kept by the whole list of writes. -/
theorem foldl_keeps {α : Type} (P : Memory → Prop) (f : Memory → α → Memory) (ws : List α) (m : Memory) (h : P m)
    (hf : ∀ m, ∀ w ∈ ws, P m → P (f m w)) : P (ws.foldl f m) := by
  induction ws generalizing m with
  | nil => exact h
  | cons w rest ih =>
    exact ih (f m w) (hf m w List.mem_cons_self h) (fun m' w' hw' => hf m' w' (List.mem_cons_of_mem _ hw'))

theorem Memory.wf_setNorms (m : Memory) (ws : List (Nat × Int)) (h : m.wf = true) : (m.setNorms ws).wf = true :=
  foldl_keeps (fun m => m.wf = true) _ ws m h (fun m _ _ hm => Memory.wf_setHalf m _ _ hm)

theorem Memory.wf_setSigs (m : Memory) (ws : List (Nat × Int)) (h : m.wf = true) : (m.setSigs ws).wf = true :=
  foldl_keeps (fun m => m.wf = true) _ ws m h (fun m _ _ hm => Memory.wf_setWord m _ _ hm)

theorem Memory.wf_setEners (m : Memory) (ws : List ((Nat × Nat) × Int)) (h : m.wf = true) :
    (m.setEners ws).wf = true :=
  foldl_keeps (fun m => m.wf = true) _ ws m h (fun m _ _ hm => Memory.wf_setWord m _ _ hm)

theorem Memory.wf_unspecify (m : Memory) (n : Nat) (as : List Nat) (h : m.wf = true) : (m.unspecify n as).wf = true :=
  foldl_keeps (fun m => m.wf = true) _ as m h (fun m _ _ hm => Memory.wf_setByte m _ _ hm)

/-- Writing NORM elements changes their bytes alone. -/
theorem Memory.byte_setNorms_other (m : Memory) (ws : List (Nat × Int)) (a : Nat)
    (h : ¬ normElems (ws.map Prod.fst) a) : (m.setNorms ws).byte a = m.byte a := by
  refine foldl_keeps (fun m' => m'.byte a = m.byte a) _ ws m rfl (fun m' w hw hm => ?_)
  have hw' : w.1 ∈ ws.map Prod.fst := List.mem_map_of_mem hw
  rw [Memory.byte_setHalf_other _ _ ⟨fun e => h ⟨w.1, hw', .inl e⟩, fun e => h ⟨w.1, hw', .inr e⟩⟩, hm]

/-- Writing SIG elements changes their bytes alone. -/
theorem Memory.byte_setSigs_other (m : Memory) (ws : List (Nat × Int)) (a : Nat)
    (h : ¬ sigElems (ws.map Prod.fst) a) : (m.setSigs ws).byte a = m.byte a := by
  refine foldl_keeps (fun m' => m'.byte a = m.byte a) _ ws m rfl (fun m' w hw hm => ?_)
  have hw' : w.1 ∈ ws.map Prod.fst := List.mem_map_of_mem hw
  have h' : ¬ (sigAddr w.1 ≤ a ∧ a ≤ sigAddr w.1 + 3) := fun e => h ⟨w.1, hw', e⟩
  rw [Memory.byte_setWord_other _ _ (by omega), hm]

/-- Writing ENER elements changes their bytes alone. -/
theorem Memory.byte_setEners_other (m : Memory) (ws : List ((Nat × Nat) × Int)) (a : Nat)
    (h : ¬ enerElems (ws.map Prod.fst) a) : (m.setEners ws).byte a = m.byte a := by
  refine foldl_keeps (fun m' => m'.byte a = m.byte a) _ ws m rfl (fun m' w hw hm => ?_)
  have hw' : w.1 ∈ ws.map Prod.fst := List.mem_map_of_mem hw
  have h' : ¬ (enerAddr w.1.1 w.1.2 ≤ a ∧ a ≤ enerAddr w.1.1 w.1.2 + 3) := fun e => h ⟨w.1, hw', e⟩
  rw [Memory.byte_setWord_other _ _ (by omega), hm]

/-- A fault leaves every byte outside its list as it was. -/
theorem Memory.byte_unspecify_other (m : Memory) (n : Nat) (as : List Nat) (a : Nat) (h : a ∉ as) :
    (m.unspecify n as).byte a = m.byte a := by
  refine foldl_keeps (fun m' => m'.byte a = m.byte a) _ as m rfl (fun m' w hw hm => ?_)
  rw [Memory.byte_setByte_other _ _ (fun e => h (by rw [e]; exact hw)), hm]

theorem Memory.sameBut_unspecify (m : Memory) (n : Nat) {as : List Nat} {touched : Nat → Prop}
    (h : ∀ a ∈ as, touched a) : m.sameBut (m.unspecify n as) touched :=
  fun a ha => Memory.byte_unspecify_other m n as a (fun hm => ha (h a hm))

/-- A NORM element read after a list of writes, none of them to it. -/
theorem Memory.half_setNorms_other (m : Memory) (ws : List (Nat × Int)) (k : Nat) (h : k ∉ ws.map Prod.fst) :
    (m.setNorms ws).half (normAddr k) = m.half (normAddr k) := by
  refine foldl_keeps (fun m' => m'.half (normAddr k) = m.half (normAddr k)) _ ws m rfl (fun m' w hw hm => ?_)
  have hne : w.1 ≠ k := fun e => h (by rw [← e]; exact List.mem_map_of_mem hw)
  rw [Memory.half_setHalf_other _ _ (by unfold normAddr; omega), hm]

/-- A NORM element read after a list of writes of distinct elements, one of them to it. -/
theorem Memory.half_setNorms_same (m : Memory) (ws : List (Nat × Int)) (k : Nat) (v : Int)
    (hd : (ws.map Prod.fst).Nodup) (h : (k, v) ∈ ws) :
    (m.setNorms ws).half (normAddr k) = BitVec.ofInt 16 v := by
  induction ws generalizing m with
  | nil => simp at h
  | cons w rest ih =>
    simp only [List.map_cons, List.nodup_cons] at hd
    change Memory.half (Memory.setNorms (m.setHalf (normAddr w.1) (BitVec.ofInt 16 w.2)) rest) _ = _
    rcases List.mem_cons.1 h with h | h
    · subst h
      rw [Memory.half_setNorms_other _ _ _ hd.1, Memory.half_setHalf_same]
    · exact ih _ hd.2 h

/-- A SIG element read after a list of writes, none of them to it. -/
theorem Memory.word_setSigs_other (m : Memory) (ws : List (Nat × Int)) (k : Nat) (h : k ∉ ws.map Prod.fst) :
    (m.setSigs ws).word (sigAddr k) = m.word (sigAddr k) := by
  refine foldl_keeps (fun m' => m'.word (sigAddr k) = m.word (sigAddr k)) _ ws m rfl (fun m' w hw hm => ?_)
  have hne : w.1 ≠ k := fun e => h (by rw [← e]; exact List.mem_map_of_mem hw)
  rw [Memory.word_setWord_other _ _ (by unfold sigAddr; omega), hm]

/-- A SIG element read after a list of writes of distinct elements, one of them to it. -/
theorem Memory.word_setSigs_same (m : Memory) (ws : List (Nat × Int)) (k : Nat) (v : Int)
    (hd : (ws.map Prod.fst).Nodup) (h : (k, v) ∈ ws) : (m.setSigs ws).word (sigAddr k) = regInt v := by
  induction ws generalizing m with
  | nil => simp at h
  | cons w rest ih =>
    simp only [List.map_cons, List.nodup_cons] at hd
    change Memory.word (Memory.setSigs (m.setWord (sigAddr w.1) (regInt w.2)) rest) _ = _
    rcases List.mem_cons.1 h with h | h
    · subst h
      rw [Memory.word_setSigs_other _ _ _ hd.1, Memory.word_setWord_same]
    · exact ih _ hd.2 h

/-- Different elements of the energy bank stand at different offsets, when a channel has at most 256 of them. -/
theorem enerAddr_injective {c b c' b' : Nat} (hb : b < 256) (hb' : b' < 256) (h : enerAddr c b = enerAddr c' b') :
    (c, b) = (c', b') := by
  unfold enerAddr at h
  have h1 : c = c' := by omega
  have h2 : b = b' := by omega
  rw [h1, h2]

/-- An ENER element read after a list of writes, none of them to it. -/
theorem Memory.word_setEners_other (m : Memory) (ws : List ((Nat × Nat) × Int)) (c b : Nat) (hb : b < 256)
    (hws : ∀ w ∈ ws, w.1.2 < 256) (h : (c, b) ∉ ws.map Prod.fst) :
    (m.setEners ws).word (enerAddr c b) = m.word (enerAddr c b) := by
  refine foldl_keeps (fun m' => m'.word (enerAddr c b) = m.word (enerAddr c b)) _ ws m rfl (fun m' w hw hm => ?_)
  have hw2 := hws w hw
  have hne : ¬ (w.1.1 = c ∧ w.1.2 = b) := by
    rintro ⟨h1, h2⟩
    exact h (List.mem_map.2 ⟨w, hw, by rw [← h1, ← h2]⟩)
  rw [Memory.word_setWord_other _ _ (by unfold enerAddr; omega), hm]

/-- An ENER element read after a list of writes of distinct elements, one of them to it. -/
theorem Memory.word_setEners_same (m : Memory) (ws : List ((Nat × Nat) × Int)) (c b : Nat) (v : Int)
    (hws : ∀ w ∈ ws, w.1.2 < 256) (hd : (ws.map Prod.fst).Nodup) (h : ((c, b), v) ∈ ws) :
    (m.setEners ws).word (enerAddr c b) = regInt v := by
  induction ws generalizing m with
  | nil => simp at h
  | cons w rest ih =>
    simp only [List.map_cons, List.nodup_cons] at hd
    change Memory.word (Memory.setEners (m.setWord (enerAddr w.1.1 w.1.2) (regInt w.2)) rest) _ = _
    rcases List.mem_cons.1 h with h | h
    · subst h
      have hb : b < 256 := hws ((c, b), v) List.mem_cons_self
      rw [Memory.word_setEners_other _ _ _ _ hb (fun w hw => hws w (List.mem_cons_of_mem _ hw)) hd.1,
        Memory.word_setWord_same]
    · exact ih _ (fun w hw => hws w (List.mem_cons_of_mem _ hw)) hd.2 h

/-- The reset memory has the canonical form. -/
theorem reset_memory_wf : State.reset.mem.wf = true := by decide

end Sys2Proof.Machine
end

