-- ==== Sys2Proof/Laws/State.lean ====
section
/-! SUPPORT. The small lemmas of the state updates: one per field, true by rfl, so that no later proof unfolds a record
update. -/

namespace Sys2Proof.Machine

/-! ### Completion (R273) -/

@[simp] theorem complete_hw (s : State) : (s.complete).hw = s.hw := rfl
@[simp] theorem complete_mem (s : State) : (s.complete).mem = s.mem := rfl
@[simp] theorem complete_port (s : State) : (s.complete).port = s.port := rfl
@[simp] theorem complete_replies (s : State) : (s.complete).replies = s.replies := rfl
@[simp] theorem complete_draws (s : State) : (s.complete).draws = s.draws := rfl
@[simp] theorem complete_phase (s : State) : (s.complete).phase = .idle := rfl
@[simp] theorem complete_regs (s : State) : (s.complete).regs = { s.regs with done := true } := rfl

/-! ### Writing back the coder -/

@[simp] theorem putRc_hw (s : State) (x : Rc) : (s.putRc x).hw = s.hw := rfl
@[simp] theorem putRc_phase (s : State) (x : Rc) : (s.putRc x).phase = s.phase := rfl
@[simp] theorem putRc_port (s : State) (x : Rc) : (s.putRc x).port = s.port := rfl
@[simp] theorem putRc_replies (s : State) (x : Rc) : (s.putRc x).replies = s.replies := rfl
@[simp] theorem putRc_draws (s : State) (x : Rc) : (s.putRc x).draws = s.draws := rfl
@[simp] theorem putRc_mem (s : State) (x : Rc) : (s.putRc x).mem = x.mem := rfl
@[simp] theorem putRc_regs (s : State) (x : Rc) : (s.putRc x).regs = { s.regs with rc := x.coder } := rfl

/-! ### The coder's view -/

@[simp] theorem rcView_coder (s : State) : (s.rcView).coder = s.regs.rc := rfl
@[simp] theorem rcView_mem (s : State) : (s.rcView).mem = s.mem := rfl

/-! ### Fault entry (R270) -/

@[simp] theorem faultEntry_hw (c : FaultCode) (w : Word) (touched : List Nat) (s : State) : (faultEntry c w touched s).hw = s.hw := rfl
@[simp] theorem faultEntry_port (c : FaultCode) (w : Word) (touched : List Nat) (s : State) : (faultEntry c w touched s).port = s.port := rfl
@[simp] theorem faultEntry_replies (c : FaultCode) (w : Word) (touched : List Nat) (s : State) : (faultEntry c w touched s).replies = s.replies := rfl
@[simp] theorem faultEntry_phase (c : FaultCode) (w : Word) (touched : List Nat) (s : State) : (faultEntry c w touched s).phase = .idle := rfl
@[simp] theorem faultEntry_draws (c : FaultCode) (w : Word) (touched : List Nat) (s : State) : (faultEntry c w touched s).draws = s.draws + 1 := rfl
@[simp] theorem faultEntry_mem (c : FaultCode) (w : Word) (touched : List Nat) (s : State) : (faultEntry c w touched s).mem = s.mem.unspecify s.draws touched := rfl
@[simp] theorem faultEntry_regs (c : FaultCode) (w : Word) (touched : List Nat) (s : State) : (faultEntry c w touched s).regs = { s.regs with fault := some c, faultCmd := w, done := true } := rfl

/-! ### An answer at the port -/

@[simp] theorem answer_hw (s : State) (r : Reply) : (s.answer r).hw = s.hw := rfl
@[simp] theorem answer_regs (s : State) (r : Reply) : (s.answer r).regs = s.regs := rfl
@[simp] theorem answer_mem (s : State) (r : Reply) : (s.answer r).mem = s.mem := rfl
@[simp] theorem answer_phase (s : State) (r : Reply) : (s.answer r).phase = s.phase := rfl
@[simp] theorem answer_port (s : State) (r : Reply) : (s.answer r).port = s.port := rfl
@[simp] theorem answer_draws (s : State) (r : Reply) : (s.answer r).draws = s.draws := rfl
@[simp] theorem answer_replies (s : State) (r : Reply) : (s.answer r).replies = r :: s.replies := rfl

/-! ### Soft reset (R291) -/

@[simp] theorem softReset_hw (s : State) : (softReset s).hw = s.hw := rfl
@[simp] theorem softReset_mem (s : State) : (softReset s).mem = s.mem := rfl
@[simp] theorem softReset_port (s : State) : (softReset s).port = s.port := rfl
@[simp] theorem softReset_replies (s : State) : (softReset s).replies = s.replies := rfl
@[simp] theorem softReset_draws (s : State) : (softReset s).draws = s.draws := rfl
@[simp] theorem softReset_regs (s : State) : (softReset s).regs = Regs.reset := rfl
@[simp] theorem softReset_phase (s : State) : (softReset s).phase = .idle := rfl

/-! ### Power-on reset (R290) -/

@[simp] theorem powerOnReset_hw (s : State) : (powerOnReset s).hw = s.hw := rfl
@[simp] theorem powerOnReset_port (s : State) : (powerOnReset s).port = s.port := rfl
@[simp] theorem powerOnReset_replies (s : State) : (powerOnReset s).replies = s.replies := rfl
@[simp] theorem powerOnReset_draws (s : State) : (powerOnReset s).draws = s.draws := rfl
@[simp] theorem powerOnReset_regs (s : State) : (powerOnReset s).regs = Regs.reset := rfl
@[simp] theorem powerOnReset_phase (s : State) : (powerOnReset s).phase = .idle := rfl
@[simp] theorem powerOnReset_mem (s : State) : (powerOnReset s).mem = { power := s.mem.power + 1, cells := [] } := rfl

/-! ### The word the engine holds -/

@[simp] theorem withFetchWord_hw (s : State) (nbits w : Nat) : (s.withFetchWord nbits w).hw = s.hw := rfl
@[simp] theorem withFetchWord_regs (s : State) (nbits w : Nat) : (s.withFetchWord nbits w).regs = s.regs := rfl
@[simp] theorem withFetchWord_mem (s : State) (nbits w : Nat) : (s.withFetchWord nbits w).mem = s.mem := rfl
@[simp] theorem withFetchWord_replies (s : State) (nbits w : Nat) : (s.withFetchWord nbits w).replies = s.replies := rfl
@[simp] theorem withFetchWord_draws (s : State) (nbits w : Nat) : (s.withFetchWord nbits w).draws = s.draws := rfl
@[simp] theorem withFetchWord_phase (s : State) (nbits w : Nat) : (s.withFetchWord nbits w).phase = .busy (tableWord nbits w) 0 := rfl
@[simp] theorem withFetchWord_port (s : State) (nbits w : Nat) : (s.withFetchWord nbits w).port = [] := rfl

/-! ### One more STATUS read answered (R71) -/

@[simp] theorem countPoll_hw (s : State) : s.countPoll.hw = s.hw := by
  unfold State.countPoll; split <;> rfl
@[simp] theorem countPoll_regs (s : State) : s.countPoll.regs = s.regs := by
  unfold State.countPoll; split <;> rfl
@[simp] theorem countPoll_mem (s : State) : s.countPoll.mem = s.mem := by
  unfold State.countPoll; split <;> rfl
@[simp] theorem countPoll_port (s : State) : s.countPoll.port = s.port := by
  unfold State.countPoll; split <;> rfl
@[simp] theorem countPoll_replies (s : State) : s.countPoll.replies = s.replies := by
  unfold State.countPoll; split <;> rfl
@[simp] theorem countPoll_draws (s : State) : s.countPoll.draws = s.draws := by
  unfold State.countPoll; split <;> rfl

/-! ### The coder's registers after its updates -/

@[simp] theorem encShift_rem (c : Coder) : (encShift c).rem = c.rem := rfl
@[simp] theorem encShift_remValid (c : Coder) : (encShift c).remValid = c.remValid := rfl
@[simp] theorem encShift_ext (c : Coder) : (encShift c).ext = c.ext := rfl
@[simp] theorem encShift_offs (c : Coder) : (encShift c).offs = c.offs := rfl
@[simp] theorem encShift_endOffs (c : Coder) : (encShift c).endOffs = c.endOffs := rfl
@[simp] theorem encShift_endWin (c : Coder) : (encShift c).endWin = c.endWin := rfl
@[simp] theorem encShift_nendBits (c : Coder) : (encShift c).nendBits = c.nendBits := rfl
@[simp] theorem encShift_storage (c : Coder) : (encShift c).storage = c.storage := rfl
@[simp] theorem encShift_dq (c : Coder) : (encShift c).dq = c.dq := rfl
@[simp] theorem encShift_dft (c : Coder) : (encShift c).dft = c.dft := rfl
@[simp] theorem encShift_dfs (c : Coder) : (encShift c).dfs = c.dfs := rfl
@[simp] theorem encShift_inited (c : Coder) : (encShift c).inited = c.inited := rfl
@[simp] theorem encShift_dir (c : Coder) : (encShift c).dir = c.dir := rfl
@[simp] theorem encShift_fin (c : Coder) : (encShift c).fin = c.fin := rfl
@[simp] theorem encShift_dpend (c : Coder) : (encShift c).dpend = c.dpend := rfl

@[simp] theorem decShift_remValid (b : Nat) (c : Coder) : (decShift b c).remValid = c.remValid := rfl
@[simp] theorem decShift_ext (b : Nat) (c : Coder) : (decShift b c).ext = c.ext := rfl
@[simp] theorem decShift_offs (b : Nat) (c : Coder) : (decShift b c).offs = c.offs := rfl
@[simp] theorem decShift_endOffs (b : Nat) (c : Coder) : (decShift b c).endOffs = c.endOffs := rfl
@[simp] theorem decShift_endWin (b : Nat) (c : Coder) : (decShift b c).endWin = c.endWin := rfl
@[simp] theorem decShift_nendBits (b : Nat) (c : Coder) : (decShift b c).nendBits = c.nendBits := rfl
@[simp] theorem decShift_storage (b : Nat) (c : Coder) : (decShift b c).storage = c.storage := rfl
@[simp] theorem decShift_dq (b : Nat) (c : Coder) : (decShift b c).dq = c.dq := rfl
@[simp] theorem decShift_dft (b : Nat) (c : Coder) : (decShift b c).dft = c.dft := rfl
@[simp] theorem decShift_dfs (b : Nat) (c : Coder) : (decShift b c).dfs = c.dfs := rfl
@[simp] theorem decShift_inited (b : Nat) (c : Coder) : (decShift b c).inited = c.inited := rfl
@[simp] theorem decShift_dir (b : Nat) (c : Coder) : (decShift b c).dir = c.dir := rfl
@[simp] theorem decShift_fin (b : Nat) (c : Coder) : (decShift b c).fin = c.fin := rfl
@[simp] theorem decShift_dpend (b : Nat) (c : Coder) : (decShift b c).dpend = c.dpend := rfl

@[simp] theorem decNarrow_rem (fl fh ft : Nat) (c : Coder) : (decNarrow fl fh ft c).rem = c.rem := rfl
@[simp] theorem decNarrow_remValid (fl fh ft : Nat) (c : Coder) : (decNarrow fl fh ft c).remValid = c.remValid := rfl
@[simp] theorem decNarrow_ext (fl fh ft : Nat) (c : Coder) : (decNarrow fl fh ft c).ext = c.ext := rfl
@[simp] theorem decNarrow_offs (fl fh ft : Nat) (c : Coder) : (decNarrow fl fh ft c).offs = c.offs := rfl
@[simp] theorem decNarrow_endOffs (fl fh ft : Nat) (c : Coder) : (decNarrow fl fh ft c).endOffs = c.endOffs := rfl
@[simp] theorem decNarrow_endWin (fl fh ft : Nat) (c : Coder) : (decNarrow fl fh ft c).endWin = c.endWin := rfl
@[simp] theorem decNarrow_nendBits (fl fh ft : Nat) (c : Coder) : (decNarrow fl fh ft c).nendBits = c.nendBits := rfl
@[simp] theorem decNarrow_nbitsTotal (fl fh ft : Nat) (c : Coder) : (decNarrow fl fh ft c).nbitsTotal = c.nbitsTotal := rfl
@[simp] theorem decNarrow_storage (fl fh ft : Nat) (c : Coder) : (decNarrow fl fh ft c).storage = c.storage := rfl
@[simp] theorem decNarrow_dq (fl fh ft : Nat) (c : Coder) : (decNarrow fl fh ft c).dq = c.dq := rfl
@[simp] theorem decNarrow_dft (fl fh ft : Nat) (c : Coder) : (decNarrow fl fh ft c).dft = c.dft := rfl
@[simp] theorem decNarrow_dfs (fl fh ft : Nat) (c : Coder) : (decNarrow fl fh ft c).dfs = c.dfs := rfl
@[simp] theorem decNarrow_inited (fl fh ft : Nat) (c : Coder) : (decNarrow fl fh ft c).inited = c.inited := rfl
@[simp] theorem decNarrow_dir (fl fh ft : Nat) (c : Coder) : (decNarrow fl fh ft c).dir = c.dir := rfl
@[simp] theorem decNarrow_fin (fl fh ft : Nat) (c : Coder) : (decNarrow fl fh ft c).fin = c.fin := rfl

@[simp] theorem encNarrow_rem (fl fh ft : Nat) (c : Coder) : (encNarrow fl fh ft c).rem = c.rem := by
  unfold encNarrow; split <;> rfl
@[simp] theorem encNarrow_remValid (fl fh ft : Nat) (c : Coder) : (encNarrow fl fh ft c).remValid = c.remValid := by
  unfold encNarrow; split <;> rfl
@[simp] theorem encNarrow_ext (fl fh ft : Nat) (c : Coder) : (encNarrow fl fh ft c).ext = c.ext := by
  unfold encNarrow; split <;> rfl
@[simp] theorem encNarrow_offs (fl fh ft : Nat) (c : Coder) : (encNarrow fl fh ft c).offs = c.offs := by
  unfold encNarrow; split <;> rfl
@[simp] theorem encNarrow_endOffs (fl fh ft : Nat) (c : Coder) : (encNarrow fl fh ft c).endOffs = c.endOffs := by
  unfold encNarrow; split <;> rfl
@[simp] theorem encNarrow_endWin (fl fh ft : Nat) (c : Coder) : (encNarrow fl fh ft c).endWin = c.endWin := by
  unfold encNarrow; split <;> rfl
@[simp] theorem encNarrow_nendBits (fl fh ft : Nat) (c : Coder) : (encNarrow fl fh ft c).nendBits = c.nendBits := by
  unfold encNarrow; split <;> rfl
@[simp] theorem encNarrow_nbitsTotal (fl fh ft : Nat) (c : Coder) : (encNarrow fl fh ft c).nbitsTotal = c.nbitsTotal := by
  unfold encNarrow; split <;> rfl
@[simp] theorem encNarrow_storage (fl fh ft : Nat) (c : Coder) : (encNarrow fl fh ft c).storage = c.storage := by
  unfold encNarrow; split <;> rfl
@[simp] theorem encNarrow_dq (fl fh ft : Nat) (c : Coder) : (encNarrow fl fh ft c).dq = c.dq := by
  unfold encNarrow; split <;> rfl
@[simp] theorem encNarrow_dft (fl fh ft : Nat) (c : Coder) : (encNarrow fl fh ft c).dft = c.dft := by
  unfold encNarrow; split <;> rfl
@[simp] theorem encNarrow_dfs (fl fh ft : Nat) (c : Coder) : (encNarrow fl fh ft c).dfs = c.dfs := by
  unfold encNarrow; split <;> rfl
@[simp] theorem encNarrow_inited (fl fh ft : Nat) (c : Coder) : (encNarrow fl fh ft c).inited = c.inited := by
  unfold encNarrow; split <;> rfl
@[simp] theorem encNarrow_dir (fl fh ft : Nat) (c : Coder) : (encNarrow fl fh ft c).dir = c.dir := by
  unfold encNarrow; split <;> rfl
@[simp] theorem encNarrow_fin (fl fh ft : Nat) (c : Coder) : (encNarrow fl fh ft c).fin = c.fin := by
  unfold encNarrow; split <;> rfl
@[simp] theorem encNarrow_dpend (fl fh ft : Nat) (c : Coder) : (encNarrow fl fh ft c).dpend = c.dpend := by
  unfold encNarrow; split <;> rfl

/-! ### The stereo registers after an angle (R210) -/

@[simp] theorem setAngle_theta (theta n : Nat) (st : Stereo) : (setAngle theta n st).theta = regNat theta := rfl
@[simp] theorem setAngle_imid (theta n : Nat) (st : Stereo) : (setAngle theta n st).imid = regInt (trig theta n).mid := rfl
@[simp] theorem setAngle_iside (theta n : Nat) (st : Stereo) : (setAngle theta n st).iside = regInt (trig theta n).side := rfl
@[simp] theorem setAngle_delta (theta n : Nat) (st : Stereo) : (setAngle theta n st).delta = regInt (trig theta n).delta := rfl
@[simp] theorem setAngle_magm (theta n : Nat) (st : Stereo) : (setAngle theta n st).magm = st.magm := rfl
@[simp] theorem setAngle_mags (theta n : Nat) (st : Stereo) : (setAngle theta n st).mags = st.mags := rfl
@[simp] theorem setAngle_sign (theta n : Nat) (st : Stereo) : (setAngle theta n st).sign = st.sign := rfl

end Sys2Proof.Machine
end

