-- ==== Sys2Proof/Laws/Run.lean ====
section
/-! SUPPORT. What running a command can do: the checks, `perform`, and the two ways a performed command ends. -/

namespace Sys2Proof.Machine

/-! ### Sequencing -/

@[simp] theorem run_ok_bind {α β : Type} (a : α) (f : α → Run β) : ((Except.ok a : Run α) >>= f) = f a := rfl

@[simp] theorem run_error_bind {α β : Type} (e : Stop) (f : α → Run β) : ((Except.error e : Run α) >>= f) = .error e :=
  rfl

/-- A sequence of two stretches answers only if both do. -/
theorem run_bind_eq_ok {α β : Type} {x : Run α} {f : α → Run β} {b : β} :
    (x >>= f) = .ok b ↔ ∃ a, x = .ok a ∧ f a = .ok b := by
  cases x <;> simp

/-- A sequence of two stretches stops in its first or in its second. -/
theorem run_bind_eq_error {α β : Type} {x : Run α} {f : α → Run β} {e : Stop} :
    (x >>= f) = .error e ↔ x = .error e ∨ ∃ a, x = .ok a ∧ f a = .error e := by
  cases x <;> simp

/-! ### The checks -/

theorem check_eq_ok {p : Bool} {c : FaultCode} {u : Unit} : check p c = .ok u ↔ p = true := by
  cases p <;> simp [check]

theorem check_eq_error {p : Bool} {c : FaultCode} {e : Stop} :
    check p c = .error e ↔ p = false ∧ e = .raised c := by
  cases p <;> simp [check, eq_comm]

@[simp] theorem check_true (c : FaultCode) : check true c = .ok () := rfl
@[simp] theorem check_false (c : FaultCode) : check false c = .error (.raised c) := rfl

/-- `RC_REQ(dir, false)` passes exactly when the coder is ready (R110). -/
theorem rcReq_eq_ok {c : Coder} {dir : Direction} {u : Unit} : rcReq c dir false = .ok u ↔ c.ready dir := by
  unfold rcReq Coder.ready
  cases c.inited <;> cases hd : c.dir <;> cases dir <;> cases c.fin <;> simp [check]

/-- `RC_REQ` of a coder that is not ready raises RC_STATE (R110). -/
theorem rcReq_not_ready {c : Coder} {dir : Direction} (h : ¬ c.ready dir) :
    rcReq c dir false = .error (.raised .rcState) := by
  unfold rcReq
  unfold Coder.ready at h
  cases h1 : c.inited <;> cases hd : c.dir <;> cases dir <;> cases h2 : c.fin <;> simp_all [check]

theorem rcReq_ready {c : Coder} {dir : Direction} (h : c.ready dir) : rcReq c dir false = .ok () :=
  rcReq_eq_ok.2 h

theorem beReq_ok {s : State} (h : modeOk s = true) : beReq s = .ok () := by simp [beReq, h]
theorem beReq_error {s : State} (h : modeOk s = false) : beReq s = .error (.raised .mode) := by simp [beReq, h]

theorem stReq_ok {s : State} (h : modeOk s = true) (hc : s.channels = 2) : stReq s = .ok () := by
  simp [stReq, beReq_ok h, hc]

theorem stReq_error {s : State} (h : ¬ (modeOk s = true ∧ s.channels = 2)) : stReq s = .error (.raised .mode) := by
  unfold stReq
  cases hm : modeOk s
  · simp [beReq_error hm]
  · have : s.channels ≠ 2 := fun e => h ⟨hm, e⟩
    simp [beReq_ok hm, this]

theorem stBand_ok {s : State} {b : Nat} (h : b < s.nbands) : stBand s b = .ok () := by simp [stBand, h]
theorem stBand_error {s : State} {b : Nat} (h : ¬ b < s.nbands) : stBand s b = .error (.raised .badOperand) := by
  simp [stBand, h]

/-! ### The memory after a fault -/

@[simp] theorem unspecify_nil (m : Memory) (n : Nat) : m.unspecify n [] = m := rfl

/-! ### Performing a command -/

theorem perform_ok {i : Instr} {touched : List Nat} {s t : State} {body : Run State} (h : body = .ok t) :
    perform i touched body s = .next t.complete := by rw [h]; rfl

theorem perform_raised {i : Instr} {touched : List Nat} {s : State} {c : FaultCode} {body : Run State}
    (h : body = .error (.raised c)) :
    perform i touched body s = .next (faultEntry c (encode i) touched s) := by rw [h]; rfl

/-- The two ways a performed command reaches a next state: it completes, or it takes the fault it raised (R262, R270,
R273). -/
theorem perform_eq_next {i : Instr} {touched : List Nat} {s t : State} {body : Run State} :
    perform i touched body s = .next t ↔
      (∃ u, body = .ok u ∧ t = u.complete) ∨
      (∃ c, body = .error (.raised c) ∧ t = faultEntry c (encode i) touched s) := by
  cases body with
  | ok u => simp [perform, eq_comm]
  | error e => cases e <;> simp [perform, eq_comm]

/-- Performing never refuses. -/
theorem perform_ne_refused {i : Instr} {touched : List Nat} {s : State} {body : Run State} {r : Refusal} :
    perform i touched body s ≠ .refused r := by
  cases body with
  | ok u => simp [perform]
  | error e => cases e <;> simp [perform]

/-- A performed command stops the machine only where its rule has no result. -/
theorem perform_eq_fault {i : Instr} {touched : List Nat} {s : State} {body : Run State} {f : Fault} :
    perform i touched body s = .fault f ↔ body = .error (.undefined f) := by
  cases body with
  | ok u => simp [perform]
  | error e => cases e <;> simp [perform]

/-! ### Every command is one `perform` -/

/-- Every meaning is `perform` of its own command. -/
theorem exec_is_perform (i : Instr) (s : State) : ∃ touched body, exec i s = perform i touched body s := by
  cases i
  case nop => exact ⟨_, _, by unfold exec execNop; rfl⟩
  case rcEncInit => exact ⟨_, _, by unfold exec execRcEncInit; rfl⟩
  case rcEncode => exact ⟨_, _, by unfold exec execRcEncode; rfl⟩
  case rcEncBits n => exact ⟨_, _, by unfold exec execRcEncBits; rfl⟩
  case rcEncDone => exact ⟨_, _, by unfold exec execRcEncDone; rfl⟩
  case rcTell g => exact ⟨_, _, by unfold exec execRcTell; rfl⟩
  case rcDecInit => exact ⟨_, _, by unfold exec execRcDecInit; rfl⟩
  case rcDecode => exact ⟨_, _, by unfold exec execRcDecode; rfl⟩
  case rcDecUpdate => exact ⟨_, _, by unfold exec execRcDecUpdate; rfl⟩
  case rcDecBits n => exact ⟨_, _, by unfold exec execRcDecBits; rfl⟩
  case beCompute => exact ⟨_, _, by unfold exec execBeCompute; rfl⟩
  case beNormalise => exact ⟨_, _, by unfold exec execBeNormalise; rfl⟩
  case beDenormalise => exact ⟨_, _, by unfold exec execBeDenormalise; rfl⟩
  case beRenormAll => exact ⟨_, _, by unfold exec execBeRenormAll; rfl⟩
  case beRenormBand b k => exact ⟨_, _, by unfold exec execBeRenormBand; rfl⟩
  case stMix b k => exact ⟨_, _, by unfold exec execStMix; rfl⟩
  case stQb b => exact ⟨_, _, by unfold exec execStQb; rfl⟩
  case stThetaEnc b q => exact ⟨_, _, by unfold exec execStThetaEnc; rfl⟩
  case stThetaDec b q => exact ⟨_, _, by unfold exec execStThetaDec; rfl⟩
  case stSplit b => exact ⟨_, _, by unfold exec execStSplit; rfl⟩
  case stScale b => exact ⟨_, _, by unfold exec execStScale; rfl⟩
  case stSign2Enc b => exact ⟨_, _, by unfold exec execStSign2Enc; rfl⟩
  case stSign2Dec b => exact ⟨_, _, by unfold exec execStSign2Dec; rfl⟩
  case stSign2Rebuild b => exact ⟨_, _, by unfold exec execStSign2Rebuild; rfl⟩

end Sys2Proof.Machine
end

