-- ==== Sys2Proof/Laws/Coder.lean ====
section
/-! SUPPORT. What each shared operation of the range coder can do: one inversion lemma per operation, and one that says when
it goes through. -/

namespace Sys2Proof.Machine

/-! ### Registers as numbers -/

theorem toNat_regNat {n : Nat} (h : n < 2 ^ 32) : (regNat n).toNat = n := by
  simp only [regNat, BitVec.toNat_ofNat]
  exact Nat.mod_eq_of_lt h

theorem toNat_regInt {x : Int} (h0 : 0 ≤ x) (h : x < 2 ^ 32) : (regInt x).toNat = x.toNat := by
  simp only [regInt, BitVec.toNat_ofInt]
  congr 1
  exact Int.emod_eq_of_lt h0 h

theorem toNat_byteOf (n : Nat) : (BitVec.ofNat 8 n).toNat = n % 256 := by simp

theorem toNat_bitCount {n : Nat} (h : n < 2 ^ 32) : (bitCount n).toNat = n := by
  simp only [bitCount, h, if_true, BitVec.toNat_ofNat]
  exact Nat.mod_eq_of_lt h

/-! ### Bytes of FBUF -/

theorem Memory.fbuf_lt (m : Memory) (i : Nat) : m.fbuf i < 256 := (m.byte (fbufAddr i)).isLt

theorem Memory.fbuf_setByte (m : Memory) (i j : Nat) (b : Byte) :
    (m.setByte (fbufAddr i) b).fbuf j = if j = i then b.toNat else m.fbuf j := by
  unfold Memory.fbuf
  rw [Memory.byte_setByte]
  have : fbufAddr j = fbufAddr i ↔ j = i := by unfold fbufAddr; omega
  split_ifs <;> simp_all

theorem Memory.sameBut_refl (m : Memory) (p : Nat → Prop) : m.sameBut m p := fun _ _ => rfl

theorem Memory.sameBut_trans {m m' m'' : Memory} {p : Nat → Prop} (h : m.sameBut m' p) (h' : m'.sameBut m'' p) :
    m.sameBut m'' p := fun a ha => (h' a ha).trans (h a ha)

theorem Memory.sameBut_mono {m m' : Memory} {p q : Nat → Prop} (h : m.sameBut m' p) (hpq : ∀ a, p a → q a) :
    m.sameBut m' q := fun a ha => h a (fun hp => ha (hpq a hp))

theorem Memory.sameBut_setByte {m : Memory} {a : Nat} {b : Byte} {p : Nat → Prop} (h : p a) :
    m.sameBut (m.setByte a b) p := fun _ ha' =>
  Memory.byte_setByte_other _ _ (fun e => ha' (e ▸ h))

/-- FBUF bytes outside a changed range read as before. -/
theorem Memory.fbuf_sameBut {m m' : Memory} {lo hi j : Nat} (h : m.sameBut m' (frameRange lo hi))
    (hj : j < lo ∨ hi ≤ j) : m'.fbuf j = m.fbuf j := by
  unfold Memory.fbuf
  rw [h (fbufAddr j) (by unfold frameRange fbufAddr; omega)]

theorem frameRange_mono {lo hi lo' hi' : Nat} (h : lo' ≤ lo) (h' : hi ≤ hi') (a : Nat) (ha : frameRange lo hi a) :
    frameRange lo' hi' a := by
  unfold frameRange fbufAddr at *
  omega

/-! ### Writing one byte (R111) -/

theorem writeFront_eq_ok {hw : Params} {v : Nat} {x y : Rc} :
    writeFront hw v x = .ok y ↔
      x.coder.offs.toNat + x.coder.endOffs.toNat < x.coder.storage.toNat ∧ x.coder.offs.toNat < hw.fbufBytes ∧
      y = { coder := { x.coder with offs := regNat (x.coder.offs.toNat + 1) }
            mem := x.mem.setByte (fbufAddr x.coder.offs.toNat) (BitVec.ofNat 8 v) } := by
  unfold writeFront
  simp only
  split_ifs with h1 h2
  · simp only [false_iff]; omega
  · simp only [false_iff]; omega
  · simp only [Except.ok.injEq]
    constructor
    · rintro rfl; exact ⟨by omega, by omega, rfl⟩
    · rintro ⟨-, -, rfl⟩; rfl

theorem writeEnd_eq_ok {hw : Params} {v : Nat} {x y : Rc} :
    writeEnd hw v x = .ok y ↔
      x.coder.offs.toNat + x.coder.endOffs.toNat < x.coder.storage.toNat ∧
      x.coder.storage.toNat - (x.coder.endOffs.toNat + 1) < hw.fbufBytes ∧
      y = { coder := { x.coder with endOffs := regNat (x.coder.endOffs.toNat + 1) }
            mem := x.mem.setByte (fbufAddr (x.coder.storage.toNat - (x.coder.endOffs.toNat + 1)))
              (BitVec.ofNat 8 v) } := by
  unfold writeEnd
  simp only
  split_ifs with h1 h2
  · simp only [false_iff]; omega
  · simp only [false_iff]; omega
  · simp only [Except.ok.injEq]
    constructor
    · rintro rfl; exact ⟨by omega, by omega, rfl⟩
    · rintro ⟨-, -, rfl⟩; rfl

/-- A write into a full frame takes BUF_OVF (R111). -/
theorem writeFront_full {hw : Params} {v : Nat} {x : Rc}
    (h : x.coder.storage.toNat ≤ x.coder.offs.toNat + x.coder.endOffs.toNat) :
    writeFront hw v x = .error (.raised .bufOvf) := by
  simp [writeFront, h]

theorem writeEnd_full {hw : Params} {v : Nat} {x : Rc}
    (h : x.coder.storage.toNat ≤ x.coder.offs.toNat + x.coder.endOffs.toNat) :
    writeEnd hw v x = .error (.raised .bufOvf) := by
  simp [writeEnd, h]

/-! ### What the front operations may change -/

/-- From `x` to `y` the encoder's front part grew: only the pending symbols and the front cursor changed, the cursor did
not pass the end part, and only the bytes the cursor passed were written. -/
structure FrontGrew (x y : Rc) : Prop where
  coder : y.coder = { x.coder with rem := y.coder.rem, remValid := y.coder.remValid, ext := y.coder.ext
                                   offs := y.coder.offs }
  cursor : x.coder.offs.toNat ≤ y.coder.offs.toNat
  inside : y.coder.offs.toNat ≠ x.coder.offs.toNat →
    y.coder.offs.toNat + x.coder.endOffs.toNat ≤ x.coder.storage.toNat
  mem : x.mem.sameBut y.mem (frameRange x.coder.offs.toNat y.coder.offs.toNat)

theorem FrontGrew.refl (x : Rc) : FrontGrew x x := ⟨rfl, le_refl _, fun h => absurd rfl h, Memory.sameBut_refl _ _⟩

theorem FrontGrew.endOffs {x y : Rc} (h : FrontGrew x y) : y.coder.endOffs = x.coder.endOffs := by rw [h.coder]
theorem FrontGrew.storage {x y : Rc} (h : FrontGrew x y) : y.coder.storage = x.coder.storage := by rw [h.coder]
theorem FrontGrew.val {x y : Rc} (h : FrontGrew x y) : y.coder.val = x.coder.val := by rw [h.coder]
theorem FrontGrew.rng {x y : Rc} (h : FrontGrew x y) : y.coder.rng = x.coder.rng := by rw [h.coder]
theorem FrontGrew.nbitsTotal {x y : Rc} (h : FrontGrew x y) : y.coder.nbitsTotal = x.coder.nbitsTotal := by rw [h.coder]
theorem FrontGrew.endWin {x y : Rc} (h : FrontGrew x y) : y.coder.endWin = x.coder.endWin := by rw [h.coder]
theorem FrontGrew.nendBits {x y : Rc} (h : FrontGrew x y) : y.coder.nendBits = x.coder.nendBits := by rw [h.coder]

theorem FrontGrew.trans {x y z : Rc} (h : FrontGrew x y) (h' : FrontGrew y z) : FrontGrew x z where
  coder := by rw [h'.coder, h.coder]
  cursor := le_trans h.cursor h'.cursor
  inside := by
    intro hne
    have h1 := h'.inside
    rw [h.endOffs, h.storage] at h1
    by_cases hz : z.coder.offs.toNat = y.coder.offs.toNat
    · rw [hz]; exact h.inside (by omega)
    · exact h1 hz
  mem := Memory.sameBut_trans
    (Memory.sameBut_mono h.mem (frameRange_mono (le_refl _) h'.cursor))
    (Memory.sameBut_mono h'.mem (frameRange_mono h.cursor (le_refl _)))

/-- One front write (R111). -/
theorem writeFront_grew {hw : Params} {v : Nat} {x y : Rc} (h : writeFront hw v x = .ok y) :
    FrontGrew x y ∧ y.coder = { x.coder with offs := y.coder.offs } ∧
      y.coder.offs.toNat = x.coder.offs.toNat + 1 ∧ y.mem.fbuf x.coder.offs.toNat = v % 256 := by
  obtain ⟨h1, -, rfl⟩ := writeFront_eq_ok.1 h
  have ho : (regNat (x.coder.offs.toNat + 1)).toNat = x.coder.offs.toNat + 1 :=
    toNat_regNat (by have := x.coder.storage.isLt; omega)
  refine ⟨⟨rfl, ?_, ?_, ?_⟩, rfl, ho, ?_⟩
  · simp only [ho]; omega
  · simp only [ho]; omega
  · refine Memory.sameBut_setByte ?_
    simp only [ho]
    unfold frameRange fbufAddr; omega
  · simp [Memory.fbuf_setByte]

/-- A front write goes through when the frame has room (R111). -/
theorem writeFront_room {hw : Params} {v : Nat} {x : Rc} (hs : x.coder.storage.toNat ≤ hw.fbufBytes)
    (h : x.coder.offs.toNat + x.coder.endOffs.toNat < x.coder.storage.toNat) : ∃ y, writeFront hw v x = .ok y :=
  ⟨_, writeFront_eq_ok.2 ⟨h, by omega, rfl⟩⟩

/-! ### The 0xFF run (R112) -/

/-- Flushing a run writes one byte for each of it, all the same, and leaves RC_EXT at 0. -/
theorem flushRun_grew {hw : Params} {v n : Nat} {x y : Rc} (hn : x.coder.ext.toNat = n) (h : flushRun hw v n x = .ok y) :
    FrontGrew x y ∧ y.coder = { x.coder with offs := y.coder.offs, ext := 0#32 } ∧
      y.coder.offs.toNat = x.coder.offs.toNat + n ∧
      ∀ j, j < n → y.mem.fbuf (x.coder.offs.toNat + j) = v % 256 := by
  induction n generalizing x with
  | zero =>
    obtain rfl : x = y := by simpa [flushRun] using h
    have h0 : x.coder.ext = 0#32 := BitVec.eq_of_toNat_eq (by simpa using hn)
    exact ⟨FrontGrew.refl x, by rw [← h0], by omega, by omega⟩
  | succ n ih =>
    obtain ⟨z, hz, hy⟩ := run_bind_eq_ok.1 h
    obtain ⟨g1, g2, g3, g4⟩ := writeFront_grew hz
    have hlt : n < 2 ^ 32 := by have := x.coder.ext.isLt; omega
    obtain ⟨k1, k2, k3, k4⟩ := ih (toNat_regNat hlt) hy
    have g5 : FrontGrew x { z with coder := { z.coder with ext := regNat n } } :=
      ⟨by rw [g2], g1.cursor, g1.inside, g1.mem⟩
    refine ⟨g5.trans k1, by rw [k2, g2], ?_, ?_⟩
    · simp only at k3; omega
    · intro j hj
      rcases Nat.eq_zero_or_pos j with rfl | hj0
      · rw [Memory.fbuf_sameBut k1.mem (by simp only; omega)]
        simpa using g4
      · have := k4 (j - 1) (by omega)
        simp only [g3] at this
        rwa [show x.coder.offs.toNat + 1 + (j - 1) = x.coder.offs.toNat + j by omega] at this

/-- A run goes out when the frame has room for it. -/
theorem flushRun_room {hw : Params} {v n : Nat} {x : Rc} (hs : x.coder.storage.toNat ≤ hw.fbufBytes)
    (h : x.coder.offs.toNat + x.coder.endOffs.toNat + n ≤ x.coder.storage.toNat) : ∃ y, flushRun hw v n x = .ok y := by
  induction n generalizing x with
  | zero => exact ⟨x, rfl⟩
  | succ n ih =>
    obtain ⟨z, hz⟩ := writeFront_room (v := v) hs (by omega)
    obtain ⟨g1, g2, g3, -⟩ := writeFront_grew hz
    obtain ⟨y, hy⟩ := @ih { z with coder := { z.coder with ext := regNat n } }
      (by simp only [g1.storage]; exact hs) (by simp only [g1.storage, g1.endOffs]; omega)
    exact ⟨y, run_bind_eq_ok.2 ⟨z, hz, hy⟩⟩

/-! ### One output symbol (R112) -/

/-- One symbol out: the front grows, one more symbol is produced, and RC_EXT stays in its width. -/
theorem carryOut_grew {hw : Params} {c : Nat} {x y : Rc} (hx : x.coder.ext.toNat < 2 ^ hw.extBits)
    (hw32 : hw.extBits ≤ 32) (h : carryOut hw c x = .ok y) :
    FrontGrew x y ∧ y.coder.symbolsOut = x.coder.symbolsOut + 1 ∧ y.coder.ext.toNat < 2 ^ hw.extBits := by
  have h32 : 2 ^ hw.extBits ≤ 2 ^ 32 := Nat.pow_le_pow_right (by norm_num) hw32
  unfold carryOut at h
  split_ifs at h with hc he hv
  · simp only [Except.ok.injEq] at h
    subst h
    have hn : (regNat (x.coder.ext.toNat + 1)).toNat = x.coder.ext.toNat + 1 := toNat_regNat (by omega)
    refine ⟨⟨rfl, le_refl _, fun h => absurd rfl h, Memory.sameBut_refl _ _⟩, ?_, ?_⟩
    · simp only [Coder.symbolsOut, hn]; omega
    · simp only [hn]; omega
  · obtain ⟨a, ha, h⟩ := run_bind_eq_ok.1 h
    obtain ⟨z, hz, h⟩ := run_bind_eq_ok.1 h
    simp only [Except.ok.injEq] at h
    subst h
    obtain ⟨g1, g2, g3, -⟩ := writeFront_grew ha
    obtain ⟨k1, k2, k3, -⟩ := flushRun_grew rfl hz
    have g := g1.trans k1
    have hae : a.coder.ext = x.coder.ext := by rw [g2]
    refine ⟨⟨by rw [k2, g2], g.cursor, g.inside, g.mem⟩, ?_, ?_⟩
    · have he0 : z.coder.ext.toNat = 0 := by rw [k2]; rfl
      rw [hae] at k3
      simp only [Coder.symbolsOut, he0, k3, g3, hv, Bool.toNat_true]
    · have he0 : z.coder.ext.toNat = 0 := by rw [k2]; rfl
      simp only [he0]; positivity
  · obtain ⟨a, ha, h⟩ := run_bind_eq_ok.1 h
    obtain rfl : x = a := by simpa using ha
    obtain ⟨z, hz, h⟩ := run_bind_eq_ok.1 h
    simp only [Except.ok.injEq] at h
    subst h
    obtain ⟨k1, k2, k3, -⟩ := flushRun_grew rfl hz
    refine ⟨⟨by rw [k2], k1.cursor, k1.inside, k1.mem⟩, ?_, ?_⟩
    · have he0 : z.coder.ext.toNat = 0 := by rw [k2]; rfl
      have hv' : x.coder.remValid.toNat = 0 := by simp [hv]
      simp only [Coder.symbolsOut, he0, k3, hv', Bool.toNat_true]; omega
    · have he0 : z.coder.ext.toNat = 0 := by rw [k2]; rfl
      simp only [he0]; positivity

/-- A symbol makes the 0xFF run at most one longer. -/
theorem carryOut_ext {hw : Params} {c : Nat} {x y : Rc} (h : carryOut hw c x = .ok y) :
    y.coder.ext.toNat ≤ x.coder.ext.toNat + 1 := by
  unfold carryOut at h
  split_ifs at h with hc he hv
  · simp only [Except.ok.injEq] at h
    subst h
    simp only [regNat, BitVec.toNat_ofNat]
    exact Nat.mod_le _ _
  · obtain ⟨a, ha, h⟩ := run_bind_eq_ok.1 h
    obtain ⟨z, hz, h⟩ := run_bind_eq_ok.1 h
    simp only [Except.ok.injEq] at h
    subst h
    obtain ⟨-, k2, -⟩ := flushRun_grew rfl hz
    have he0 : z.coder.ext.toNat = 0 := by rw [k2]; rfl
    change z.coder.ext.toNat ≤ _
    omega
  · obtain ⟨a, ha, h⟩ := run_bind_eq_ok.1 h
    obtain ⟨z, hz, h⟩ := run_bind_eq_ok.1 h
    simp only [Except.ok.injEq] at h
    subst h
    obtain ⟨-, k2, -⟩ := flushRun_grew rfl hz
    have he0 : z.coder.ext.toNat = 0 := by rw [k2]; rfl
    change z.coder.ext.toNat ≤ _
    omega

/-- A symbol goes out when the frame and the 0xFF run have room. -/
theorem carryOut_room {hw : Params} {c : Nat} {x : Rc} (hs : x.coder.storage.toNat ≤ hw.fbufBytes)
    (h : x.coder.symbolsOut + x.coder.endOffs.toNat ≤ x.coder.storage.toNat)
    (he : x.coder.ext.toNat + 1 < 2 ^ hw.extBits) : ∃ y, carryOut hw c x = .ok y := by
  unfold carryOut
  unfold Coder.symbolsOut at h
  split_ifs with hc he' hv
  · omega
  · exact ⟨_, rfl⟩
  · rw [hv, Bool.toNat_true] at h
    obtain ⟨a, ha⟩ := writeFront_room (v := (x.coder.rem.toNat + c / 256) % 256) hs (by omega)
    obtain ⟨g1, g2, g3, -⟩ := writeFront_grew ha
    obtain ⟨z, hz⟩ := @flushRun_room hw ((Config.symMax + c / 256) % 256) a.coder.ext.toNat a
      (by rw [g1.storage]; exact hs)
      (by rw [g1.storage, g1.endOffs, g3, show a.coder.ext = x.coder.ext by rw [g2]]; omega)
    exact ⟨_, run_bind_eq_ok.2 ⟨a, ha, run_bind_eq_ok.2 ⟨z, hz, rfl⟩⟩⟩
  · obtain ⟨z, hz⟩ := @flushRun_room hw ((Config.symMax + c / 256) % 256) x.coder.ext.toNat x hs (by omega)
    exact ⟨_, run_bind_eq_ok.2 ⟨x, rfl, run_bind_eq_ok.2 ⟨z, hz, rfl⟩⟩⟩

/-! ### Renormalization (R113) -/

/-- After at most `n` passes: how many passes `k` were made, what the interval is, how many symbols are out. -/
theorem encNormalizeLoop_ok {hw : Params} {n : Nat} {x y : Rc} (hx : x.coder.ext.toNat < 2 ^ hw.extBits)
    (hw32 : hw.extBits ≤ 32) (h : encNormalizeLoop hw n x = .ok y) :
    ∃ k ≤ n, x.coder.encoded y.coder x.coder.val.toNat x.coder.rng.toNat k ∧
      y.coder.offs.toNat ≥ x.coder.offs.toNat ∧
      (y.coder.offs.toNat ≠ x.coder.offs.toNat →
        y.coder.offs.toNat + x.coder.endOffs.toNat ≤ x.coder.storage.toNat) ∧
      x.mem.sameBut y.mem (frameRange x.coder.offs.toNat y.coder.offs.toNat) ∧
      y.coder.ext.toNat < 2 ^ hw.extBits := by
  induction n generalizing x with
  | zero =>
    unfold encNormalizeLoop at h
    split_ifs at h with hb
    simp only [Except.ok.injEq] at h
    subst h
    exact ⟨0, le_refl _, ⟨⟨by simpa using hb, by omega⟩, by simp, by simp, rfl, fun _ => rfl, rfl⟩, le_refl _,
      fun h => absurd rfl h, Memory.sameBut_refl _ _, hx⟩
  | succ n ih =>
    unfold encNormalizeLoop at h
    split_ifs at h with hb
    · obtain ⟨z, hz, h⟩ := run_bind_eq_ok.1 h
      obtain ⟨g, gs, ge⟩ := carryOut_grew hx hw32 hz
      have hb' : x.coder.rng.toNat ≤ 8388608 := hb
      obtain ⟨k, hk, ⟨⟨hp1, hp2⟩, hr, hv, hs, ht, hc⟩, ho, hi, hm, he⟩ :=
        @ih { z with coder := encShift z.coder } (by simpa using ge) h
      have hrng : (encShift z.coder).rng.toNat = x.coder.rng.toNat * 256 := by
        simp only [encShift, g.rng]
        exact toNat_regNat (by omega)
      have hval : (encShift z.coder).val.toNat = x.coder.val.toNat * 256 % 2147483648 := by
        simp only [encShift, g.val, Config.top]
        exact toNat_regNat (by omega)
      simp only [encShift_offs, encShift_endOffs, encShift_storage, g.endOffs, g.storage] at ho hi hm
      simp only [hrng, hval] at hp1 hp2 hr hv
      refine ⟨k + 1, by omega, ⟨⟨?_, ?_⟩, ?_, ?_, ?_, ?_, ?_⟩, le_trans g.cursor ho, ?_, ?_, he⟩
      · rw [pow_succ']; rw [← mul_assoc]; exact hp1
      · intro j hj
        rcases Nat.eq_zero_or_pos j with rfl | hj0
        · simpa using hb
        · have := hp2 (j - 1) (by omega)
          rwa [mul_assoc, ← pow_succ', show j - 1 + 1 = j by omega] at this
      · rw [hr, mul_assoc, ← pow_succ']
      · rw [hv]
        by_cases hk0 : k = 0
        · simp [hk0]
        · rw [if_neg hk0, if_neg (by omega), pow_succ', ← mul_assoc]
          exact Nat.mod_mul_mod _ _ _
      · have : (encShift z.coder).symbolsOut = z.coder.symbolsOut := rfl
        simp only [this] at hs
        omega
      · intro hov
        have h1 : (encShift z.coder).nbitsTotal.toNat = x.coder.nbitsTotal.toNat + 8 := by
          simp only [encShift, g.nbitsTotal]
          exact toNat_bitCount (by omega)
        have := ht (by simp only [h1]; omega)
        simp only [h1] at this
        omega
      · rw [hc]
        simp only [encShift]
        rw [g.coder]
      · intro hne
        by_cases hz0 : y.coder.offs.toNat = z.coder.offs.toNat
        · rw [hz0]; exact g.inside (by omega)
        · exact hi hz0
      · exact Memory.sameBut_trans (Memory.sameBut_mono g.mem (frameRange_mono (le_refl _) ho))
          (Memory.sameBut_mono hm (frameRange_mono g.cursor (le_refl _)))
    · simp only [Except.ok.injEq] at h
      subst h
      exact ⟨0, by omega, ⟨⟨by simpa using hb, by omega⟩, by simp, by simp, rfl, fun _ => rfl, rfl⟩, le_refl _,
        fun h => absurd rfl h, Memory.sameBut_refl _ _, hx⟩

/-- `n` passes are enough for an interval that `n` shifts bring above the threshold, and go through when there is room
for `n` more symbols. -/
theorem encNormalizeLoop_room {hw : Params} {n : Nat} {x : Rc} (hs : x.coder.storage.toNat ≤ hw.fbufBytes)
    (hw32 : hw.extBits ≤ 32) (hr : Config.bot < x.coder.rng.toNat * 256 ^ n)
    (h : n = 0 ∨ x.coder.symbolsOut + x.coder.endOffs.toNat + n ≤ x.coder.storage.toNat + 1)
    (he : x.coder.ext.toNat + n < 2 ^ hw.extBits) : ∃ y, encNormalizeLoop hw n x = .ok y := by
  induction n generalizing x with
  | zero =>
    unfold encNormalizeLoop
    rw [if_neg (by simp only [pow_zero, mul_one] at hr; omega)]
    exact ⟨_, rfl⟩
  | succ n ih =>
    unfold encNormalizeLoop
    split_ifs with hb
    · have hb' : x.coder.rng.toNat ≤ 8388608 := hb
      obtain ⟨z, hz⟩ := carryOut_room (c := x.coder.val.toNat / 2 ^ 23) hs (by omega) (by omega)
      obtain ⟨g, gs, ge⟩ := carryOut_grew (by omega) hw32 hz
      have hrng : (encShift z.coder).rng.toNat = x.coder.rng.toNat * 256 := by
        simp only [encShift, g.rng]
        exact toNat_regNat (by omega)
      obtain ⟨y, hy⟩ := @ih { z with coder := encShift z.coder }
        (by simp only [encShift_storage, g.storage]; exact hs)
        (by simp only [hrng, mul_assoc, ← pow_succ']; exact hr)
        (by
          right
          have : (encShift z.coder).symbolsOut = z.coder.symbolsOut := rfl
          simp only [this, gs, encShift_storage, g.storage, encShift_endOffs, g.endOffs]; omega)
        (by
          simp only [encShift_ext]
          have := carryOut_ext hz
          omega)
      exact ⟨y, run_bind_eq_ok.2 ⟨z, hz, hy⟩⟩
    · exact ⟨_, rfl⟩

/-! ### The number the front part stands for (R112, R118) -/

theorem Memory.frontBytes_succ (m : Memory) (st o k : Nat) :
    m.frontBytes st o (k + 1) = m.frontBytes st o k * 256 + (if o + k < st then m.fbuf (o + k) else 0) := by
  simp [Memory.frontBytes, List.range_succ]

/-- Front bytes depend on the bytes inside the frame alone. -/
theorem Memory.frontBytes_congr {m m' : Memory} {st st' o k : Nat}
    (h : ∀ i, i < k → (if o + i < st then m.fbuf (o + i) else 0) = (if o + i < st' then m'.fbuf (o + i) else 0)) :
    m.frontBytes st o k = m'.frontBytes st' o k := by
  induction k with
  | zero => rfl
  | succ k ih =>
    rw [Memory.frontBytes_succ, Memory.frontBytes_succ, ih (fun i hi => h i (by omega)), h k (by omega)]

/-- The first `o` bytes as a number, when the frame's later bytes change. -/
theorem Memory.written_congr {m m' : Memory} {st st' o : Nat} (hst : o ≤ st) (hst' : o ≤ st')
    (h : ∀ i, i < o → m.fbuf i = m'.fbuf i) : m.frontBytes st 0 o = m'.frontBytes st' 0 o := by
  refine Memory.frontBytes_congr (fun i hi => ?_)
  rw [if_pos (by omega), if_pos (by omega), h (0 + i) (by omega)]

/-- One more byte. -/
theorem Memory.written_succ (m : Memory) (o : Nat) :
    m.frontBytes (o + 1) 0 (o + 1) = m.frontBytes o 0 o * 256 + m.fbuf o := by
  rw [Memory.frontBytes_succ, if_pos (by omega), Memory.written_congr (m' := m) (st' := o) (by omega) (le_refl _)
    (fun _ _ => rfl), Nat.zero_add]

/-- A run of `n` more bytes, all 0xFF or all 0. -/
theorem Memory.written_run (m : Memory) (o n v : Nat) (h : ∀ j, j < n → m.fbuf (o + j) = v) (hv : v = 255 ∨ v = 0) :
    m.frontBytes (o + n) 0 (o + n) = m.frontBytes o 0 o * 256 ^ n + (if v = 255 then 256 ^ n - 1 else 0) := by
  induction n with
  | zero => simp
  | succ n ih =>
    have hp : 0 < 256 ^ n := by positivity
    rw [← Nat.add_assoc, Memory.written_succ, ih (fun j hj => h j (by omega)), h n (by omega), pow_succ]
    rcases hv with rfl | rfl
    · simp only [if_true]
      rw [← mul_assoc]
      omega
    · simp only [show ¬ (0 : Nat) = 255 by norm_num, if_false]
      rw [← mul_assoc]
      omega

/-- One symbol out appends it to the number produced, its carry included, when no carry meets a buffered 0xFF or a
missing byte (R112). -/
theorem carryOut_produced {hw : Params} {c : Nat} {x y : Rc} (hx : x.coder.ext.toNat < 2 ^ hw.extBits)
    (hw32 : hw.extBits ≤ 32) (hc : c < 512)
    (hs : 256 ≤ c → x.coder.remValid = true ∧ x.coder.rem.toNat ≠ 255) (h : carryOut hw c x = .ok y) :
    y.produced = x.produced * 256 + c := by
  have hext := x.coder.ext.isLt
  have hrem := x.coder.rem.isLt
  have hp : 0 < 256 ^ x.coder.ext.toNat := by positivity
  unfold carryOut at h
  split_ifs at h with hc1 he hv
  · simp only [Except.ok.injEq] at h
    subst h
    have h32 : 2 ^ hw.extBits ≤ 2 ^ 32 := Nat.pow_le_pow_right (by norm_num) hw32
    have hpos : 0 < 2 ^ hw.extBits := by positivity
    have hlt : x.coder.ext.toNat + 1 < 2 ^ 32 := by omega
    simp only [Rc.produced, toNat_regNat hlt, pow_succ]
    rw [hc1]
    simp only [Config.symMax]
    generalize (if x.coder.remValid = true then _ else _) = B
    rw [add_mul, ← mul_assoc]
    omega
  · obtain ⟨a, ha, h⟩ := run_bind_eq_ok.1 h
    obtain ⟨z, hz, h⟩ := run_bind_eq_ok.1 h
    simp only [Except.ok.injEq] at h
    subst h
    obtain ⟨g1, g2, g3, g4⟩ := writeFront_grew ha
    obtain ⟨k1, k2, k3, k4⟩ := flushRun_grew rfl hz
    have hae : a.coder.ext = x.coder.ext := by rw [g2]
    have he0 : z.coder.ext.toNat = 0 := by rw [k2]; rfl
    rw [hae] at k3 k4
    simp only [Config.symMax] at k4 hc1
    have hcase : c / 256 = 0 ∨ c / 256 = 1 := by omega
    simp only [Rc.produced, he0, if_true, hv, pow_zero, mul_one, toNat_byteOf, k3]
    rw [Memory.written_run z.mem a.coder.offs.toNat x.coder.ext.toNat ((255 + c / 256) % 256)
      (fun j hj => by rw [k4 j hj]; omega) (by omega)]
    have hw1 : z.mem.frontBytes a.coder.offs.toNat 0 a.coder.offs.toNat =
        x.mem.frontBytes x.coder.offs.toNat 0 x.coder.offs.toNat * 256 + (x.coder.rem.toNat + c / 256) % 256 := by
      rw [Memory.written_congr (m' := a.mem) (st' := a.coder.offs.toNat) (le_refl _) (le_refl _)
        (fun i hi => Memory.fbuf_sameBut k1.mem (.inl hi)), g3, Memory.written_succ, g4,
        Memory.written_congr (m' := x.mem) (st' := x.coder.offs.toNat) (le_refl _) (le_refl _)
        (fun i hi => Memory.fbuf_sameBut g1.mem (.inl hi))]
      omega
    rw [hw1]
    generalize x.mem.frontBytes x.coder.offs.toNat 0 x.coder.offs.toNat = W
    rcases hcase with h0 | h1
    · rw [h0]
      have : (x.coder.rem.toNat + 0) % 256 = x.coder.rem.toNat := by omega
      rw [this]
      simp only [if_true]
      omega
    · have hne := (hs (by omega)).2
      rw [h1]
      have : (x.coder.rem.toNat + 1) % 256 = x.coder.rem.toNat + 1 := by omega
      rw [this]
      simp only [show ¬ (255 + 1) % 256 = 255 by norm_num, if_false]
      rw [← add_assoc, add_mul _ 1]
      omega
  · obtain ⟨a, ha, h⟩ := run_bind_eq_ok.1 h
    obtain rfl : x = a := by simpa using ha
    obtain ⟨z, hz, h⟩ := run_bind_eq_ok.1 h
    simp only [Except.ok.injEq] at h
    subst h
    obtain ⟨k1, k2, k3, k4⟩ := flushRun_grew rfl hz
    have he0 : z.coder.ext.toNat = 0 := by rw [k2]; rfl
    have h0 : c / 256 = 0 := by
      by_contra hne
      exact hv (hs (by omega)).1
    rw [h0] at k4
    simp only [Config.symMax] at k4
    simp only [Rc.produced, he0, if_true, if_neg hv, pow_zero, mul_one, toNat_byteOf, k3]
    rw [Memory.written_run z.mem x.coder.offs.toNat x.coder.ext.toNat 255
      (fun j hj => by rw [k4 j hj]) (.inl rfl),
      Memory.written_congr (m' := x.mem) (st' := x.coder.offs.toNat) (le_refl _) (le_refl _)
        (fun i hi => Memory.fbuf_sameBut k1.mem (.inl hi))]
    simp only [if_true]
    omega

/-- What is buffered after one symbol: the symbol's byte, or as before when the symbol joined the 0xFF run (R112). -/
theorem carryOut_rem {hw : Params} {c : Nat} {x y : Rc} (h : carryOut hw c x = .ok y) :
    if c = 255 then y.coder.rem = x.coder.rem ∧ y.coder.remValid = x.coder.remValid
    else y.coder.rem = BitVec.ofNat 8 c ∧ y.coder.remValid = true := by
  unfold carryOut at h
  simp only [Config.symMax] at h
  split_ifs at h with hc he hv
  · simp only [Except.ok.injEq] at h
    subst h
    rw [if_pos hc]
    exact ⟨rfl, rfl⟩
  · obtain ⟨a, ha, h⟩ := run_bind_eq_ok.1 h
    obtain ⟨z, hz, h⟩ := run_bind_eq_ok.1 h
    simp only [Except.ok.injEq] at h
    subst h
    rw [if_neg hc]
    exact ⟨rfl, rfl⟩
  · obtain ⟨a, ha, h⟩ := run_bind_eq_ok.1 h
    obtain ⟨z, hz, h⟩ := run_bind_eq_ok.1 h
    simp only [Except.ok.injEq] at h
    subst h
    rw [if_neg hc]
    exact ⟨rfl, rfl⟩

/-- A symbol other than 255 leaves no 0xFF run (R112). -/
theorem carryOut_ext_zero {hw : Params} {c : Nat} {x y : Rc} (hc : c ≠ 255) (h : carryOut hw c x = .ok y) :
    y.coder.ext.toNat = 0 := by
  unfold carryOut at h
  simp only [Config.symMax] at h
  rw [if_neg hc] at h
  split_ifs at h with hv <;>
  · obtain ⟨a, ha, h⟩ := run_bind_eq_ok.1 h
    obtain ⟨z, hz, h⟩ := run_bind_eq_ok.1 h
    simp only [Except.ok.injEq] at h
    subst h
    obtain ⟨-, k2, -⟩ := flushRun_grew rfl hz
    change z.coder.ext.toNat = 0
    rw [k2]; rfl

/-- One pass of R113 shifts the whole code value by one symbol, exactly, and keeps every later carry harmless. -/
theorem encPass_exact {hw : Params} {x z : Rc} (hx : x.coder.ext.toNat < 2 ^ hw.extBits) (hw32 : hw.extBits ≤ 32)
    (hr : 0 < x.coder.rng.toNat) (hb : x.coder.rng.toNat ≤ Config.bot)
    (hsum : x.coder.val.toNat + x.coder.rng.toNat ≤ 4294967295) (hcs : x.coder.carrySafe)
    (h : carryOut hw (x.coder.val.toNat / 2 ^ 23) x = .ok z) :
    z.produced * 2 ^ 31 + x.coder.val.toNat * 256 % 2 ^ 31 = (x.produced * 2 ^ 31 + x.coder.val.toNat) * 256 ∧
    ((z.coder.remValid = false ∨ z.coder.rem.toNat = 255) →
      x.coder.val.toNat * 256 % 2 ^ 31 + x.coder.rng.toNat * 256 ≤ 2 ^ 31) := by
  have hb' : x.coder.rng.toNat ≤ 8388608 := hb
  have hv := x.coder.val.isLt
  constructor
  · rw [carryOut_produced hx hw32 (by omega) ?_ h]
    · omega
    · intro hc
      constructor
      · by_contra hf
        have : x.coder.val.toNat + x.coder.rng.toNat ≤ 2147483648 := hcs (.inl (by simpa using hf))
        omega
      · intro hf
        have : x.coder.val.toNat + x.coder.rng.toNat ≤ 2147483648 := hcs (.inr hf)
        omega
  · have hrem := carryOut_rem h
    intro hz
    split_ifs at hrem with hc
    · have : x.coder.val.toNat + x.coder.rng.toNat ≤ 2147483648 := hcs (by rw [← hrem.1, ← hrem.2]; exact hz)
      omega
    · rcases hz with hz | hz
      · rw [hrem.2] at hz; simp at hz
      · rw [hrem.1, toNat_byteOf] at hz
        omega

/-- Renormalization shifts the whole code value by the symbols it puts out, exactly (R112, R113). -/
theorem encNormalizeLoop_exact {hw : Params} {n : Nat} {x y : Rc} (hx : x.coder.ext.toNat < 2 ^ hw.extBits)
    (hw32 : hw.extBits ≤ 32) (hr : 0 < x.coder.rng.toNat)
    (hsum : x.coder.val.toNat + x.coder.rng.toNat ≤ 4294967295) (hcs : x.coder.carrySafe)
    (h : encNormalizeLoop hw n x = .ok y) :
    y.coder.carrySafe ∧ ∃ k ≤ n,
      y.produced * 2 ^ 31 + y.coder.val.toNat = (x.produced * 2 ^ 31 + x.coder.val.toNat) * 256 ^ k ∧
      y.coder.rng.toNat = x.coder.rng.toNat * 256 ^ k := by
  induction n generalizing x with
  | zero =>
    unfold encNormalizeLoop at h
    split_ifs at h with hb
    simp only [Except.ok.injEq] at h
    subst h
    exact ⟨hcs, 0, le_refl _, by simp, by simp⟩
  | succ n ih =>
    unfold encNormalizeLoop at h
    split_ifs at h with hb
    · obtain ⟨z, hz, h⟩ := run_bind_eq_ok.1 h
      have hb' : x.coder.rng.toNat ≤ 8388608 := hb
      obtain ⟨g, gs, ge⟩ := carryOut_grew hx hw32 hz
      obtain ⟨p1, p2⟩ := encPass_exact hx hw32 hr hb hsum hcs hz
      have hrng : (encShift z.coder).rng.toNat = x.coder.rng.toNat * 256 := by
        simp only [encShift, g.rng]
        exact toNat_regNat (by omega)
      have hval : (encShift z.coder).val.toNat = x.coder.val.toNat * 256 % 2 ^ 31 := by
        simp only [encShift, g.val, Config.top]
        exact toNat_regNat (by omega)
      obtain ⟨q1, k, hk, q2, q3⟩ := @ih { z with coder := encShift z.coder } (by simpa using ge)
        (by simp only [hrng]; omega) (by simp only [hrng, hval]; omega)
        (by
          intro hzz
          simp only [encShift_rem, encShift_remValid] at hzz
          simp only [hrng, hval, Config.top]
          exact p2 hzz) h
      refine ⟨q1, k + 1, by omega, ?_, ?_⟩
      · rw [q2, pow_succ' 256 k, ← mul_assoc, ← p1]
        simp only [hval]
        rfl
      · rw [q3, pow_succ', ← mul_assoc]
        simp only [hrng]
    · simp only [Except.ok.injEq] at h
      subst h
      exact ⟨hcs, 0, by omega, by simp, by simp⟩

/-! ### The raw-bit window (R116, R117) -/

/-- Draining `k` whole bytes of the window: they land below the end part, low byte first, and nothing else changes. -/
theorem drainWindow_ok {hw : Params} {k w : Nat} {x y : Rc} (hf : x.coder.endOffs.toNat ≤ x.coder.storage.toNat)
    (h : drainWindow hw k w x = .ok y) :
    y.coder = { x.coder with endOffs := y.coder.endOffs } ∧
    y.coder.endOffs.toNat = x.coder.endOffs.toNat + k ∧
    (k = 0 ∨ x.coder.offs.toNat + y.coder.endOffs.toNat ≤ x.coder.storage.toNat) ∧
    (∀ i, i < k → y.mem.fbuf (x.coder.storage.toNat - 1 - (x.coder.endOffs.toNat + i)) = w / 256 ^ i % 256) ∧
    x.mem.sameBut y.mem (frameRange (x.coder.storage.toNat - y.coder.endOffs.toNat)
      (x.coder.storage.toNat - x.coder.endOffs.toNat)) := by
  induction k generalizing w x with
  | zero =>
    obtain rfl : x = y := by simpa [drainWindow] using h
    exact ⟨rfl, rfl, .inl rfl, by omega, Memory.sameBut_refl _ _⟩
  | succ k ih =>
    obtain ⟨z, hz, h⟩ := run_bind_eq_ok.1 h
    obtain ⟨h1, h2, rfl⟩ := writeEnd_eq_ok.1 hz
    have hst := x.coder.storage.isLt
    have he : (regNat (x.coder.endOffs.toNat + 1)).toNat = x.coder.endOffs.toNat + 1 := toNat_regNat (by omega)
    obtain ⟨k1, k2, k3, k4, k5⟩ := ih (by simp only [he]; omega) h
    simp only [he] at k2 k3 k4 k5
    refine ⟨by rw [k1], by omega, .inr (by omega), ?_, ?_⟩
    · intro i hi
      rcases Nat.eq_zero_or_pos i with rfl | hi0
      · rw [Memory.fbuf_sameBut k5 (.inr (by omega)), Memory.fbuf_setByte, if_pos (by omega)]
        simp
      · have := k4 (i - 1) (by omega)
        rw [show x.coder.endOffs.toNat + 1 + (i - 1) = x.coder.endOffs.toNat + i by omega, Nat.div_div_eq_div_mul,
          ← pow_succ', show i - 1 + 1 = i by omega] at this
        exact this
    · refine Memory.sameBut_trans (Memory.sameBut_setByte ?_) (Memory.sameBut_mono k5 (frameRange_mono ?_ ?_))
      · unfold frameRange fbufAddr; omega
      · omega
      · omega

/-- The window drains when the frame has room for its bytes. -/
theorem drainWindow_room {hw : Params} {k w : Nat} {x : Rc} (hs : x.coder.storage.toNat ≤ hw.fbufBytes)
    (h : k = 0 ∨ x.coder.offs.toNat + x.coder.endOffs.toNat + k ≤ x.coder.storage.toNat) :
    ∃ y, drainWindow hw k w x = .ok y := by
  induction k generalizing w x with
  | zero => exact ⟨x, rfl⟩
  | succ k ih =>
    have hst := x.coder.storage.isLt
    have he : (regNat (x.coder.endOffs.toNat + 1)).toNat = x.coder.endOffs.toNat + 1 := toNat_regNat (by omega)
    obtain ⟨y, hy⟩ := @ih (w / 256)
      { coder := { x.coder with endOffs := regNat (x.coder.endOffs.toNat + 1) }
        mem := x.mem.setByte (fbufAddr (x.coder.storage.toNat - (x.coder.endOffs.toNat + 1)))
          (BitVec.ofNat 8 (w % 256)) } hs (by simp only [he]; omega)
    exact ⟨y, run_bind_eq_ok.2 ⟨_, writeEnd_eq_ok.2 ⟨by omega, by omega, rfl⟩, hy⟩⟩

/-- The window takes BUF_OVF when the frame has no room for its bytes. -/
theorem drainWindow_full {hw : Params} {k w : Nat} {x : Rc} (hs : x.coder.storage.toNat ≤ hw.fbufBytes)
    (h : x.coder.storage.toNat < x.coder.offs.toNat + x.coder.endOffs.toNat + k) (hk : 0 < k) :
    drainWindow hw k w x = .error (.raised .bufOvf) := by
  induction k generalizing w x with
  | zero => omega
  | succ k ih =>
    by_cases hfull : x.coder.storage.toNat ≤ x.coder.offs.toNat + x.coder.endOffs.toNat
    · exact run_bind_eq_error.2 (.inl (writeEnd_full hfull))
    · have hst := x.coder.storage.isLt
      have he : (regNat (x.coder.endOffs.toNat + 1)).toNat = x.coder.endOffs.toNat + 1 := toNat_regNat (by omega)
      refine run_bind_eq_error.2 (.inr ⟨_, writeEnd_eq_ok.2 ⟨by omega, by omega, rfl⟩, ih hs ?_ (by omega)⟩)
      simp only [he]; omega

/-! ### Reading one byte (R130) -/

/-- A front read: the byte under the cursor, which moves; past the frame, 0, and the cursor stays. -/
theorem readFront_inside {hw : Params} {x : Rc} (hs : x.coder.storage.toNat ≤ hw.fbufBytes) :
    readFront hw x = .ok
      (if x.coder.offs.toNat < x.coder.storage.toNat then x.mem.fbuf x.coder.offs.toNat else 0,
       { x.coder with
         offs := if x.coder.offs.toNat < x.coder.storage.toNat then regNat (x.coder.offs.toNat + 1)
                 else x.coder.offs }) := by
  unfold readFront
  simp only
  split_ifs with h1 h2
  · omega
  · rfl
  · rfl

/-- An end read, likewise. -/
theorem readEnd_inside {hw : Params} {x : Rc} (hs : x.coder.storage.toNat ≤ hw.fbufBytes) :
    readEnd hw x = .ok
      (if x.coder.endOffs.toNat < x.coder.storage.toNat
         then x.mem.fbuf (x.coder.storage.toNat - (x.coder.endOffs.toNat + 1)) else 0,
       { x.coder with
         endOffs := if x.coder.endOffs.toNat < x.coder.storage.toNat then regNat (x.coder.endOffs.toNat + 1)
                    else x.coder.endOffs }) := by
  unfold readEnd
  simp only
  split_ifs with h1 h2
  · omega
  · rfl
  · rfl

/-- Where a cursor that stops at the end of the frame stands after one more read. -/
theorem toNat_cursor {o st : Word} (h : o.toNat ≤ st.toNat) :
    (if o.toNat < st.toNat then regNat (o.toNat + 1) else o).toNat = min (o.toNat + 1) st.toNat := by
  have := st.isLt
  split_ifs with h1
  · rw [toNat_regNat (by omega)]; omega
  · omega

theorem cursor_step (o k st : Nat) : min (min (o + 1) st + k) st = min (o + (k + 1)) st := by omega

/-! ### The decoder's renormalization (R131) -/

theorem or_eq_add {a b n : Nat} (hb : b < 2 ^ n) : (a * 2 ^ n) ||| b = a * 2 ^ n + b := by
  rw [mul_comm, Nat.two_pow_add_eq_or_of_lt hb]

theorem frontBytes_head (m : Memory) (st o k : Nat) :
    m.frontBytes st o (k + 1) =
      (if o < st then m.fbuf o else 0) * 256 ^ k + m.frontBytes st (o + 1) k := by
  induction k with
  | zero => simp [Memory.frontBytes]
  | succ k ih =>
    rw [Memory.frontBytes_succ, ih, Memory.frontBytes_succ m st (o + 1) k, pow_succ,
      show o + 1 + k = o + (k + 1) by omega, add_mul, mul_assoc, add_assoc]

theorem frontBytes_lt (m : Memory) (st o k : Nat) : m.frontBytes st o k < 256 ^ k := by
  induction k with
  | zero => simp [Memory.frontBytes]
  | succ k ih =>
    rw [Memory.frontBytes_succ, pow_succ]
    have h1 : (if o + k < st then m.fbuf (o + k) else 0) < 256 := by
      split_ifs
      · exact Memory.fbuf_lt _ _
      · omega
    omega

/-- Past the end of the frame every byte reads 0, wherever the cursor stands. -/
theorem frontBytes_past (m : Memory) (st o o' k : Nat) (h : st ≤ o) (h' : st ≤ o') :
    m.frontBytes st o k = m.frontBytes st o' k :=  by
  induction k with
  | zero => rfl
  | succ k ih => rw [Memory.frontBytes_succ, Memory.frontBytes_succ, ih, if_neg (by omega), if_neg (by omega)]

/-- The eight bits that straddle two bytes, over all the bytes read (R131). -/
theorem straddle (A b K F : Nat) (hK : K = 1 ∨ ∃ H, K = 2 * H ∧ 0 < H) (hF : F < K) (hb : A % 2 = b % 2) :
    (A * K + F) / 2 % (256 * K) = A / 2 % 256 * K + (b * K + F) / 2 % K := by
  rcases hK with rfl | ⟨H, rfl, hH⟩
  · have : F = 0 := by omega
    subst this
    simp only [mul_one, add_zero, Nat.mod_one]
  · have hsplit : ∀ n : Nat, (n * (2 * H) + F) / 2 = n / 2 * (2 * H) + (n % 2 * H + F / 2) := by
      intro n
      have : n * (2 * H) = 2 * (n * H) := by ring
      rw [this]
      have h2 : n * H = n / 2 * (2 * H) + n % 2 * H := by
        conv_lhs => rw [← Nat.div_add_mod n 2]
        ring
      omega
    rw [hsplit, hsplit, hb]
    have hlt : b % 2 * H + F / 2 < 2 * H := by
      rcases Nat.mod_two_eq_zero_or_one b with h | h <;> rw [h] <;> omega
    rw [Nat.add_comm (b / 2 * (2 * H)), Nat.add_mul_mod_self_right, Nat.mod_eq_of_lt hlt]
    generalize b % 2 * H + F / 2 = R at hlt
    rw [show A / 2 * (2 * H) + R = R + 2 * H * (A / 2) by ring, show 256 * (2 * H) = 2 * H * 256 by ring,
      Nat.mod_mul, Nat.add_mul_mod_self_left, Nat.mod_eq_of_lt hlt, Nat.add_mul_div_left _ _ (by omega),
      Nat.div_eq_of_lt hlt]
    ring_nf

/-- What one pass of R131 makes of RC_VAL: no bit leaves the 31-bit register. -/
theorem decShift_val {b : Nat} {c : Coder} (hb : b < 256) (hv : c.val.toNat < 8388608) :
    (decShift b c).val.toNat = c.val.toNat * 256 + (255 - (c.rem.toNat * 256 + b) / 2 % 256) := by
  have h1 : (c.rem.toNat * 256) ||| b = c.rem.toNat * 256 + b := or_eq_add (n := 8) hb
  simp only [decShift, h1, Config.symMax, Config.top]
  rw [Nat.mod_eq_of_lt (by omega), toNat_regNat (by omega)]

/-- After at most `n` passes: how many passes `k` were made, and what the decoder is then (R131). -/
theorem decNormalizeLoop_ok {hw : Params} {n : Nat} {x y : Rc} (hs : x.coder.storage.toNat ≤ hw.fbufBytes)
    (ho : x.coder.offs.toNat ≤ x.coder.storage.toNat) (hv : x.coder.val.toNat < x.coder.rng.toNat)
    (h : decNormalizeLoop hw n x = .ok y) :
    ∃ k ≤ n, x.coder.decoded y.coder x.mem x.coder.val.toNat x.coder.rng.toNat k ∧ y.mem = x.mem ∧
      y.coder = { x.coder with val := y.coder.val, rng := y.coder.rng, rem := y.coder.rem, offs := y.coder.offs
                               nbitsTotal := y.coder.nbitsTotal } := by
  induction n generalizing x with
  | zero =>
    unfold decNormalizeLoop at h
    split_ifs at h with hb
    simp only [Except.ok.injEq] at h
    subst h
    refine ⟨0, le_refl _, ⟨⟨by simpa using hb, by omega⟩, by simp, by simp [Nat.mod_one], ?_, by omega, fun _ => rfl,
      rfl⟩, rfl, rfl⟩
    have := x.coder.rem.isLt
    simp only [Memory.frontBytes, pow_zero, mul_one, List.range_zero, List.foldl_nil]
    omega
  | succ n ih =>
    unfold decNormalizeLoop at h
    split_ifs at h with hb
    · rw [readFront_inside hs, run_ok_bind] at h
      have hb' : x.coder.rng.toNat ≤ 8388608 := hb
      have hst := x.coder.storage.isLt
      generalize hbd : (if x.coder.offs.toNat < x.coder.storage.toNat then x.mem.fbuf x.coder.offs.toNat else 0) = b at h
      have hb8 : b < 256 := by
        rw [← hbd]; split_ifs
        · exact Memory.fbuf_lt _ _
        · omega
      have hcur := toNat_cursor ho
      generalize (if x.coder.offs.toNat < x.coder.storage.toNat then regNat (x.coder.offs.toNat + 1)
        else x.coder.offs) = o1 at h hcur
      have hrng : (decShift b { x.coder with offs := o1 }).rng.toNat = x.coder.rng.toNat * 256 := by
        simp only [decShift]
        exact toNat_regNat (by omega)
      have hval := decShift_val (b := b) (c := { x.coder with offs := o1 }) hb8 (by simp only; omega)
      have hrem : (decShift b { x.coder with offs := o1 }).rem.toNat = b := by
        simp only [decShift, toNat_byteOf]; omega
      obtain ⟨k, hk, ⟨⟨hp1, hp2⟩, e1, e2, e3, e4, e5, -⟩, em, ec⟩ :=
        @ih { x with coder := decShift b { x.coder with offs := o1 } }
          (by simp only [decShift_storage]; exact hs) (by simp only [decShift_storage, decShift_offs, hcur]; omega)
          (by simp only [hrng, hval]; omega) h
      simp only [decShift_storage, decShift_offs, hcur, hrng, hval, hrem] at hp1 hp2 e1 e2 e3 e4 e5
      have hfb : x.mem.frontBytes x.coder.storage.toNat x.coder.offs.toNat (k + 1) = b * 256 ^ k +
          x.mem.frontBytes x.coder.storage.toNat (min (x.coder.offs.toNat + 1) x.coder.storage.toNat) k := by
        rw [frontBytes_head, hbd]
        by_cases hlt : x.coder.offs.toNat < x.coder.storage.toNat
        · rw [show min (x.coder.offs.toNat + 1) x.coder.storage.toNat = x.coder.offs.toNat + 1 by omega]
        · rw [frontBytes_past _ _ (x.coder.offs.toNat + 1)
            (min (x.coder.offs.toNat + 1) x.coder.storage.toNat) _ (by omega) (by omega)]
      have hF := frontBytes_lt x.mem x.coder.storage.toNat (min (x.coder.offs.toNat + 1) x.coder.storage.toNat) k
      generalize x.mem.frontBytes x.coder.storage.toNat (min (x.coder.offs.toNat + 1) x.coder.storage.toNat) k = F
        at hF hfb e2 e3
      have hKp : 0 < 256 ^ k := by positivity
      have hK : 256 ^ k = 1 ∨ ∃ H, 256 ^ k = 2 * H ∧ 0 < H := by
        rcases Nat.eq_zero_or_pos k with rfl | hk0
        · exact .inl rfl
        · obtain ⟨k', rfl⟩ : ∃ k', k = k' + 1 := ⟨k - 1, by omega⟩
          exact .inr ⟨128 * 256 ^ k', by rw [pow_succ]; ring, by positivity⟩
      have hA : x.coder.rem.toNat * 256 ^ (k + 1) + (b * 256 ^ k + F) =
          (x.coder.rem.toNat * 256 + b) * 256 ^ k + F := by rw [pow_succ]; ring
      refine ⟨k + 1, by omega, ⟨⟨?_, ?_⟩, ?_, ?_, ?_, ?_, ?_, ?_⟩, em, ?_⟩
      · rw [pow_succ' 256 k, ← mul_assoc]; exact hp1
      · intro j hj
        rcases Nat.eq_zero_or_pos j with rfl | hj0
        · simpa using hb
        · have := hp2 (j - 1) (by omega)
          rwa [mul_assoc, ← pow_succ', show j - 1 + 1 = j by omega] at this
      · rw [e1, mul_assoc, ← pow_succ']
      · rw [e2, hfb, hA, pow_succ' 256 k,
          straddle (x.coder.rem.toNat * 256 + b) b (256 ^ k) F hK hF (by omega)]
        have hmod : (b * 256 ^ k + F) / 2 % 256 ^ k < 256 ^ k := Nat.mod_lt _ hKp
        have hs8 : (x.coder.rem.toNat * 256 + b) / 2 % 256 < 256 := Nat.mod_lt _ (by omega)
        generalize (b * 256 ^ k + F) / 2 % 256 ^ k = R at hmod ⊢
        generalize (x.coder.rem.toNat * 256 + b) / 2 % 256 = S at hs8 ⊢
        generalize x.coder.val.toNat = V at *
        obtain ⟨S', hS'⟩ : ∃ S', S' = 255 - S := ⟨_, rfl⟩
        have hS : S = 255 - S' := by omega
        rw [← hS', add_mul, mul_assoc]
        have h256 : 256 * 256 ^ k = S * 256 ^ k + S' * 256 ^ k + 256 ^ k := by
          rw [← add_mul, show S + S' = 255 by omega]; ring
        omega
      · rw [e3, hfb, hA]
        rcases Nat.eq_zero_or_pos k with rfl | hk0
        · simp only [pow_zero, mul_one] at *; omega
        · obtain ⟨k', rfl⟩ : ∃ k', k = k' + 1 := ⟨k - 1, by omega⟩
          rw [pow_succ, ← mul_assoc, ← mul_assoc]
          omega
      · rw [e4, cursor_step]
      · intro hov
        have h1 : (decShift b { x.coder with offs := o1 }).nbitsTotal.toNat = x.coder.nbitsTotal.toNat + 8 := by
          simp only [decShift]
          exact toNat_bitCount (by omega)
        have := e5 (by rw [h1]; omega)
        rw [h1] at this
        omega
      · rw [ec]; rfl
      · rw [ec]; rfl
    · simp only [Except.ok.injEq] at h
      subst h
      refine ⟨0, by omega, ⟨⟨by simpa using hb, by omega⟩, by simp, by simp [Nat.mod_one], ?_, by omega, fun _ => rfl,
        rfl⟩, rfl, rfl⟩
      have := x.coder.rem.isLt
      simp only [Memory.frontBytes, pow_zero, mul_one, List.range_zero, List.foldl_nil]
      omega

/-- `n` passes are enough for an interval that `n` shifts bring above the threshold: the decoder's renormalization never
faults (R130, R131). -/
theorem decNormalizeLoop_room {hw : Params} {n : Nat} {x : Rc} (hs : x.coder.storage.toNat ≤ hw.fbufBytes)
    (hr : Config.bot < x.coder.rng.toNat * 256 ^ n) : ∃ y, decNormalizeLoop hw n x = .ok y := by
  induction n generalizing x with
  | zero =>
    unfold decNormalizeLoop
    rw [if_neg (by simp only [pow_zero, mul_one] at hr; omega)]
    exact ⟨_, rfl⟩
  | succ n ih =>
    unfold decNormalizeLoop
    split_ifs with hb
    · have hb' : x.coder.rng.toNat ≤ 8388608 := hb
      rw [readFront_inside hs, run_ok_bind]
      refine ih ?_ ?_
      · simpa using hs
      · have : (regNat (x.coder.rng.toNat * 256)).toNat = x.coder.rng.toNat * 256 := toNat_regNat (by omega)
        simp only [decShift, this, mul_assoc, ← pow_succ']
        exact hr
    · exact ⟨_, rfl⟩

/-! ### The raw-bit refill (R135) -/

theorem endBytes_zero (m : Memory) (st o : Nat) : m.endBytes st o 0 = 0 := rfl

theorem endBytes_succ (m : Memory) (st o k : Nat) :
    m.endBytes st o (k + 1) =
      (if o < st then m.fbuf (st - 1 - o) else 0) + 256 * m.endBytes st (o + 1) k := by
  unfold Memory.endBytes
  rw [List.range_succ_eq_map, List.map_cons, List.sum_cons, List.map_map, ← List.sum_map_mul_left]
  simp only [Nat.add_zero, pow_zero, mul_one]
  congr 2
  refine List.map_congr_left (fun i _ => ?_)
  simp only [Function.comp_apply, Nat.succ_eq_add_one, pow_succ]
  rw [show o + (i + 1) = o + 1 + i by omega]
  ring

theorem endBytes_lt (m : Memory) (st o k : Nat) : m.endBytes st o k < 256 ^ k := by
  induction k generalizing o with
  | zero => simp [endBytes_zero]
  | succ k ih =>
    rw [endBytes_succ, pow_succ]
    have h1 : (if o < st then m.fbuf (st - 1 - o) else 0) < 256 := by
      split_ifs
      · exact Memory.fbuf_lt _ _
      · omega
    have := ih (o + 1)
    omega

theorem endBytes_past (m : Memory) (st o k : Nat) (h : st ≤ o) : m.endBytes st o k = 0 := by
  induction k generalizing o with
  | zero => rfl
  | succ k ih => rw [endBytes_succ, if_neg (by omega), ih (o + 1) (by omega)]

/-- Refilling by `k` bytes puts them above the window's `a` bits and moves the end cursor, at most to the frame's end. -/
theorem refillWindow_eq {hw : Params} {k w a : Nat} {x : Rc} (hs : x.coder.storage.toNat ≤ hw.fbufBytes)
    (ho : x.coder.endOffs.toNat ≤ x.coder.storage.toNat) (hw' : w < 2 ^ a) :
    ∃ c, refillWindow hw k w a x =
        .ok (w + x.mem.endBytes x.coder.storage.toNat x.coder.endOffs.toNat k * 2 ^ a, c) ∧
      c = { x.coder with endOffs := c.endOffs } ∧
      c.endOffs.toNat = min (x.coder.endOffs.toNat + k) x.coder.storage.toNat := by
  induction k generalizing w a x with
  | zero => exact ⟨x.coder, by simp [refillWindow, endBytes_zero], rfl, by omega⟩
  | succ k ih =>
    unfold refillWindow
    rw [readEnd_inside hs, run_ok_bind]
    have hcur := toNat_cursor ho
    generalize (if x.coder.endOffs.toNat < x.coder.storage.toNat then regNat (x.coder.endOffs.toNat + 1)
      else x.coder.endOffs) = e1 at hcur
    have hbyte : (if x.coder.endOffs.toNat < x.coder.storage.toNat
        then x.mem.fbuf (x.coder.storage.toNat - (x.coder.endOffs.toNat + 1)) else 0) =
        (if x.coder.endOffs.toNat < x.coder.storage.toNat
        then x.mem.fbuf (x.coder.storage.toNat - 1 - x.coder.endOffs.toNat) else 0) := by
      rw [show x.coder.storage.toNat - (x.coder.endOffs.toNat + 1) =
        x.coder.storage.toNat - 1 - x.coder.endOffs.toNat by omega]
    rw [hbyte, endBytes_succ]
    generalize hb : (if x.coder.endOffs.toNat < x.coder.storage.toNat
        then x.mem.fbuf (x.coder.storage.toNat - 1 - x.coder.endOffs.toNat) else 0) = b
    have hb8 : b < 256 := by
      rw [← hb]; split_ifs
      · exact Memory.fbuf_lt _ _
      · omega
    have hor : w ||| (b * 2 ^ a) = w + b * 2 ^ a := by
      rw [Nat.lor_comm, or_eq_add hw', Nat.add_comm]
    simp only [hor]
    have hlt : w + b * 2 ^ a < 2 ^ (a + 8) := by
      rw [pow_add]
      have : b * 2 ^ a ≤ 255 * 2 ^ a := Nat.mul_le_mul_right _ (by omega)
      omega
    obtain ⟨c, h1, h2, h3⟩ := @ih (w + b * 2 ^ a) (a + 8) { x with coder := { x.coder with endOffs := e1 } } hs
      (by simp only [hcur]; omega) hlt
    simp only [hcur] at h1 h3
    refine ⟨c, ?_, h2, by omega⟩
    rw [h1]
    congr 2
    have hrest : x.mem.endBytes x.coder.storage.toNat (min (x.coder.endOffs.toNat + 1) x.coder.storage.toNat) k =
        x.mem.endBytes x.coder.storage.toNat (x.coder.endOffs.toNat + 1) k := by
      by_cases hlt : x.coder.endOffs.toNat < x.coder.storage.toNat
      · rw [show min (x.coder.endOffs.toNat + 1) x.coder.storage.toNat = x.coder.endOffs.toNat + 1 by omega]
      · rw [endBytes_past _ _ _ _ (by omega), endBytes_past _ _ _ _ (by omega)]
    rw [hrest, pow_add]
    ring

end Sys2Proof.Machine
end

