-- ==== Sys2Proof/Laws/RangeCoder.lean ====
section
/-! SUPPORT. What the operations behind the range coder commands do to the coder and the memory, in the rules' own
numbers. -/

namespace Sys2Proof.Machine

/-! ### Narrowing the interval (R115, R134) -/

/-- The narrowed interval stays inside the old one and is at least one quotient wide. -/
theorem narrowed_inside {low rng fl fh ft : Nat} (h1 : fl < fh) (h2 : fh ≤ ft) :
    (narrowed low rng fl fh ft).1 + (narrowed low rng fl fh ft).2 ≤ low + rng ∧
    rng / ft ≤ (narrowed low rng fl fh ft).2 ∧ (narrowed low rng fl fh ft).2 ≤ rng ∧
    low ≤ (narrowed low rng fl fh ft).1 := by
  have hq : rng / ft * ft ≤ rng := Nat.div_mul_le_self _ _
  unfold narrowed
  generalize rng / ft = r at *
  have hf : r * (ft - fl) = r * (ft - fh) + r * (fh - fl) := by rw [← mul_add]; congr 1; omega
  have hf2 : r * ft = r * (ft - fl) + r * fl := by rw [← mul_add]; congr 1; omega
  have hf3 : r * ft = r * (ft - fh) + r * fh := by rw [← mul_add]; congr 1; omega
  have h3 : r ≤ r * (fh - fl) := Nat.le_mul_of_pos_right _ (by omega)
  have h4 : r ≤ r * fh := Nat.le_mul_of_pos_right _ (by omega)
  split_ifs with h0
  · simp only
    omega
  · simp only
    omega

/-- The size of a narrowed interval does not depend on where the interval stands. -/
theorem narrowed_size (low low' rng fl fh ft : Nat) :
    (narrowed low rng fl fh ft).2 = (narrowed low' rng fl fh ft).2 := by
  unfold narrowed; split_ifs <;> rfl

theorem toNat_sub_regInt {a b : Nat} {w : Nat} (h : b ≤ a) (hw : a - b = w) (hlt : w < 2 ^ 32) :
    (regInt ((a : Int) - (b : Int))).toNat = w := by
  rw [toNat_regInt (by omega) (by omega)]
  omega

/-- The encoder's registers after narrowing are the rule's numbers (R115). -/
theorem encNarrow_eq {fl fh ft : Nat} {c : Coder} (h1 : fl < fh) (h2 : fh ≤ ft)
    (hsum : c.val.toNat + c.rng.toNat ≤ 4294967295) :
    (encNarrow fl fh ft c).val.toNat = (narrowed c.val.toNat c.rng.toNat fl fh ft).1 ∧
    (encNarrow fl fh ft c).rng.toNat = (narrowed c.val.toNat c.rng.toNat fl fh ft).2 := by
  obtain ⟨k1, -, k3, -⟩ := narrowed_inside (low := c.val.toNat) (rng := c.rng.toNat) h1 h2
  have hq : c.rng.toNat / ft * ft ≤ c.rng.toNat := Nat.div_mul_le_self _ _
  unfold encNarrow narrowed at *
  generalize c.rng.toNat / ft = r at *
  have hf2 : r * ft = r * (ft - fl) + r * fl := by rw [← mul_add]; congr 1; omega
  have hf3 : r * ft = r * (ft - fh) + r * fh := by rw [← mul_add]; congr 1; omega
  by_cases h0 : fl = 0
  · rw [if_pos h0] at k1 k3 ⊢
    rw [if_neg (by omega)]
    refine ⟨rfl, ?_⟩
    have hc : ((r : Int) * ((ft : Int) - (fh : Int))) = ((r * (ft - fh) : Nat) : Int) := by
      push_cast [Nat.cast_sub h2]; ring
    simp only at k3 ⊢
    rw [hc]
    exact toNat_sub_regInt (by omega) rfl (by omega)
  · rw [if_neg h0] at k1 k3 ⊢
    rw [if_pos (by omega)]
    simp only at k1 k3 ⊢
    constructor
    · have hc : ((c.val.toNat : Int) + c.rng.toNat - (r : Int) * ((ft : Int) - (fl : Int))) =
          (((c.val.toNat + c.rng.toNat) : Nat) : Int) - ((r * (ft - fl) : Nat) : Int) := by
        push_cast [Nat.cast_sub (show fl ≤ ft by omega)]; ring
      rw [hc]
      exact toNat_sub_regInt (by omega) (by omega) (by omega)
    · exact toNat_regNat (by omega)

/-- The decoder's registers after an update are the rule's numbers (R134). -/
theorem decNarrow_eq {fl fh ft : Nat} {c : Coder} (h1 : fl < fh) (h2 : fh ≤ ft) (hq : c.dq.toNat = c.rng.toNat / ft)
    (ht : c.dq.toNat * (ft - fh) ≤ c.val.toNat) :
    (decNarrow fl fh ft c).val.toNat = c.val.toNat - c.dq.toNat * (ft - fh) ∧
    (decNarrow fl fh ft c).rng.toNat = (narrowed 0 c.rng.toNat fl fh ft).2 := by
  obtain ⟨-, -, k3, -⟩ := narrowed_inside (low := 0) (rng := c.rng.toNat) h1 h2
  have hv := c.val.isLt
  have hr := c.rng.isLt
  have hqm : c.rng.toNat / ft * ft ≤ c.rng.toNat := Nat.div_mul_le_self _ _
  unfold decNarrow narrowed at *
  rw [hq] at ht ⊢
  generalize c.rng.toNat / ft = r at *
  have hf3 : r * ft = r * (ft - fh) + r * fh := by rw [← mul_add]; congr 1; omega
  refine ⟨toNat_sub_regInt ht rfl (by omega), ?_⟩
  simp only
  by_cases h0 : fl = 0
  · rw [if_pos h0, if_neg (by omega)]
    exact toNat_sub_regInt (by omega) rfl (by omega)
  · rw [if_neg h0] at k3 ⊢
    rw [if_pos (by omega)]
    exact toNat_regNat (by simp only at k3; omega)

/-- Three passes bring any narrowed interval of a legal symbol above the threshold (R34, R115). -/
theorem three_passes {size rng ft : Nat} (hr : Config.bot < rng) (h1 : 1 ≤ ft) (h2 : ft ≤ 65536)
    (hs : rng / ft ≤ size) : Config.bot < size * 256 ^ 3 := by
  have hb : 8388608 < rng := hr
  have : 128 ≤ rng / ft := (Nat.le_div_iff_mul_le (by omega)).2 (by omega)
  simp only [Config.bot]
  omega

/-! ### RC_ENCODE (R115) -/

/-- `rc_encode` of a legal symbol: the coder is encoded, the cursors stay apart and only passed bytes are written. -/
theorem rcEncode_ok {hw : Params} {fl fh ft : Nat} {x y : Rc} (h1 : fl < fh) (h2 : fh ≤ ft)
    (hx : x.coder.ext.toNat < 2 ^ hw.extBits) (hw32 : hw.extBits ≤ 32)
    (hsum : x.coder.val.toNat + x.coder.rng.toNat ≤ 4294967295) (h : rcEncode hw fl fh ft x = .ok y) :
    (∃ k ≤ 3, x.coder.encoded y.coder (narrowed x.coder.val.toNat x.coder.rng.toNat fl fh ft).1
      (narrowed x.coder.val.toNat x.coder.rng.toNat fl fh ft).2 k) ∧
    x.coder.offs.toNat ≤ y.coder.offs.toNat ∧
    (y.coder.offs.toNat ≠ x.coder.offs.toNat → y.coder.offs.toNat + x.coder.endOffs.toNat ≤ x.coder.storage.toNat) ∧
    x.mem.sameBut y.mem (frameRange x.coder.offs.toNat y.coder.offs.toNat) ∧ y.coder.ext.toNat < 2 ^ hw.extBits := by
  obtain ⟨e1, e2⟩ := encNarrow_eq h1 h2 hsum
  obtain ⟨k, hk, ⟨p, r1, r2, r3, r4, r5⟩, o1, o2, o3, o4⟩ :=
    encNormalizeLoop_ok (x := { x with coder := encNarrow fl fh ft x.coder }) (by simpa using hx) hw32 h
  simp only [e1, e2, encNarrow_offs, encNarrow_endOffs, encNarrow_storage, encNarrow_nbitsTotal] at *
  refine ⟨⟨k, hk, p, r1, r2, ?_, r4, ?_⟩, o1, o2, o3, o4⟩
  · rw [r3]; simp [Coder.symbolsOut]
  · rw [r5]; simp

/-- `rc_encode` goes through when there is room for three more symbols. -/
theorem rcEncode_room {hw : Params} {fl fh ft : Nat} {x : Rc} (h0 : ft ≤ 65536) (h1 : fl < fh) (h2 : fh ≤ ft)
    (hs : x.coder.storage.toNat ≤ hw.fbufBytes) (hw32 : hw.extBits ≤ 32) (hr : Config.bot < x.coder.rng.toNat)
    (hsum : x.coder.val.toNat + x.coder.rng.toNat ≤ 4294967295)
    (hroom : x.coder.offs.toNat + x.coder.endOffs.toNat + x.coder.ext.toNat + 3 ≤ x.coder.storage.toNat)
    (he : x.coder.ext.toNat + 3 < 2 ^ hw.extBits) : ∃ y, rcEncode hw fl fh ft x = .ok y := by
  obtain ⟨e1, e2⟩ := encNarrow_eq h1 h2 hsum
  obtain ⟨-, k2, -, -⟩ := narrowed_inside (low := x.coder.val.toNat) (rng := x.coder.rng.toNat) h1 h2
  refine encNormalizeLoop_room (by simpa using hs) hw32 ?_ ?_ (by simpa using he)
  · simp only [e2]
    exact three_passes hr (by omega) h0 k2
  · right
    simp only [encNarrow_endOffs, encNarrow_storage, Coder.symbolsOut, encNarrow_offs, encNarrow_remValid, encNarrow_ext]
    have : x.coder.remValid.toNat ≤ 1 := Bool.toNat_le _
    omega

/-- `rc_encode` of a symbol whose interval stays above the threshold puts nothing out. -/
theorem rcEncode_quiet {hw : Params} {fl fh ft : Nat} {x : Rc} (h1 : fl < fh) (h2 : fh ≤ ft)
    (hsum : x.coder.val.toNat + x.coder.rng.toNat ≤ 4294967295)
    (hq : Config.bot < (narrowed x.coder.val.toNat x.coder.rng.toNat fl fh ft).2) :
    rcEncode hw fl fh ft x = .ok { x with coder := encNarrow fl fh ft x.coder } := by
  obtain ⟨-, e2⟩ := encNarrow_eq h1 h2 hsum
  unfold rcEncode encNormalize encNormalizeLoop
  rw [if_neg (by simp only [e2]; omega)]

/-! ### RC_ENC_BITS (R116) -/

/-- How many whole bytes the window gives up before `n` more bits. -/
def flushCount (u n : Nat) : Nat := if 32 < u + n then u / 8 else 0

/-- `rc_enc_bits`: where the bits and the bytes go. -/
theorem rcEncBits_ok {hw : Params} {v n : Nat} {x y : Rc} (hn : n ≤ 25) (hv : v < 2 ^ n)
    (hu : x.coder.nendBits.toNat ≤ 32) (hwin : x.coder.endWin.toNat < 2 ^ x.coder.nendBits.toNat)
    (hf : x.coder.endOffs.toNat ≤ x.coder.storage.toNat) (h : rcEncBits hw v n x = .ok y) :
    y.coder = { x.coder with endOffs := y.coder.endOffs, endWin := y.coder.endWin, nendBits := y.coder.nendBits
                             nbitsTotal := y.coder.nbitsTotal } ∧
    y.coder.endOffs.toNat = x.coder.endOffs.toNat + flushCount x.coder.nendBits.toNat n ∧
    y.coder.nendBits.toNat = x.coder.nendBits.toNat - 8 * flushCount x.coder.nendBits.toNat n + n ∧
    y.coder.endWin.toNat = x.coder.endWin.toNat / 256 ^ flushCount x.coder.nendBits.toNat n +
      v * 2 ^ (x.coder.nendBits.toNat - 8 * flushCount x.coder.nendBits.toNat n) ∧
    y.coder.nbitsTotal = bitCount (x.coder.nbitsTotal.toNat + n) ∧
    (flushCount x.coder.nendBits.toNat n = 0 ∨
      x.coder.offs.toNat + y.coder.endOffs.toNat ≤ x.coder.storage.toNat) ∧
    (∀ i, i < flushCount x.coder.nendBits.toNat n →
      y.mem.fbuf (x.coder.storage.toNat - 1 - (x.coder.endOffs.toNat + i)) =
        x.coder.endWin.toNat / 256 ^ i % 256) ∧
    x.mem.sameBut y.mem (frameRange (x.coder.storage.toNat - y.coder.endOffs.toNat)
      (x.coder.storage.toNat - x.coder.endOffs.toNat)) ∧
    y.coder.endWin.toNat < 2 ^ y.coder.nendBits.toNat ∧ y.coder.nendBits.toNat ≤ 32 := by
  unfold rcEncBits at h
  simp only at h
  obtain ⟨z, hz, h⟩ := run_bind_eq_ok.1 h
  simp only [Except.ok.injEq] at h
  change drainWindow hw (flushCount x.coder.nendBits.toNat n) _ _ = _ at hz
  obtain ⟨d1, d2, d3, d4, d5⟩ := drainWindow_ok hf hz
  have heo : y.coder.endOffs = z.coder.endOffs := by rw [← h]
  have hnt : y.coder.nbitsTotal = bitCount (x.coder.nbitsTotal.toNat + n) := by rw [← h]
  have hm : y.mem = z.mem := by rw [← h]
  have hco : y.coder = { z.coder with endWin := y.coder.endWin, nendBits := y.coder.nendBits
                                      nbitsTotal := y.coder.nbitsTotal } := by rw [← h]
  have hnb : y.coder.nendBits =
      regNat (x.coder.nendBits.toNat - 8 * flushCount x.coder.nendBits.toNat n + n) := by rw [← h]; rfl
  have hew : y.coder.endWin = regNat (x.coder.endWin.toNat / 256 ^ flushCount x.coder.nendBits.toNat n |||
      v * 2 ^ (x.coder.nendBits.toNat - 8 * flushCount x.coder.nendBits.toNat n)) := by rw [← h]; rfl
  rw [hm, heo]
  have hk : 8 * flushCount x.coder.nendBits.toNat n ≤ x.coder.nendBits.toNat ∧
      x.coder.nendBits.toNat - 8 * flushCount x.coder.nendBits.toNat n + n ≤ 32 := by
    unfold flushCount; split_ifs <;> omega
  generalize flushCount x.coder.nendBits.toNat n = k at *
  generalize x.coder.nendBits.toNat = u at *
  have hw' : x.coder.endWin.toNat / 256 ^ k < 2 ^ (u - 8 * k) := by
    rw [Nat.div_lt_iff_lt_mul (by positivity), show (256 : Nat) ^ k = 2 ^ (8 * k) by rw [pow_mul]; rfl, ← pow_add,
      show u - 8 * k + 8 * k = u by omega]
    exact hwin
  have hor : x.coder.endWin.toNat / 256 ^ k ||| v * 2 ^ (u - 8 * k) =
      x.coder.endWin.toNat / 256 ^ k + v * 2 ^ (u - 8 * k) := by
    rw [Nat.lor_comm, or_eq_add hw', Nat.add_comm]
  have hlt : x.coder.endWin.toNat / 256 ^ k + v * 2 ^ (u - 8 * k) < 2 ^ (u - 8 * k + n) := by
    rw [pow_add, mul_comm (2 ^ (u - 8 * k))]
    have : v * 2 ^ (u - 8 * k) ≤ (2 ^ n - 1) * 2 ^ (u - 8 * k) := Nat.mul_le_mul_right _ (by omega)
    have h3 : (2 ^ n - 1) * 2 ^ (u - 8 * k) + 2 ^ (u - 8 * k) = 2 ^ n * 2 ^ (u - 8 * k) := by
      rw [← Nat.succ_mul, Nat.succ_eq_add_one, Nat.sub_add_cancel Nat.one_le_two_pow]
    omega
  have h32 : 2 ^ (u - 8 * k + n) ≤ 2 ^ 32 := Nat.pow_le_pow_right (by norm_num) hk.2
  have hnb' : y.coder.nendBits.toNat = u - 8 * k + n := by rw [hnb, toNat_regNat (by omega)]
  have hew' : y.coder.endWin.toNat = x.coder.endWin.toNat / 256 ^ k + v * 2 ^ (u - 8 * k) := by
    rw [hew, hor, toNat_regNat (by omega)]
  refine ⟨?_, d2, hnb', hew', hnt, d3, d4, d5, by rw [hew', hnb']; exact hlt, by rw [hnb']; exact hk.2⟩
  rw [hco, d1]

/-- `rc_enc_bits` goes through when the frame has room for the window's bytes. -/
theorem rcEncBits_room {hw : Params} {v n : Nat} {x : Rc} (hs : x.coder.storage.toNat ≤ hw.fbufBytes)
    (h : x.coder.offs.toNat + x.coder.endOffs.toNat + flushCount x.coder.nendBits.toNat n ≤ x.coder.storage.toNat) :
    ∃ y, rcEncBits hw v n x = .ok y := by
  obtain ⟨z, hz⟩ := @drainWindow_room hw (flushCount x.coder.nendBits.toNat n) x.coder.endWin.toNat x hs (by omega)
  exact ⟨_, run_bind_eq_ok.2 ⟨z, hz, rfl⟩⟩

/-- `rc_enc_bits` takes BUF_OVF when the frame has no room for the window's bytes. -/
theorem rcEncBits_full {hw : Params} {v n : Nat} {x : Rc} (hs : x.coder.storage.toNat ≤ hw.fbufBytes)
    (hf : x.coder.offs.toNat + x.coder.endOffs.toNat ≤ x.coder.storage.toNat)
    (h : x.coder.storage.toNat < x.coder.offs.toNat + x.coder.endOffs.toNat + flushCount x.coder.nendBits.toNat n) :
    rcEncBits hw v n x = .error (.raised .bufOvf) :=
  run_bind_eq_error.2 (.inl (@drainWindow_full hw (flushCount x.coder.nendBits.toNat n) x.coder.endWin.toNat x hs h
    (by omega)))

/-! ### RC_DEC_INIT, RC_DECODE, RC_DEC_UPDATE and RC_DEC_BITS (R132 to R135) -/

/-- `rc_decode`: the value is below `ft`, and the pending record's interval holds it (R133, R134). -/
theorem rcDecode_ok {ft : Nat} {c : Coder} (h1 : 1 ≤ ft) (h2 : ft ≤ 65536) (hr : Config.bot < c.rng.toNat) :
    0 < c.rng.toNat / ft ∧ ft - min (c.val.toNat / (c.rng.toNat / ft) + 1) ft < ft ∧
    rcDecode ft c = .ok (ft - min (c.val.toNat / (c.rng.toNat / ft) + 1) ft,
      { c with dq := regNat (c.rng.toNat / ft), dft := regNat ft
               dfs := regNat (ft - min (c.val.toNat / (c.rng.toNat / ft) + 1) ft), dpend := true }) := by
  have hb : 8388608 < c.rng.toNat := hr
  have hq : 128 ≤ c.rng.toNat / ft := (Nat.le_div_iff_mul_le (by omega)).2 (by omega)
  refine ⟨by omega, ?_, ?_⟩
  · generalize c.val.toNat / (c.rng.toNat / ft) = s
    omega
  simp only [rcDecode]
  rw [if_neg (by omega)]

/-- An interval that holds the decoded value holds the code value: the update stays in range (R134). -/
theorem symbol_in_interval {val rng q fl fh ft : Nat} (hq : 0 < q) (hqm : q = rng / ft) (hv : val < rng) (h2 : fh ≤ ft)
    (hlo : fl ≤ ft - min (val / q + 1) ft) (hhi : ft - min (val / q + 1) ft < fh) :
    q * (ft - fh) ≤ val ∧ val - q * (ft - fh) < (narrowed 0 rng fl fh ft).2 := by
  have h3 : ft - fh ≤ val / q := by omega
  have h4 : q * (ft - fh) ≤ val := le_trans (Nat.mul_le_mul_left q h3) (Nat.mul_div_le val q)
  refine ⟨h4, ?_⟩
  unfold narrowed
  rw [← hqm]
  split_ifs with h0
  · simp only; omega
  · simp only
    have h5 : val / q + 1 ≤ ft - fl := by omega
    have h6 : val < q * (ft - fl) := by
      calc val < q * (val / q + 1) := Nat.lt_mul_div_succ val hq
        _ ≤ q * (ft - fl) := Nat.mul_le_mul_left q h5
    have h7 : q * (ft - fl) = q * (ft - fh) + q * (fh - fl) := by rw [← mul_add]; congr 1; omega
    omega

/-- `rc_update` of an interval that holds the code value: it always goes through. -/
theorem rcUpdate_ok {hw : Params} {fl fh ft : Nat} {x : Rc} (h0 : ft ≤ 65536) (h1 : fl < fh) (h2 : fh ≤ ft)
    (hs : x.coder.storage.toNat ≤ hw.fbufBytes) (ho : x.coder.offs.toNat ≤ x.coder.storage.toNat)
    (hr : Config.bot < x.coder.rng.toNat) (hq : x.coder.dq.toNat = x.coder.rng.toNat / ft)
    (ht : x.coder.dq.toNat * (ft - fh) ≤ x.coder.val.toNat)
    (hin : x.coder.val.toNat - x.coder.dq.toNat * (ft - fh) < (narrowed 0 x.coder.rng.toNat fl fh ft).2) :
    ∃ y, rcUpdate hw fl fh ft x = .ok y ∧ y.mem = x.mem ∧
      (∃ k ≤ 3, x.coder.decoded y.coder x.mem (x.coder.val.toNat - x.coder.dq.toNat * (ft - fh))
        (narrowed 0 x.coder.rng.toNat fl fh ft).2 k) ∧
      y.coder = { x.coder with val := y.coder.val, rng := y.coder.rng, rem := y.coder.rem, offs := y.coder.offs
                               nbitsTotal := y.coder.nbitsTotal, dpend := false } := by
  obtain ⟨e1, e2⟩ := decNarrow_eq h1 h2 hq ht
  obtain ⟨-, k2, -, -⟩ := narrowed_inside (low := 0) (rng := x.coder.rng.toNat) h1 h2
  obtain ⟨y, hy⟩ := @decNormalizeLoop_room hw 3 { x with coder := decNarrow fl fh ft x.coder } (by simpa using hs)
    (by simp only [e2]; exact three_passes hr (by omega) h0 k2)
  obtain ⟨k, hk, ⟨p, r1, r2, r3, r4, r5, r6⟩, hm, hc⟩ := decNormalizeLoop_ok (by simpa using hs) (by simpa using ho)
    (by simp only [e1, e2]; exact hin) hy
  simp only [e1, e2, decNarrow_offs, decNarrow_rem, decNarrow_storage, decNarrow_nbitsTotal] at *
  exact ⟨y, hy, hm, ⟨k, hk, p, r1, r2, r3, r4, r5, by rw [hc]; rfl⟩, by rw [hc]; rfl⟩

/-- The decoder's initialisation always goes through, in exactly three passes over the first four bytes (R132). -/
theorem rcDecInit_ok {hw : Params} {storage : Nat} {m : Memory} (hs : storage ≤ hw.fbufBytes) (h32 : storage < 2 ^ 32) :
    ∃ c, rcDecInit hw storage m = .ok { coder := c, mem := m } ∧
      c = { decInitCoder storage with
            val := c.val, rng := 0x80000000#32, rem := c.rem, remValid := true, offs := c.offs
            nbitsTotal := 33#32 } ∧
      c.offs.toNat = min 4 storage ∧ c.val.toNat = 2 ^ 31 - 1 - m.frontBytes storage 0 4 / 2 ∧
      c.rem.toNat = m.frontBytes storage 0 4 % 256 := by
  have hst : (decInitCoder storage).storage.toNat = storage := toNat_regNat h32
  have ho : (decInitCoder storage).offs.toNat = 0 := rfl
  unfold rcDecInit
  rw [readFront_inside (by simp only [hst]; exact hs), run_ok_bind]
  simp only [hst, ho]
  have hcur := toNat_cursor (o := (decInitCoder storage).offs) (st := (decInitCoder storage).storage)
    (by rw [ho]; omega)
  simp only [hst, ho] at hcur
  generalize hbd : (if 0 < storage then m.fbuf 0 else 0) = b
  have hb : b < 256 := by
    rw [← hbd]; split_ifs
    · exact Memory.fbuf_lt _ _
    · omega
  generalize (if 0 < storage then regNat (0 + 1) else (decInitCoder storage).offs) = o1 at hcur
  have hval : (regNat (127 - b / 2)).toNat = 127 - b / 2 := toNat_regNat (by omega)
  have hrng : (decInitCoder storage).rng.toNat = 128 := rfl
  have hrem : (BitVec.ofNat 8 b).toNat = b := by rw [toNat_byteOf]; omega
  obtain ⟨y, hy⟩ := @decNormalizeLoop_room hw 3
    { coder := { decInitCoder storage with
        offs := o1, rem := BitVec.ofNat 8 b, remValid := true, val := regNat (127 - b / 2) }, mem := m }
    (by simp only [hst]; exact hs) (by simp only [hrng, Config.bot]; norm_num)
  obtain ⟨k, hk, ⟨⟨p1, p2⟩, r1, r2, r3, r4, r5, r6⟩, hm, hc⟩ := decNormalizeLoop_ok
    (by simp only [hst]; exact hs) (by simp only [hst, hcur]; omega) (by simp only [hval, hrng]; omega) hy
  have hk3 : k = 3 := by
    rcases (show k = 0 ∨ k = 1 ∨ k = 2 ∨ k = 3 by omega) with rfl | rfl | rfl | rfl
    · simp [hrng] at p1
    · simp [hrng] at p1
    · simp [hrng] at p1
    · rfl
  subst hk3
  simp only [hval, hrng, hrem, hst, hcur] at r1 r2 r3 r4
  have hnb : (decInitCoder storage).nbitsTotal.toNat = 9 := rfl
  have r5' := r5 (by simp only [hnb]; norm_num)
  simp only [hnb] at r5'
  have hfb : m.frontBytes storage 0 4 = b * 256 ^ 3 + m.frontBytes storage (min 1 storage) 3 := by
    rw [frontBytes_head, hbd]
    by_cases hlt : 0 < storage
    · rw [show min 1 storage = 0 + 1 by omega]
    · rw [frontBytes_past _ _ (0 + 1) (min 1 storage) _ (by omega) (by omega)]
  have hF := frontBytes_lt m storage (min 1 storage) 3
  simp only [Nat.zero_add] at r2 r3 r4
  generalize m.frontBytes storage (min 1 storage) 3 = F at *
  refine ⟨y.coder, ?_, ?_, ?_, ?_, ?_⟩
  · unfold decNormalize
    have hm' : y.mem = m := hm
    rw [hy, ← hm']
  · have h1 : y.coder.rng = 0x80000000#32 := BitVec.eq_of_toNat_eq (by rw [r1]; rfl)
    have h2 : y.coder.nbitsTotal = 33#32 := BitVec.eq_of_toNat_eq (by rw [r5']; rfl)
    rw [hc, h1, h2]
  · rw [r4]; omega
  · rw [r2, hfb]
    omega
  · rw [r3, hfb]

/-- `rc_dec_bits`: the bits and the registers after it. -/
theorem rcDecBits_ok {hw : Params} {n : Nat} {x : Rc} (hn : n ≤ 25) (hs : x.coder.storage.toNat ≤ hw.fbufBytes)
    (ho : x.coder.endOffs.toNat ≤ x.coder.storage.toNat) (hu : x.coder.nendBits.toNat ≤ 32)
    (hwin : x.coder.endWin.toNat < 2 ^ x.coder.nendBits.toNat) :
    let a := x.coder.nendBits.toNat
    let k := if a < n then (24 - a) / 8 + 1 else 0
    let window := x.coder.endWin.toNat + x.mem.endBytes x.coder.storage.toNat x.coder.endOffs.toNat k * 2 ^ a
    ∃ c, rcDecBits hw n x = .ok (window % 2 ^ n, c) ∧
      c = { x.coder with endOffs := c.endOffs, endWin := c.endWin, nendBits := c.nendBits
                         nbitsTotal := c.nbitsTotal } ∧
      c.endOffs.toNat = min (x.coder.endOffs.toNat + k) x.coder.storage.toNat ∧
      c.endWin.toNat = window / 2 ^ n ∧ c.nendBits.toNat = a + 8 * k - n ∧
      c.nbitsTotal = bitCount (x.coder.nbitsTotal.toNat + n) ∧
      c.endWin.toNat < 2 ^ c.nendBits.toNat ∧ c.nendBits.toNat ≤ 32 ∧ window < 2 ^ 32 := by
  intro a k window
  obtain ⟨c, h1, h2, h3⟩ := refillWindow_eq (k := k) hs ho hwin
  have hk : a + 8 * k ≤ 32 ∧ n ≤ a + 8 * k := by
    simp only [k]; split_ifs <;> omega
  have hW : window < 2 ^ (a + 8 * k) := by
    have hE := endBytes_lt x.mem x.coder.storage.toNat x.coder.endOffs.toNat k
    have : x.mem.endBytes x.coder.storage.toNat x.coder.endOffs.toNat k * 2 ^ a ≤ (256 ^ k - 1) * 2 ^ a :=
      Nat.mul_le_mul_right _ (by omega)
    have h4 : (256 ^ k - 1) * 2 ^ a + 2 ^ a = 256 ^ k * 2 ^ a := by
      rw [← Nat.succ_mul, Nat.succ_eq_add_one, Nat.sub_add_cancel (Nat.one_le_pow _ _ (by norm_num))]
    have h5 : 2 ^ (a + 8 * k) = 256 ^ k * 2 ^ a := by
      rw [pow_add, mul_comm, show (256 : Nat) ^ k = 2 ^ (8 * k) by rw [pow_mul]; rfl]
    change x.coder.endWin.toNat < 2 ^ a at hwin
    simp only [window]
    omega
  have h32 : 2 ^ (a + 8 * k) ≤ 2 ^ 32 := Nat.pow_le_pow_right (by norm_num) hk.1
  have hdiv : window / 2 ^ n < 2 ^ (a + 8 * k - n) := by
    rw [Nat.div_lt_iff_lt_mul (by positivity), ← pow_add, show a + 8 * k - n + n = a + 8 * k by omega]
    exact hW
  refine ⟨{ c with endWin := regNat (window / 2 ^ n), nendBits := regNat (a + 8 * k - n)
                   nbitsTotal := bitCount (x.coder.nbitsTotal.toNat + n) }, ?_, ?_, h3, ?_, ?_, rfl, ?_, ?_, by omega⟩
  · unfold rcDecBits
    simp only
    rw [h1, run_ok_bind, show c.nbitsTotal = x.coder.nbitsTotal by rw [h2]]
  · rw [h2]
  · exact toNat_regNat (lt_of_le_of_lt (Nat.div_le_self _ _) (by omega))
  · exact toNat_regNat (by omega)
  · simp only
    rw [toNat_regNat (lt_of_le_of_lt (Nat.div_le_self _ _) (by omega)), toNat_regNat (by omega)]
    exact hdiv
  · simp only
    rw [toNat_regNat (by omega)]
    omega

end Sys2Proof.Machine
end

