-- ==== Sys2Proof/Laws/Done.lean ====
section
/-! SUPPORT. What RC_ENC_DONE's parts do: the final code value, its symbols, the zeroed gap and the last bits (R117). -/

namespace Sys2Proof.Machine

/-- Clearing the low bits of a 32-bit number is rounding it down. -/
theorem and_high (x j : Nat) (hj : j ≤ 32) (hx : x < 2 ^ 32) :
    x &&& (4294967295 - (2 ^ j - 1)) = x / 2 ^ j * 2 ^ j := by
  have hm : 4294967295 - (2 ^ j - 1) = (2 ^ (32 - j) - 1) <<< j := by
    rw [Nat.shiftLeft_eq, Nat.sub_mul, ← pow_add, show 32 - j + j = 32 by omega]
    have : 2 ^ j ≤ 2 ^ 32 := Nat.pow_le_pow_right (by norm_num) hj
    have : 0 < 2 ^ j := by positivity
    omega
  have hr : x / 2 ^ j * 2 ^ j = (x >>> j) <<< j := by rw [Nat.shiftLeft_eq, Nat.shiftRight_eq_div_pow]
  rw [hm, hr]
  refine Nat.eq_of_testBit_eq (fun i => ?_)
  simp only [Nat.testBit_and, Nat.testBit_shiftLeft, Nat.testBit_two_pow_sub_one, Nat.testBit_shiftRight]
  by_cases hi : j ≤ i
  · rw [show j + (i - j) = i by omega]
    by_cases hi2 : i < 32
    · have : i - j < 32 - j := by omega
      simp [hi, this]
    · have : x.testBit i = false := Nat.testBit_lt_two_pow (lt_of_lt_of_le hx (Nat.pow_le_pow_right (by norm_num)
        (by omega)))
      simp [this]
  · simp [hi]

/-- Rounding up to a multiple of `2^j`. -/
theorem roundUpTo_eq {v j : Nat} (hj : j ≤ 32) (hv : v + (2 ^ j - 1) < 2 ^ 32) :
    roundUpTo v (2 ^ j - 1) = (v + (2 ^ j - 1)) / 2 ^ j * 2 ^ j := and_high _ _ hj hv

/-- What rounding up gives: the multiple at or just above. -/
theorem roundUp_spec (v j : Nat) :
    v ≤ (v + (2 ^ j - 1)) / 2 ^ j * 2 ^ j ∧ (v + (2 ^ j - 1)) / 2 ^ j * 2 ^ j ≤ v + (2 ^ j - 1) ∧
    2 ^ j ∣ (v + (2 ^ j - 1)) / 2 ^ j * 2 ^ j := by
  have hp : 0 < 2 ^ j := by positivity
  generalize 2 ^ j = d at *
  have h1 := Nat.div_add_mod (v + (d - 1)) d
  have h2 := Nat.mod_lt (v + (d - 1)) hp
  rw [mul_comm] at h1
  exact ⟨by omega, by omega, Dvd.intro_left _ rfl⟩

/-- The number of bits of a number between two powers of two. -/
theorem ilog_eq {x n : Nat} (h1 : 2 ^ n ≤ x) (h2 : x < 2 ^ (n + 1)) : ilog x = n + 1 := by
  have h0 : x ≠ 0 := by
    have : 0 < 2 ^ n := by positivity
    omega
  unfold ilog ilog2
  rw [if_neg h0, (Nat.log2_eq_iff h0).2 ⟨h1, h2⟩]

theorem ilog_bounds {x : Nat} (h : x ≠ 0) : 2 ^ (ilog x - 1) ≤ x ∧ x < 2 ^ ilog x ∧ 1 ≤ ilog x := by
  unfold ilog ilog2
  rw [if_neg h]
  obtain ⟨h1, h2⟩ := (Nat.log2_eq_iff h).1 rfl
  exact ⟨by simpa using h1, h2, by omega⟩

/-- How many bits the size of a normalized interval leaves free. -/
theorem ilog_range {r : Nat} (hr : Config.bot < r) (ht : r ≤ Config.top) :
    24 ≤ ilog r ∧ ilog r ≤ 32 ∧ 2 ^ (31 - (32 - ilog r)) ≤ r := by
  have hr' : 8388608 < r := hr
  have ht' : r ≤ 2147483648 := ht
  obtain ⟨h1, h2, h3⟩ := ilog_bounds (x := r) (by omega)
  have hl1 : 24 ≤ ilog r := by
    by_contra hlt
    have : 2 ^ ilog r ≤ 2 ^ 23 := Nat.pow_le_pow_right (by norm_num) (by omega)
    omega
  have hl2 : ilog r ≤ 32 := by
    by_contra hlt
    have : 2 ^ 32 ≤ 2 ^ (ilog r - 1) := Nat.pow_le_pow_right (by norm_num) (by omega)
    omega
  exact ⟨hl1, hl2, by rwa [show 31 - (32 - ilog r) = ilog r - 1 by omega]⟩

/-- The final code in exact numbers (R117): `~` and `|` of its pseudocode are rounding up and adding. -/
theorem finalCode_eq {c : Coder} (hr : Config.bot < c.rng.toNat) (ht : c.rng.toNat ≤ Config.top)
    (hsum : c.val.toNat + c.rng.toNat ≤ 4294967295) :
    finalCode c =
      (let l0 := 32 - ilog c.rng.toNat
       let up := fun j : Nat => (c.val.toNat + (2 ^ j - 1)) / 2 ^ j * 2 ^ j
       if c.val.toNat + c.rng.toNat ≤ up (31 - l0) + (2 ^ (31 - l0) - 1) then (l0 + 1, up (30 - l0))
       else (l0, up (31 - l0))) := by
  obtain ⟨hl1, hl2, h1⟩ := ilog_range hr ht
  obtain ⟨l, hl⟩ : ∃ l, l = 32 - ilog c.rng.toNat := ⟨_, rfl⟩
  rw [← hl] at h1
  have hl8 : l ≤ 8 := by omega
  have hmsk : (Config.top - 1) / 2 ^ l = 2 ^ (31 - l) - 1 := by
    have hsplit : 2147483648 = 2 ^ (31 - l) * 2 ^ l := by rw [← pow_add, show 31 - l + l = 31 by omega]; norm_num
    simp only [Config.top]
    rw [hsplit]
    have hp : 0 < 2 ^ l := by positivity
    have hq : 0 < 2 ^ (31 - l) := by positivity
    generalize 2 ^ l = a at *
    generalize 2 ^ (31 - l) = b at *
    have hba : b * a = (b - 1) * a + a := by rw [← Nat.succ_mul, Nat.succ_eq_add_one, Nat.sub_add_cancel hq]
    rw [hba, show (b - 1) * a + a - 1 = (a - 1) + (b - 1) * a by omega, Nat.add_mul_div_right _ _ hp,
      Nat.div_eq_of_lt (by omega), Nat.zero_add]
  have hhalf : (2 ^ (31 - l) - 1) / 2 = 2 ^ (30 - l) - 1 := by
    have : 2 ^ (31 - l) = 2 * 2 ^ (30 - l) := by rw [← pow_succ']; congr 1; omega
    omega
  have hpow : 2 ^ (31 - l) = 2 * 2 ^ (30 - l) := by rw [← pow_succ']; congr 1; omega
  have hp1 : 0 < 2 ^ (30 - l) := by positivity
  obtain ⟨-, -, r3⟩ := roundUp_spec c.val.toNat (31 - l)
  unfold finalCode
  simp only
  rw [← hl, hmsk, hhalf, roundUpTo_eq (by omega) (by omega), roundUpTo_eq (by omega) (by omega)]
  have hor : (c.val.toNat + (2 ^ (31 - l) - 1)) / 2 ^ (31 - l) * 2 ^ (31 - l) ||| (2 ^ (31 - l) - 1) =
      (c.val.toNat + (2 ^ (31 - l) - 1)) / 2 ^ (31 - l) * 2 ^ (31 - l) + (2 ^ (31 - l) - 1) := by
    obtain ⟨m, hm⟩ := r3
    rw [hm, mul_comm]
    exact or_eq_add (by have : 0 < 2 ^ (31 - l) := by positivity
                        omega)
  rw [hor]

/-- The final code value (R117): a multiple of `2^(31-l)` inside the interval whatever its lower bits become. -/
theorem finalCode_spec {c : Coder} (hr : Config.bot < c.rng.toNat) (ht : c.rng.toNat ≤ Config.top)
    (hsum : c.val.toNat + c.rng.toNat ≤ 4294967295) :
    (finalCode c).1 ≤ 9 ∧ 2 ^ (31 - (finalCode c).1) ∣ (finalCode c).2 ∧ c.val.toNat ≤ (finalCode c).2 ∧
    (finalCode c).2 + (2 ^ (31 - (finalCode c).1) - 1) < c.val.toNat + c.rng.toNat := by
  obtain ⟨hl1, hl2, h1⟩ := ilog_range hr ht
  rw [finalCode_eq hr ht hsum]
  obtain ⟨l, hl⟩ : ∃ l, l = 32 - ilog c.rng.toNat := ⟨_, rfl⟩
  rw [← hl] at h1
  simp only [← hl]
  have hpow : 2 ^ (31 - l) = 2 * 2 ^ (30 - l) := by rw [← pow_succ']; congr 1; omega
  have hp1 : 0 < 2 ^ (30 - l) := by positivity
  obtain ⟨r1, r2, r3⟩ := roundUp_spec c.val.toNat (31 - l)
  obtain ⟨q1, q2, q3⟩ := roundUp_spec c.val.toNat (30 - l)
  split_ifs with hcase
  · simp only [show 31 - (l + 1) = 30 - l by omega]
    exact ⟨by omega, q3, q1, by omega⟩
  · simp only
    exact ⟨by omega, r3, r1, by omega⟩

/-- Moving the top symbol of a 31-bit value, its carry included, to the number before it. -/
theorem shift_exact (p e : Nat) : (p * 256 + e / 2 ^ 23) * 2 ^ 31 + e * 256 % 2 ^ 31 = (p * 2 ^ 31 + e) * 256 := by
  omega

/-- The symbols of the final code value: `k` of them, appended exactly to the number produced (R112, R117). -/
theorem emitCode_ok {hw : Params} {k e : Nat} {x y : Rc} (hx : x.coder.ext.toNat < 2 ^ hw.extBits)
    (hw32 : hw.extBits ≤ 32) (he : e < 2 ^ 32)
    (hcs : (x.coder.remValid = false ∨ x.coder.rem.toNat = 255) → e < 2 ^ 31) (h : emitCode hw k e x = .ok y) :
    FrontGrew x y ∧ y.coder.symbolsOut = x.coder.symbolsOut + k ∧ y.coder.ext.toNat < 2 ^ hw.extBits ∧
    y.coder.ext.toNat ≤ x.coder.ext.toNat + k ∧
    (y.produced * 2 ^ 31 + (if k = 0 then e else e * 256 ^ k % 2 ^ 31) = (x.produced * 2 ^ 31 + e) * 256 ^ k) := by
  induction k generalizing e x with
  | zero =>
    obtain rfl : x = y := by simpa [emitCode] using h
    exact ⟨FrontGrew.refl x, by omega, hx, by omega, by simp⟩
  | succ k ih =>
    obtain ⟨z, hz, h⟩ := run_bind_eq_ok.1 h
    obtain ⟨g, gs, ge⟩ := carryOut_grew hx hw32 hz
    have gext := carryOut_ext hz
    have hprod : z.produced = x.produced * 256 + e / 2 ^ 23 :=
      carryOut_produced hx hw32 (by omega) (fun hc => by
        refine ⟨?_, fun hf => ?_⟩
        · by_contra hf
          have := hcs (.inl (by simpa using hf))
          omega
        · have := hcs (.inr hf)
          omega) hz
    obtain ⟨k1, k2, k3, k4, k5⟩ := ih (x := z) (e := e * 256 % Config.top) ge
      (by simp only [Config.top]; omega) (fun _ => by simp only [Config.top]; omega) h
    refine ⟨g.trans k1, by omega, k3, by omega, ?_⟩
    have hone : z.produced * 2 ^ 31 + e * 256 % 2 ^ 31 = (x.produced * 2 ^ 31 + e) * 256 := by
      rw [hprod, shift_exact]
    have htop : e * 256 % Config.top = e * 256 % 2 ^ 31 := rfl
    rw [htop, hone] at k5
    rw [if_neg (by omega), pow_succ' 256 k, ← mul_assoc, ← mul_assoc, ← k5]
    congr 1
    by_cases hk0 : k = 0
    · simp [hk0]
    · rw [if_neg hk0]
      rw [Nat.mod_mul_mod]

/-- The code value's symbols go out when there is room for them. -/
theorem emitCode_room {hw : Params} {k e : Nat} {x : Rc} (hs : x.coder.storage.toNat ≤ hw.fbufBytes)
    (hw32 : hw.extBits ≤ 32)
    (h : k = 0 ∨ x.coder.symbolsOut + x.coder.endOffs.toNat + k ≤ x.coder.storage.toNat + 1)
    (he : x.coder.ext.toNat + k < 2 ^ hw.extBits) : ∃ y, emitCode hw k e x = .ok y := by
  induction k generalizing e x with
  | zero => exact ⟨x, rfl⟩
  | succ k ih =>
    obtain ⟨z, hz⟩ := carryOut_room (c := e / 2 ^ 23) hs (by omega) (by omega)
    obtain ⟨g, gs, ge⟩ := carryOut_grew (by omega) hw32 hz
    have gext := carryOut_ext hz
    obtain ⟨y, hy⟩ := @ih (e * 256 % Config.top) z (by rw [g.storage]; exact hs)
      (by rw [gs, g.endOffs, g.storage]; omega) (by omega)
    exact ⟨y, run_bind_eq_ok.2 ⟨z, hz, hy⟩⟩

/-- Zeroing a list of FBUF bytes. -/
theorem fbuf_zeroed (is : List Nat) (m : Memory) (j : Nat) :
    (is.foldl (fun m i => m.setByte (fbufAddr i) 0#8) m).fbuf j = if j ∈ is then 0 else m.fbuf j := by
  induction is generalizing m with
  | nil => simp
  | cons i rest ih =>
    rw [List.foldl_cons, ih, Memory.fbuf_setByte]
    by_cases h1 : j ∈ rest
    · simp [h1]
    · by_cases h2 : j = i <;> simp [h1, h2]

/-- The gap between the two parts becomes zero, and nothing else changes (R117). -/
theorem zeroGap_ok {hw : Params} {x y : Rc} (h : zeroGap hw x = .ok y) :
    y.coder = x.coder ∧
    (∀ j, y.mem.fbuf j = if x.coder.offs.toNat ≤ j ∧ j < x.coder.storage.toNat - x.coder.endOffs.toNat then 0
      else x.mem.fbuf j) ∧
    x.mem.sameBut y.mem (frameRange x.coder.offs.toNat (x.coder.storage.toNat - x.coder.endOffs.toNat)) := by
  unfold zeroGap at h
  simp only at h
  split_ifs at h with hf
  simp only [Except.ok.injEq] at h
  subst h
  refine ⟨rfl, fun j => ?_, fun a ha => ?_⟩
  · rw [fbuf_zeroed]
    simp only [List.mem_range'_1]
    congr 1
    simp only [eq_iff_iff]
    omega
  · refine foldl_keeps (fun m => m.byte a = x.mem.byte a) _ _ _ rfl (fun m i hi hm => ?_)
    rw [Memory.byte_setByte_other _ _ (fun e => ha ?_), hm]
    simp only [List.mem_range'_1] at hi
    unfold frameRange
    rw [e]
    unfold fbufAddr
    omega

theorem zeroGap_room {hw : Params} {x : Rc} (hs : x.coder.storage.toNat ≤ hw.fbufBytes) :
    ∃ y, zeroGap hw x = .ok y := by
  unfold zeroGap
  simp only
  rw [if_neg (by omega)]
  exact ⟨_, rfl⟩

/-- The last bits are ORed into the byte before the end part (R117). -/
theorem orLastBits_ok {hw : Params} {w u spare : Nat} {x y : Rc} (h : orLastBits hw w u spare x = .ok y) :
    y.coder = x.coder ∧
    (u = 0 → y = x) ∧
    (u ≠ 0 → x.coder.endOffs.toNat < x.coder.storage.toNat ∧
      (x.coder.storage.toNat ≤ x.coder.offs.toNat + x.coder.endOffs.toNat → u ≤ spare) ∧
      ∀ j, y.mem.fbuf j = if j = x.coder.storage.toNat - x.coder.endOffs.toNat - 1
        then x.mem.fbuf j ||| w % 256 else x.mem.fbuf j) ∧
    x.mem.sameBut y.mem (frameRange (x.coder.storage.toNat - x.coder.endOffs.toNat - 1)
      (x.coder.storage.toNat - x.coder.endOffs.toNat)) := by
  unfold orLastBits at h
  simp only at h
  split_ifs at h with h0 h1 h2 h3
  · simp only [Except.ok.injEq] at h
    subst h
    exact ⟨rfl, fun _ => rfl, fun hne => absurd h0 hne, Memory.sameBut_refl _ _⟩
  · simp only [Except.ok.injEq] at h
    subst h
    refine ⟨rfl, fun hu => absurd hu h0, fun _ => ⟨by omega, by omega, fun j => ?_⟩, Memory.sameBut_setByte ?_⟩
    · rw [Memory.fbuf_setByte]
      by_cases hj : j = x.coder.storage.toNat - x.coder.endOffs.toNat - 1
      · rw [if_pos hj, if_pos hj, hj]
        simp [Memory.fbuf]
      · rw [if_neg hj, if_neg hj]
    · unfold frameRange fbufAddr; omega

theorem orLastBits_room {hw : Params} {w u spare : Nat} {x : Rc} (hs : x.coder.storage.toNat ≤ hw.fbufBytes)
    (h : u = 0 ∨ x.coder.offs.toNat + x.coder.endOffs.toNat < x.coder.storage.toNat) :
    ∃ y, orLastBits hw w u spare x = .ok y := by
  unfold orLastBits
  simp only
  by_cases h0 : u = 0
  · rw [if_pos h0]; exact ⟨_, rfl⟩
  · rw [if_neg h0, if_neg (by omega), if_neg (by omega), if_neg (by omega)]
    exact ⟨_, rfl⟩

/-- The last bits go in exactly when they do not need more than the spare bits of a full frame (R117). -/
theorem orLastBits_cases {hw : Params} {w u spare : Nat} {x : Rc} (hs : x.coder.storage.toNat ≤ hw.fbufBytes) :
    (u = 0 ∨ (x.coder.endOffs.toNat < x.coder.storage.toNat ∧
        (x.coder.offs.toNat + x.coder.endOffs.toNat < x.coder.storage.toNat ∨ u ≤ spare)) →
      ∃ y, orLastBits hw w u spare x = .ok y) ∧
    (¬ (u = 0 ∨ (x.coder.endOffs.toNat < x.coder.storage.toNat ∧
        (x.coder.offs.toNat + x.coder.endOffs.toNat < x.coder.storage.toNat ∨ u ≤ spare))) →
      orLastBits hw w u spare x = .error (.raised .bufOvf)) := by
  unfold orLastBits
  simp only
  split_ifs <;>
  first
  | omega
  | exact ⟨fun _ => ⟨_, rfl⟩, fun h => by omega⟩
  | exact ⟨fun h => by omega, fun _ => rfl⟩

/-! ### The flush of the pending symbols (R117) -/

/-- `carry_out(0)` when anything is pending: every symbol produced so far is then a front byte. -/
theorem flushPending_ok {hw : Params} {x y : Rc} (hx : x.coder.ext.toNat < 2 ^ hw.extBits) (hw32 : hw.extBits ≤ 32)
    (h : flushPending hw x = .ok y) :
    FrontGrew x y ∧ y.coder.offs.toNat = x.coder.symbolsOut ∧
    y.mem.frontBytes y.coder.offs.toNat 0 y.coder.offs.toNat = x.produced := by
  unfold flushPending at h
  by_cases hp : (x.coder.remValid || decide (0 < x.coder.ext.toNat)) = true
  · rw [if_pos hp] at h
    obtain ⟨g, gs, -⟩ := carryOut_grew hx hw32 h
    have hrem := carryOut_rem h
    rw [if_neg (by norm_num)] at hrem
    have hprod := carryOut_produced hx hw32 (by norm_num) (by norm_num) h
    have hext := carryOut_ext_zero (by norm_num) h
    refine ⟨g, ?_, ?_⟩
    · simp only [Coder.symbolsOut, hext, hrem.2, Bool.toNat_true] at gs ⊢
      omega
    · simp only [Rc.produced, hext, hrem.2, hrem.1, if_true] at hprod ⊢
      simp only [pow_zero, mul_one, toNat_byteOf] at hprod
      omega
  · rw [if_neg hp] at h
    simp only [Except.ok.injEq] at h
    subst h
    simp only [Bool.or_eq_true, decide_eq_true_eq, not_or, Bool.not_eq_true, Nat.not_lt, Nat.le_zero] at hp
    refine ⟨FrontGrew.refl x, ?_, ?_⟩
    · simp [Coder.symbolsOut, hp.1, hp.2]
    · simp [Rc.produced, hp.1, hp.2]

/-- The flush goes through when there is room for the pending symbols. -/
theorem flushPending_room {hw : Params} {x : Rc} (hs : x.coder.storage.toNat ≤ hw.fbufBytes)
    (h : x.coder.symbolsOut + x.coder.endOffs.toNat ≤ x.coder.storage.toNat)
    (he : x.coder.ext.toNat + 1 < 2 ^ hw.extBits) : ∃ y, flushPending hw x = .ok y := by
  unfold flushPending
  split_ifs
  · exact carryOut_room hs h he
  · exact ⟨_, rfl⟩

end Sys2Proof.Machine
end

