-- ==== Sys2Proof/Laws/Angle.lean ====
section
/-! SUPPORT. The cosine of R206 on natural numbers alone: it never rises, and its range; the range of the log-tangent of
R209 and of R210's weights and delta. -/

namespace Sys2Proof.Machine

/-- The square term of R206. -/
def bcosSquare (x : Nat) : Nat := Nat.min 32767 ((4096 + x * x) / 8192)

/-- The innermost product of R206, `fracMul16 (-626) t`, raised by 626. -/
def bcosInner (t : Nat) : Nat := (20529152 - 626 * t) / 32768

/-- The middle product of R206, `fracMul16 t (8277 - 626 + v)`, for a raised inner product `v`. -/
def bcosMiddle (t v : Nat) : Nat := (16384 + t * (7651 + v)) / 32768

/-- `bcos x + 8000`, from the square and middle terms. -/
def bcosOuter (t w : Nat) : Nat := 32768 - t + (16384 + 262144000 + t * w - t * 7651) / 32768

/-- `bcos x + 8000` before the final clamp, on natural numbers alone. -/
def bcosRaised (x : Nat) : Nat :=
  let t := bcosSquare x
  bcosOuter t (bcosMiddle t (bcosInner t))

theorem bcosSquare_le (x : Nat) : bcosSquare x ≤ 32767 := Nat.min_le_left _ _

theorem bcos_eq_raised (x : Nat) : bcos x = min (bcosRaised x - 8000 : Int) 32767 := by
  have ht := bcosSquare_le x
  have hs : min (32767 : Int) (asr (4096 + x * x) 13) = (bcosSquare x : Int) := by
    simp only [asr, bcosSquare, Nat.min_def]
    push_cast
    split <;> omega
  have hi : fracMul16 (-626) (bcosSquare x : Int) = (bcosInner (bcosSquare x) : Int) - 626 := by
    simp only [fracMul16, asr, bcosInner]
    push_cast
    omega
  have hv : bcosInner (bcosSquare x) ≤ 626 := by unfold bcosInner; omega
  have hm : fracMul16 (bcosSquare x) (8277 + ((bcosInner (bcosSquare x) : Int) - 626))
      = (bcosMiddle (bcosSquare x) (bcosInner (bcosSquare x)) : Int) := by
    simp only [fracMul16, asr, bcosMiddle]
    push_cast
    congr 2
    ring
  have ho : (1 + (32767 - (bcosSquare x : Int) + fracMul16 (bcosSquare x)
        (-7651 + (bcosMiddle (bcosSquare x) (bcosInner (bcosSquare x)) : Int))) : Int)
      = (bcosRaised x : Int) - 8000 := by
    simp only [fracMul16, asr, bcosRaised, bcosOuter]
    generalize bcosMiddle (bcosSquare x) (bcosInner (bcosSquare x)) = w
    generalize bcosSquare x = t at ht
    obtain ⟨p, hp⟩ : ∃ p : Nat, p = t * w := ⟨_, rfl⟩
    rw [← hp]
    have hp' : (t : Int) * (-7651 + (w : Int)) = (p : Int) - 7651 * t := by rw [hp]; push_cast; ring
    rw [hp']
    push_cast
    omega
  simp only [bcos, hs, hi, hm]
  omega

theorem bcosInner_le {t : Nat} (h : t ≤ 32767) : t * bcosInner t ≤ 626 * (32768 - t) + 16384 := by
  have h1 : bcosInner t * 32768 ≤ 626 * (32768 - t) + 16384 := by unfold bcosInner; omega
  have h2 : t * (bcosInner t * 32768) ≤ 32768 * (626 * (32768 - t) + 16384) := Nat.mul_le_mul (by omega) h1
  rw [← Nat.mul_assoc] at h2
  omega

/-- The square term enters `bcos` only through a function that never rises. -/
theorem bcosOuter_step {t : Nat} (h : t < 32767) :
    bcosOuter (t + 1) (bcosMiddle (t + 1) (bcosInner (t + 1))) ≤ bcosOuter t (bcosMiddle t (bcosInner t)) := by
  have hv := bcosInner_le (t := t) (by omega)
  have hv1 : bcosInner (t + 1) ≤ bcosInner t := by unfold bcosInner; omega
  have hv2 : bcosInner t ≤ 626 := by unfold bcosInner; omega
  have hmul : (t + 1) * (7651 + bcosInner (t + 1)) ≤ t * (7651 + bcosInner t) + (7651 + bcosInner t) := by
    calc (t + 1) * (7651 + bcosInner (t + 1)) ≤ (t + 1) * (7651 + bcosInner t) := Nat.mul_le_mul_left _ (by omega)
      _ = _ := by ring
  have hw : bcosMiddle (t + 1) (bcosInner (t + 1)) ≤ bcosMiddle t (bcosInner t) + 1 := by unfold bcosMiddle; omega
  have hb : t + 1 + bcosMiddle t (bcosInner t) ≤ 7651 + 32768 := by
    have : t * (7651 + bcosInner t) = 7651 * t + t * bcosInner t := by ring
    unfold bcosMiddle
    omega
  generalize bcosMiddle t (bcosInner t) = w at hw hb
  generalize bcosMiddle (t + 1) (bcosInner (t + 1)) = w' at hw
  have hp : (t + 1) * w' ≤ t * w + (t + 1 + w) := by
    calc (t + 1) * w' ≤ (t + 1) * (w + 1) := Nat.mul_le_mul_left _ hw
      _ = _ := by ring
  unfold bcosOuter
  omega

theorem bcosOuter_antitone {t t' : Nat} (h : t ≤ t') (ht : t' ≤ 32767) :
    bcosOuter t' (bcosMiddle t' (bcosInner t')) ≤ bcosOuter t (bcosMiddle t (bcosInner t)) := by
  induction t' with
  | zero => rw [show t = 0 by omega]
  | succ u ih =>
    rcases Nat.lt_or_ge t (u + 1) with hlt | hge
    · exact le_trans (bcosOuter_step (by omega)) (ih (by omega) (by omega))
    · rw [show t = u + 1 by omega]

theorem bcosSquare_mono {x y : Nat} (h : x ≤ y) : bcosSquare x ≤ bcosSquare y := by
  have : x * x ≤ y * y := Nat.mul_le_mul h h
  simp only [bcosSquare, Nat.min_def]
  split <;> split <;> omega

/-- `bcos` never rises (R206). -/
theorem bcos_antitone {x y : Nat} (h : x ≤ y) : bcos y ≤ bcos x := by
  have := bcosOuter_antitone (bcosSquare_mono h) (bcosSquare_le y)
  rw [bcos_eq_raised, bcos_eq_raised]
  simp only [bcosRaised]
  omega

/-- `bcos` is in `1 .. 32767` (R206). -/
theorem bcos_range (x : Nat) : 1 ≤ bcos x ∧ bcos x ≤ 32767 := by
  have h := bcosOuter_antitone (bcosSquare_le x) (le_refl _)
  have h0 : bcosOuter 32767 (bcosMiddle 32767 (bcosInner 32767)) = 8001 := by decide
  rw [bcos_eq_raised]
  simp only [bcosRaised]
  omega

/-! ### The log-tangent (R209) and the angle's registers (R210) -/

/-- R209's correction of a normalized weight. -/
def log2Correction (v : Int) : Int := fracMul16 v (fracMul16 v (-2597) + 7932)

/-- R209's term of one weight: `log2tan` is the difference of the two. -/
def log2Term (x : Nat) : Int := (ilog x : Int) * 2048 + log2Correction ((x * 2 ^ (15 - ilog x) : Nat) : Int)

theorem log2tan_eq (isin icos : Nat) : log2tan isin icos = log2Term isin - log2Term icos := by
  simp only [log2tan, log2Term, log2Correction]
  ring

theorem log2Correction_range {v : Int} (h1 : 16384 ≤ v) (h2 : v ≤ 32767) :
    3316 ≤ log2Correction v ∧ log2Correction v ≤ 5335 := by
  simp only [log2Correction, fracMul16, asr_eq]
  obtain ⟨t, ht⟩ : ∃ t, t = (16384 + v * -2597) / 2 ^ 15 := ⟨_, rfl⟩
  rw [← ht]
  have a1 : t * 32768 ≤ 16384 + v * -2597 := by omega
  have a2 : 16384 + v * -2597 < t * 32768 + 32768 := by omega
  have b1 : v * (t * 32768) ≤ v * (16384 + v * -2597) := mul_le_mul_of_nonneg_left a1 (by omega)
  have b2 : v * (16384 + v * -2597 - 32767) ≤ v * (t * 32768) := mul_le_mul_of_nonneg_left (by omega) (by omega)
  obtain ⟨w, hw⟩ : ∃ w, w = v * t := ⟨_, rfl⟩
  have e1 : v * (t * 32768) = w * 32768 := by rw [hw]; ring
  have e2 : v * (t + 7932) = w + v * 7932 := by rw [hw]; ring
  rw [e1] at b1 b2
  rw [e2]
  have c : 0 ≤ (v - 16384) * (32767 - v) := mul_nonneg (by omega) (by omega)
  have d : 0 ≤ (32767 - v) * (32767 - v) := mul_nonneg (by omega) (by omega)
  constructor
  · suffices 3316 * 32768 - 16384 ≤ w + v * 7932 by omega
    nlinarith
  · suffices w + v * 7932 < 5336 * 32768 - 16384 by omega
    nlinarith

/-- The weights 3 to 32767 lie between the terms of those two. -/
theorem log2Term_range {x : Nat} (h1 : 3 ≤ x) (h2 : x ≤ 32767) : 8584 ≤ log2Term x ∧ log2Term x ≤ 36055 := by
  rcases Nat.eq_or_lt_of_le h1 with rfl | h3
  · decide
  · obtain ⟨b1, b2, b3⟩ := ilog_bounds (x := x) (by omega)
    have lo : 3 ≤ ilog x := by
      by_contra h
      have := Nat.pow_le_pow_right (n := 2) (by norm_num) (show ilog x ≤ 2 by omega)
      omega
    have hi : ilog x ≤ 15 := by
      by_contra h
      have := Nat.pow_le_pow_right (n := 2) (by norm_num) (show 15 ≤ ilog x - 1 by omega)
      omega
    have r : 16384 ≤ x * 2 ^ (15 - ilog x) ∧ x * 2 ^ (15 - ilog x) ≤ 32767 := by
      generalize ilog x = n at *
      interval_cases n <;> simp only [Nat.reduceSub, Nat.reducePow] at * <;> omega
    have c := log2Correction_range (v := ((x * 2 ^ (15 - ilog x) : Nat) : Int)) (by exact_mod_cast r.1)
      (by exact_mod_cast r.2)
    unfold log2Term
    omega

theorem log2tan_range {isin icos : Nat} (h1 : 3 ≤ isin) (h2 : isin ≤ 32767) (h3 : 3 ≤ icos) (h4 : icos ≤ 32767) :
    -27471 ≤ log2tan isin icos ∧ log2tan isin icos ≤ 27471 := by
  have := log2Term_range h1 h2
  have := log2Term_range h3 h4
  rw [log2tan_eq]
  omega

/-- Away from the right edge the cosine is at least 3 (R206). -/
theorem bcos_inner {x : Nat} (h : x ≤ 16383) : 3 ≤ (bcos x).toNat ∧ (bcos x).toNat ≤ 32767 := by
  have h0 : bcos 16383 = 3 := by decide
  have := bcos_antitone h
  have := bcos_range x
  omega

/-- R210's delta stays within `bound`, which is at least the edge values 16384, when the widest band `wide` keeps the
rounded product of its scale and the largest log-tangent within it. -/
theorem trig_delta_range {theta n wide bound : Nat} (ht : theta ≤ 16384) (hn : n ≤ wide) (hb : 16384 ≤ bound)
    (hw : (wide - 1) * 128 * 27471 < bound * 32768 + 16384) :
    -(bound : Int) ≤ (trig theta n).delta ∧ (trig theta n).delta ≤ bound := by
  unfold trig
  split_ifs with h0 h1
  · simp only; omega
  · simp only; omega
  · obtain ⟨l1, l2⟩ := log2tan_range (bcos_inner (x := 16384 - theta) (by omega)).1
      (bcos_inner (x := 16384 - theta) (by omega)).2 (bcos_inner (x := theta) (by omega)).1
      (bcos_inner (x := theta) (by omega)).2
    simp only [fracMul16, asr_eq]
    generalize log2tan _ _ = d at l1 l2
    obtain ⟨scale, hs⟩ : ∃ k, k = (n - 1) * 128 := ⟨_, rfl⟩
    rw [← hs]
    have hle : scale * 27471 ≤ (wide - 1) * 128 * 27471 := by omega
    have u : (scale : Int) * d ≤ scale * 27471 := mul_le_mul_of_nonneg_left l2 (by omega)
    have l : (scale : Int) * -27471 ≤ scale * d := mul_le_mul_of_nonneg_left l1 (by omega)
    generalize (scale : Int) * d = product at u l
    omega

/-- R210's delta has the range of R36's table, -16384 to 16384, in every band of at most 153 bins; vector 4.3 has wider
deltas for wider bands (assumption 15). -/
theorem trig_delta_narrow_band {theta n : Nat} (ht : theta ≤ 16384) (hn : n ≤ 153) :
    -16384 ≤ (trig theta n).delta ∧ (trig theta n).delta ≤ 16384 :=
  trig_delta_range (bound := 16384) ht hn (by norm_num) (by norm_num)

/-- R210's weights and delta: the delta of a band of width 256 at the angles 1 and 16383 is the largest. -/
theorem trig_range {theta n : Nat} (ht : theta ≤ 16384) (hn : n ≤ 256) :
    (0 ≤ (trig theta n).mid ∧ (trig theta n).mid ≤ 32767) ∧ (0 ≤ (trig theta n).side ∧ (trig theta n).side ≤ 32767) ∧
      -27364 ≤ (trig theta n).delta ∧ (trig theta n).delta ≤ 27364 := by
  have hd := trig_delta_range (bound := 27364) ht hn (by norm_num) (by norm_num)
  have c1 := bcos_range theta
  have c2 := bcos_range (16384 - theta)
  refine ⟨?_, ?_, hd⟩ <;>
  · unfold trig
    split_ifs <;> simp only <;> omega

/-- R210's step leaves the stereo registers in their ranges (R32, R36, R210). -/
theorem setAngle_ok {theta n : Nat} (ht : theta ≤ 16384) (hn : n ≤ 256) (st : Stereo) : (setAngle theta n st).ok := by
  obtain ⟨⟨m1, m2⟩, ⟨s1, s2⟩, d1, d2⟩ := trig_range ht hn
  have h1 := toNat_regNat (show theta < 2 ^ 32 by omega)
  have h2 := regInt_toNat_of_range m1 (show (trig theta n).mid ≤ 4294967295 by omega)
  have h3 := regInt_toNat_of_range s1 (show (trig theta n).side ≤ 4294967295 by omega)
  have h4 := regInt_toInt_of_range (show -2147483648 ≤ (trig theta n).delta by omega) (by omega)
  simp only [Stereo.ok, setAngle, h1, h4, Config.thetaMax]
  omega

end Sys2Proof.Machine
end

