-- ==== Sys2Proof/Laws/Front.lean ====
section
/-! SUPPORT. Whether the encoder's symbols go out, and where they leave the front (spec/40_range_coder.md R111 to R113,
R117; spec/60_exceptions.md R268, R269): `Front.after` says it once for the renormalization and for the final code.  What stays pending, and that no
carry is lost. -/

namespace Sys2Proof.Machine

/-- A stretch of the encoder's pseudocode does what `Front.after` says: it answers with that front, or raises that fault. -/
def follows (r : Run Rc) (o : Except FaultCode Front) : Prop :=
  match o with
  | .ok f => ∃ y, r = .ok y ∧ y.coder.front = f
  | .error c => r = .error (.raised c)

/-- The front of `x` after these symbols, below the end part. -/
def Rc.frontAfter (hw : Params) (x : Rc) (symbols : List Nat) : Except FaultCode Front :=
  Front.after (2 ^ hw.extBits - 1) (x.coder.storage.toNat - x.coder.endOffs.toNat) symbols x.coder.front

theorem State.frontAfter_eq (s : State) (symbols : List Nat) : s.frontAfter symbols = s.rcView.frontAfter s.hw symbols := rfl

/-- A run that does not fit takes BUF_OVF. -/
theorem flushRun_full {hw : Params} {v n : Nat} {x : Rc} (hs : x.coder.storage.toNat ≤ hw.fbufBytes)
    (hf : x.coder.offs.toNat + x.coder.endOffs.toNat ≤ x.coder.storage.toNat)
    (h : x.coder.storage.toNat < x.coder.offs.toNat + x.coder.endOffs.toNat + n) :
    flushRun hw v n x = .error (.raised .bufOvf) := by
  induction n generalizing x with
  | zero => omega
  | succ n ih =>
    refine run_bind_eq_error.2 ?_
    by_cases hr : x.coder.storage.toNat ≤ x.coder.offs.toNat + x.coder.endOffs.toNat
    · exact .inl (writeFront_full hr)
    · obtain ⟨z, hz⟩ := writeFront_room (v := v) hs (by omega)
      obtain ⟨g1, g2, g3, -⟩ := writeFront_grew hz
      refine .inr ⟨z, hz, ih ?_ ?_ ?_⟩ <;> simp only [g1.storage, g1.endOffs] <;> omega

/-- What one symbol does to a front, case by case (R112). -/
theorem Rc.frontAfter_run {hw : Params} {c : Nat} {x : Rc} (hc : c = 255) (he : x.coder.ext.toNat ≠ 2 ^ hw.extBits - 1) :
    x.frontAfter hw [c] = .ok { x.coder.front with ext := x.coder.ext.toNat + 1 } := (if_pos hc).trans (if_neg he)

theorem Rc.frontAfter_overflow {hw : Params} {c : Nat} {x : Rc} (hc : c = 255)
    (he : x.coder.ext.toNat = 2 ^ hw.extBits - 1) :
    x.frontAfter hw [c] = .error .carryOvf := (if_pos hc).trans (if_pos he)

theorem Rc.frontAfter_full {hw : Params} {c : Nat} {x : Rc} (hc : c ≠ 255)
    (h : x.coder.storage.toNat - x.coder.endOffs.toNat < x.coder.symbolsOut) :
    x.frontAfter hw [c] = .error .bufOvf := (if_neg hc).trans (if_pos h)

theorem Rc.frontAfter_flush {hw : Params} {c : Nat} {x : Rc} (hc : c ≠ 255)
    (h : ¬ x.coder.storage.toNat - x.coder.endOffs.toNat < x.coder.symbolsOut) :
    x.frontAfter hw [c] = .ok { offs := x.coder.symbolsOut, ext := 0, buffered := true } :=
  (if_neg hc).trans (if_neg h)

/-- One symbol: `carry_out` does what `Front.after` says of it (R112). -/
theorem carryOut_front {hw : Params} {c : Nat} {x : Rc} (hs : x.coder.storage.toNat ≤ hw.fbufBytes)
    (hf : x.coder.offs.toNat + x.coder.endOffs.toNat ≤ x.coder.storage.toNat)
    (hx : x.coder.ext.toNat < 2 ^ hw.extBits) (hw32 : hw.extBits ≤ 32) :
    follows (carryOut hw c x) (x.frontAfter hw [c]) := by
  have h32 : 2 ^ hw.extBits ≤ 2 ^ 32 := Nat.pow_le_pow_right (by norm_num) hw32
  by_cases hc : c = 255
  · by_cases he : x.coder.ext.toNat = 2 ^ hw.extBits - 1
    · rw [Rc.frontAfter_overflow hc he]
      exact (if_pos hc).trans (if_pos he)
    · rw [Rc.frontAfter_run hc he]
      refine ⟨_, (if_pos hc).trans (if_neg he), ?_⟩
      simp only [Coder.front, toNat_regNat (show x.coder.ext.toNat + 1 < 2 ^ 32 by omega)]
  · have hc' : c ≠ Config.symMax := hc
    by_cases hn : x.coder.storage.toNat - x.coder.endOffs.toNat < x.coder.symbolsOut
    · rw [Rc.frontAfter_full hc hn]
      change carryOut hw c x = _
      unfold carryOut
      rw [if_neg hc']
      unfold Coder.symbolsOut at hn
      cases hv : x.coder.remValid
      · rw [hv, Bool.toNat_false] at hn
        exact run_bind_eq_error.2 (.inr ⟨x, rfl, run_bind_eq_error.2 (.inl (flushRun_full hs hf (by omega)))⟩)
      · rw [hv, Bool.toNat_true] at hn
        refine run_bind_eq_error.2 ?_
        by_cases hr : x.coder.storage.toNat ≤ x.coder.offs.toNat + x.coder.endOffs.toNat
        · exact .inl (writeFront_full hr)
        · obtain ⟨z, hz⟩ := writeFront_room (v := (x.coder.rem.toNat + c / 256) % 256) hs (by omega)
          obtain ⟨g1, g2, g3, -⟩ := writeFront_grew hz
          have hze : z.coder.ext = x.coder.ext := by rw [g2]
          refine .inr ⟨z, hz, run_bind_eq_error.2 (.inl (flushRun_full ?_ ?_ ?_))⟩ <;>
            simp only [g1.storage, g1.endOffs, hze] <;> omega
    · rw [Rc.frontAfter_flush hc hn]
      have hok : ∃ y, carryOut hw c x = .ok y := by
        unfold carryOut
        rw [if_neg hc']
        unfold Coder.symbolsOut at hn
        cases hv : x.coder.remValid
        · rw [hv, Bool.toNat_false] at hn
          obtain ⟨y, hy⟩ := flushRun_room (v := (Config.symMax + c / 256) % 256) (n := x.coder.ext.toNat) hs (by omega)
          exact ⟨_, run_bind_eq_ok.2 ⟨x, rfl, run_bind_eq_ok.2 ⟨y, hy, rfl⟩⟩⟩
        · rw [hv, Bool.toNat_true] at hn
          obtain ⟨a, ha⟩ := writeFront_room (v := (x.coder.rem.toNat + c / 256) % 256) hs (by omega)
          obtain ⟨g1, g2, g3, -⟩ := writeFront_grew ha
          have hae : a.coder.ext = x.coder.ext := by rw [g2]
          obtain ⟨y, hy⟩ := @flushRun_room hw ((Config.symMax + c / 256) % 256) a.coder.ext.toNat a
            (by rw [g1.storage]; exact hs) (by rw [g1.storage, g1.endOffs, g3, hae]; omega)
          exact ⟨_, run_bind_eq_ok.2 ⟨a, ha, run_bind_eq_ok.2 ⟨y, hy, rfl⟩⟩⟩
      obtain ⟨y, hy⟩ := hok
      refine ⟨y, hy, ?_⟩
      obtain ⟨-, gs, -⟩ := carryOut_grew hx hw32 hy
      have he0 := carryOut_ext_zero hc hy
      have hrem := carryOut_rem hy
      rw [if_neg hc] at hrem
      simp only [Coder.symbolsOut, he0, hrem.2, Bool.toNat_true] at gs
      simp only [Coder.front, he0, hrem.2, Coder.symbolsOut]
      congr 1
      omega

/-- The first symbol, then the rest. -/
theorem Front.after_cons (extMax room c : Nat) (rest : List Nat) (f : Front) :
    Front.after extMax room (c :: rest) f =
      match Front.after extMax room [c] f with
      | .ok g => Front.after extMax room rest g
      | .error e => .error e := by
  simp only [Front.after]
  split_ifs <;> rfl

/-- A front that stays below the end part keeps the two parts apart. -/
theorem FrontGrew.apart {x y : Rc} (h : FrontGrew x y)
    (hf : x.coder.offs.toNat + x.coder.endOffs.toNat ≤ x.coder.storage.toNat) :
    y.coder.offs.toNat + y.coder.endOffs.toNat ≤ y.coder.storage.toNat := by
  rw [h.endOffs, h.storage]
  by_cases e : y.coder.offs.toNat = x.coder.offs.toNat
  · omega
  · exact h.inside e

/-- `carry_out(c)`, then a stretch `k` that follows the rest of the symbols, follows all of them. -/
theorem carryOut_then {hw : Params} {c : Nat} {rest : List Nat} {x : Rc} {k : Rc → Run Rc}
    (hs : x.coder.storage.toNat ≤ hw.fbufBytes)
    (hf : x.coder.offs.toNat + x.coder.endOffs.toNat ≤ x.coder.storage.toNat)
    (hx : x.coder.ext.toNat < 2 ^ hw.extBits) (hw32 : hw.extBits ≤ 32)
    (hk : ∀ z, carryOut hw c x = .ok z → follows (k z) (z.frontAfter hw rest)) :
    follows (carryOut hw c x >>= k) (x.frontAfter hw (c :: rest)) := by
  have h1 := carryOut_front (c := c) hs hf hx hw32
  unfold Rc.frontAfter at h1 ⊢
  rw [Front.after_cons]
  generalize hO : Front.after (2 ^ hw.extBits - 1) (x.coder.storage.toNat - x.coder.endOffs.toNat) [c] x.coder.front = O at *
  cases O with
  | error e =>
    have h1' : carryOut hw c x = .error (.raised e) := h1
    rw [h1']; rfl
  | ok f =>
    obtain ⟨z, hz, rfl⟩ := h1
    obtain ⟨g, -, -⟩ := carryOut_grew hx hw32 hz
    have := hk z hz
    unfold Rc.frontAfter at this
    rw [g.storage, g.endOffs] at this
    rw [hz]
    exact this

/-- The renormalization of an interval that `k` passes bring above the threshold follows its `k` symbols (R113). -/
theorem encNormalizeLoop_front {hw : Params} {n k : Nat} {x : Rc} (hs : x.coder.storage.toNat ≤ hw.fbufBytes)
    (hf : x.coder.offs.toNat + x.coder.endOffs.toNat ≤ x.coder.storage.toNat)
    (hx : x.coder.ext.toNat < 2 ^ hw.extBits) (hw32 : hw.extBits ≤ 32) (hp : renormPasses x.coder.rng.toNat k)
    (hk : k ≤ n) : follows (encNormalizeLoop hw n x) (x.frontAfter hw (codeSymbols k x.coder.val.toNat)) := by
  induction n generalizing x k with
  | zero =>
    obtain rfl : k = 0 := by omega
    have := hp.1
    unfold encNormalizeLoop
    rw [if_neg (by simpa using this)]
    exact ⟨x, rfl, rfl⟩
  | succ n ih =>
    unfold encNormalizeLoop
    cases k with
    | zero =>
      have := hp.1
      rw [if_neg (by simpa using this)]
      exact ⟨x, rfl, rfl⟩
    | succ k =>
      have hb : x.coder.rng.toNat ≤ 8388608 := by simpa using hp.2 0 (by omega)
      rw [if_pos (show x.coder.rng.toNat ≤ Config.bot from hb)]
      refine carryOut_then hs hf hx hw32 (fun z hz => ?_)
      obtain ⟨g, -, ge⟩ := carryOut_grew hx hw32 hz
      have hrng : (encShift z.coder).rng.toNat = x.coder.rng.toNat * 256 := by
        simp only [encShift, g.rng]; exact toNat_regNat (by omega)
      have hval : (encShift z.coder).val.toNat = x.coder.val.toNat * 256 % Config.top := by
        simp only [encShift, g.val]; exact toNat_regNat (by simp only [Config.top]; omega)
      have := @ih k { z with coder := encShift z.coder } (by simp only [encShift_storage, g.storage]; exact hs)
        (by simpa using g.apart hf) (by simpa using ge)
        ⟨by simp only [hrng, mul_assoc, ← pow_succ']; exact hp.1,
         fun j hj => by simp only [hrng, mul_assoc, ← pow_succ']; exact hp.2 (j + 1) (by omega)⟩ (by omega)
      simp only [hval] at this
      exact this

/-- The final code's `k` symbols (R117). -/
theorem emitCode_front {hw : Params} {k e : Nat} {x : Rc} (hs : x.coder.storage.toNat ≤ hw.fbufBytes)
    (hf : x.coder.offs.toNat + x.coder.endOffs.toNat ≤ x.coder.storage.toNat)
    (hx : x.coder.ext.toNat < 2 ^ hw.extBits) (hw32 : hw.extBits ≤ 32) :
    follows (emitCode hw k e x) (x.frontAfter hw (codeSymbols k e)) := by
  induction k generalizing e x with
  | zero => exact ⟨x, rfl, rfl⟩
  | succ k ih =>
    refine carryOut_then hs hf hx hw32 (fun z hz => ?_)
    obtain ⟨g, -, ge⟩ := carryOut_grew hx hw32 hz
    exact ih (by rw [g.storage]; exact hs) (g.apart hf) ge

/-- What the final code's symbols do to the front, whatever a carry meets. -/
theorem emitCode_grew {hw : Params} {k e : Nat} {x y : Rc} (hx : x.coder.ext.toNat < 2 ^ hw.extBits)
    (hw32 : hw.extBits ≤ 32) (h : emitCode hw k e x = .ok y) :
    FrontGrew x y ∧ y.coder.symbolsOut = x.coder.symbolsOut + k ∧ y.coder.ext.toNat < 2 ^ hw.extBits := by
  induction k generalizing e x with
  | zero =>
    obtain rfl : x = y := by simpa [emitCode] using h
    exact ⟨FrontGrew.refl x, rfl, hx⟩
  | succ k ih =>
    obtain ⟨z, hz, h⟩ := run_bind_eq_ok.1 h
    obtain ⟨g, gs, ge⟩ := carryOut_grew hx hw32 hz
    obtain ⟨k1, k2, k3⟩ := ih ge h
    exact ⟨g.trans k1, by omega, k3⟩

/-- An interval of size at least `BOT / 2^24 + 1` needs at most three passes; how many is determined. -/
theorem renormPasses_exists {size : Nat} (h : Config.bot < size * 256 ^ 3) : ∃ k ≤ 3, renormPasses size k := by
  simp only [renormPasses, Config.bot] at *
  by_cases h0 : 8388608 < size
  · exact ⟨0, by omega, by omega, by omega⟩
  by_cases h1 : 8388608 < size * 256
  · exact ⟨1, by omega, by omega, fun j hj => by interval_cases j; omega⟩
  by_cases h2 : 8388608 < size * 256 ^ 2
  · exact ⟨2, by omega, by omega, fun j hj => by interval_cases j <;> omega⟩
  · exact ⟨3, by omega, by omega, fun j hj => by interval_cases j <;> omega⟩

theorem renormPasses_unique {size k k' : Nat} (h : renormPasses size k) (h' : renormPasses size k') : k = k' := by
  rcases Nat.lt_trichotomy k k' with hl | rfl | hl
  · exact absurd (h'.2 k hl) (by have := h.1; omega)
  · rfl
  · exact absurd (h.2 k' hl) (by have := h'.1; omega)

/-- `rc_encode` of a legal symbol follows the symbols its narrowed interval puts out (R115). -/
theorem rcEncode_front {hw : Params} {fl fh ft k : Nat} {x : Rc} (h1 : fl < fh) (h2 : fh ≤ ft)
    (hs : x.coder.storage.toNat ≤ hw.fbufBytes)
    (hf : x.coder.offs.toNat + x.coder.endOffs.toNat ≤ x.coder.storage.toNat)
    (hx : x.coder.ext.toNat < 2 ^ hw.extBits) (hw32 : hw.extBits ≤ 32)
    (hsum : x.coder.val.toNat + x.coder.rng.toNat ≤ 4294967295) (hk : k ≤ 3)
    (hp : renormPasses (narrowed x.coder.val.toNat x.coder.rng.toNat fl fh ft).2 k) :
    follows (rcEncode hw fl fh ft x)
      (x.frontAfter hw (codeSymbols k (narrowed x.coder.val.toNat x.coder.rng.toNat fl fh ft).1)) := by
  obtain ⟨e1, e2⟩ := encNarrow_eq h1 h2 hsum
  have := @encNormalizeLoop_front hw 3 k { x with coder := encNarrow fl fh ft x.coder } (by simpa using hs)
    (by simpa using hf) (by simpa using hx) hw32 (by simp only [e2]; exact hp) hk
  simp only [Rc.frontAfter, Coder.front, encNarrow_storage, encNarrow_endOffs, encNarrow_offs, encNarrow_ext,
    encNarrow_remValid, e1] at this
  exact this

/-- With room for as many symbols, every symbol goes out (R111, R112). -/
theorem Front.after_room (extMax room : Nat) (symbols : List Nat) (f : Front)
    (h : symbols = [] ∨ f.offs + f.buffered.toNat + f.ext + symbols.length ≤ room + 1)
    (he : f.ext + symbols.length ≤ extMax) : ∃ g, Front.after extMax room symbols f = .ok g := by
  induction symbols generalizing f with
  | nil => exact ⟨f, rfl⟩
  | cons c rest ih =>
    simp only [reduceCtorEq, List.length_cons, false_or] at h he
    unfold Front.after
    by_cases hc : c = 255
    · rw [if_pos hc, if_neg (by omega)]
      exact ih _ (.inr (by simp only; omega)) (by simp only; omega)
    · rw [if_neg hc]
      simp only
      rw [if_neg (by omega)]
      exact ih _ (.inr (by simp only [Bool.toNat_true]; omega)) (by simp only; omega)

/-- The flush of the pending symbols goes through exactly when all of them fit below the end part (R117). -/
theorem flushPending_cases {hw : Params} {x : Rc} (hs : x.coder.storage.toNat ≤ hw.fbufBytes)
    (hf : x.coder.offs.toNat + x.coder.endOffs.toNat ≤ x.coder.storage.toNat)
    (hx : x.coder.ext.toNat < 2 ^ hw.extBits) (hw32 : hw.extBits ≤ 32) :
    (x.coder.symbolsOut + x.coder.endOffs.toNat ≤ x.coder.storage.toNat → ∃ y, flushPending hw x = .ok y) ∧
    (x.coder.storage.toNat < x.coder.symbolsOut + x.coder.endOffs.toNat →
      flushPending hw x = .error (.raised .bufOvf)) := by
  unfold flushPending
  have h0 := carryOut_front (c := 0) hs hf hx hw32
  by_cases hp : (x.coder.remValid || decide (0 < x.coder.ext.toNat)) = true
  · simp only [if_pos hp]
    refine ⟨fun h => ?_, fun h => ?_⟩
    · rw [Rc.frontAfter_flush (by norm_num) (by omega)] at h0
      exact ⟨h0.choose, h0.choose_spec.1⟩
    · rw [Rc.frontAfter_full (by norm_num) (by omega)] at h0
      exact h0
  · simp only [if_neg hp]
    simp only [Bool.or_eq_true, decide_eq_true_eq, not_or, Bool.not_eq_true, Nat.not_lt, Nat.le_zero] at hp
    refine ⟨fun _ => ⟨x, rfl⟩, fun h => ?_⟩
    simp only [Coder.symbolsOut, hp.1, hp.2, Bool.toNat_false] at h
    omega

@[simp] theorem codeSymbols_length (k v : Nat) : (codeSymbols k v).length = k := by
  induction k generalizing v with
  | zero => rfl
  | succ k ih => simp [codeSymbols, ih]

/-! ### What is pending after RC_ENC_DONE, and what RC_ENCODE keeps -/

/-- After a symbol something is pending: a buffered byte or a 0xFF run (R112). -/
theorem carryOut_pending {hw : Params} {c : Nat} {x y : Rc} (hx : x.coder.ext.toNat < 2 ^ hw.extBits)
    (hw32 : hw.extBits ≤ 32) (h : carryOut hw c x = .ok y) : y.coder.remValid = true ∨ 0 < y.coder.ext.toNat := by
  have h32 : 2 ^ hw.extBits ≤ 2 ^ 32 := Nat.pow_le_pow_right (by norm_num) hw32
  by_cases hc : c = 255
  · right
    unfold carryOut at h
    rw [if_pos (show c = Config.symMax from hc)] at h
    split_ifs at h with he
    simp only [Except.ok.injEq] at h
    subst h
    simp only
    rw [toNat_regNat (by omega)]
    omega
  · have := carryOut_rem h
    rw [if_neg hc] at this
    exact .inl this.2

/-- After the final code's symbols something is pending, unless there were none (R117). -/
theorem emitCode_pending {hw : Params} {k e : Nat} {x y : Rc} (hx : x.coder.ext.toNat < 2 ^ hw.extBits)
    (hw32 : hw.extBits ≤ 32) (h : emitCode hw k e x = .ok y) :
    (k = 0 ∧ y = x) ∨ (0 < k ∧ (y.coder.remValid = true ∨ 0 < y.coder.ext.toNat)) := by
  induction k generalizing e x with
  | zero => exact .inl ⟨rfl, by simpa [emitCode, eq_comm] using h⟩
  | succ k ih =>
    obtain ⟨z, hz, h⟩ := run_bind_eq_ok.1 h
    have hp := carryOut_pending hx hw32 hz
    obtain ⟨-, -, ge⟩ := carryOut_grew hx hw32 hz
    rcases ih ge h with ⟨-, rfl⟩ | ⟨-, h⟩
    · exact .inr ⟨by omega, hp⟩
    · exact .inr ⟨by omega, h⟩

/-- The flush leaves the byte 0 buffered and no run, where anything was pending (R117). -/
theorem flushPending_rem {hw : Params} {x y : Rc} (h : flushPending hw x = .ok y) :
    if x.coder.remValid = false ∧ x.coder.ext = 0#32 then y = x
    else y.coder.rem = 0#8 ∧ y.coder.remValid = true ∧ y.coder.ext = 0#32 := by
  unfold flushPending at h
  by_cases hp : x.coder.remValid = false ∧ x.coder.ext = 0#32
  · rw [if_pos hp]
    rw [hp.1, hp.2] at h
    simpa [eq_comm] using h
  · rw [if_neg hp]
    have hq : (x.coder.remValid || decide (0 < x.coder.ext.toNat)) = true := by
      by_contra hn
      simp only [Bool.or_eq_true, decide_eq_true_eq, not_or, Bool.not_eq_true, Nat.not_lt, Nat.le_zero] at hn
      exact hp ⟨hn.1, BitVec.eq_of_toNat_eq hn.2⟩
    rw [if_pos hq] at h
    have hr := carryOut_rem h
    rw [if_neg (by norm_num)] at hr
    exact ⟨hr.1, hr.2, BitVec.eq_of_toNat_eq (carryOut_ext_zero (by norm_num) h)⟩

/-- What RC_ENC_DONE leaves of the interval and the pending symbols (R117). -/
theorem rcEncDone_pending {hw : Params} {x y : Rc} (hf : x.coder.endOffs.toNat ≤ x.coder.storage.toNat)
    (hx : x.coder.ext.toNat < 2 ^ hw.extBits) (hw32 : hw.extBits ≤ 32)
    (h : rcEncDone hw x = .ok y) :
    y.coder.val = x.coder.val ∧ y.coder.rng = x.coder.rng ∧
    (if ((finalCode x.coder).1 + 7) / 8 = 0 ∧ x.coder.remValid = false ∧ x.coder.ext = 0#32 then
       y.coder.rem = x.coder.rem ∧ y.coder.remValid = x.coder.remValid ∧ y.coder.ext = x.coder.ext
     else y.coder.rem = 0#8 ∧ y.coder.remValid = true ∧ y.coder.ext = 0#32) := by
  obtain ⟨a, ha, h⟩ := run_bind_eq_ok.1 h
  obtain ⟨z, hz, h⟩ := run_bind_eq_ok.1 h
  obtain ⟨d, hd, h⟩ := run_bind_eq_ok.1 h
  obtain ⟨g, hg, h⟩ := run_bind_eq_ok.1 h
  obtain ⟨f, hff, h⟩ := run_bind_eq_ok.1 h
  simp only [Except.ok.injEq] at h
  subst h
  obtain ⟨g1, -, g3⟩ := emitCode_grew hx hw32 ha
  obtain ⟨z1, -, -⟩ := flushPending_ok g3 hw32 hz
  have gz := g1.trans z1
  obtain ⟨d1, -⟩ := drainWindow_ok (by rw [gz.storage, gz.endOffs]; exact hf) hd
  obtain ⟨gg, -⟩ := zeroGap_ok hg
  obtain ⟨o1, -⟩ := orLastBits_ok hff
  have hc : f.coder = { z.coder with endOffs := d.coder.endOffs } := by rw [o1, gg, d1]
  simp only [hc]
  refine ⟨gz.val, gz.rng, ?_⟩
  have hr := flushPending_rem hz
  rcases emitCode_pending hx hw32 ha with ⟨k0, rfl⟩ | ⟨k1, hp⟩
  · rw [k0]
    simp only [true_and]
    split_ifs at hr ⊢ with hh
    · subst hr; exact ⟨rfl, rfl, rfl⟩
    · exact hr
  · rw [if_neg (by omega)]
    rw [if_neg (fun hh => by
      rcases hp with hp | hp
      · rw [hh.1] at hp; cases hp
      · rw [hh.2] at hp; simp at hp)] at hr
    exact hr

/-- Finishing a frame keeps the encoder safe from a lost carry (R112, R117). -/
theorem rcEncDone_carrySafe {hw : Params} {x y : Rc} (hf : x.coder.endOffs.toNat ≤ x.coder.storage.toNat)
    (hx : x.coder.ext.toNat < 2 ^ hw.extBits) (hw32 : hw.extBits ≤ 32) (hc : x.coder.carrySafe)
    (h : rcEncDone hw x = .ok y) : y.coder.carrySafe := by
  obtain ⟨e1, e2, e3⟩ := rcEncDone_pending hf hx hw32 h
  intro hz
  rw [e1, e2]
  split_ifs at e3 with hk
  · rw [e3.1, e3.2.1] at hz; exact hc hz
  · rw [e3.1, e3.2.1] at hz; simp at hz

/-- `rc_encode` of a legal symbol loses nothing and keeps the encoder safe from a lost carry (R112, R113, R115). -/
theorem rcEncode_exact {hw : Params} {fl fh ft : Nat} {x y : Rc} (h0 : ft ≤ 65536) (h1 : fl < fh) (h2 : fh ≤ ft)
    (hx : x.coder.ext.toNat < 2 ^ hw.extBits) (hw32 : hw.extBits ≤ 32) (hr : Config.bot < x.coder.rng.toNat)
    (hsum : x.coder.val.toNat + x.coder.rng.toNat ≤ 4294967295) (hc : x.coder.carrySafe)
    (h : rcEncode hw fl fh ft x = .ok y) :
    let v := narrowed x.coder.val.toNat x.coder.rng.toNat fl fh ft
    y.coder.carrySafe ∧ ∃ k ≤ 3, renormPasses v.2 k ∧ y.coder.rng.toNat = v.2 * 256 ^ k ∧
      y.produced * 2 ^ 31 + y.coder.val.toNat = (x.produced * 2 ^ 31 + v.1) * 256 ^ k ∧
      y.coder.symbolsOut = x.coder.symbolsOut + k := by
  intro v
  obtain ⟨e1, e2⟩ := encNarrow_eq h1 h2 hsum
  obtain ⟨k1, k2, -, -⟩ := narrowed_inside (low := x.coder.val.toNat) (rng := x.coder.rng.toNat) h1 h2
  have hpos : 0 < v.2 := by
    have := three_passes hr (by omega) h0 k2
    rcases Nat.eq_zero_or_pos v.2 with hz | hz
    · rw [show (narrowed x.coder.val.toNat x.coder.rng.toNat fl fh ft).2 = 0 from hz] at this
      simp at this
    · exact hz
  obtain ⟨⟨k, hk, he⟩, -⟩ := rcEncode_ok h1 h2 hx hw32 hsum h
  obtain ⟨q1, k', -, q2, q3⟩ := encNormalizeLoop_exact (x := { x with coder := encNarrow fl fh ft x.coder })
    (by simpa using hx) hw32 (by simp only [e2]; exact hpos) (by simp only [e1, e2]; omega)
    (by
      intro hz
      simp only [encNarrow_rem, encNarrow_remValid] at hz
      have := hc hz
      simp only [e1, e2]
      omega) h
  simp only [e1, e2] at q2 q3
  obtain rfl : k' = k := Nat.pow_right_injective (le_refl _ |>.trans (by norm_num : 2 ≤ 256))
    (Nat.eq_of_mul_eq_mul_left hpos (q3.symm.trans he.2.1))
  have hP : Rc.produced { x with coder := encNarrow fl fh ft x.coder } = x.produced := by
    simp only [Rc.produced, encNarrow_offs, encNarrow_ext, encNarrow_rem, encNarrow_remValid]
  rw [hP] at q2
  exact ⟨q1, k', hk, he.1, q3, q2, he.2.2.2.1⟩

end Sys2Proof.Machine
end

