-- ==== Sys2Proof/Laws/Mode.lean ====
section
/-! SUPPORT. What a valid mode descriptor gives (R32, R72): the bands do not overlap, and every SIG and NORM index of a
band is that of one channel and one bin, inside its memory.  Which bytes a fault leaves unspecified (R270). -/

namespace Sys2Proof.Machine

/-- MODE_OK (R32), conjunct by conjunct. -/
theorem modeOk_iff (s : State) :
    modeOk s = true ↔ (s.channels = 1 ∨ s.channels = 2) ∧ (1 ≤ s.nbands ∧ s.nbands ≤ s.hw.nbandsMax) ∧
      (1 ≤ s.frameLen ∧ s.frameLen ≤ s.hw.frameMax) ∧ s.mem.band 0 = 0 ∧
      (∀ b, b < s.nbands → s.mem.band b < s.mem.band (b + 1) ∧ s.mem.band (b + 1) - s.mem.band b ≤ 256) ∧
      s.mem.band s.nbands ≤ s.frameLen := by
  simp only [modeOk, Bool.and_eq_true, Bool.or_eq_true, decide_eq_true_eq, List.all_eq_true, List.mem_range,
    and_assoc]
  exact Iff.rfl

/-- The band boundaries rise. -/
theorem band_mono {s : State} (h : modeOk s = true) {b b' : Nat} (hb : b ≤ b') (hn : b' ≤ s.nbands) :
    s.mem.band b ≤ s.mem.band b' := by
  have hr := ((modeOk_iff s).1 h).2.2.2.2.1
  induction b' with
  | zero => rw [show b = 0 by omega]
  | succ n ih =>
    rcases Nat.lt_or_ge b (n + 1) with hlt | hge
    · exact le_trans (ih (by omega) (by omega)) (le_of_lt (hr n (by omega)).1)
    · rw [show b = n + 1 by omega]

/-- Every boundary in use is within the frame. -/
theorem band_le_frameLen {s : State} (h : modeOk s = true) {b : Nat} (hn : b ≤ s.nbands) :
    s.mem.band b ≤ s.frameLen :=
  le_trans (band_mono h hn (le_refl _)) ((modeOk_iff s).1 h).2.2.2.2.2

/-- A bin belongs to one band in use. -/
theorem band_unique {s : State} (h : modeOk s = true) {b b' j : Nat} (hb : b < s.nbands) (hb' : b' < s.nbands)
    (h1 : s.mem.band b ≤ j) (h2 : j < s.mem.band (b + 1)) (h3 : s.mem.band b' ≤ j) (h4 : j < s.mem.band (b' + 1)) :
    b = b' := by
  rcases Nat.lt_trichotomy b b' with hlt | heq | hgt
  · have := band_mono h (b := b + 1) (b' := b') (by omega) (by omega); omega
  · exact heq
  · have := band_mono h (b := b' + 1) (b' := b) (by omega) (by omega); omega

/-- The bins of a band in use (R16). -/
theorem mem_bins {s : State} (h : modeOk s = true) {b j : Nat} (hb : b < s.nbands) :
    j ∈ s.mem.bins b ↔ s.mem.band b ≤ j ∧ j < s.mem.band (b + 1) := by
  have := (((modeOk_iff s).1 h).2.2.2.2.1 b hb).1
  simp only [Memory.bins, Memory.width, List.mem_range'_1]
  omega

/-- The SIG and NORM indices of a channel of a band in use (R16). -/
theorem mem_bandIndices {s : State} (h : modeOk s = true) {c b k : Nat} (hb : b < s.nbands) :
    k ∈ s.bandIndices c b ↔ ∃ j, s.mem.band b ≤ j ∧ j < s.mem.band (b + 1) ∧ k = j * s.channels + c := by
  simp only [State.bandIndices, List.mem_map, mem_bins h hb]
  constructor
  · rintro ⟨j, ⟨h1, h2⟩, rfl⟩; exact ⟨j, h1, h2, rfl⟩
  · rintro ⟨j, h1, h2, rfl⟩; exact ⟨j, ⟨h1, h2⟩, rfl⟩

/-- An index names one bin of one channel. -/
theorem index_injective {C c c' j j' : Nat} (hc : c < C) (hc' : c' < C) (h : j * C + c = j' * C + c') :
    j = j' ∧ c = c' := by
  have hj : j = j' := by
    have h1 : (j * C + c) / C = j := by
      rw [Nat.mul_comm, Nat.mul_add_div (by omega), Nat.div_eq_of_lt hc, Nat.add_zero]
    have h2 : (j' * C + c') / C = j' := by
      rw [Nat.mul_comm, Nat.mul_add_div (by omega), Nat.div_eq_of_lt hc', Nat.add_zero]
    rw [← h1, h, h2]
  subst hj
  exact ⟨rfl, by omega⟩

/-- Every index of a bin of the frame is inside SIG and NORM (R72). -/
theorem index_lt {s : State} (h : modeOk s = true) {c j : Nat} (hc : c < s.channels) (hj : j < s.frameLen) :
    j * s.channels + c < 2 * s.hw.frameMax := by
  obtain ⟨hC, -, ⟨-, hL⟩, -⟩ := (modeOk_iff s).1 h
  rcases hC with hC | hC <;> rw [hC] at hc ⊢ <;> omega

/-- The channel and band pairs a band command covers. -/
theorem mem_channelBands {s : State} {p : Nat × Nat} :
    p ∈ s.channelBands ↔ p.1 < s.channels ∧ p.2 < s.nbands := by
  obtain ⟨c, b⟩ := p
  simp only [State.channelBands, List.mem_flatMap, List.mem_map, List.mem_range, Prod.mk.injEq]
  constructor
  · rintro ⟨c', hc, b', hb, rfl, rfl⟩; exact ⟨hc, hb⟩
  · rintro ⟨hc, hb⟩; exact ⟨c, hc, b, hb, rfl, rfl⟩

/-! ### The memory that is unspecified after a fault (R270) -/

/-- An index of a bin in use is one of a band the command covers. -/
theorem mem_indicesOf {s : State} {p : Nat → Bool} {k : Nat} :
    k ∈ s.indicesOf p ↔ 0 < s.channels ∧ k < 2 * s.hw.frameMax ∧ p (k / s.channels) = true := by
  unfold State.indicesOf
  split_ifs with h
  · simp [h]
  · simp [Nat.pos_of_ne_zero h]

theorem inBand_iff {s : State} {b j : Nat} :
    s.inBand b j = true ↔ b < s.nbands ∧ b < s.hw.nbandsMax ∧ s.mem.band b ≤ j ∧ j < s.mem.band (b + 1) := by
  simp [State.inBand, and_assoc]

theorem coversBin_iff {s : State} {j : Nat} : s.coversBin j = true ↔ ∃ b, s.inBand b j = true := by
  simp only [State.coversBin, List.any_eq_true, List.mem_range]
  exact ⟨fun ⟨b, _, h⟩ => ⟨b, h⟩, fun ⟨b, h⟩ => ⟨b, by have := inBand_iff.1 h; omega, h⟩⟩

/-- An index in a band is one of that band's channel `k mod C` (R16). -/
theorem mem_bandIndices_of_inBand {s : State} {b k : Nat} (hb : s.inBand b (k / s.channels) = true) :
    k ∈ s.bandIndices (k % s.channels) b := by
  obtain ⟨-, -, h1, h2⟩ := inBand_iff.1 hb
  refine List.mem_map.2 ⟨k / s.channels, ?_, Nat.div_add_mod' k s.channels⟩
  simp only [Memory.bins, Memory.width, List.mem_range'_1]
  omega

theorem mem_bandElements_of_inBand {s : State} {b k : Nat} (hc : 0 < s.channels)
    (hb : s.inBand b (k / s.channels) = true) : k ∈ s.bandElements b :=
  List.mem_flatMap.2 ⟨k % s.channels, List.mem_range.2 (Nat.mod_lt _ hc), mem_bandIndices_of_inBand hb⟩

theorem mem_coveredIndices_of_coversBin {s : State} {k : Nat} (hc : 0 < s.channels)
    (hb : s.coversBin (k / s.channels) = true) : k ∈ s.coveredIndices := by
  obtain ⟨b, hb⟩ := coversBin_iff.1 hb
  exact List.mem_flatMap.2 ⟨(k % s.channels, b), mem_channelBands.2 ⟨Nat.mod_lt _ hc, (inBand_iff.1 hb).1⟩,
    mem_bandIndices_of_inBand hb⟩

theorem mem_normBytes {ks : List Nat} {a : Nat} : a ∈ normBytes ks ↔ normElems ks a := by
  simp [normBytes, normElems]

theorem mem_wordBytes {x a : Nat} : a ∈ wordBytes x ↔ x ≤ a ∧ a ≤ x + 3 := by
  simp only [wordBytes, List.mem_cons, List.not_mem_nil, or_false]
  omega

/-- The bytes a fault leaves unspecified are among those the command's rule names (R72, R270). -/
theorem frameBytes_inside {s : State} {a : Nat} (h : a ∈ s.frameBytes) : frameRange 0 s.regs.rc.storage.toNat a := by
  obtain ⟨i, hi, rfl⟩ := List.mem_map.1 h
  have := List.mem_range.1 hi
  simp only [frameRange, fbufAddr]
  omega

theorem bandNormBytes_inside {s : State} {b a : Nat} (h : a ∈ s.bandNormBytes b) : normElems (s.bandElements b) a := by
  obtain ⟨k, hk, ha⟩ := mem_normBytes.1 h
  obtain ⟨hc, -, hp⟩ := mem_indicesOf.1 hk
  exact ⟨k, mem_bandElements_of_inBand hc hp, ha⟩

theorem coveredNormBytes_inside {s : State} {a : Nat} (h : a ∈ s.coveredNormBytes) : normElems s.coveredIndices a := by
  obtain ⟨k, hk, ha⟩ := mem_normBytes.1 h
  obtain ⟨hc, -, hp⟩ := mem_indicesOf.1 hk
  exact ⟨k, mem_coveredIndices_of_coversBin hc hp, ha⟩

theorem coveredSigBytes_inside {s : State} {a : Nat} (h : a ∈ s.coveredSigBytes) :
    sigElems (s.coveredIndices ++ s.zeroFilled) a := by
  obtain ⟨k, hk, ha⟩ := List.mem_flatMap.1 h
  obtain ⟨hc, -, hp⟩ := mem_indicesOf.1 hk
  refine ⟨k, List.mem_append.2 ?_, mem_wordBytes.1 ha⟩
  rcases Bool.or_eq_true_iff.1 hp with hp | hp
  · exact .inl (mem_coveredIndices_of_coversBin hc hp)
  · right
    simp only [State.zeroesBin, Bool.and_eq_true, decide_eq_true_eq] at hp
    refine List.mem_flatMap.2 ⟨k % s.channels, List.mem_range.2 (Nat.mod_lt _ hc),
      List.mem_map.2 ⟨k / s.channels, ?_, Nat.div_add_mod' k s.channels⟩⟩
    simp only [List.mem_range'_1]
    omega

theorem coveredEnerBytes_inside {s : State} {a : Nat} (h : a ∈ s.coveredEnerBytes) : enerElems s.channelBands a := by
  obtain ⟨c, hc, h⟩ := List.mem_flatMap.1 h
  obtain ⟨b, hb, h⟩ := List.mem_flatMap.1 h
  have hc := List.mem_range.1 hc
  have hb := List.mem_range.1 hb
  exact ⟨(c, b), mem_channelBands.2 ⟨by simp only; omega, by simp only; omega⟩, mem_wordBytes.1 h⟩

/-- They are bytes of elements the block implements (R72). -/
theorem implemented_sig {hw : Params} {k a : Nat} (hk : k < 2 * hw.frameMax) (h1 : sigAddr k ≤ a) (h2 : a ≤ sigAddr k + 3) :
    implemented hw a = true := by
  unfold sigAddr at h1 h2
  unfold implemented
  rw [Bool.or_eq_true, Bool.or_eq_true]
  refine .inl (.inr ?_)
  rw [Bool.and_eq_true, decide_eq_true_eq, decide_eq_true_eq]
  omega

theorem implemented_norm {hw : Params} {k a : Nat} (hk : k < 2 * hw.frameMax) (h : a = normAddr k ∨ a = normAddr k + 1) :
    implemented hw a = true := by
  unfold normAddr at h
  unfold implemented
  rw [Bool.or_eq_true]
  refine .inr ?_
  rw [Bool.and_eq_true, Bool.and_eq_true, decide_eq_true_eq, decide_eq_true_eq, decide_eq_true_eq]
  omega

theorem implemented_ener {hw : Params} {c b a : Nat} (hl : hw.legal = true) (hc : c < 2) (hb : b < hw.nbandsMax)
    (h1 : enerAddr c b ≤ a) (h2 : a ≤ enerAddr c b + 3) : implemented hw a = true := by
  simp only [Params.legal, Bool.and_eq_true, decide_eq_true_eq] at hl
  unfold enerAddr at h1 h2
  unfold implemented
  rw [Bool.or_eq_true, Bool.or_eq_true, Bool.or_eq_true, Bool.or_eq_true]
  refine .inl (.inl (.inl (.inr ?_)))
  rw [Bool.and_eq_true, Bool.and_eq_true, decide_eq_true_eq, decide_eq_true_eq, decide_eq_true_eq]
  have : (a - 2048) / 4 = 256 * c + b := by omega
  rw [this]
  omega

/-- With no channel in use no SIG, NORM or ENER element is (R294). -/
theorem noChannels_covered {s : State} (h : s.channels = 0) :
    s.coveredNormBytes = [] ∧ s.coveredSigBytes = [] ∧ s.coveredEnerBytes = [] ∧ ∀ b, s.bandNormBytes b = [] := by
  have hi : ∀ p, s.indicesOf p = [] := fun p => if_pos h
  simp only [State.coveredNormBytes, State.coveredSigBytes, State.coveredEnerBytes, State.bandNormBytes, hi, h,
    Nat.zero_min, List.range_zero]
  exact ⟨rfl, rfl, rfl, fun _ => rfl⟩

end Sys2Proof.Machine
end

