-- ==== Sys2Proof/Laws/PerInstr.lean ====
section
/-! SUPPORT. Statements about every command, one lemma per constructor. -/

namespace Sys2Proof.Laws

/-- The word of a well-formed command carries the fixed bits of its own row of the opcode map (R94): the row with its
mnemonic, and RSV, the unused fields and the unused bits of B are zero (R95). -/
def EncodedRow.Statement (i : Instr) : Prop :=
  i.wellFormed = true → ∃ r ∈ opcodeTable, r.mnemonic = i.mnemonic ∧ encode i &&& r.mask = r.fixed

theorem EncodedRow.masked_a (o a : Byte) : commandWord o a 0#8 &&& 0xFFFF00FF#32 = commandWord o 0#8 0#8 := by
  apply BitVec.eq_of_getLsbD_eq
  intro n hn
  simp only [commandWord, BitVec.getLsbD_and, BitVec.getLsbD_append]
  interval_cases n <;> simp

theorem EncodedRow.high_bit {b : Byte} {k j : Nat} (h : b.toNat < 2 ^ k) (hj : k ≤ j) (h8 : j < 8) :
    b[j] = false := by
  rw [BitVec.getElem_eq_testBit_toNat]
  exact Nat.testBit_lt_two_pow (lt_of_lt_of_le h (Nat.pow_le_pow_right (by norm_num) hj))

theorem EncodedRow.masked_two (o a b : Byte) (h : fitsTwoBits b = true) :
    commandWord o a b &&& 0xFFFC00FF#32 = commandWord o 0#8 0#8 := by
  have hb : b.toNat < 2 ^ 2 := by simpa [fitsTwoBits] using h
  apply BitVec.eq_of_getLsbD_eq
  intro n hn
  simp only [commandWord, BitVec.getLsbD_and, BitVec.getLsbD_append]
  interval_cases n <;> simp [EncodedRow.high_bit hb]

theorem EncodedRow.masked_four (o a b : Byte) (h : fitsFourBits b = true) :
    commandWord o a b &&& 0xFFF000FF#32 = commandWord o 0#8 0#8 := by
  have hb : b.toNat < 2 ^ 4 := by simpa [fitsFourBits] using h
  apply BitVec.eq_of_getLsbD_eq
  intro n hn
  simp only [commandWord, BitVec.getLsbD_and, BitVec.getLsbD_append]
  interval_cases n <;> simp [EncodedRow.high_bit hb]

/-- A row at a place of the opcode map is in it. -/
theorem EncodedRow.row {i : Instr} (k : Fin 24)
    (hm : (opcodeTable[k.val]'(by exact k.isLt)).mnemonic = i.mnemonic)
    (he : encode i &&& (opcodeTable[k.val]'(by exact k.isLt)).mask = (opcodeTable[k.val]'(by exact k.isLt)).fixed) :
    ∃ r ∈ opcodeTable, r.mnemonic = i.mnemonic ∧ encode i &&& r.mask = r.fixed :=
  ⟨_, List.getElem_mem _, hm, he⟩

/-! ### One lemma per constructor -/

theorem EncodedRow.nop : Statement .nop := fun _ => row 0 rfl rfl
theorem EncodedRow.rcEncInit : Statement .rcEncInit := fun _ => row 1 rfl rfl
theorem EncodedRow.rcEncode : Statement .rcEncode := fun _ => row 2 rfl rfl
theorem EncodedRow.rcEncBits (a : Byte) : Statement (.rcEncBits a) := fun _ => row 3 rfl (masked_a 0x03#8 a)
theorem EncodedRow.rcEncDone : Statement .rcEncDone := fun _ => row 4 rfl rfl
theorem EncodedRow.rcTell (a : Byte) : Statement (.rcTell a) := fun _ => row 5 rfl (masked_a 0x05#8 a)
theorem EncodedRow.rcDecInit : Statement .rcDecInit := fun _ => row 6 rfl rfl
theorem EncodedRow.rcDecode : Statement .rcDecode := fun _ => row 7 rfl rfl
theorem EncodedRow.rcDecUpdate : Statement .rcDecUpdate := fun _ => row 8 rfl rfl
theorem EncodedRow.rcDecBits (a : Byte) : Statement (.rcDecBits a) := fun _ => row 9 rfl (masked_a 0x0C#8 a)
theorem EncodedRow.beCompute : Statement .beCompute := fun _ => row 10 rfl rfl
theorem EncodedRow.beNormalise : Statement .beNormalise := fun _ => row 11 rfl rfl
theorem EncodedRow.beDenormalise : Statement .beDenormalise := fun _ => row 12 rfl rfl
theorem EncodedRow.beRenormAll : Statement .beRenormAll := fun _ => row 13 rfl rfl
theorem EncodedRow.beRenormBand (a b : Byte) : Statement (.beRenormBand a b) := fun h => row 14 rfl (masked_two 0x14#8 a b h)
theorem EncodedRow.stMix (a b : Byte) : Statement (.stMix a b) := fun h => row 15 rfl (masked_two 0x20#8 a b h)
theorem EncodedRow.stQb (a : Byte) : Statement (.stQb a) := fun _ => row 16 rfl (masked_a 0x21#8 a)
theorem EncodedRow.stThetaEnc (a b : Byte) : Statement (.stThetaEnc a b) := fun h => row 17 rfl (masked_four 0x22#8 a b h)
theorem EncodedRow.stThetaDec (a b : Byte) : Statement (.stThetaDec a b) := fun h => row 18 rfl (masked_four 0x23#8 a b h)
theorem EncodedRow.stSplit (a : Byte) : Statement (.stSplit a) := fun _ => row 19 rfl (masked_a 0x24#8 a)
theorem EncodedRow.stScale (a : Byte) : Statement (.stScale a) := fun _ => row 20 rfl (masked_a 0x25#8 a)
theorem EncodedRow.stSign2Enc (a : Byte) : Statement (.stSign2Enc a) := fun _ => row 21 rfl (masked_a 0x26#8 a)
theorem EncodedRow.stSign2Dec (a : Byte) : Statement (.stSign2Dec a) := fun _ => row 22 rfl (masked_a 0x27#8 a)
theorem EncodedRow.stSign2Rebuild (a : Byte) : Statement (.stSign2Rebuild a) := fun _ => row 23 rfl (masked_a 0x28#8 a)

end Sys2Proof.Laws
end

