-- ==== Sys2Proof/Laws/Port.lean ====
section
/-! SUPPORT. What one host access can do (R62 to R71, R290, R291). -/

namespace Sys2Proof.Machine

/-- The FBUF window writes the byte, or nothing at or above FBUF_BYTES (R65). -/
theorem byte_fbufWrite (hw : Params) (m : Memory) (i : Nat) (b : Byte) (a : Nat) :
    (fbufWrite hw m i b).byte a = if a = fbufAddr i ∧ i < hw.fbufBytes then b else m.byte a := by
  unfold fbufWrite
  by_cases h : i < hw.fbufBytes
  · simp [h, Memory.byte_setByte]
  · simp [h]

theorem wf_fbufWrite (hw : Params) (m : Memory) (i : Nat) (b : Byte) (h : m.wf = true) :
    (fbufWrite hw m i b).wf = true := by
  unfold fbufWrite
  split
  · exact Memory.wf_setByte _ _ _ h
  · exact h

theorem wf_fbufWriteWord (hw : Params) (m : Memory) (w : Nat) (v : Word) (h : m.wf = true) :
    (fbufWriteWord hw m w v).wf = true :=
  wf_fbufWrite _ _ _ _ (wf_fbufWrite _ _ _ _ (wf_fbufWrite _ _ _ _ (wf_fbufWrite _ _ _ _ h)))

/-- A register write is a soft reset, a command, a flag, one of the host's registers, or ignored (R24 to R30, R62). -/
theorem writeReg_cases (s : State) (v : Word) (r : Reg) :
    writeReg s v r = s ∨ (r = .ctrl ∧ writeReg s v r = writeCtrl s v) ∨ (r = .cmd ∧ writeReg s v r = writeCmd s v) ∨
    ∃ d a0 a1 a2 c b l, writeReg s v r = { s with
      regs := { s.regs with done := d, arg0 := a0, arg1 := a1, arg2 := a2, cfgChannels := c, cfgNbands := b
                            cfgFrameLen := l } } := by
  cases r <;> first
    | exact .inl rfl
    | exact .inr (.inl ⟨rfl, rfl⟩)
    | exact .inr (.inr (.inl ⟨rfl, rfl⟩))
    | exact .inr (.inr (.inr ⟨_, _, _, _, _, _, _, rfl⟩))
    | (by_cases h : v.getLsbD 1 = true
       · exact .inr (.inr (.inr ⟨false, _, _, _, _, _, _, by simp only [writeReg, writeStatus, h]; rfl⟩))
       · exact .inl (by simp only [writeReg, writeStatus, h]; rfl))

/-- A register write leaves memory, the parameters, the port and the answers alone. -/
theorem writeReg_frame (s : State) (v : Word) (r : Reg) :
    (writeReg s v r).mem = s.mem ∧ (writeReg s v r).hw = s.hw ∧ (writeReg s v r).port = s.port ∧
    (writeReg s v r).replies = s.replies := by
  rcases writeReg_cases s v r with h | ⟨-, h⟩ | ⟨-, h⟩ | ⟨_, _, _, _, _, _, _, h⟩ <;> rw [h]
  · exact ⟨rfl, rfl, rfl, rfl⟩
  · unfold writeCtrl; split <;> exact ⟨rfl, rfl, rfl, rfl⟩
  · unfold writeCmd; split <;> exact ⟨rfl, rfl, rfl, rfl⟩
  · exact ⟨rfl, rfl, rfl, rfl⟩

/-- A read changes the answers, and the count of polls while a command runs; nothing else (R70). -/
theorem serve_read (s : State) (a : BitVec 16) (n : Nat) :
    ∃ r p, serve (.read a n) s = { s with replies := r :: s.replies, phase := p } := by
  simp only [serve]
  split
  · refine ⟨.data (readTarget s (target s.hw a.toNat)),
      (s.answer (.data (readTarget s (target s.hw a.toNat)))).countPoll.phase, ?_⟩
    unfold State.countPoll State.answer
    split <;> simp_all
  · exact ⟨_, s.phase, rfl⟩

/-- No host access changes the parameters. -/
theorem serve_hw (e : PortEvent) (s : State) : (serve e s).hw = s.hw := by
  cases e with
  | read a n => obtain ⟨r, p, h⟩ := serve_read s a n; rw [h]
  | write a n v =>
    simp only [serve]
    split
    · show (writeTarget s v _).hw = s.hw
      cases target s.hw a.toNat with
      | reg r => exact (writeReg_frame s v r).2.1
      | _ => rfl
    · rfl
  | powerOn => rfl

/-- Every host access keeps the canonical form of memory. -/
theorem serve_wf (e : PortEvent) (s : State) (h : s.mem.wf = true) : (serve e s).mem.wf = true := by
  cases e with
  | read a n => obtain ⟨r, p, hs⟩ := serve_read s a n; rw [hs]; exact h
  | write a n v =>
    simp only [serve]
    split
    · show (writeTarget s v _).mem.wf = true
      cases target s.hw a.toNat with
      | reg r => exact (writeReg_frame s v r).1 ▸ h
      | band i => exact Memory.wf_setHalf _ _ _ h
      | ener c b => exact Memory.wf_setWord _ _ _ h
      | fbuf w => exact wf_fbufWriteWord _ _ _ _ h
      | sig k => exact Memory.wf_setWord _ _ _ h
      | norm k => exact Memory.wf_setHalf _ _ _ h
      | absent => exact h
    · exact h
  | powerOn => rfl

end Sys2Proof.Machine
end

