-- ==== Sys2Proof/Tests/Slice0.lean ====
section
/-! SUPPORT. The model's own tests.  Words are written out from the spec's encoding (R90, R94); expected values are those
of spec/95_test_vectors.md and of the rules' examples.  A `witness_<Name>` theorem meets the hypotheses of
`Obligations.<Name>`, clause by clause. -/

namespace Sys2Proof.Tests

open Sys2Proof Sys2Proof.Machine

-- One test at a time: a hundred kernel evaluations that wait for each other would each hold a thread.
set_option Elab.async false

/-! ### Well-formedness: each check refuses an ill-formed term (R94, R95) -/

theorem test_renorm_mask_bit2_refused : (Instr.beRenormBand 0#8 4#8).wellFormed = false := by decide
theorem test_mix_selector_bit2_refused : (Instr.stMix 0#8 4#8).wellFormed = false := by decide
theorem test_theta_enc_bit4_refused : (Instr.stThetaEnc 0#8 16#8).wellFormed = false := by decide
theorem test_theta_dec_bit4_refused : (Instr.stThetaDec 0#8 16#8).wellFormed = false := by decide

/-! ### Decoding: one word per constructor, written out from R94 -/

theorem test_decode_system : decode 0x00000000#32 = .ok .nop := by decide

theorem test_decode_encoder :
    decode 0x00000001#32 = .ok .rcEncInit ∧ decode 0x00000002#32 = .ok .rcEncode ∧
    decode 0x00001903#32 = .ok (.rcEncBits 25#8) ∧ decode 0x00000004#32 = .ok .rcEncDone ∧
    decode 0x00000305#32 = .ok (.rcTell 3#8) ∧ decode 0x0000FF05#32 = .ok (.rcTell 255#8) := by decide

theorem test_decode_decoder :
    decode 0x00000009#32 = .ok .rcDecInit ∧ decode 0x0000000A#32 = .ok .rcDecode ∧
    decode 0x0000000B#32 = .ok .rcDecUpdate ∧ decode 0x0000060C#32 = .ok (.rcDecBits 6#8) := by decide

theorem test_decode_band :
    decode 0x00000010#32 = .ok .beCompute ∧ decode 0x00000011#32 = .ok .beNormalise ∧
    decode 0x00000012#32 = .ok .beDenormalise ∧ decode 0x00000013#32 = .ok .beRenormAll ∧
    decode 0x00030114#32 = .ok (.beRenormBand 1#8 3#8) := by decide

theorem test_decode_stereo :
    decode 0x00010520#32 = .ok (.stMix 5#8 1#8) ∧ decode 0x00000021#32 = .ok (.stQb 0#8) ∧
    decode 0x000E0722#32 = .ok (.stThetaEnc 7#8 14#8) ∧ decode 0x00060023#32 = .ok (.stThetaDec 0#8 6#8) ∧
    decode 0x00001224#32 = .ok (.stSplit 18#8) ∧ decode 0x00000025#32 = .ok (.stScale 0#8) ∧
    decode 0x00000026#32 = .ok (.stSign2Enc 0#8) ∧ decode 0x00000027#32 = .ok (.stSign2Dec 0#8) ∧
    decode 0x00000028#32 = .ok (.stSign2Rebuild 0#8) := by decide

/-- The illegal words of spec/95_test_vectors.md section 5, each rejected by name. -/
theorem test_illegal_words :
    decode 0x00000006#32 = .error (.reservedOpcode 6#8) ∧
    decode 0x00000101#32 = .error (.nonzeroUnusedBits "RC_ENC_INIT") ∧
    decode 0x01000000#32 = .error (.nonzeroUnusedBits "NOP") ∧
    decode 0x00040020#32 = .error (.nonzeroUnusedBits "ST_MIX") ∧
    decode 0x00100022#32 = .error (.nonzeroUnusedBits "ST_THETA_ENC") ∧
    decode 0x00010010#32 = .error (.nonzeroUnusedBits "BE_COMPUTE") ∧
    decode 0x00000104#32 = .error (.nonzeroUnusedBits "RC_ENC_DONE") ∧
    decode 0x000000FF#32 = .error (.reservedOpcode 255#8) := by decide

/-! ### Small states -/

/-- Whether the outcome is a next state with this property. -/
def holds (o : Host.Outcome State Fault Refusal) (p : State → Bool) : Bool :=
  match o with
  | .next t => p t
  | .fault _ => false
  | .refused _ => false

/-- The next state of an outcome, or the reset state. -/
def nextOf (o : Host.Outcome State Fault Refusal) : State :=
  match o with
  | .next t => t
  | .fault _ => State.reset
  | .refused _ => State.reset

theorem eq_nextOf {o : Host.Outcome State Fault Refusal} (h : holds o (fun _ => true) = true) : o = .next (nextOf o) := by
  cases o <;> simp_all [holds, nextOf]

/-- The three argument registers. -/
def withArgs (s : State) (a b c : Nat) : State :=
  { s with regs := { s.regs with arg0 := BitVec.ofNat 32 a, arg1 := BitVec.ofNat 32 b, arg2 := BitVec.ofNat 32 c } }

/-- These coder registers. -/
def withCoder (s : State) (c : Coder) : State := { s with regs := { s.regs with rc := c } }

/-- These stereo registers. -/
def withStereo (s : State) (st : Stereo) : State := { s with regs := { s.regs with st := st } }

/-- FBUF holds these bytes from index 0. -/
def withFrame (s : State) (bytes : List Nat) : State :=
  { s with mem := bytes.zipIdx.foldl (fun m p => m.setByte (fbufAddr p.2) (BitVec.ofNat 8 p.1)) s.mem }

/-- NORM holds these values from index 0. -/
def withNorm (s : State) (xs : List Int) : State :=
  { s with mem := s.mem.setNorms (xs.zipIdx.map (fun p => (p.2, p.1))) }

/-- SIG holds these values from index 0. -/
def withSig (s : State) (xs : List Int) : State :=
  { s with mem := s.mem.setSigs (xs.zipIdx.map (fun p => (p.2, p.1))) }

/-- A valid mode descriptor of these band boundaries. -/
def withMode (s : State) (channels frameLen : Nat) (bounds : List Nat) : State :=
  { s with
    regs := { s.regs with cfgChannels := BitVec.ofNat 32 channels, cfgNbands := BitVec.ofNat 32 (bounds.length - 1)
                          cfgFrameLen := BitVec.ofNat 32 frameLen }
    mem := bounds.zipIdx.foldl (fun m p => m.setHalf (bandAddr p.2) (BitVec.ofNat 16 p.1)) s.mem }

/-- After `encinit n`. -/
def encoder (n : Nat) : State := withCoder State.reset (encInitCoder n)

/-- After `decinit 4` on the frame 40 00 00 00 (vector 2.4). -/
def decoder : State :=
  withFrame (withCoder State.reset
    { Coder.reset with val := 0x5FFFFFFF#32, rng := 0x80000000#32, remValid := true, offs := 4#32
                       nbitsTotal := 33#32, storage := 4#32, inited := true, dir := .decode }) [0x40, 0, 0, 0]

/-- `decoder` after `decode 4`. -/
def pending : State :=
  withCoder decoder { decoder.regs.rc with dq := 0x20000000#32, dft := 4#32, dfs := 1#32, dpend := true }

/-- The NORM elements, from index 0, of this many. -/
def norms (s : State) (n : Nat) : List Int := (List.range n).map s.mem.norm

/-- The same for SIG. -/
def sigs (s : State) (n : Nat) : List Int := (List.range n).map s.mem.sig

/-- The same for FBUF. -/
def frame (s : State) (n : Nat) : List Nat := (List.range n).map s.mem.fbuf

/-- One mono band of width 4. -/
def mono : State := withMode State.reset 1 4 [0, 4]

/-- One stereo band of width 4, with the data of vector 4.5. -/
def stereo : State := withNorm (withMode State.reset 2 4 [0, 4]) [10000, 8000, 5000, 5000, 0, 1000, -3000, -2000]

/-- One stereo band of width 2, with the data of vector 4.9, row 3. -/
def pair : State :=
  withStereo (withNorm (withMode State.reset 2 2 [0, 2]) [-1, -3000, -1, 4000]) { Stereo.reset with theta := 13312#32 }

/-! ### The range coder -/

/-- Vector 2.1. -/
theorem test_enc_init : holds (exec .rcEncInit (withArgs State.reset 8 0 0)) (fun t =>
    t.regs.rc.rng == 0x80000000#32 && t.regs.rc.nbitsTotal == 33#32 && t.statusWord == 0x00010002#32) = true := by
  decide +kernel

/-- Vector 2.8: a frame larger than FBUF. -/
theorem test_enc_init_too_large : holds (exec .rcEncInit (withArgs State.reset 2049 0 0)) (fun t =>
    t.statusWord == 0x00000406#32) = true := by decide +kernel

/-- Vector 2.4. -/
theorem test_encode : holds (exec .rcEncode (withArgs (encoder 4) 1 2 4)) (fun t =>
    t.regs.rc.val == 0x20000000#32 && t.regs.rc.rng == 0x20000000#32) = true := by decide +kernel

/-- Vector 2.6, symbol 7: the carry runs through the buffered 0xFF into the buffered byte. -/
theorem test_encode_carry : holds (exec .rcEncode (withArgs (withCoder State.reset
      { encInitCoder 8 with val := 0x80A3D760#32, rng := 0x00F5C290#32, rem := 0x5D#8, remValid := true, ext := 1#32
                            nbitsTotal := 49#32 }) 3 5 5)) (fun t =>
    t.regs.rc.val == 0x374C1E00#32 && t.regs.rc.rng == 0x624DD200#32 && t.regs.rc.remWord == 0x102#32 &&
    t.regs.rc.ext == 0#32 && t.regs.rc.offs == 2#32 && frame t 2 == [0x5E, 0]) = true := by decide +kernel

/-- Vector 2.3, the second row. -/
theorem test_enc_bits : holds (exec (.rcEncBits 25#8) (withArgs (withCoder State.reset
      { encInitCoder 12 with endWin := 0xABCDE#32, nendBits := 20#32 }) 0x1FFFFFF 0 0)) (fun t =>
    t.regs.rc.endWin == 0x1FFFFFFA#32 && t.regs.rc.nendBits == 29#32 && t.regs.rc.endOffs == 2#32 &&
    t.mem.fbuf 11 == 0xDE && t.mem.fbuf 10 == 0xBC) = true := by decide +kernel

/-- Vector 2.10: a value too wide for its bit count. -/
theorem test_enc_bits_too_wide : holds (exec (.rcEncBits 3#8) (withArgs (encoder 4) 8 0 0)) (fun t =>
    t.statusWord == 0x00010406#32 && t.regs.faultCmd == 0x00000303#32) = true := by decide +kernel

/-- Vector 2.8: raw bits in the spare bits of the last front byte. -/
theorem test_enc_done : holds (exec .rcEncDone (withCoder State.reset
      { encInitCoder 1 with val := 0x20000000#32, rng := 0x20000000#32, endWin := 5#32, nendBits := 3#32 })) (fun t =>
    frame t 1 == [0x45] && t.statusWord == 0x00050002#32) = true := by decide +kernel

/-- Vector 2.8: seven raw bits do not fit the spare bits. -/
theorem test_enc_done_full : holds (exec .rcEncDone (withCoder State.reset
      { encInitCoder 1 with val := 0x20000000#32, rng := 0x20000000#32, endWin := 0x55#32, nendBits := 7#32 })) (fun t =>
    t.statusWord == 0x00010706#32 && t.regs.faultCmd == 4#32 && t.regs.rc.offs == 0#32) = true := by decide +kernel

/-- Vector 2.5, tell(3) after symbol 2. -/
theorem test_tell : holds (exec (.rcTell 3#8) (withCoder State.reset
      { encInitCoder 8 with rng := 0x1BC48000#32, nbitsTotal := 41#32 })) (fun t => t.regs.res0 == 90#32) = true := by
  decide +kernel

/-- Vector 2.10: the granularity check, after the init check. -/
theorem test_tell_granularity : holds (exec (.rcTell 4#8) (encoder 4)) (fun t => t.statusWord == 0x00010406#32) = true := by
  decide +kernel

/-- Vector 2.4. -/
theorem test_dec_init : holds (exec .rcDecInit (withArgs (withFrame State.reset [0x40, 0, 0, 0]) 4 0 0)) (fun t =>
    t.regs.rc == decoder.regs.rc) = true := by decide +kernel

/-- Vector 2.4. -/
theorem test_decode : holds (exec .rcDecode (withArgs decoder 0 0 4)) (fun t =>
    t.regs.res0 == 1#32 && t.regs.rc == pending.regs.rc && t.statusWord == 0x000B0002#32) = true := by decide +kernel

/-- Vector 2.4. -/
theorem test_dec_update : holds (exec .rcDecUpdate (withArgs pending 1 2 4)) (fun t =>
    t.regs.rc.val == 0x1FFFFFFF#32 && t.regs.rc.rng == 0x20000000#32 && !t.regs.rc.dpend) = true := by decide +kernel

/-- Vector 2.10: `ft` differs from the pending one. -/
theorem test_dec_update_other_total : holds (exec .rcDecUpdate (withArgs pending 1 2 8)) (fun t =>
    t.statusWord == 0x000B0306#32) = true := by decide +kernel

/-- P2's decoder: `decbits 6` on the frame of P1. -/
theorem test_dec_bits : holds (exec (.rcDecBits 6#8) (withCoder (withFrame State.reset [0x60, 0, 0, 0, 0, 0, 0, 0x2A])
      { decoder.regs.rc with storage := 8#32 })) (fun t =>
    t.regs.res0 == 42#32 && t.regs.rc.nendBits == 26#32 && t.regs.rc.endOffs == 4#32 && t.regs.rc.endWin == 0#32) = true := by
  decide +kernel

/-! ### The band energy engine -/

/-- Vector 3.1, last row. -/
theorem test_be_compute : holds (exec .beCompute (withSig (withMode State.reset 1 2 [0, 2]) [3000, -4000])) (fun t =>
    t.mem.ener 0 0 == 5001) = true := by decide +kernel

/-- Vector 3.1: the energy saturates. -/
theorem test_be_compute_saturates : holds (exec .beCompute (withSig (withMode State.reset 1 4 [0, 4])
      (List.replicate 4 (-2147483648)))) (fun t => t.mem.ener 0 0 == 4294967295) = true := by decide +kernel

/-- Vector 3.1, last row. -/
theorem test_be_normalise : holds (exec .beNormalise
      (let s := withSig (withMode State.reset 1 2 [0, 2]) [3000, -4000]
       { s with mem := s.mem.setEners [((0, 0), 5001)] })) (fun t => norms t 2 == [9828, -13104]) = true := by
  decide +kernel

/-- Vector 3.3: a zero energy. -/
theorem test_be_normalise_zero : holds (exec .beNormalise { mono with mem := mono.mem.setEners [((0, 0), 0)] }) (fun t =>
    t.statusWord == 0x00000406#32 && t.mem.ener 0 0 == 0) = true := by decide +kernel

/-- P2's denormalise, band 0 and the zero-filled bins. -/
theorem test_be_denormalise : holds (exec .beDenormalise
      (let s := withNorm (withMode State.reset 1 6 [0, 4]) [5413, -10827, 10827, 2165]
       { s with mem := s.mem.setEners [((0, 0), 3905)] })) (fun t =>
    sigs t 6 == [1290, -2581, 2580, 516, 0, 0]) = true := by decide +kernel

/-- P2's renormalise, band 0. -/
theorem test_be_renorm_all : holds (exec .beRenormAll (withNorm mono [5000, -10000, 10000, 2000])) (fun t =>
    norms t 4 == [5413, -10827, 10827, 2165]) = true := by decide +kernel

/-- Vector 3.2: one channel of one band. -/
theorem test_be_renorm_band : holds (exec (.beRenormBand 0#8 1#8)
      (withNorm (withMode State.reset 2 2 [0, 2]) [5000, -10502, 14653, 12393])) (fun t =>
    norms t 4 == [5291, -10502, 15506, 12393]) = true := by decide +kernel

/-- Vector 3.3: channel 1 of a mono descriptor. -/
theorem test_be_renorm_band_mono : holds (exec (.beRenormBand 0#8 2#8) mono) (fun t =>
    t.statusWord == 0x00000406#32) = true := by decide +kernel

/-! ### The stereo unit -/

/-- Vector 4.5, first row. -/
theorem test_st_mix : holds (exec (.stMix 0#8 0#8) stereo) (fun t =>
    norms t 8 == [12726, -1414, 7070, 0, 707, 707, -3537, 707]) = true := by decide +kernel

/-- Vector 4.5, fourth row. -/
theorem test_st_mix_intensity_inverse : holds (exec (.stMix 0#8 3#8)
      (let s := withNorm stereo [12520, 2683, 6706, 2236, 447, 894, -3579, -447]
       { s with mem := s.mem.setEners [((0, 0), 100000), ((1, 0), 50000)] })) (fun t =>
    norms t 8 == [11197, 5599, 5997, 2999, 399, 200, -3201, -1600]) = true := by decide +kernel

/-- Vector 4.6: a negative budget, and N = 4. -/
theorem test_st_qb :
    holds (exec (.stQb 0#8) (withArgs stereo 400 0 0)) (fun t => t.regs.res0 == 7#32) = true ∧
    holds (exec (.stQb 0#8) (withArgs stereo 0xFFFFFF9C 0 0)) (fun t => t.regs.res0 == 0#32) = true := by
  constructor <;> decide +kernel

/-- R212's example. -/
theorem test_st_theta_enc : holds (exec (.stThetaEnc 0#8 6#8) (withCoder
      (withNorm stereo [12726, -1414, 7070, 0, 707, 707, -3537, 707]) (encInitCoder 16))) (fun t =>
    t.regs.res0 == 5#32 && t.regs.st == { theta := 1280#32, imid := 32522#32, iside := 4012#32, delta := 0xFFFFFFB8#32
                                          magm := 14998#32, mags := 1731#32, sign := false } &&
    tell 3 t.regs.rc == 57) = true := by decide +kernel

/-- P4's decoder, from the registers `decinit 8` leaves on its frame. -/
theorem test_st_theta_dec : holds (exec (.stThetaDec 0#8 7#8) (withCoder (withFrame stereo [0x12, 0, 0, 0, 0, 0, 0, 0])
      { decoder.regs.rc with val := 0x76FFFFFF#32, storage := 8#32 })) (fun t =>
    t.regs.res0 == 9#32 && t.regs.rc.val == 0x00EC27B7#32 && t.regs.rc.rng == 0x00FE03F8#32 &&
    t.regs.st.delta == 0xFFFFFFB4#32) = true := by decide +kernel

/-- Vector 4.8, first row and the two-coefficient row that goes negative. -/
theorem test_st_split :
    holds (exec (.stSplit 0#8) (withArgs (withStereo stereo { Stereo.reset with theta := 1280#32, delta := 0xFFFFFFB8#32 })
      200 0 0)) (fun t => t.regs.res0 == 136#32 && t.regs.res1 == 64#32) = true ∧
    holds (exec (.stSplit 0#8) (withArgs pair 5 0 0)) (fun t =>
      t.regs.res0 == 0xFFFFFFFD#32 && t.regs.res1 == 8#32) = true := by
  constructor <;> decide +kernel

/-- Vector 4.10, third row. -/
theorem test_st_scale : holds (exec (.stScale 0#8) (withStereo
      (withNorm stereo [1000, 100, -2000, -200, 3000, 300, 4000, 0])
      { Stereo.reset with imid := 32729#32, iside := 1609#32 })) (fun t =>
    norms t 8 == [999, 5, -1998, -10, 2996, 15, 3995, 0]) = true := by decide +kernel

/-- Vector 4.9, third row. -/
theorem test_st_sign2_enc : holds (exec (.stSign2Enc 0#8)
      (withCoder (withNorm pair [4000, -3000, 3000, 4000]) (encInitCoder 8))) (fun t =>
    t.regs.res0 == 1#32 && t.regs.st.sign && t.regs.rc.endWin == 1#32 && t.regs.rc.nendBits == 1#32) = true := by
  decide +kernel

/-- R111, R116, R218: the sign bit does not fit a full window whose four bytes do not fit the frame. -/
theorem test_st_sign2_enc_full : holds (exec (.stSign2Enc 0#8)
      (withCoder pair { encInitCoder 3 with nendBits := 32#32 })) (fun t =>
    t.statusWord == 0x00010706#32 && t.regs.st == pair.regs.st) = true := by decide +kernel

/-- P5's decoder: the sign bit in bit 0 of the last byte. -/
theorem test_st_sign2_dec : holds (exec (.stSign2Dec 0#8)
      (withFrame (withCoder pair decoder.regs.rc) [0x40, 0, 0, 1])) (fun t =>
    t.regs.st.sign && t.regs.rc.nendBits == 31#32) = true := by decide +kernel

/-- Vector 4.9, third row: X is rebuilt from Y. -/
theorem test_st_sign2_rebuild : holds (exec (.stSign2Rebuild 0#8)
      (withStereo pair { pair.regs.st with sign := true })) (fun t => norms t 4 == [4000, -3000, 3000, 4000]) = true := by
  decide +kernel

/-- Vector 4.10, first row: the edge takes no trigonometry, and is exact. -/
theorem test_st_theta_enc_edge : holds (exec (.stThetaEnc 0#8 5#8) (withCoder
      (withNorm stereo [1000, 0, -2000, 0, 3000, 0, 4000, 0]) (encInitCoder 8))) (fun t =>
    t.regs.res0 == 0#32 && t.regs.st.imid == 32767#32 && t.regs.st.iside == 0#32 && t.regs.st.delta == 0xFFFFC000#32)
      = true := by decide +kernel

/-- Vectors 4.1 to 4.4. -/
theorem test_angle_functions :
    bcos 0 = 32767 ∧ bcos 4096 = 30274 ∧ bcos 16383 = 3 ∧ bcos 16384 = 1 ∧
    log2tan 4012 32522 = -6180 ∧ log2tan 32767 1 = 30690 ∧ log2tan 804 32758 = -10947 ∧
    angleReference 1731 14998 = 1198 ∧ angleReference 3 4 = 6712 ∧ angleReference 1000 1 = 16374 ∧
    quantize 8192 0 = 1 ∧ quantize 8191 0 = 0 ∧ quantize 1023 4 = 1 ∧ (trig 16383 256).delta = 27364 := by
  decide +kernel

/-- By R209 and R210, `log2tan = -27471` at the angle 1, so the delta is `floor (1/2 + 128 * (N - 1) * -27471 / 2^15)`:
inside R36's range for 153 bins, outside it for 154; vector 4.3 gives the value for 256 (assumption 15). -/
theorem test_delta_leaves_r36_range :
    (trig 1 153).delta = -16311 ∧ (trig 1 154).delta = -16418 ∧ (trig 1 256).delta = -27364 := by
  decide +kernel

/-! ### The system, the port and reset -/

/-- R250, R272: NOP sets DONE, and IRQ follows IRQ_EN. -/
theorem test_nop : holds (exec .nop { State.reset with regs := { Regs.reset with irqEn := true } }) (fun t =>
    t.regs.done && t.irq && decide (t.phase = .idle)) = true := by decide +kernel

/-- Spec/95 section 5: a word no row selects. -/
theorem test_illegal_command : holds (step (State.reset.withFetchWord 32 0x00100022)) (fun t =>
    t.statusWord == 0x00000106#32 && t.regs.faultCmd == 0x00100022#32) = true := by decide +kernel

/-- From reset the host's CMD write is taken, and the next step performs the command. -/
theorem test_command_from_reset : holds (core.run 2
      { State.reset with port := [.write 0x000C#16 4 0x00000305#32] }) (fun t => t.statusWord == 0x00000306#32) = true := by
  decide +kernel

/-- Spec/95 section 5: the parameter registers, NORM's sign extension, FBUF's byte order. -/
theorem test_port_reads :
    readReg State.reset .hwcfg0 = 0x00000800#32 ∧ readReg State.reset .hwcfg1 = 0x04001020#32 ∧
    readTarget (writeTarget State.reset 0x0001C000#32 (.norm 0)) (.norm 0) = 0xFFFFC000#32 ∧
    readTarget decoder (.fbuf 0) = 0x00000040#32 := by decide +kernel

/-- P6: a write of CMD while faulted is ignored, and the soft reset clears the fault. -/
theorem test_soft_reset : holds (step { State.reset with
      regs := { Regs.reset with fault := some .badOperand, irqEn := true }, port := [.write 0x0004#16 4 1#32] }) (fun t =>
    decide (t.regs = Regs.reset) && t.ctrlWord == 0#32) = true := by decide +kernel

/-! ### Witnesses: states and operands that meet the hypotheses of each obligation, clause by clause -/

theorem witness_DecodeOfEncode :
    (Instr.rcEncBits 255#8).wellFormed = true ∧ (Instr.beRenormBand 255#8 3#8).wellFormed = true ∧
    (Instr.stThetaEnc 255#8 15#8).wellFormed = true := by decide

theorem witness_EncodeOfDecode : decode 0x000FFF23#32 = .ok (.stThetaDec 255#8 15#8) := by decide

/-- A word that selects a row; a word that selects none, held by the engine. -/
theorem witness_DecodingProcedure :
    (∃ r ∈ opcodeTable, r.selects 0x000F0022#32 = true) ∧
    (State.reset.withFetchWord 32 0x00100022).phase = .busy 0x00100022#32 0 ∧
    (State.reset.withFetchWord 32 0x00100022).port = [] ∧
    (∀ r ∈ opcodeTable, r.selects 0x00100022#32 = false) := by decide

/-- The ends of each reserved range, an RSV bit, the lowest unused B bit of each kind of row, an A bit of a row without
the field, and the last angle word. -/
theorem witness_IllegalWords :
    (∀ o ∈ [0x06, 0x08, 0x0D, 0x0F, 0x15, 0x1F, 0x29, 0xFF],
      (fieldOpc (BitVec.ofNat 32 o)).toNat = o ∧
      ((0x06 ≤ o ∧ o ≤ 0x08) ∨ (0x0D ≤ o ∧ o ≤ 0x0F) ∨ (0x15 ≤ o ∧ o ≤ 0x1F) ∨ 0x29 ≤ o)) ∧
    fieldRsv 0x01000000#32 ≠ 0#8 ∧ 16 ≤ (fieldB 0x00100022#32).toNat ∧
    (∀ w ∈ [0x00040020#32, 0x00040014#32], fieldOpc w ∈ [0x14#8, 0x20#8] ∧ 4 ≤ (fieldB w).toNat) ∧
    (∀ w ∈ [0x00010000#32, 0x00010021#32], fieldOpc w ∉ [0x14#8, 0x20#8, 0x22#8, 0x23#8] ∧ fieldB w ≠ 0#8) ∧
    (fieldOpc 0x00000113#32 = 0x13#8 ∧ fieldA 0x00000113#32 ≠ 0#8) ∧
    (fieldOpc 0x000FFF22#32 = 0x22#8 ∧ (fieldB 0x000FFF22#32).toNat < 16 ∧ fieldRsv 0x000FFF22#32 = 0#8) :=
  ⟨by decide, by decide, by decide, by simp [fieldOpc, fieldB], by simp [fieldOpc, fieldB], by decide, by decide⟩

/-- The engine holds a command, alone and with a held access; an idle block with an access, and without. -/
theorem witness_StepRunsDecodedCommand :
    decode 0x00000305#32 = .ok (.rcTell 3#8) ∧
    portReady (State.reset.withFetchWord 32 0x00000305) (.write 0x0010#16 4 1#32) = false ∧
    portReady State.reset (.read 0x0008#16 4) = true ∧ State.reset.phase = .idle ∧ State.reset.port = [] := by decide

/-- A command that completes and one that faults. -/
theorem witness_FaultsArePrecise :
    State.reset.regs.fault = none ∧
    (exec .nop State.reset = .next (nextOf (exec .nop State.reset)) ∧
      (nextOf (exec .nop State.reset)).regs.fault = none) ∧
    (exec .beCompute State.reset = .next (nextOf (exec .beCompute State.reset)) ∧
      (nextOf (exec .beCompute State.reset)).regs.fault = some .mode) :=
  ⟨rfl, ⟨eq_nextOf (by decide +kernel), by decide +kernel⟩, eq_nextOf (by decide +kernel), by decide +kernel⟩

/-- A state whose next step clears DONE. -/
def acknowledged : State :=
  { State.reset with regs := { Regs.reset with done := true }, port := [.write 0x0008#16 4 2#32] }

theorem witness_DoneAndIrq :
    ((State.reset.withFetchWord 32 0).phase = .busy 0#32 0 ∧
      engineStep (State.reset.withFetchWord 32 0) = .next (nextOf (engineStep (State.reset.withFetchWord 32 0)))) ∧
    (let s := { State.reset with regs := { Regs.reset with fault := some .mode }, port := [.write 0x000C#16 4 0#32] }
     s.phase = .idle ∧ s.port = .write 0x000C#16 4 0#32 :: [] ∧ s.regs.fault ≠ none) ∧
    (step acknowledged = .next (nextOf (step acknowledged)) ∧ acknowledged.regs.done = true ∧
      (nextOf (step acknowledged)).regs.done = false) :=
  ⟨⟨rfl, eq_nextOf (by decide +kernel)⟩, by decide +kernel, eq_nextOf (by decide +kernel), by decide +kernel, by decide +kernel⟩

/-- A command that writes RES0, RES1, the coder and the stereo registers, each. -/
theorem witness_OnlyNamedRegistersChange :
    (let s := withStereo stereo { Stereo.reset with theta := 1280#32, delta := 0xFFFFFFB8#32 }
     let t := nextOf (exec (.stSplit 0#8) (withArgs s 200 0 0))
     exec (.stSplit 0#8) (withArgs s 200 0 0) = .next t ∧ t.regs.res0 ≠ s.regs.res0 ∧ t.regs.res1 ≠ s.regs.res1) ∧
    (let s := withCoder pair (encInitCoder 8)
     let t := nextOf (exec (.stThetaEnc 0#8 4#8) s)
     exec (.stThetaEnc 0#8 4#8) s = .next t ∧ t.regs.rc ≠ s.regs.rc ∧ t.regs.st ≠ s.regs.st) :=
  ⟨⟨eq_nextOf (by decide +kernel), by decide +kernel, by decide +kernel⟩,
    eq_nextOf (by decide +kernel), by decide +kernel, by decide +kernel⟩

theorem witness_CommandsStayInTheirElements :
    exec (.stScale 0#8) stereo = .next (nextOf (exec (.stScale 0#8) stereo)) ∧ stereo.regs.fault = none ∧
    (nextOf (exec (.stScale 0#8) stereo)).regs.fault = none :=
  ⟨eq_nextOf (by decide +kernel), by decide +kernel, by decide +kernel⟩

/-- No valid mode; one channel. -/
theorem witness_ModeChecks :
    (Instr.beCompute.isBand = true ∧ modeOk State.reset = false) ∧
    (let s := { stereo with regs := { stereo.regs with cfgChannels := 3#32 } }
     (Instr.stScale 0#8).isStereo = true ∧ modeOk s = false ∧ s.bandNormBytes 0 ≠ [] ∧ s.coveredEnerBytes ≠ []) ∧
    ((Instr.stQb 0#8).isStereo = true ∧ modeOk mono = true ∧ mono.channels ≠ 2) := by decide +kernel

/-- A stereo command on the first band not in use, without a coder check and with one. -/
theorem witness_BandOperandsChecked_band :
    ((Instr.stQb 1#8).isStereo = true ∧ modeOk stereo = true ∧ stereo.channels = 2 ∧
      (Instr.stQb 1#8).coderReady stereo.regs.rc ∧ (Instr.stQb 1#8).bandField = some 1 ∧ stereo.nbands ≤ 1) ∧
    (let s := withCoder stereo (encInitCoder 8)
     (Instr.stThetaEnc 1#8 3#8).isStereo = true ∧ modeOk s = true ∧ s.channels = 2 ∧
      (Instr.stThetaEnc 1#8 3#8).coderReady s.regs.rc ∧ (Instr.stThetaEnc 1#8 3#8).bandField = some 1 ∧ s.nbands ≤ 1) := by
  refine ⟨⟨rfl, by decide +kernel, rfl, ?_, rfl, by decide +kernel⟩, rfl, by decide +kernel, rfl, ?_, rfl,
    by decide +kernel⟩
  · intro d h; cases h
  · intro d h; cases h; decide +kernel

theorem not_coderReady {i : Instr} {c : Coder} {d : Direction} (h : i.direction = some d) (hc : ¬ c.ready d) :
    ¬ i.coderReady c := fun hr => hc (hr d h)

/-- Not initialised; initialised in the other direction; finished. -/
theorem witness_CoderStateChecked :
    (Instr.rcEncode.isCoder = true ∧ Instr.rcEncode.direction ≠ none ∧ ¬ Instr.rcEncode.coderReady State.reset.regs.rc ∧
      ¬ Instr.rcEncode.coderReady decoder.regs.rc ∧
      ¬ Instr.rcEncode.coderReady { encInitCoder 4 with fin := true }) ∧
    ((Instr.stSign2Dec 0#8).isStereo = true ∧ (Instr.stSign2Dec 0#8).direction ≠ none ∧ modeOk pair = true ∧
      pair.channels = 2 ∧ ¬ (Instr.stSign2Dec 0#8).coderReady pair.regs.rc) ∧
    State.reset.regs.rc.inited = false := by
  refine ⟨⟨rfl, by decide, ?_, ?_, ?_⟩, ⟨rfl, by decide, by decide +kernel, rfl, ?_⟩, rfl⟩
  · exact not_coderReady (d := .encode) rfl (by decide)
  · exact not_coderReady (d := .encode) rfl (by decide)
  · exact not_coderReady (d := .encode) rfl (by decide)
  · exact not_coderReady (d := .decode) rfl (by decide)

/-- Each bad operand just outside its range, the earlier checks passed. -/
theorem witness_CoderOperandsChecked :
    (State.reset.hw.fbufBytes < (withArgs State.reset 2049 0 0).arg0) ∧
    ((encoder 4).regs.rc.ready .encode ∧
      (∀ x ∈ [(0, 1, 0), (0, 1, 65537), (2, 2, 4), (3, 5, 4)],
        let s := withArgs (encoder 4) x.1 x.2.1 x.2.2
        s.regs.rc.ready .encode ∧ ¬ (1 ≤ s.arg2 ∧ s.arg2 ≤ 65536 ∧ s.arg0 < s.arg1 ∧ s.arg1 ≤ s.arg2)) ∧
      (∀ x ∈ [(0#8, 0), (26#8, 0), (3#8, 8)],
        let s := withArgs (encoder 4) x.2 0 0
        s.regs.rc.ready .encode ∧ ¬ (1 ≤ x.1.toNat ∧ x.1.toNat ≤ 25 ∧ s.arg0 < 2 ^ x.1.toNat))) ∧
    ((encoder 4).regs.rc.inited = true ∧ 3 < (4#8).toNat) ∧
    (∀ x ∈ [0, 65537], let s := withArgs decoder 0 0 x
      s.regs.rc.ready .decode ∧ ¬ (1 ≤ s.arg2 ∧ s.arg2 ≤ 65536)) ∧
    (∀ n ∈ [0#8, 26#8], decoder.regs.rc.ready .decode ∧ ¬ (1 ≤ n.toNat ∧ n.toNat ≤ 25)) := by decide +kernel

/-- RC_DEC_UPDATE: no pending record; another total; an empty interval; the intervals next to the decoded value 1. -/
theorem witness_CoderOperandsChecked_update :
    (decoder.regs.rc.ready .decode ∧ ¬ (decoder.regs.rc.dpend = true ∧ decoder.arg2 = decoder.regs.rc.dft.toNat)) ∧
    (let s := withArgs pending 1 2 8
     s.regs.rc.ready .decode ∧ ¬ (s.regs.rc.dpend = true ∧ s.arg2 = s.regs.rc.dft.toNat)) ∧
    (let s := withArgs pending 1 1 4
     s.regs.rc.ready .decode ∧ s.regs.rc.dpend = true ∧ s.arg2 = s.regs.rc.dft.toNat ∧
       ¬ (s.arg0 < s.arg1 ∧ s.arg1 ≤ s.arg2)) ∧
    (∀ x ∈ [(0, 1), (2, 4)], let s := withArgs pending x.1 x.2 4
      s.regs.rc.ready .decode ∧ s.regs.rc.dpend = true ∧ s.arg2 = s.regs.rc.dft.toNat ∧ s.arg0 < s.arg1 ∧
        s.arg1 ≤ s.arg2 ∧ ¬ (s.arg0 ≤ s.regs.rc.dfs.toNat ∧ s.regs.rc.dfs.toNat < s.arg1)) := by decide +kernel

/-- The first band not in use, no channel, the missing channel; qb = 15; a width other than 2. -/
theorem witness_BandOperandsChecked :
    (modeOk mono = true ∧ mono.nbands ≤ (1#8).toNat ∧ (0#8).toNat % 4 = 0 ∧ mono.channels = 1 ∧
      (2#8).getLsbD 1 = true) ∧
    (stereo.stereoBand (0#8).toNat ∧ (15#8).toNat % 16 = 15 ∧ stereo.mem.width (0#8).toNat ≠ 2 ∧
      (withCoder stereo (encInitCoder 8)).stereoBand 0 ∧ (encInitCoder 8).ready .encode ∧
      (withCoder stereo decoder.regs.rc).stereoBand 0 ∧ decoder.regs.rc.ready .decode) := by decide +kernel

theorem witness_CommandsAfterReset :
    State.reset.regs = Regs.reset ∧ Instr.beRenormAll.isBand = true ∧ (Instr.stSplit 0#8).isStereo = true ∧
    Instr.rcDecode.isCoder = true := by decide

/-- The port of an idle block holds a CMD write, without and with a fault pending. -/
def commanded (f : Option FaultCode) : State :=
  { State.reset with regs := { Regs.reset with fault := f }, port := [.write 0x000C#16 4 0#32] }

theorem witness_CommandWrites :
    (commanded none).phase = .idle ∧ (commanded none).port = .write 0x000C#16 4 0#32 :: [] ∧
    (commanded none).regs.fault = none ∧ (commanded (some .mode)).phase = .idle ∧
    (commanded (some .mode)).regs.fault ≠ none := by decide

/-- A fault that a step keeps, and one that the soft reset clears. -/
theorem witness_OnlyResetClearsFault :
    (let s := commanded (some .mode)
     s.ok ∧ step s = .next (nextOf (step s)) ∧ s.regs.fault ≠ none ∧ (nextOf (step s)).regs.fault = some .mode) ∧
    (let s := { commanded (some .mode) with port := [.write 0x0004#16 4 1#32] }
     s.ok ∧ step s = .next (nextOf (step s)) ∧ s.regs.fault ≠ none ∧ (nextOf (step s)).regs = Regs.reset) :=
  ⟨⟨by decide +kernel, eq_nextOf (by decide +kernel), by decide +kernel, by decide +kernel⟩,
    by decide +kernel, eq_nextOf (by decide +kernel), by decide +kernel, by decide +kernel⟩

theorem witness_ResetsWork :
    (State.reset.phase = .idle ∧ (3#32).getLsbD 0 = true) ∧
    (let s := { State.reset.withFetchWord 32 0x10 with port := [.write 0x0004#16 4 1#32] }
     s.phase = .busy 0x10#32 0 ∧ s.port = .write 0x0004#16 4 1#32 :: []) ∧
    (State.reset.withFetchWord 32 0x10).hw = Params.defaults ∧ State.reset.phase = .idle ∧ State.reset.regs = Regs.reset := by decide

/-- A narrow access, a misaligned one, an aligned one; the first and the last offset of each absent range, for the
default parameters. -/
theorem witness_PortAccesses :
    ((2 : Nat) ≠ 4 ∧ (0x0002#16).toNat % 4 ≠ 0) ∧ (State.reset.phase = .idle ∧ (0x0040#16).toNat % 4 = 0) ∧
    (∀ a ∈ [0x0484, 0x07FC, 0x0880, 0x0FFC, 0x1000, 0x3FFC, 0x4800, 0x7FFC, 0xA000, 0xBFFC, 0xE000, 0xFFFC],
      (BitVec.ofNat 16 a).toNat = a ∧ a % 4 = 0 ∧
      ((0x0484 ≤ a ∧ a < 0x0800) ∨ (0x0800 ≤ a ∧ a < 0x1000 ∧ 32 ≤ (a - 0x0800) / 4 % 256) ∨ (0x1000 ≤ a ∧ a < 0x4000) ∨
       (0x4800 ≤ a ∧ a < 0x8000) ∨ (0xA000 ≤ a ∧ a < 0xC000) ∨ 0xE000 ≤ a)) ∧
    State.reset.hw.nbandsMax = 32 ∧ State.reset.hw.fbufBytes = 2048 ∧ State.reset.hw.frameMax = 1024 ∧
    (2#32).getLsbD 0 = false ∧ (2#32).getLsbD 1 = true ∧ State.reset.hw.legal = true := by decide

theorem witness_ElementWindows :
    State.reset.hw.legal = true ∧ 32 ≤ State.reset.hw.nbandsMax ∧ 31 < State.reset.hw.nbandsMax ∧
    2047 < 2 * State.reset.hw.frameMax := by decide

theorem witness_FrameWindow :
    (4095 : Nat) < 4096 ∧ (3 : Nat) < 4 ∧ 4 * 511 + 3 < State.reset.hw.fbufBytes ∧
    ¬ 4 * 512 < State.reset.hw.fbufBytes := by decide

/-- A running command with a held write, and with a STATUS read; a word that no row selects with a held narrow read. -/
theorem witness_AccessesWaitForTheCommand :
    (let s := { State.reset.withFetchWord 32 0 with port := [.write 0x0010#16 4 1#32] }
     s.phase = .busy 0#32 0 ∧ decode 0#32 = .ok .nop ∧ s.port = .write 0x0010#16 4 1#32 :: [] ∧
     PortEvent.write 0x0010#16 4 1#32 ≠ .powerOn ∧ PortEvent.write 0x0010#16 4 1#32 ≠ .read 0x0008#16 4) ∧
    (let s := { State.reset.withFetchWord 32 0 with port := [.read 0x0008#16 4] }
     s.phase = .busy 0#32 0 ∧ s.port = .read 0x0008#16 4 :: []) ∧
    (let s := { State.reset.withFetchWord 32 0x00100022 with port := [.read 0x0008#16 2] }
     s.phase = .busy 0x00100022#32 0 ∧ s.port = .read 0x0008#16 2 :: [] ∧
     PortEvent.read 0x0008#16 2 ≠ .read 0x0008#16 4 ∧ ∀ r ∈ opcodeTable, r.selects 0x00100022#32 = false) := by decide

/-- The invariant of an idle block, of a running encoder and of a pending decoder, each with a next state. -/
theorem witness_EveryStepKeepsInvariant :
    (commanded none).ok ∧ step (commanded none) = .next (nextOf (step (commanded none))) ∧
    (let s := (withArgs (encoder 4) 1 2 4).withFetchWord 32 2
     s.ok ∧ step s = .next (nextOf (step s)) ∧ (nextOf (step s)).regs.rc.rng = 0x20000000#32) ∧
    (let s := (withArgs pending 1 2 4).withFetchWord 32 0xB
     s.ok ∧ step s = .next (nextOf (step s)) ∧ (nextOf (step s)).regs.rc.rng = 0x20000000#32) :=
  ⟨by decide +kernel, eq_nextOf (by decide +kernel), ⟨by decide +kernel, eq_nextOf (by decide +kernel), by decide +kernel⟩,
    by decide +kernel, eq_nextOf (by decide +kernel), by decide +kernel⟩

theorem witness_InvariantAtReset : Params.defaults.legal = true ∧
    (Params.mk 16384 255 2048 32 (.other 0)).legal = true ∧ (Params.mk 1 1 1 8 .reference).legal = true := by decide

theorem witness_MachineNeverStops : State.reset.ok ∧ pending.ok ∧ (encoder 0).ok ∧ (withCoder stereo (encInitCoder 8)).ok :=
  ⟨by decide +kernel, by decide +kernel, by decide +kernel, by decide +kernel⟩

theorem witness_NoAccessLeavesMemory :
    (let s := { decoder with port := [.write 0x4000#16 4 7#32] }
     s.ok ∧ s.memInside ∧ step s = .next (nextOf (step s))) :=
  ⟨by decide +kernel, by decide +kernel, eq_nextOf (by decide +kernel)⟩

/-- The smallest and the largest frame. -/
theorem witness_EncoderInit :
    (withArgs State.reset 0 0 0).arg0 ≤ State.reset.hw.fbufBytes ∧
    (withArgs State.reset 2048 0 0).arg0 ≤ State.reset.hw.fbufBytes := by decide +kernel

theorem witness_EncodeWithoutOutput :
    (let s := withArgs (encoder 0) 1 2 4
     s.ok ∧ s.regs.rc.ready .encode ∧ 1 ≤ s.arg2 ∧ s.arg2 ≤ 65536 ∧ s.arg0 < s.arg1 ∧ s.arg1 ≤ s.arg2 ∧
     8388608 < (narrowed s.regs.rc.val.toNat s.regs.rc.rng.toNat s.arg0 s.arg1 s.arg2).2) := by decide +kernel

/-- The longest 0xFF run that RC_EXT holds, and a symbol 255 to come. -/
def fullRun : State :=
  { withArgs (withCoder State.reset { encInitCoder 4 with val := 0x7F800000#32, rng := 0x00800001#32, ext := 255#32 }) 0 1 2
    with hw := { Params.defaults with extBits := 8 } }

/-- The least likely symbol of the largest total, with room for three symbols, with just enough room and with too little;
the certain symbol of total 1; and a 0xFF run that overflows. -/
theorem witness_EncodeCompletes :
    (∀ s ∈ [withArgs (encoder 3) 65535 65536 65536, withArgs (encoder 3) 0 1 1, withArgs (encoder 1) 1 2 65536,
        withArgs (encoder 0) 1 2 65536, fullRun],
      s.ok ∧ s.regs.rc.ready .encode ∧ 1 ≤ s.arg2 ∧ s.arg2 ≤ 65536 ∧ s.arg0 < s.arg1 ∧ s.arg1 ≤ s.arg2) ∧
    (withArgs (encoder 3) 65535 65536 65536).roomFor 3 ∧
    (let v := narrowed 0 2147483648 1 2 65536
     renormPasses v.2 2 ∧ ¬ (encoder 1).roomFor 3 ∧
     (encoder 1).frontAfter (codeSymbols 2 v.1) = .ok { offs := 1, ext := 0, buffered := true } ∧
     (encoder 0).frontAfter (codeSymbols 2 v.1) = .error .bufOvf) ∧
    (let v := narrowed 0x7F800000 0x00800001 0 1 2
     renormPasses v.2 1 ∧ fullRun.frontAfter (codeSymbols 1 v.1) = .error .carryOvf) :=
  ⟨by decide +kernel, by decide +kernel, ⟨by decide +kernel, by decide +kernel, by decide +kernel, by decide +kernel⟩,
    by decide +kernel, by decide +kernel⟩

/-- A fresh encoder that runs RC_ENCODE, and one with the byte 255 buffered that finishes. -/
theorem witness_EncodedValueIsExact_step :
    (let s := (withArgs (encoder 4) 2 3 65536).withFetchWord 32 2
     s.ok ∧ s.carryOk ∧ s.regs.rc.ready .encode ∧ step s = .next (nextOf (step s))) ∧
    (let s := withCoder (State.reset.withFetchWord 32 4) { encInitCoder 4 with rem := 255#8, remValid := true }
     s.ok ∧ s.carryOk ∧ s.regs.rc.ready .encode ∧ step s = .next (nextOf (step s))) :=
  ⟨⟨by decide +kernel, by decide +kernel, by decide +kernel, eq_nextOf (by decide +kernel)⟩,
    by decide +kernel, by decide +kernel, by decide +kernel, eq_nextOf (by decide +kernel)⟩

/-- RC_ENC_INIT; a symbol of RC_ENCODE; an angle of ST_THETA_ENC. -/
theorem witness_EncodedValueIsExact :
    (exec .rcEncInit State.reset = .next (nextOf (exec .rcEncInit State.reset)) ∧
      (nextOf (exec .rcEncInit State.reset)).regs.fault = none) ∧
    (let s := withArgs (encoder 4) 2 3 65536
     s.ok ∧ s.regs.rc.carrySafe ∧ s.regs.fault = none ∧
     exec .rcEncode s = .next (nextOf (exec .rcEncode s)) ∧ (nextOf (exec .rcEncode s)).regs.fault = none) ∧
    (let s := withCoder stereo (encInitCoder 8)
     let i := Instr.stThetaEnc 0#8 14#8
     s.ok ∧ s.regs.rc.carrySafe ∧ s.regs.fault = none ∧
     exec i s = .next (nextOf (exec i s)) ∧ (nextOf (exec i s)).regs.fault = none) :=
  ⟨⟨eq_nextOf (by decide +kernel), by decide +kernel⟩,
    ⟨by decide +kernel, by decide +kernel, rfl, eq_nextOf (by decide +kernel), by decide +kernel⟩,
    by decide +kernel, by decide +kernel, rfl, eq_nextOf (by decide +kernel), by decide +kernel⟩

/-- A window that need not be written first and one that fills 32 bits; one that must be written, with and without
room. -/
theorem witness_EncodeRawBits :
    (∀ x ∈ [(4, 0, 1), (4, 7, 25), (4, 8, 25), (0, 8, 25)],
      let s := withCoder State.reset { encInitCoder x.1 with nendBits := BitVec.ofNat 32 x.2.1 }
      s.ok ∧ s.regs.rc.ready .encode ∧ 1 ≤ x.2.2 ∧ x.2.2 ≤ 25 ∧ s.arg0 < 2 ^ x.2.2) := by decide +kernel

/-- The encoder of vector 2.8 in a frame of `n` bytes with `bits` raw bits: its final code is one byte, 0x20, of which
six low bits are spare. -/
def lastByte (n bits : Nat) : State :=
  withCoder State.reset { encInitCoder n with val := 0x20000000#32, rng := 0x20000000#32, nendBits := BitVec.ofNat 32 bits }

/-- Room to spare; an emitted byte that cannot be written; a 0xFF run that overflows; a flushed byte that does not fit;
last bits that share the last front byte and ones that do not fit it. -/
theorem witness_FinishFrame :
    (∀ s ∈ [encoder 8, withCoder State.reset { encInitCoder 12 with endWin := 0xABCDE#32, nendBits := 20#32 }],
      s.ok ∧ s.regs.rc.ready .encode ∧ s.regs.rc.carrySafe ∧ s.roomFor 8) ∧
    (∀ s ∈ [fullRun, lastByte 0 0, lastByte 1 3, lastByte 1 7,
        withCoder State.reset { (lastByte 0 0).regs.rc with remValid := true }], s.ok ∧ s.regs.rc.ready .encode) ∧
    fullRun.frontAfter (codeSymbols 1 0x7F800000) = .error .carryOvf ∧
    (withCoder State.reset { (lastByte 0 0).regs.rc with remValid := true }).frontAfter (codeSymbols 1 0x20000000) =
      .error .bufOvf ∧
    (∀ x ∈ [(0, 0), (1, 3), (1, 7)],
      (lastByte x.1 x.2).frontAfter (codeSymbols 1 0x20000000) = .ok { offs := 0, ext := 0, buffered := true } ∧
      (lastByte x.1 x.2).regs.rc.symbolsOut + 1 = 1) ∧
    (2 ^ (31 - 1) ∣ 0x40000000 ∧ (lastByte 1 3).regs.rc.val.toNat ≤ 0x40000000 ∧ (lastByte 1 3).regs.rc.carrySafe) ∧
    (finalCode (encoder 8).regs.rc = (0, 0) ∧ (encoder 8).regs.rc.remValid = false ∧ (encoder 8).regs.rc.ext = 0#32) ∧
    finalCode (lastByte 1 3).regs.rc = (2, 0x20000000) ∧ (3 : Nat) ≤ 8 * 1 - 2 ∧ ¬ (7 : Nat) ≤ 8 * 1 - 2 :=
  ⟨by decide +kernel, by decide +kernel, by decide +kernel, by decide +kernel, by decide +kernel, by decide +kernel,
    by decide +kernel, by decide +kernel, by decide, by decide⟩

theorem witness_FinishEmptyFrame :
    (encoder 0).ok ∧ (encoder 0).regs.rc.ready .encode ∧
    (encoder 0).regs.rc = { encInitCoder (encoder 0).regs.rc.storage.toNat with
      nbitsTotal := (encoder 0).regs.rc.nbitsTotal } := by decide +kernel

theorem witness_TellCompletes :
    ((encoder 4).ok ∧ (encoder 4).regs.rc.inited = true) ∧ (pending.ok ∧ pending.regs.rc.inited = true) ∧
    (3#8).toNat ≤ 3 ∧ (16 ≤ 32 ∧ 2 ^ (32 - 1) ≤ (encoder 4).regs.rc.rng.toNat ∧ (encoder 4).regs.rc.rng.toNat < 2 ^ 32) ∧
    (2 ^ 15 ≤ 46340 ∧ 46341 < 2 ^ 16 ∧ 46340 * 46340 / 2 ^ 15 < 2 ^ 16 ∧ 2 ^ 16 ≤ 46341 * 46341 / 2 ^ 15) :=
  ⟨by decide +kernel, by decide +kernel, by decide, by decide +kernel, by decide⟩

theorem witness_DecoderInit :
    (withArgs State.reset 0 0 0).arg0 ≤ State.reset.hw.fbufBytes ∧
    (withArgs State.reset 2048 0 0).arg0 ≤ State.reset.hw.fbufBytes := by decide +kernel

theorem witness_DecodeSymbol :
    ∀ ft ∈ [1, 65536], (withArgs decoder 0 0 ft).ok ∧ (withArgs decoder 0 0 ft).regs.rc.ready .decode ∧
      1 ≤ (withArgs decoder 0 0 ft).arg2 ∧ (withArgs decoder 0 0 ft).arg2 ≤ 65536 := by decide +kernel

/-- The interval of the decoded value alone, and the whole range. -/
theorem witness_CommitSymbol :
    ∀ x ∈ [(1, 2), (0, 4)],
      let s := withArgs pending x.1 x.2 4
      s.ok ∧ s.regs.rc.ready .decode ∧ s.regs.rc.dpend = true ∧ s.arg2 = s.regs.rc.dft.toNat ∧ s.arg0 < s.arg1 ∧
      s.arg1 ≤ s.arg2 ∧ s.arg0 ≤ s.regs.rc.dfs.toNat ∧ s.regs.rc.dfs.toNat < s.arg1 := by decide +kernel

theorem witness_DecodeRawBits :
    decoder.ok ∧ decoder.regs.rc.ready .decode ∧ 1 ≤ (1#8).toNat ∧ (25#8).toNat ≤ 25 := by decide +kernel

/-- The encoder and the decoder of vector 2.4 at the same symbol, and at the same raw bits. -/
theorem witness_TellAgrees :
    (let e := withArgs (encoder 4) 1 2 4
     let d := withArgs pending 1 2 4
     e.ok ∧ d.ok ∧ e.regs.fault = none ∧ d.regs.fault = none ∧ e.regs.rc.nbitsTotal = d.regs.rc.nbitsTotal ∧
     e.regs.rc.rng = d.regs.rc.rng ∧ e.regs.arg0 = d.regs.arg0 ∧ e.regs.arg1 = d.regs.arg1 ∧
     e.regs.arg2 = d.regs.arg2 ∧ (nextOf (exec .rcEncode e)).regs.fault = none ∧
     (nextOf (exec .rcDecUpdate d)).regs.fault = none ∧ exec .rcEncode e = .next (nextOf (exec .rcEncode e)) ∧
     exec .rcDecUpdate d = .next (nextOf (exec .rcDecUpdate d)) ∧
     exec (.rcEncBits 25#8) e = .next (nextOf (exec (.rcEncBits 25#8) e)) ∧
     exec (.rcDecBits 25#8) d = .next (nextOf (exec (.rcDecBits 25#8) d)) ∧
     (nextOf (exec (.rcEncBits 25#8) e)).regs.fault = none ∧ (nextOf (exec (.rcDecBits 25#8) d)).regs.fault = none) :=
  ⟨by decide +kernel, by decide +kernel, rfl, rfl, by decide +kernel, by decide +kernel, rfl, rfl, rfl, by decide +kernel,
    by decide +kernel, eq_nextOf (by decide +kernel), eq_nextOf (by decide +kernel), eq_nextOf (by decide +kernel),
    eq_nextOf (by decide +kernel), by decide +kernel, by decide +kernel⟩

theorem witness_TellNeverDecreases :
    (let s := withArgs (encoder 4) 1 2 4
     s.ok ∧ s.regs.rc.inited = true ∧ Instr.rcEncode ≠ .rcEncInit ∧ Instr.rcEncode ≠ .rcDecInit ∧
     s.regs.rc.nbitsTotal.toNat + 25 < 2 ^ 32 ∧ exec .rcEncode s = .next (nextOf (exec .rcEncode s))) :=
  ⟨by decide +kernel, rfl, by decide, by decide, by decide +kernel, eq_nextOf (by decide +kernel)⟩

/-- Two channels in use; a band of zeros; largest values on either side of the exponent 10. -/
theorem witness_ComputeEnergies :
    (stereo.hw.legal = true ∧ modeOk stereo = true ∧ 1 < stereo.channels ∧ 0 < stereo.nbands) ∧
    (∀ x ∈ [(0, 0, 0), (-1023, 512, 9), (-1024, 2047, 10)],
      let s := withSig (withMode State.reset 1 2 [0, 2]) [x.1, x.2.1]
      s.hw.legal = true ∧ modeOk s = true ∧ sigs s 2 = [x.1, x.2.1] ∧
      x.1.natAbs < 2 ^ (x.2.2 + 1) ∧ x.2.1.natAbs < 2 ^ (x.2.2 + 1) ∧
      (x.1 = 0 ∨ 2 ^ x.2.2 ≤ x.1.natAbs ∨ 2 ^ x.2.2 ≤ x.2.1.natAbs)) := by decide +kernel

/-- Every energy non-zero, and one energy 0. -/
theorem witness_NormaliseBands :
    (let s := { mono with mem := mono.mem.setEners [((0, 0), 1)] }
     modeOk s = true ∧ s.channels = 1 ∧ s.nbands = 1 ∧ s.mem.ener 0 0 ≠ 0) ∧
    (let s := { mono with mem := mono.mem.setEners [((0, 0), 0)] }
     modeOk s = true ∧ 0 < s.channels ∧ 0 < s.nbands ∧ s.mem.ener 0 0 = 0) := by decide +kernel

/-- A band's last bin, and the first bin past the last band. -/
theorem witness_DenormaliseBands :
    (let s := withMode State.reset 2 6 [0, 2, 4]
     modeOk s = true ∧ 1 < s.channels ∧ 1 < s.nbands ∧ s.mem.band 1 ≤ 3 ∧ 3 < s.mem.band 2 ∧
     s.mem.band s.nbands ≤ 4 ∧ 5 < s.frameLen) := by decide +kernel

/-- Each channel mask the two-channel descriptor admits. -/
theorem witness_RenormaliseBands :
    modeOk stereo = true ∧ (0#8).toNat < stereo.nbands ∧
    (∀ k ∈ [1#8, 2#8, 3#8], k.toNat % 4 ≠ 0 ∧ ¬ (stereo.channels = 1 ∧ k.getLsbD 1 = true)) := by decide +kernel

/-- Two states that differ in the coder and the stereo registers. -/
theorem witness_BandCommandsIgnoreTheCoder :
    (let s := stereo
     let s' := withStereo (withCoder stereo (encInitCoder 8)) pair.regs.st
     s.hw.legal = true ∧ Instr.beRenormAll.isBand = true ∧ s.regs.rc ≠ s'.regs.rc ∧
     s' = { s with regs := { s.regs with rc := s'.regs.rc, st := s'.regs.st }, mem := s'.mem } ∧
     s.mem.sameBut s'.mem (fun a => 0x4000 ≤ a ∧ a < 0x8000)) :=
  ⟨by decide +kernel, rfl, by decide +kernel, rfl, fun _ _ => rfl⟩

/-- The last bin of the band; two zero energies; the larger energy on either side of the exponent 13. -/
theorem witness_MixBand :
    (stereo.stereoBand (0#8).toNat ∧ stereo.mem.band 0 ≤ 3 ∧ 3 < stereo.mem.band 1) ∧
    (∀ x ∈ [(0, 0, 0), (8191, 1, 12), (1, 8192, 13)],
      let s := { stereo with mem := stereo.mem.setEners [((0, 0), x.1), ((1, 0), x.2.1)] }
      s.stereoBand (0#8).toNat ∧ s.mem.ener 0 0 = x.1 ∧ s.mem.ener 1 0 = x.2.1 ∧
      (x.1 = 0 ∧ x.2.1 = 0 ∨ 2 ^ x.2.2 ≤ max x.1 x.2.1 ∧ max x.1 x.2.1 < 2 ^ (x.2.2 + 1))) := by decide +kernel

theorem witness_AngleResolution :
    (withArgs stereo 47 0 0).stereoBand (0#8).toNat ∧ (withArgs stereo 47 0 0).arg0Signed ≤ 47 := by decide +kernel

/-- The finest and the coarsest angle with room; the two edge angles and one between; and too little room. -/
theorem witness_EncodeAngle :
    (let s := withCoder stereo (encInitCoder 8)
     s.ok ∧ s.stereoBand (0#8).toNat ∧ s.regs.rc.ready .encode ∧ (14#8).toNat % 16 ≤ 14 ∧ (0#8).toNat % 16 ≤ 14 ∧
     s.roomFor 3) ∧
    (angleReference 0 5 * 2 ^ 0 + 8192) / 2 ^ 14 * 2 ^ 14 = 0 ∧ (angleReference 5 0 * 2 ^ 0 + 8192) / 2 ^ 14 * 2 ^ 14 = 16384 ∧
    (angleReference 3 4 * 2 ^ 1 + 8192) / 2 ^ 14 * 2 ^ 13 = 8192 ∧
    (let s := withCoder stereo { encInitCoder 0 with remValid := true, rng := 0x00800001#32 }
     let v := narrowed 0 0x00800001 5 6 65
     s.ok ∧ s.stereoBand (0#8).toNat ∧ s.regs.rc.ready .encode ∧ renormPasses v.2 1 ∧
     s.frontAfter (codeSymbols 1 v.1) = .error .bufOvf) :=
  ⟨by decide +kernel, by decide +kernel, by decide +kernel, by decide +kernel, by decide +kernel, by decide +kernel,
    by decide +kernel, by decide +kernel, by decide +kernel⟩

/-- The finest and the coarsest angle; the two edge angles and one between. -/
theorem witness_DecodeAngle :
    (let s := withCoder stereo decoder.regs.rc
     s.ok ∧ s.stereoBand (0#8).toNat ∧ s.regs.rc.ready .decode ∧ (14#8).toNat % 16 ≤ 14 ∧ (0#8).toNat % 16 ≤ 14) ∧
    (∀ x ∈ [(0x5FFFFFFF, 0, 0), (0, 0, 16384), (0x30000000, 1, 8192)],
      let s := withCoder stereo { decoder.regs.rc with val := BitVec.ofNat 32 x.1 }
      let ft := 2 ^ x.2.1 + 1
      s.ok ∧ s.stereoBand (0#8).toNat ∧ s.regs.rc.ready .decode ∧
      (ft - min (s.regs.rc.val.toNat / (s.regs.rc.rng.toNat / ft) + 1) ft) * 2 ^ (14 - x.2.1) = x.2.2) :=
  ⟨by decide +kernel, by decide +kernel⟩

/-- A band of width 2 and one of another width. -/
theorem witness_SplitBudget :
    (pair.stereoBand (0#8).toNat ∧ pair.mem.width 0 = 2) ∧ (stereo.stereoBand (0#8).toNat ∧ stereo.mem.width 0 ≠ 2) := by
  decide +kernel

theorem witness_ScaleBand :
    stereo.stereoBand (0#8).toNat ∧ stereo.mem.band 0 ≤ 3 ∧ 3 < stereo.mem.band 1 ∧ stereo.regs.st.imid = 0#32 ∧
    stereo.regs.st.iside = 0#32 := by decide +kernel

/-- The two edge angles and one next to each, encoding in the smallest frame and decoding; a full window with just enough
room and with one byte too little; an empty and a filled window to decode from. -/
theorem witness_TwoCoefficientSign :
    (∀ x ∈ [(encInitCoder 0, 0), (encInitCoder 0, 16384), (encInitCoder 0, 1), (decoder.regs.rc, 0),
        (decoder.regs.rc, 16384), (decoder.regs.rc, 16383), (encInitCoder 0, 16383),
        ({ encInitCoder 4 with nendBits := 32#32 }, 8193), ({ encInitCoder 3 with nendBits := 32#32 }, 8192),
        ({ decoder.regs.rc with nendBits := 1#32, endWin := 1#32 }, 1)],
      let s := withStereo (withCoder pair x.1) { Stereo.reset with theta := BitVec.ofNat 32 x.2 }
      s.ok ∧ s.stereoBand (0#8).toNat ∧ s.mem.width (0#8).toNat = 2 ∧
      (s.regs.rc.ready .encode ∨ s.regs.rc.ready .decode)) ∧
    (encInitCoder 4).offs.toNat + (encInitCoder 4).endOffs.toNat + 4 ≤ (encInitCoder 4).storage.toNat ∧
    (encInitCoder 3).storage.toNat < (encInitCoder 3).offs.toNat + (encInitCoder 3).endOffs.toNat + 4 :=
  ⟨by decide +kernel, by decide, by decide⟩

theorem witness_RebuildVector : pair.stereoBand (0#8).toNat ∧ pair.mem.width (0#8).toNat = 2 := by decide +kernel

/-- A command that completes, and a coding command that faults. -/
theorem witness_StereoCommandsKeepEnergies :
    (stereo.hw.legal = true ∧ (Instr.stScale 0#8).isStereo = true ∧
      exec (.stScale 0#8) stereo = .next (nextOf (exec (.stScale 0#8) stereo))) ∧
    (let s := withCoder pair decoder.regs.rc
     let t := nextOf (exec (.stSign2Dec 0#8) s)
     exec (.stSign2Dec 0#8) s = .next t ∧ s.regs.fault = none ∧ t.regs.fault = none) ∧
    (exec (.stSign2Dec 0#8) pair = .next (nextOf (exec (.stSign2Dec 0#8) pair)) ∧
      (nextOf (exec (.stSign2Dec 0#8) pair)).regs.fault = some .rcState) :=
  ⟨⟨rfl, rfl, eq_nextOf (by decide +kernel)⟩, ⟨eq_nextOf (by decide +kernel), rfl, by decide +kernel⟩,
    eq_nextOf (by decide +kernel), by decide +kernel⟩

theorem witness_StatusBits : (0 : Nat) < 32 ∧ (31 : Nat) < 32 := by decide

theorem witness_IsqrtIsLargest : 3 * 3 ≤ 10 := by decide

theorem witness_AngleFunctionsAreAllowed : 0 < 1 ∧ 1 ≤ 524288 := by decide

theorem witness_ReferenceAngleIsBest :
    (0 < 1731 ∧ 0 < 14998 ∧ 16384 ≤ 16384) ∧
    (2 ^ 0 ≤ 1 ∧ 1 < 2 ^ (0 + 1) ∧ 0 < 15 ∧ 2 ^ 14 ≤ 32767 ∧ 32767 < 2 ^ (14 + 1) ∧ 14 < 15) := by decide

theorem witness_QuantizedAngleIsNearest : 16384 ≤ 16384 ∧ 0 ≤ 14 ∧ 14 ≤ 14 := by decide

end Sys2Proof.Tests
end

/-! ## The square root of R13 -/

namespace Sys2Proof.Machine

/-- The bits found so far are right: with `r` below the root and the root below `r + 2^k`, the remaining `k` bits bring
`r` to the root. -/
theorem isqrtBits_spec {k x r : Nat} (hlo : r * r ≤ x) (hhi : x < (r + 2 ^ k) * (r + 2 ^ k)) :
    isqrtBits k x r * isqrtBits k x r ≤ x ∧ x < (isqrtBits k x r + 1) * (isqrtBits k x r + 1) := by
  induction k generalizing r with
  | zero => exact ⟨hlo, hhi⟩
  | succ k ih =>
    unfold isqrtBits
    split_ifs with hbit
    · exact ih hbit (by rwa [add_assoc, ← two_mul, ← pow_succ'])
    · exact ih hlo (not_le.1 hbit)

/-- `isqrt x` is the root of `x` rounded down (R13). -/
theorem isqrt_spec (x : Nat) : isqrt x * isqrt x ≤ x ∧ x < (isqrt x + 1) * (isqrt x + 1) := by
  refine isqrtBits_spec (Nat.zero_le x) ?_
  rw [Nat.zero_add, ← pow_add]
  calc x < 2 ^ (Nat.log2 x + 1) := Nat.lt_log2_self
    _ ≤ _ := Nat.pow_le_pow_right (by norm_num) (by omega)

/-- No larger integer has a square of at most `x` (R13). -/
theorem le_isqrt {x r : Nat} (h : r * r ≤ x) : r ≤ isqrt x :=
  Nat.lt_succ_iff.1 (Nat.mul_self_lt_mul_self_iff.1 (lt_of_le_of_lt h (isqrt_spec x).2))

end Sys2Proof.Machine

namespace Sys2Proof

open Machine

/-- Settles O57: the root found bit by bit squares to at most `x`, and the next integer squares to more. -/
theorem isqrtIsLargest : Obligations.IsqrtIsLargest := by
  intro x
  obtain ⟨hroot, -⟩ := isqrt_spec x
  exact ⟨hroot, fun _ => le_isqrt⟩

end Sys2Proof

/-! ## The machine's invariant after reset (R9, R292) -/

namespace Sys2Proof.Machine

/-- A reset coder is not initialised, holds no record and is not finished; its cursors and window are empty. -/
theorem Coder.reset_ok (hw : Params) : Coder.reset.ok hw :=
  ⟨fun hi => absurd hi Bool.false_ne_true,
    ⟨Nat.zero_le _, Nat.zero_le _, Nat.zero_le _, fun _ => Nat.zero_le _⟩,
    ⟨Nat.zero_le _, Nat.one_pos, Nat.two_pow_pos _⟩,
    fun hp => absurd hp Bool.false_ne_true, fun hf => absurd hf Bool.false_ne_true⟩

theorem Stereo.reset_ok : Stereo.reset.ok := by decide

/-- Registers at their reset values meet the invariant whatever memory, port and parameters stand beside them. -/
theorem State.ok_of_reset {s : State} (hl : s.hw.legal = true) (hm : s.mem.wf = true) (hr : s.regs = Regs.reset) :
    s.ok := by
  unfold State.ok
  rw [hr]
  exact ⟨hl, hm, Coder.reset_ok s.hw, Stereo.reset_ok, fun h => absurd rfl h⟩

/-- No byte is listed after the first power-on. -/
theorem reset_memInside : State.reset.memInside := fun _ hp => absurd hp List.not_mem_nil

/-- No init command has completed after reset. -/
theorem reset_carryOk : State.reset.carryOk := fun hi => absurd hi Bool.false_ne_true

end Sys2Proof.Machine

namespace Sys2Proof

open Machine

/-- Settles O25: at reset no command has run, so every clause of the invariant is that of the reset registers. -/
theorem invariantAtReset : Obligations.InvariantAtReset :=
  ⟨State.ok_of_reset rfl reset_memory_wf rfl, reset_memInside, reset_carryOk,
    fun _ hp => State.ok_of_reset hp reset_memory_wf rfl⟩

end Sys2Proof

/-! ## Every step keeps the machine's invariant (R9, R33 to R36, R72, R133, R275)

From the coder's operations (their stores, then their registers in each direction) and the stereo unit's angle to the
commands, the host's accesses and the step. -/

namespace Sys2Proof.Machine

/-! ### What a coder operation does to memory (R72)

The coder stores bytes of FBUF alone, at indices the block implements.  So a property of memories that every such store
keeps is kept by each of the operations; the canonical form is one. -/

/-- Storing any byte at an implemented FBUF index keeps the property. -/
def keptByFrameStores (hw : Params) (P : Memory → Prop) : Prop :=
  ∀ (m : Memory) (i : Nat) (b : Byte), i < hw.fbufBytes → P m → P (m.setByte (fbufAddr i) b)

theorem wf_keptByFrameStores (hw : Params) : keptByFrameStores hw (fun m => m.wf = true) :=
  fun m i b _ h => Memory.wf_setByte m (fbufAddr i) b h

section FrameStores

variable {hw : Params} {P : Memory → Prop} {x y : Rc}

theorem writeFront_keeps (hP : keptByFrameStores hw P) {v : Nat} (h : writeFront hw v x = .ok y) (hx : P x.mem) :
    P y.mem := by
  obtain ⟨-, hi, rfl⟩ := writeFront_eq_ok.1 h
  exact hP _ _ _ hi hx

theorem writeEnd_keeps (hP : keptByFrameStores hw P) {v : Nat} (h : writeEnd hw v x = .ok y) (hx : P x.mem) :
    P y.mem := by
  obtain ⟨-, hi, rfl⟩ := writeEnd_eq_ok.1 h
  exact hP _ _ _ hi hx

theorem flushRun_keeps (hP : keptByFrameStores hw P) {v n : Nat} (h : flushRun hw v n x = .ok y) (hx : P x.mem) :
    P y.mem := by
  induction n generalizing x with
  | zero => cases h; exact hx
  | succ n ih =>
    obtain ⟨z, hz, h⟩ := run_bind_eq_ok.1 h
    have hmem := writeFront_keeps hP hz hx
    exact ih h hmem

theorem carryOut_keeps (hP : keptByFrameStores hw P) {c : Nat} (h : carryOut hw c x = .ok y) (hx : P x.mem) :
    P y.mem := by
  unfold carryOut at h
  split_ifs at h with hrun hfull hbuf
  · cases h; exact hx
  · obtain ⟨a, ha, h⟩ := run_bind_eq_ok.1 h
    obtain ⟨z, hz, h⟩ := run_bind_eq_ok.1 h
    have hmem := flushRun_keeps hP hz (writeFront_keeps hP ha hx)
    cases h; exact hmem
  · obtain ⟨a, ha, h⟩ := run_bind_eq_ok.1 h
    obtain rfl : x = a := by simpa using ha
    obtain ⟨z, hz, h⟩ := run_bind_eq_ok.1 h
    have hmem := flushRun_keeps hP hz hx
    cases h; exact hmem

theorem encNormalizeLoop_keeps (hP : keptByFrameStores hw P) {n : Nat} (h : encNormalizeLoop hw n x = .ok y)
    (hx : P x.mem) : P y.mem := by
  induction n generalizing x with
  | zero =>
    unfold encNormalizeLoop at h
    split_ifs at h
    cases h; exact hx
  | succ n ih =>
    unfold encNormalizeLoop at h
    split_ifs at h
    · obtain ⟨z, hz, h⟩ := run_bind_eq_ok.1 h
      have hmem := carryOut_keeps hP hz hx
      exact ih h hmem
    · cases h; exact hx

theorem rcEncode_keeps (hP : keptByFrameStores hw P) {fl fh ft : Nat} (h : rcEncode hw fl fh ft x = .ok y)
    (hx : P x.mem) : P y.mem := encNormalizeLoop_keeps hP h hx

theorem drainWindow_keeps (hP : keptByFrameStores hw P) {k w : Nat} (h : drainWindow hw k w x = .ok y) (hx : P x.mem) :
    P y.mem := by
  induction k generalizing w x with
  | zero => cases h; exact hx
  | succ k ih =>
    obtain ⟨z, hz, h⟩ := run_bind_eq_ok.1 h
    exact ih h (writeEnd_keeps hP hz hx)

theorem rcEncBits_keeps (hP : keptByFrameStores hw P) {v n : Nat} (h : rcEncBits hw v n x = .ok y) (hx : P x.mem) :
    P y.mem := by
  obtain ⟨z, hz, h⟩ := run_bind_eq_ok.1 h
  have hmem := drainWindow_keeps hP hz hx
  cases h; exact hmem

theorem emitCode_keeps (hP : keptByFrameStores hw P) {k e : Nat} (h : emitCode hw k e x = .ok y) (hx : P x.mem) :
    P y.mem := by
  induction k generalizing e x with
  | zero => cases h; exact hx
  | succ k ih =>
    obtain ⟨z, hz, h⟩ := run_bind_eq_ok.1 h
    exact ih h (carryOut_keeps hP hz hx)

theorem flushPending_keeps (hP : keptByFrameStores hw P) (h : flushPending hw x = .ok y) (hx : P x.mem) : P y.mem := by
  unfold flushPending at h
  split_ifs at h
  · exact carryOut_keeps hP h hx
  · cases h; exact hx

theorem zeroGap_keeps (hP : keptByFrameStores hw P) (h : zeroGap hw x = .ok y) (hx : P x.mem) : P y.mem := by
  simp only [zeroGap] at h
  split_ifs at h with hstop
  cases h
  refine foldl_keeps P _ _ _ hx (fun m i hi hm => hP m i _ ?_ hm)
  rw [List.mem_range'_1] at hi
  omega

theorem orLastBits_keeps (hP : keptByFrameStores hw P) {w u spare : Nat} (h : orLastBits hw w u spare x = .ok y)
    (hx : P x.mem) : P y.mem := by
  simp only [orLastBits] at h
  split_ifs at h with hnone hend hfull habsent
  · cases h; exact hx
  · cases h; exact hP _ _ _ (not_le.1 habsent) hx

theorem rcEncDone_keeps (hP : keptByFrameStores hw P) (h : rcEncDone hw x = .ok y) (hx : P x.mem) : P y.mem := by
  obtain ⟨a, ha, h⟩ := run_bind_eq_ok.1 h
  obtain ⟨z, hz, h⟩ := run_bind_eq_ok.1 h
  obtain ⟨d, hd, h⟩ := run_bind_eq_ok.1 h
  obtain ⟨g, hg, h⟩ := run_bind_eq_ok.1 h
  obtain ⟨f, hf, h⟩ := run_bind_eq_ok.1 h
  have hflushed := flushPending_keeps hP hz (emitCode_keeps hP ha hx)
  have hmem := orLastBits_keeps hP hf (zeroGap_keeps hP hg (drainWindow_keeps hP hd hflushed))
  cases h; exact hmem

end FrameStores

/-! ### The coder's invariant in each direction (R34, R35) -/

/-- The invariant of a running encoder, field by field. -/
structure Coder.EncoderOk (hw : Params) (c : Coder) : Prop where
  rng_gt : Config.bot < c.rng.toNat
  rng_le : c.rng.toNat ≤ Config.top
  sum_le : c.val.toNat + c.rng.toNat ≤ 4294967295
  storage_le : c.storage.toNat ≤ hw.fbufBytes
  apart : c.offs.toNat + c.endOffs.toNat ≤ c.storage.toNat
  window : c.windowOk hw
  no_record : c.dpend = false

theorem Coder.ok.encoder {hw : Params} {c : Coder} (h : c.ok hw) (hi : c.inited = true) (hd : c.dir = .encode) :
    c.EncoderOk hw := by
  obtain ⟨hint, ⟨hst, -, -, hap⟩, hwin, hrec, -⟩ := h
  obtain ⟨hgt, hle, hsum, -⟩ := hint hi
  refine ⟨hgt, hle, hsum hd, hst, hap hd, hwin, ?_⟩
  by_contra hp
  obtain ⟨-, hd', -⟩ := hrec (by simpa using hp)
  rw [hd] at hd'; cases hd'

theorem Coder.EncoderOk.ok {hw : Params} {c : Coder} (h : c.EncoderOk hw) (hi : c.inited = true)
    (hd : c.dir = .encode) : c.ok hw := by
  obtain ⟨hgt, hle, hsum, hst, hap, hwin, hno⟩ := h
  refine ⟨fun _ => ⟨hgt, hle, fun _ => hsum, fun h => ?_⟩, ⟨hst, by omega, by omega, fun _ => hap⟩, hwin,
    fun h => ?_, fun _ => ⟨hi, hd⟩⟩
  · rw [hd] at h; cases h
  · rw [hno] at h; cases h

/-- The pending record is that of the current interval (R133). -/
structure Coder.RecordOk (c : Coder) : Prop where
  dft_ge : 1 ≤ c.dft.toNat
  dft_le : c.dft.toNat ≤ Config.ftMax
  dq_eq : c.dq.toNat = c.rng.toNat / c.dft.toNat
  dfs_eq : c.dfs.toNat = c.dft.toNat - min (c.val.toNat / c.dq.toNat + 1) c.dft.toNat

/-- The invariant of a running decoder, field by field. -/
structure Coder.DecoderOk (hw : Params) (c : Coder) : Prop where
  rng_gt : Config.bot < c.rng.toNat
  rng_le : c.rng.toNat ≤ Config.top
  val_lt : c.val.toNat < c.rng.toNat
  storage_le : c.storage.toNat ≤ hw.fbufBytes
  offs_le : c.offs.toNat ≤ c.storage.toNat
  endOffs_le : c.endOffs.toNat ≤ c.storage.toNat
  window : c.windowOk hw
  record : c.dpend = true → c.RecordOk
  not_fin : c.fin = false

theorem Coder.ok.decoder {hw : Params} {c : Coder} (h : c.ok hw) (hi : c.inited = true) (hd : c.dir = .decode) :
    c.DecoderOk hw := by
  obtain ⟨hint, ⟨hst, ho, he, -⟩, hwin, hrec, hfin⟩ := h
  obtain ⟨hgt, hle, -, hlt⟩ := hint hi
  refine ⟨hgt, hle, hlt hd, hst, ho, he, hwin, fun hp => ?_, ?_⟩
  · obtain ⟨-, -, hft1, hft2, hdq, hdfs⟩ := hrec hp
    exact ⟨hft1, hft2, hdq, hdfs⟩
  · by_contra hf
    obtain ⟨-, hd'⟩ := hfin (by simpa using hf)
    rw [hd] at hd'; cases hd'

theorem Coder.DecoderOk.ok {hw : Params} {c : Coder} (h : c.DecoderOk hw) (hi : c.inited = true)
    (hd : c.dir = .decode) : c.ok hw := by
  obtain ⟨hgt, hle, hlt, hst, ho, he, hwin, hrec, hfin⟩ := h
  refine ⟨fun _ => ⟨hgt, hle, fun h => ?_, fun _ => hlt⟩, ⟨hst, ho, he, fun h => ?_⟩, hwin, fun hp => ?_, fun h => ?_⟩
  · rw [hd] at h; cases h
  · rw [hd] at h; cases h
  · obtain ⟨hft1, hft2, hdq, hdfs⟩ := hrec hp
    exact ⟨hi, hd, hft1, hft2, hdq, hdfs⟩
  · rw [hfin] at h; cases h

/-- A legal block's RC_EXT fits its register (R9, R33). -/
theorem Params.legal_extBits {hw : Params} (h : hw.legal = true) : hw.extBits ≤ 32 := by
  simp only [Params.legal, Bool.and_eq_true, decide_eq_true_eq] at h
  omega

/-- A legal frame size fits RC_STORAGE (R9). -/
theorem Params.legal_fbufBytes {hw : Params} (h : hw.legal = true) : hw.fbufBytes ≤ 16384 := by
  simp only [Params.legal, Bool.and_eq_true, decide_eq_true_eq] at h
  omega

/-- Renormalization stops as soon as the interval is above `BOT`, so it never passes `TOP` (R113, R131). -/
theorem renormPasses_le_top {size k : Nat} (h : renormPasses size k) (hs : size ≤ Config.top) :
    size * 256 ^ k ≤ Config.top := by
  obtain ⟨-, hbelow⟩ := h
  cases k with
  | zero => simpa using hs
  | succ k =>
    have := hbelow k (Nat.lt_succ_self k)
    rw [pow_succ, ← mul_assoc]
    simp only [Config.bot, Config.top] at *
    omega

/-! ### The encoder's operations keep the invariant -/

section Encoder

variable {hw : Params} {x y : Rc}

/-- RC_ENC_INIT of a frame that fits FBUF (R114). -/
theorem encInitCoder_ok {n : Nat} (hl : hw.legal = true) (hn : n ≤ hw.fbufBytes) : (encInitCoder n).ok hw := by
  have hfb := Params.legal_fbufBytes hl
  have hst : (encInitCoder n).storage.toNat = n := toNat_regNat (by omega)
  have hrng : (encInitCoder n).rng.toNat = 2147483648 := rfl
  refine Coder.EncoderOk.ok ⟨?_, ?_, ?_, ?_, ?_, ?_, rfl⟩ rfl rfl
  · rw [hrng]; norm_num
  · exact hrng.le
  · rw [hrng]; exact (by norm_num : 0 + 2147483648 ≤ 4294967295)
  · rw [hst]; exact hn
  · exact Nat.zero_le _
  · exact ⟨Nat.zero_le _, Nat.one_pos, Nat.two_pow_pos _⟩

/-- RC_ENCODE of a legal symbol (R34, R35, R115). -/
theorem rcEncode_keeps_ok {fl fh ft : Nat} (hl : hw.legal = true) (hx : x.coder.ok hw) (hr : x.coder.ready .encode)
    (h1 : fl < fh) (h2 : fh ≤ ft) (h : rcEncode hw fl fh ft x = .ok y) : y.coder.ok hw := by
  obtain ⟨hi, hd, -⟩ := hr
  obtain ⟨-, hle, hsum, hst, hap, ⟨hu, hwin, hext⟩, hno⟩ := hx.encoder hi hd
  obtain ⟨⟨k, -, hpass, hrng, hval, -, -, hframe⟩, -, hin, -, hext'⟩ :=
    rcEncode_ok h1 h2 hext (Params.legal_extBits hl) hsum h
  obtain ⟨hsum', -, hsize, -⟩ := narrowed_inside (low := x.coder.val.toNat) (rng := x.coder.rng.toNat) h1 h2
  have hgt' : Config.bot < y.coder.rng.toNat := by rw [hrng]; exact hpass.1
  have hle' : y.coder.rng.toNat ≤ Config.top := by rw [hrng]; exact renormPasses_le_top hpass (le_trans hsize hle)
  have hnew : y.coder.val.toNat + y.coder.rng.toNat ≤ 4294967295 := by
    rcases Nat.eq_zero_or_pos k with rfl | hk
    · rw [hval, hrng]
      simp only [if_true, pow_zero, mul_one]; omega
    · rw [hval, if_neg (by omega)]
      simp only [Config.top] at hle' ⊢
      omega
  have hap' : y.coder.offs.toNat + x.coder.endOffs.toNat ≤ x.coder.storage.toNat := by
    by_cases hsame : y.coder.offs.toNat = x.coder.offs.toNat
    · rw [hsame]; exact hap
    · exact hin hsame
  rw [hframe]
  exact Coder.EncoderOk.ok ⟨hgt', hle', hnew, hst, hap', ⟨hu, hwin, hext'⟩, hno⟩ hi hd

/-- RC_ENC_BITS (R116). -/
theorem rcEncBits_keeps_ok {v n : Nat} (hx : x.coder.ok hw) (hr : x.coder.ready .encode) (hn : n ≤ 25)
    (hv : v < 2 ^ n) (h : rcEncBits hw v n x = .ok y) : y.coder.ok hw := by
  obtain ⟨hi, hd, -⟩ := hr
  obtain ⟨hgt, hle, hsum, hst, hap, ⟨hu, hwin, hext⟩, hno⟩ := hx.encoder hi hd
  obtain ⟨hframe, hend, -, -, -, hroom, -, -, hwin', hu'⟩ := rcEncBits_ok hn hv hu hwin (by omega) h
  have hap' : x.coder.offs.toNat + y.coder.endOffs.toNat ≤ x.coder.storage.toNat := by omega
  rw [hframe]
  exact Coder.EncoderOk.ok ⟨hgt, hle, hsum, hst, hap', ⟨hu', hwin', hext⟩, hno⟩ hi hd

/-- The flush keeps RC_EXT in its width (R117). -/
theorem flushPending_ext (hx : x.coder.ext.toNat < 2 ^ hw.extBits) (h : flushPending hw x = .ok y) :
    y.coder.ext.toNat < 2 ^ hw.extBits := by
  have hrem := flushPending_rem h
  split_ifs at hrem with hnone
  · rw [hrem]; exact hx
  · obtain ⟨-, -, hext⟩ := hrem
    rw [hext]; exact Nat.two_pow_pos _

/-- What RC_ENC_DONE does to the coder: the front and end parts grow and stay apart, fewer than 8 raw bits stay in the
window, and the encoder is finished (R117). -/
theorem rcEncDone_ok (hap : x.coder.offs.toNat + x.coder.endOffs.toNat ≤ x.coder.storage.toNat)
    (hwin : x.coder.windowOk hw) (hw32 : hw.extBits ≤ 32) (h : rcEncDone hw x = .ok y) :
    y.coder = { x.coder with rem := y.coder.rem, remValid := y.coder.remValid, ext := y.coder.ext, offs := y.coder.offs
                             endOffs := y.coder.endOffs, endWin := y.coder.endWin, nendBits := y.coder.nendBits
                             fin := true } ∧
    y.coder.offs.toNat + y.coder.endOffs.toNat ≤ x.coder.storage.toNat ∧ y.coder.windowOk hw := by
  obtain ⟨hu, hw', hext⟩ := hwin
  obtain ⟨a, ha, h⟩ := run_bind_eq_ok.1 h
  obtain ⟨z, hz, h⟩ := run_bind_eq_ok.1 h
  obtain ⟨d, hd, h⟩ := run_bind_eq_ok.1 h
  obtain ⟨g, hg, h⟩ := run_bind_eq_ok.1 h
  obtain ⟨f, hf, h⟩ := run_bind_eq_ok.1 h
  cases h
  obtain ⟨ga, -, ea⟩ := emitCode_grew hext hw32 ha
  have gz := ga.trans (flushPending_ok ea hw32 hz).1
  have hapz := gz.apart hap
  obtain ⟨hdrain, hend, hroom, -⟩ := drainWindow_ok (by omega) hd
  have hcoder : f.coder = { z.coder with endOffs := d.coder.endOffs } := by
    rw [(orLastBits_ok hf).1, (zeroGap_ok hg).1, hdrain]
  have hrest : z.coder.endWin.toNat / 256 ^ (z.coder.nendBits.toNat / 8) < 2 ^ (z.coder.nendBits.toNat % 8) := by
    rw [gz.nendBits, gz.endWin, Nat.div_lt_iff_lt_mul (by positivity), show (256 : Nat) = 2 ^ 8 by norm_num, ← pow_mul,
      ← pow_add, Nat.mod_add_div]
    exact hw'
  have h32 : 2 ^ (z.coder.nendBits.toNat % 8) ≤ 2 ^ 32 := Nat.pow_le_pow_right (by norm_num) (by omega)
  have hn : (regNat (z.coder.nendBits.toNat % 8)).toNat = z.coder.nendBits.toNat % 8 := toNat_regNat (by omega)
  have hv : (regNat (z.coder.endWin.toNat / 256 ^ (z.coder.nendBits.toNat / 8))).toNat = _ := toNat_regNat (by omega)
  refine ⟨by simp only [hcoder]; rw [gz.coder], ?_, hn.le.trans (by omega), ?_, ?_⟩
  · simp only [hcoder]
    rw [gz.storage] at hapz hroom
    omega
  · change (regNat _).toNat < 2 ^ (regNat _).toNat
    rw [hn, hv]
    exact hrest
  · simp only [hcoder]
    exact flushPending_ext ea hz

/-- RC_ENC_DONE (R117). -/
theorem rcEncDone_keeps_ok (hl : hw.legal = true) (hx : x.coder.ok hw) (hr : x.coder.ready .encode)
    (h : rcEncDone hw x = .ok y) : y.coder.ok hw := by
  obtain ⟨hi, hd, -⟩ := hr
  obtain ⟨hgt, hle, hsum, hst, hap, hwin, hno⟩ := hx.encoder hi hd
  obtain ⟨hframe, hap', hwin'⟩ := rcEncDone_ok hap hwin (Params.legal_extBits hl) h
  rw [hframe]
  exact Coder.EncoderOk.ok ⟨hgt, hle, hsum, hst, hap', hwin', hno⟩ hi hd

end Encoder

/-! ### The decoder's operations keep the invariant -/

section Decoder

variable {hw : Params}

/-- RC_DEC_INIT of a frame that fits FBUF (R132). -/
theorem rcDecInit_keeps_ok {n : Nat} {m : Memory} {y : Rc} (hl : hw.legal = true) (hn : n ≤ hw.fbufBytes)
    (h : rcDecInit hw n m = .ok y) : y.coder.ok hw ∧ y.mem = m := by
  have hfb := Params.legal_fbufBytes hl
  obtain ⟨c, hc, hframe, hoffs, hval, -⟩ := rcDecInit_ok (m := m) hn (by omega)
  obtain rfl : { coder := c, mem := m } = y := Except.ok.inj (hc.symm.trans h)
  have hst : (regNat n).toNat = n := toNat_regNat (by omega)
  have hrng : (0x80000000#32).toNat = 2147483648 := rfl
  refine ⟨?_, rfl⟩
  rw [hframe]
  refine Coder.DecoderOk.ok ⟨?_, ?_, ?_, ?_, ?_, ?_, ?_, fun hp => absurd hp Bool.false_ne_true, rfl⟩ rfl rfl
  · rw [hrng]; norm_num
  · exact hrng.le
  · rw [hrng, hval]; omega
  · exact hst.le.trans hn
  · exact (by rw [hst, hoffs]; omega : c.offs.toNat ≤ (regNat n).toNat)
  · exact Nat.zero_le _
  · exact ⟨Nat.zero_le _, Nat.one_pos, Nat.two_pow_pos _⟩

/-- What RC_DECODE answers and leaves: the decoder with a pending record of `ft` and the answered value (R133). -/
theorem rcDecode_keeps_ok {ft : Nat} {c : Coder} {r : Nat × Coder} (hc : c.ok hw) (hr : c.ready .decode) (h1 : 1 ≤ ft)
    (h2 : ft ≤ Config.ftMax) (h : rcDecode ft c = .ok r) :
    r.2.ok hw ∧ r.2.ready .decode ∧ r.2.dpend = true ∧ r.2.dft.toNat = ft ∧ r.2.dfs.toNat = r.1 ∧ r.1 < ft := by
  obtain ⟨hi, hd, hf⟩ := hr
  obtain ⟨hgt, hle, hlt, hst, ho, he, hwin, -, hfin⟩ := hc.decoder hi hd
  obtain ⟨-, hfs, heq⟩ := rcDecode_ok (c := c) h1 h2 hgt
  obtain rfl := Except.ok.inj (heq.symm.trans h)
  have h2' : ft ≤ 65536 := h2
  have hft : (regNat ft).toNat = ft := toNat_regNat (by omega)
  have hdfs := toNat_regNat (show ft - min (c.val.toNat / (c.rng.toNat / ft) + 1) ft < 2 ^ 32 by omega)
  have hdq : (regNat (c.rng.toNat / ft)).toNat = c.rng.toNat / ft :=
    toNat_regNat (lt_of_le_of_lt (Nat.div_le_self _ _) c.rng.isLt)
  have hrecord : Coder.RecordOk { c with dq := regNat (c.rng.toNat / ft), dft := regNat ft
                                         dfs := regNat (ft - min (c.val.toNat / (c.rng.toNat / ft) + 1) ft)
                                         dpend := true } := by
    constructor <;> simp only [hft, hdq, hdfs, h1, h2]
  exact ⟨Coder.DecoderOk.ok ⟨hgt, hle, hlt, hst, ho, he, hwin, fun _ => hrecord, hfin⟩ hi hd, ⟨hi, hd, hf⟩, rfl, hft,
    hdfs, hfs⟩

/-- RC_DEC_UPDATE of an interval that holds the pending value keeps the invariant, and memory (R134). -/
theorem rcUpdate_keeps_ok {fl fh ft : Nat} {x y : Rc} (hx : x.coder.ok hw) (hr : x.coder.ready .decode)
    (hp : x.coder.dpend = true) (hft : x.coder.dft.toNat = ft) (h2 : fh ≤ ft) (hlo : fl ≤ x.coder.dfs.toNat)
    (hhi : x.coder.dfs.toNat < fh) (h : rcUpdate hw fl fh ft x = .ok y) : y.coder.ok hw ∧ y.mem = x.mem := by
  subst hft
  obtain ⟨hi, hd, -⟩ := hr
  obtain ⟨hgt, hle, hlt, hst, ho, he, hwin, hrec, hfin⟩ := hx.decoder hi hd
  obtain ⟨hft1, hft2, hdq, hdfs⟩ := hrec hp
  have hq : 0 < x.coder.dq.toNat := by rw [hdq]; exact (rcDecode_ok (c := x.coder) hft1 hft2 hgt).1
  have h1 : fl < fh := lt_of_le_of_lt hlo hhi
  rw [hdfs] at hlo hhi
  obtain ⟨hin, hin'⟩ := symbol_in_interval hq hdq hlt h2 hlo hhi
  obtain ⟨y', hy', hmem, ⟨k, -, hpass, hrng, hval, -, hoffs, -⟩, hframe⟩ :=
    rcUpdate_ok hft2 h1 h2 hst ho hgt hdq hin hin'
  obtain rfl := Except.ok.inj (hy'.symm.trans h)
  obtain ⟨-, -, hsize, -⟩ := narrowed_inside (low := 0) (rng := x.coder.rng.toNat) h1 h2
  have hgt' : Config.bot < y'.coder.rng.toNat := by rw [hrng]; exact hpass.1
  have hle' : y'.coder.rng.toNat ≤ Config.top := by rw [hrng]; exact renormPasses_le_top hpass (le_trans hsize hle)
  have hlt' : y'.coder.val.toNat < y'.coder.rng.toNat := by
    have hpow : 0 < 256 ^ k := by positivity
    have hmul := Nat.mul_le_mul_right (256 ^ k) hin'
    rw [Nat.succ_mul] at hmul
    rw [hval, hrng]
    omega
  have ho' : y'.coder.offs.toNat ≤ x.coder.storage.toNat := by rw [hoffs]; exact min_le_right _ _
  refine ⟨?_, hmem⟩
  rw [hframe]
  exact Coder.DecoderOk.ok ⟨hgt', hle', hlt', hst, ho', he, hwin, fun hp => absurd hp Bool.false_ne_true, hfin⟩ hi hd

/-- RC_DEC_BITS (R135): a pending record stays, since the interval does. -/
theorem rcDecBits_keeps_ok {n : Nat} {x : Rc} {r : Nat × Coder} (hx : x.coder.ok hw) (hr : x.coder.ready .decode)
    (hn : n ≤ 25) (h : rcDecBits hw n x = .ok r) : r.2.ok hw := by
  obtain ⟨hi, hd, -⟩ := hr
  obtain ⟨hgt, hle, hlt, hst, ho, he, ⟨hu, hwin, hext⟩, hrec, hfin⟩ := hx.decoder hi hd
  obtain ⟨c, hc, hframe, hend, -, -, -, hwin', hu', -⟩ := rcDecBits_ok hn hst he hu hwin
  obtain rfl := Except.ok.inj (hc.symm.trans h)
  have he' : c.endOffs.toNat ≤ x.coder.storage.toNat := by rw [hend]; exact min_le_right _ _
  rw [hframe]
  refine Coder.DecoderOk.ok ⟨hgt, hle, hlt, hst, ho, he', ⟨hu', hwin', hext⟩, fun hp => ?_, hfin⟩ hi hd
  obtain ⟨hft1, hft2, hdq, hdfs⟩ := hrec hp
  exact ⟨hft1, hft2, hdq, hdfs⟩

end Decoder

/-! ### The angle's range (R207, R208) -/

theorem angleSearch_lt (s m : Nat) (v : Int) (k lo : Nat) : angleSearch s m v k lo < lo + 2 ^ k := by
  induction k generalizing lo with
  | zero => simp [angleSearch]
  | succ k ih =>
    unfold angleSearch
    rw [pow_succ]
    split_ifs
    · have := ih lo; omega
    · have := ih (lo + 2 ^ k); omega

theorem angleFirst_le (s m : Nat) (v : Int) : angleFirst s m v ≤ 16384 := by
  unfold angleFirst
  split_ifs
  · have := angleSearch_lt s m v 14 0; omega
  · exact le_refl _

theorem angleReference_le (s m : Nat) : angleReference s m ≤ 16384 := by
  have hfirst := angleFirst_le s m
  simp only [angleReference, Config.thetaMax]
  split_ifs
  · exact Nat.zero_le _
  · exact le_refl _
  · exact Nat.zero_le _
  · exact hfirst _
  · exact hfirst _
  · exact hfirst _

theorem maxUpTo_le {f : Nat → Nat} {bound : Nat} (n : Nat) (hf : ∀ i, f i ≤ bound) : maxUpTo f n ≤ bound := by
  induction n with
  | zero => exact hf 0
  | succ n ih => exact max_le (hf _) ih

theorem angleOther_le (k s m : Nat) : angleOther k s m ≤ 16384 := by
  unfold angleOther
  split_ifs
  · exact Nat.zero_le _
  · exact le_refl _
  · exact Nat.zero_le _
  · exact maxUpTo_le _ fun _ => maxUpTo_le _ fun _ => min_le_left _ _

/-- Every ANGLE_FN answers an angle of at most a quarter turn (R207). -/
theorem angleFn_le (a : AngleSel) (s m : Nat) : angleFn a s m ≤ 16384 := by
  cases a with
  | reference => exact angleReference_le s m
  | other k => exact angleOther_le k s m

/-- Quantizing an angle gives one of the `2^qb + 1` symbols of R208. -/
theorem quantize_le {t : Nat} (qb : Nat) (ht : t ≤ 16384) : quantize t qb ≤ 2 ^ qb := by
  have hmul : t * 2 ^ qb ≤ 16384 * 2 ^ qb := Nat.mul_le_mul_right _ ht
  unfold quantize
  omega

/-- Dequantizing a symbol of R208 gives an angle. -/
theorem dequantize_le {tq qb : Nat} (hq : qb ≤ 14) (ht : tq ≤ 2 ^ qb) : dequantize tq qb ≤ 16384 := by
  calc tq * 2 ^ (14 - qb) ≤ 2 ^ qb * 2 ^ (14 - qb) := Nat.mul_le_mul_right _ ht
    _ = 16384 := by rw [← pow_add, Nat.add_sub_cancel' hq]; norm_num

/-- A band in use has at most `BAND_W_MAX` bins (R32). -/
theorem width_le {s : State} {b : Nat} (h : modeOk s = true) (hb : b < s.nbands) : s.mem.width b ≤ 256 := by
  obtain ⟨-, -, -, -, hbands, -⟩ := (modeOk_iff s).1 h
  exact (hbands b hb).2

/-! ### What a stretch of pseudocode answers -/

/-- Whatever the stretch answers meets `P`; where it raises a fault nothing is asked. -/
def yields {α : Type} (x : Run α) (P : α → Prop) : Prop := ∀ a, x = .ok a → P a

theorem yields_ok {α : Type} {P : α → Prop} {a : α} (h : P a) : yields (.ok a : Run α) P := by
  intro b hb
  cases hb
  exact h

theorem yields_error {α : Type} {P : α → Prop} (e : Stop) : yields (.error e : Run α) P := nofun

theorem yields_bind {α β : Type} {x : Run α} {f : α → Run β} {P : β → Prop}
    (h : ∀ a, x = .ok a → yields (f a) P) : yields (x >>= f) P := by
  intro b hb
  obtain ⟨a, ha, hb⟩ := run_bind_eq_ok.1 hb
  exact h a ha b hb

/-- After a check its condition holds. -/
theorem yields_check {β : Type} {p : Bool} {c : FaultCode} {f : Unit → Run β} {P : β → Prop}
    (h : p = true → yields (f ()) P) : yields (check p c >>= f) P :=
  yields_bind fun _ hu => h (check_eq_ok.1 hu)

/-- After `RC_REQ` the coder is ready (R110). -/
theorem yields_rcReq {β : Type} {c : Coder} {dir : Direction} {f : Unit → Run β} {P : β → Prop}
    (h : c.ready dir → yields (f ()) P) : yields (rcReq c dir false >>= f) P :=
  yields_bind fun _ hu => h (rcReq_eq_ok.1 hu)

theorem stReq_eq_ok {s : State} {u : Unit} : stReq s = .ok u ↔ modeOk s = true ∧ s.channels = 2 := by
  by_cases h : modeOk s = true ∧ s.channels = 2
  · simp [stReq_ok h.1 h.2, h]
  · simp [stReq_error h, h]

/-- After `ST_REQ` the mode descriptor is valid (R200). -/
theorem yields_stReq {β : Type} {s : State} {f : Unit → Run β} {P : β → Prop}
    (h : modeOk s = true → yields (f ()) P) : yields (stReq s >>= f) P :=
  yields_bind fun _ hu => h (stReq_eq_ok.1 hu).1

/-! ### The machine's invariant through a command (R9, R33 to R36) -/

/-- The part of the invariant that is about the parameters, memory and registers, whatever the engine's phase. -/
structure State.DataOk (s : State) : Prop where
  legal : s.hw.legal = true
  wf : s.mem.wf = true
  coder : s.regs.rc.ok s.hw
  stereo : s.regs.st.ok

theorem State.ok_iff {s : State} : s.ok ↔ s.DataOk ∧ (s.regs.fault ≠ none → s.phase = .idle) :=
  ⟨fun ⟨hl, hm, hc, hst, hp⟩ => ⟨⟨hl, hm, hc, hst⟩, hp⟩, fun ⟨⟨hl, hm, hc, hst⟩, hp⟩ => ⟨hl, hm, hc, hst, hp⟩⟩

section Command

variable {s : State}

theorem State.DataOk.complete_ok (h : s.DataOk) : s.complete.ok :=
  State.ok_iff.2 ⟨⟨h.legal, h.wf, h.coder, h.stereo⟩, fun _ => rfl⟩

theorem State.DataOk.faultEntry_ok (h : s.DataOk) (c : FaultCode) (w : Word) (touched : List Nat) :
    (faultEntry c w touched s).ok :=
  State.ok_iff.2 ⟨⟨h.legal, Memory.wf_unspecify _ _ _ h.wf, h.coder, h.stereo⟩, fun _ => rfl⟩

theorem State.DataOk.withMem (h : s.DataOk) {m : Memory} (hm : m.wf = true) : State.DataOk { s with mem := m } :=
  ⟨h.legal, hm, h.coder, h.stereo⟩

theorem State.DataOk.putRc (h : s.DataOk) {x : Rc} (hc : x.coder.ok s.hw) (hm : x.mem.wf = true) :
    (s.putRc x).DataOk := ⟨h.legal, hm, hc, h.stereo⟩

/-- Every next state the outcome can be meets the invariant. -/
def nextOk (o : Host.Outcome State Fault Refusal) : Prop := ∀ t, o = .next t → t.ok

theorem nextOk_next {t : State} (h : t.ok) : nextOk (.next t) := by
  intro u hu
  cases hu
  exact h

/-- A command keeps the invariant when its pseudocode does: a raised fault leaves the state before it, up to STATUS,
FAULT_CMD and memory bytes (R262, R270). -/
theorem perform_nextOk (hs : s.DataOk) {i : Instr} {touched : List Nat} {body : Run State}
    (hb : yields body State.DataOk) : nextOk (perform i touched body s) := by
  intro t ht
  rcases perform_eq_next.1 ht with ⟨u, hu, rfl⟩ | ⟨c, -, rfl⟩
  · exact (hb u hu).complete_ok
  · exact hs.faultEntry_ok _ _ _

/-! ### The range coder commands -/

theorem execRcEncInit_nextOk (hs : s.DataOk) : nextOk (execRcEncInit s) :=
  perform_nextOk hs <| yields_check fun hfits =>
    yields_ok (hs.putRc (encInitCoder_ok hs.legal (of_decide_eq_true hfits)) hs.wf)

theorem execRcEncode_nextOk (hs : s.DataOk) : nextOk (execRcEncode s) := by
  refine perform_nextOk hs <| yields_rcReq fun hr => yields_check fun hops => yields_bind fun x hx => yields_ok ?_
  simp only [Bool.and_eq_true, decide_eq_true_eq] at hops
  obtain ⟨⟨-, hlt⟩, hle⟩ := hops
  exact hs.putRc (rcEncode_keeps_ok hs.legal hs.coder hr hlt hle hx)
    (rcEncode_keeps (wf_keptByFrameStores s.hw) hx hs.wf)

theorem execRcEncBits_nextOk (hs : s.DataOk) (n : Byte) : nextOk (execRcEncBits n s) := by
  refine perform_nextOk hs <| yields_rcReq fun hr => yields_check fun hops => yields_bind fun x hx => yields_ok ?_
  simp only [Bool.and_eq_true, decide_eq_true_eq] at hops
  obtain ⟨⟨-, hn⟩, hv⟩ := hops
  exact hs.putRc (rcEncBits_keeps_ok hs.coder hr hn hv hx) (rcEncBits_keeps (wf_keptByFrameStores s.hw) hx hs.wf)

theorem execRcEncDone_nextOk (hs : s.DataOk) : nextOk (execRcEncDone s) :=
  perform_nextOk hs <| yields_rcReq fun hr => yields_bind fun _ hx => yields_ok <|
    hs.putRc (rcEncDone_keeps_ok hs.legal hs.coder hr hx) (rcEncDone_keeps (wf_keptByFrameStores s.hw) hx hs.wf)

theorem execRcTell_nextOk (hs : s.DataOk) (g : Byte) : nextOk (execRcTell g s) := by
  refine perform_nextOk hs <| yields_check fun _ => yields_check fun _ => ?_
  split_ifs
  · exact yields_error _
  · exact yields_ok ⟨hs.legal, hs.wf, hs.coder, hs.stereo⟩

theorem execRcDecInit_nextOk (hs : s.DataOk) : nextOk (execRcDecInit s) := by
  refine perform_nextOk hs <| yields_check fun hfits => yields_bind fun x hx => yields_ok ?_
  obtain ⟨hc, hm⟩ := rcDecInit_keeps_ok hs.legal (of_decide_eq_true hfits) hx
  exact hs.putRc hc (by rw [hm]; exact hs.wf)

theorem execRcDecode_nextOk (hs : s.DataOk) : nextOk (execRcDecode s) := by
  refine perform_nextOk hs <| yields_rcReq fun hr => yields_check fun hops => yields_bind fun r hx => yields_ok ?_
  simp only [Bool.and_eq_true, decide_eq_true_eq] at hops
  obtain ⟨h1, h2⟩ := hops
  obtain ⟨hc, -⟩ := rcDecode_keeps_ok hs.coder hr h1 h2 hx
  exact ⟨hs.legal, hs.wf, hc, hs.stereo⟩

theorem execRcDecUpdate_nextOk (hs : s.DataOk) : nextOk (execRcDecUpdate s) := by
  refine perform_nextOk hs <| yields_rcReq fun hr => yields_check fun hrec => yields_check fun hops =>
    yields_check fun hsym => yields_bind fun x hx => yields_ok ?_
  simp only [Bool.and_eq_true, decide_eq_true_eq] at hrec hops hsym
  obtain ⟨hp, hft⟩ := hrec
  obtain ⟨hlo, hhi⟩ := hsym
  obtain ⟨-, hle⟩ := hops
  have hft' : s.regs.rc.dft.toNat = s.arg2 := congrArg BitVec.toNat hft.symm
  obtain ⟨hc, hm⟩ := rcUpdate_keeps_ok (x := s.rcView) hs.coder hr hp hft' hle hlo hhi hx
  exact hs.putRc hc (by rw [hm]; exact hs.wf)

theorem execRcDecBits_nextOk (hs : s.DataOk) (n : Byte) : nextOk (execRcDecBits n s) := by
  refine perform_nextOk hs <| yields_rcReq fun hr => yields_check fun hops => yields_bind fun r hx => yields_ok ?_
  simp only [Bool.and_eq_true, decide_eq_true_eq] at hops
  obtain ⟨-, hn⟩ := hops
  exact ⟨hs.legal, hs.wf, rcDecBits_keeps_ok hs.coder hr hn hx, hs.stereo⟩

/-! ### The band energy commands: they write memory elements alone -/

theorem execBeCompute_nextOk (hs : s.DataOk) : nextOk (execBeCompute s) :=
  perform_nextOk hs <| yields_bind fun _ _ => yields_ok (hs.withMem (Memory.wf_setEners _ _ hs.wf))

theorem execBeNormalise_nextOk (hs : s.DataOk) : nextOk (execBeNormalise s) :=
  perform_nextOk hs <| yields_bind fun _ _ => yields_check fun _ =>
    yields_ok (hs.withMem (Memory.wf_setNorms _ _ hs.wf))

theorem execBeDenormalise_nextOk (hs : s.DataOk) : nextOk (execBeDenormalise s) :=
  perform_nextOk hs <| yields_bind fun _ _ => yields_ok (hs.withMem (Memory.wf_setSigs _ _ hs.wf))

theorem execBeRenormAll_nextOk (hs : s.DataOk) : nextOk (execBeRenormAll s) :=
  perform_nextOk hs <| yields_bind fun _ _ => yields_ok (hs.withMem (Memory.wf_setNorms _ _ hs.wf))

theorem execBeRenormBand_nextOk (hs : s.DataOk) (b k : Byte) : nextOk (execBeRenormBand b k s) :=
  perform_nextOk hs <| yields_bind fun _ _ => yields_check fun _ =>
    yields_ok (hs.withMem (Memory.wf_setNorms _ _ hs.wf))

/-! ### The stereo commands -/

theorem execStMix_nextOk (hs : s.DataOk) (b k : Byte) : nextOk (execStMix b k s) :=
  perform_nextOk hs <| yields_stReq fun _ => yields_check fun _ =>
    yields_ok (hs.withMem (Memory.wf_setNorms _ _ hs.wf))

theorem execStQb_nextOk (hs : s.DataOk) (b : Byte) : nextOk (execStQb b s) :=
  perform_nextOk hs <| yields_stReq fun _ => yields_check fun _ => yields_ok ⟨hs.legal, hs.wf, hs.coder, hs.stereo⟩

theorem execStThetaEnc_nextOk (hs : s.DataOk) (b qb : Byte) : nextOk (execStThetaEnc b qb s) := by
  refine perform_nextOk hs <| yields_stReq fun hmode => yields_rcReq fun hr => yields_check fun hb =>
    yields_check fun hq => yields_bind fun x hx => yields_ok ?_
  have htq := quantize_le (lowFourBits qb)
    (angleFn_le s.hw.angle (s.mem.magnitude b.toNat 1) (s.mem.magnitude b.toNat 0))
  have hst := setAngle_ok (dequantize_le (of_decide_eq_true hq) htq) (width_le hmode (of_decide_eq_true hb)) s.regs.st
  exact ⟨hs.legal, rcEncode_keeps (wf_keptByFrameStores s.hw) hx hs.wf,
    rcEncode_keeps_ok hs.legal hs.coder hr (Nat.lt_succ_self _) (Nat.succ_le_succ htq) hx, hst⟩

theorem execStThetaDec_nextOk (hs : s.DataOk) (b qb : Byte) : nextOk (execStThetaDec b qb s) := by
  refine perform_nextOk hs <| yields_stReq fun hmode => yields_rcReq fun hr => yields_check fun hb =>
    yields_check fun hq => yields_bind fun r hx => yields_bind fun y hy => yields_ok ?_
  have hq' : lowFourBits qb ≤ 14 := of_decide_eq_true hq
  have hpow : 2 ^ lowFourBits qb ≤ 2 ^ 14 := Nat.pow_le_pow_right (by norm_num) hq'
  have hftMax : 2 ^ lowFourBits qb + 1 ≤ 65536 := by omega
  obtain ⟨hc, hr', hp, hft, hfs, hlt⟩ := rcDecode_keeps_ok hs.coder hr (Nat.le_add_left 1 _) hftMax hx
  obtain ⟨hc', -⟩ := rcUpdate_keeps_ok (x := { coder := r.2, mem := s.mem }) hc hr' hp hft hlt hfs.ge
    (by rw [hfs]; exact Nat.lt_succ_self _) hy
  exact ⟨hs.legal, hs.wf, hc',
    setAngle_ok (dequantize_le hq' (Nat.lt_succ_iff.1 hlt)) (width_le hmode (of_decide_eq_true hb)) s.regs.st⟩

theorem execStSplit_nextOk (hs : s.DataOk) (b : Byte) : nextOk (execStSplit b s) :=
  perform_nextOk hs <| yields_stReq fun _ => yields_check fun _ => yields_ok ⟨hs.legal, hs.wf, hs.coder, hs.stereo⟩

theorem execStScale_nextOk (hs : s.DataOk) (b : Byte) : nextOk (execStScale b s) :=
  perform_nextOk hs <| yields_stReq fun _ => yields_check fun _ =>
    yields_ok (hs.withMem (Memory.wf_setNorms _ _ hs.wf))

theorem execStSign2Enc_nextOk (hs : s.DataOk) (b : Byte) : nextOk (execStSign2Enc b s) := by
  refine perform_nextOk hs <| yields_stReq fun _ => yields_rcReq fun hr => yields_check fun _ =>
    yields_check fun _ => ?_
  split_ifs with hedge
  · refine yields_bind fun x hx => yields_ok ?_
    have hbit := Bool.toNat_lt (s.regs.st.nonEdge && s.mem.crossNegative (s.mem.band b.toNat) s.regs.st.codedChannel)
    exact ⟨hs.legal, rcEncBits_keeps (wf_keptByFrameStores s.hw) hx hs.wf,
      rcEncBits_keeps_ok hs.coder hr (by norm_num) hbit hx, hs.stereo⟩
  · exact yields_ok ⟨hs.legal, hs.wf, hs.coder, hs.stereo⟩

theorem execStSign2Dec_nextOk (hs : s.DataOk) (b : Byte) : nextOk (execStSign2Dec b s) := by
  refine perform_nextOk hs <| yields_stReq fun _ => yields_rcReq fun hr => yields_check fun _ =>
    yields_check fun _ => ?_
  split_ifs with hedge
  · exact yields_bind fun r hx => yields_ok
      ⟨hs.legal, hs.wf, rcDecBits_keeps_ok hs.coder hr (by norm_num) hx, hs.stereo⟩
  · exact yields_ok ⟨hs.legal, hs.wf, hs.coder, hs.stereo⟩

theorem execStSign2Rebuild_nextOk (hs : s.DataOk) (b : Byte) : nextOk (execStSign2Rebuild b s) :=
  perform_nextOk hs <| yields_stReq fun _ => yields_check fun _ => yields_check fun _ =>
    yields_ok (hs.withMem (Memory.wf_setNorms _ _ hs.wf))

/-! ### Every command, every access, every step -/

theorem execNop_nextOk (hs : s.DataOk) : nextOk (execNop s) := perform_nextOk hs (yields_ok hs)

/-- Every command keeps the invariant, whatever STATUS.FAULT and the phase are. -/
theorem exec_nextOk (hs : s.DataOk) (i : Instr) : nextOk (exec i s) := by
  cases i with
  | nop => exact execNop_nextOk hs
  | rcEncInit => exact execRcEncInit_nextOk hs
  | rcEncode => exact execRcEncode_nextOk hs
  | rcEncBits n => exact execRcEncBits_nextOk hs n
  | rcEncDone => exact execRcEncDone_nextOk hs
  | rcTell g => exact execRcTell_nextOk hs g
  | rcDecInit => exact execRcDecInit_nextOk hs
  | rcDecode => exact execRcDecode_nextOk hs
  | rcDecUpdate => exact execRcDecUpdate_nextOk hs
  | rcDecBits n => exact execRcDecBits_nextOk hs n
  | beCompute => exact execBeCompute_nextOk hs
  | beNormalise => exact execBeNormalise_nextOk hs
  | beDenormalise => exact execBeDenormalise_nextOk hs
  | beRenormAll => exact execBeRenormAll_nextOk hs
  | beRenormBand b k => exact execBeRenormBand_nextOk hs b k
  | stMix b k => exact execStMix_nextOk hs b k
  | stQb b => exact execStQb_nextOk hs b
  | stThetaEnc b q => exact execStThetaEnc_nextOk hs b q
  | stThetaDec b q => exact execStThetaDec_nextOk hs b q
  | stSplit b => exact execStSplit_nextOk hs b
  | stScale b => exact execStScale_nextOk hs b
  | stSign2Enc b => exact execStSign2Enc_nextOk hs b
  | stSign2Dec b => exact execStSign2Dec_nextOk hs b
  | stSign2Rebuild b => exact execStSign2Rebuild_nextOk hs b

/-- The engine's step keeps the invariant: it waits, performs a command, or takes ILLEGAL_CMD (R21, R95). -/
theorem engineStep_nextOk (hs : s.ok) : nextOk (engineStep s) := by
  obtain ⟨hdata, -⟩ := State.ok_iff.1 hs
  unfold engineStep
  split
  · exact nextOk_next hs
  · split
    · exact exec_nextOk hdata _
    · exact nextOk_next (hdata.faultEntry_ok _ _ _)

end Command

/-- A write of a register keeps the invariant: it resets the registers, starts a command while STATUS.FAULT = 0 (R275),
or writes registers the invariant does not speak of. -/
theorem writeReg_ok {s : State} (hs : s.ok) (v : Word) (r : Reg) : (writeReg s v r).ok := by
  obtain ⟨⟨hl, hm, hc, hst⟩, hp⟩ := State.ok_iff.1 hs
  rcases writeReg_cases s v r with h | ⟨-, h⟩ | ⟨-, h⟩ | ⟨_, _, _, _, _, _, _, h⟩ <;> rw [h]
  · exact hs
  · unfold writeCtrl
    split_ifs
    · exact State.ok_of_reset hl hm rfl
    · exact State.ok_iff.2 ⟨⟨hl, hm, hc, hst⟩, hp⟩
  · unfold writeCmd
    split_ifs with hfault
    · exact hs
    · exact State.ok_iff.2 ⟨⟨hl, hm, hc, hst⟩, fun hf => absurd (Option.isSome_iff_ne_none.2 hf) hfault⟩
  · exact State.ok_iff.2 ⟨⟨hl, hm, hc, hst⟩, hp⟩

/-- A legal write keeps the invariant: a register's, or one of a memory element (R62 to R67). -/
theorem writeTarget_ok {s : State} (hs : s.ok) (v : Word) (g : Target) : (writeTarget s v g).ok := by
  obtain ⟨hdata, hp⟩ := State.ok_iff.1 hs
  have hmem : ∀ m : Memory, m.wf = true → State.ok { s with mem := m } := fun m hm =>
    State.ok_iff.2 ⟨hdata.withMem hm, hp⟩
  cases g with
  | reg r => exact writeReg_ok hs v r
  | band i => exact hmem _ (Memory.wf_setHalf _ _ _ hdata.wf)
  | ener c b => exact hmem _ (Memory.wf_setWord _ _ _ hdata.wf)
  | fbuf w => exact hmem _ (wf_fbufWriteWord _ _ _ _ hdata.wf)
  | sig k => exact hmem _ (Memory.wf_setWord _ _ _ hdata.wf)
  | norm k => exact hmem _ (Memory.wf_setHalf _ _ _ hdata.wf)
  | absent => exact hs

/-- Answering an access changes nothing the invariant speaks of. -/
theorem answer_ok {s : State} (hs : s.ok) (r : Reply) : (s.answer r).ok := hs

/-- Counting a STATUS read neither starts a command nor ends one (R71). -/
theorem countPoll_ok {s : State} (hs : s.ok) : s.countPoll.ok := by
  unfold State.countPoll
  split
  · exact hs
  · next w n hbusy =>
    obtain ⟨hdata, hp⟩ := State.ok_iff.1 hs
    refine State.ok_iff.2 ⟨⟨hdata.legal, hdata.wf, hdata.coder, hdata.stereo⟩, fun hf => ?_⟩
    have hidle := hp hf
    rw [hbusy] at hidle
    cases hidle

/-- One host event keeps the invariant (R60 to R71, R290). -/
theorem serve_ok {s : State} (hs : s.ok) (e : PortEvent) : (serve e s).ok := by
  cases e with
  | read a n =>
    simp only [serve]
    split_ifs
    · exact countPoll_ok (answer_ok hs _)
    · exact answer_ok hs _
  | write a n v =>
    simp only [serve]
    split_ifs
    · exact answer_ok (writeTarget_ok hs _ _) _
    · exact answer_ok hs _
  | powerOn => exact State.ok_of_reset (State.ok_iff.1 hs).1.legal rfl rfl

/-- One step of the block keeps the invariant (R20, R21). -/
theorem step_nextOk {s : State} (hs : s.ok) : nextOk (step s) := by
  unfold step
  split
  · exact engineStep_nextOk hs
  · next e rest _ =>
    split_ifs
    · exact nextOk_next (serve_ok (s := { s with port := rest }) hs e)
    · exact engineStep_nextOk hs

end Sys2Proof.Machine

namespace Sys2Proof

open Machine

/-- Settles O24: a host access resets the registers or leaves the coder's and the stereo registers alone, and a command
keeps the invariant of the direction it requires, or faults and leaves them as they were. -/
theorem everyStepKeepsInvariant : Obligations.EveryStepKeepsInvariant := fun _ t hs ht => step_nextOk hs t ht

end Sys2Proof

/-! ## The engine's step, CMD writes and STATUS (R20, R21, R25, R26, R71, R261, R275) -/

namespace Sys2Proof.Machine

/-- What comes next is the engine's: nothing is issued at the port, or R71 holds the oldest access. -/
theorem step_eq_engineStep {s : State} (h : ∀ e rest, s.port = e :: rest → portReady s e = false) :
    step s = engineStep s := by
  unfold step
  split
  · rfl
  · next e rest hport =>
    rw [if_neg (by rw [h e rest hport]; exact Bool.false_ne_true)]

/-- What comes next is the host's: the oldest access may take effect (R71, R73). -/
theorem step_eq_serve {s : State} {e : PortEvent} {rest : List PortEvent} (hport : s.port = e :: rest)
    (hready : portReady s e = true) : step s = .next (serve e { s with port := rest }) := by
  unfold step
  rw [hport]
  exact if_pos hready

/-- An idle engine holds no access (R71). -/
theorem portReady_idle {s : State} (h : s.phase = .idle) (e : PortEvent) : portReady s e = true := by
  unfold portReady
  rw [h]

theorem engineStep_idle {s : State} (h : s.phase = .idle) : engineStep s = .next s := by
  unfold engineStep
  rw [h]

/-- The engine performs the command its word decodes to (R21, R97). -/
theorem engineStep_decoded {s : State} {w : Word} {n : Nat} {i : Instr} (h : s.phase = .busy w n)
    (hw : decode w = .ok i) : engineStep s = exec i s := by
  simp only [engineStep, h, hw]

/-- A legal write of CMD is `writeCmd`, answered (R26, R61). -/
theorem serve_writeCmd (s : State) (v : Word) : serve (.write 0x000C#16 4 v) s = (writeCmd s v).answer .written := rfl

/-- Without a fault the engine takes the word (R21, R26). -/
theorem writeCmd_unfaulted {s : State} (h : s.regs.fault = none) (v : Word) :
    writeCmd s v = { s with phase := .busy v 0, draws := s.draws + 1 } := by
  unfold writeCmd
  rw [h]
  rfl

/-- With a fault the write is ignored (R275). -/
theorem writeCmd_faulted {s : State} (h : s.regs.fault ≠ none) (v : Word) : writeCmd s v = s :=
  if_pos (Option.isSome_iff_ne_none.2 h)

/-! ### STATUS as read (R25, R261) -/

theorem readReg_status (s : State) : readReg s .status = s.statusWord := rfl

theorem getLsbD_flagBit (b : Bool) {k : Nat} (hk : k < 32) (n : Nat) :
    (flagBit b k).getLsbD n = (decide (n = k) && b) := by
  cases b
  · simp [flagBit]
  · simp only [flagBit, if_true, BitVec.getLsbD_shiftLeft, BitVec.getLsbD_one, Bool.and_true]
    rw [Bool.eq_iff_iff]
    simp only [Bool.and_eq_true, Bool.not_eq_true', decide_eq_true_eq, decide_eq_false_iff_not]
    omega

/-- Every code fits STATUS.FAULT_CODE's four bits (R261). -/
theorem faultCodeOf_lt (f : Option FaultCode) : faultCodeOf f < 2 ^ 4 := by
  rcases f with _ | c
  · decide
  · cases c <;> decide

/-- The code stands in bits 11:8 (R25). -/
theorem getLsbD_faultCode (f : Option FaultCode) {n : Nat} (hn : n < 32) :
    (BitVec.ofNat 32 (faultCodeOf f) <<< 8).getLsbD n =
      (decide (8 ≤ n ∧ n ≤ 11) && (faultCodeOf f).testBit (n - 8)) := by
  rw [BitVec.getLsbD_shiftLeft, BitVec.getLsbD_ofNat]
  by_cases hhigh : 12 ≤ n
  · have hzero : (faultCodeOf f).testBit (n - 8) = false :=
      Nat.testBit_lt_two_pow (lt_of_lt_of_le (faultCodeOf_lt f) (Nat.pow_le_pow_right (by norm_num) (by omega)))
    rw [hzero]
    simp only [Bool.and_false]
  · have hplace : decide (n - 8 < 32) = true := decide_eq_true (by omega)
    have hfield : decide (8 ≤ n ∧ n ≤ 11) = !decide (n < 8) := by
      rw [Bool.eq_iff_iff]; simp only [Bool.not_eq_true', decide_eq_true_eq, decide_eq_false_iff_not]; omega
    simp only [decide_eq_true hn, hplace, hfield, Bool.true_and]

theorem busy_eq (s : State) : s.busy = decide (s.phase ≠ .idle) := by
  unfold State.busy
  cases s.phase <;> simp

/-- Every bit of STATUS: each flag at its own place, the code in its field, 0 elsewhere (R25, R62). -/
theorem getLsbD_statusWord (s : State) {n : Nat} (hn : n < 32) :
    s.statusWord.getLsbD n =
      (decide (n = 0) && decide (s.phase ≠ .idle) || decide (n = 1) && s.regs.done ||
        decide (n = 2) && s.regs.fault.isSome ||
        decide (8 ≤ n ∧ n ≤ 11) && (faultCodeOf s.regs.fault).testBit (n - 8) ||
        decide (n = 16) && s.regs.rc.inited || decide (n = 17) && decide (s.regs.rc.dir = .decode) ||
        decide (n = 18) && s.regs.rc.fin || decide (n = 19) && s.regs.rc.dpend) := by
  simp only [State.statusWord, BitVec.getLsbD_or, getLsbD_faultCode _ hn, busy_eq,
    getLsbD_flagBit _ (show 0 < 32 by norm_num), getLsbD_flagBit _ (show 1 < 32 by norm_num),
    getLsbD_flagBit _ (show 2 < 32 by norm_num), getLsbD_flagBit _ (show 16 < 32 by norm_num),
    getLsbD_flagBit _ (show 17 < 32 by norm_num), getLsbD_flagBit _ (show 18 < 32 by norm_num),
    getLsbD_flagBit _ (show 19 < 32 by norm_num)]

end Sys2Proof.Machine

namespace Sys2Proof

open Machine

/-- Settles O6: `step` serves the oldest access when it is ready, else the engine acts on its phase. -/
theorem stepRunsDecodedCommand : Obligations.StepRunsDecodedCommand := by
  refine ⟨fun s w n i hbusy hdec hheld => ?_, fun s e rest hport hready => step_eq_serve hport hready,
    fun s hidle hport => ?_⟩
  · rw [step_eq_engineStep hheld, engineStep_decoded hbusy hdec]
  · rw [step_eq_engineStep (by rw [hport]; nofun), engineStep_idle hidle]

/-- Settles O16: the port serves the write at once, and `writeCmd` takes the word or ignores it. -/
theorem commandWrites : Obligations.CommandWrites := by
  intro s v rest hidle hport
  rw [step_eq_serve hport (portReady_idle hidle _), serve_writeCmd]
  refine ⟨fun hfault => ?_, fun hfault => ?_⟩
  · rw [writeCmd_unfaulted (s := { s with port := rest }) hfault]
    exact ⟨_, rfl, rfl, rfl, rfl, rfl, rfl⟩
  · rw [writeCmd_faulted (s := { s with port := rest }) hfault]
    rfl

/-- Settles O19: the bits of STATUS are those of `getLsbD_statusWord`, and at most one of its terms stands at a
given place. -/
theorem statusBits : Obligations.StatusBits := by
  refine ⟨fun s n hn => ?_, ⟨rfl, rfl, rfl, rfl, rfl, rfl, rfl, rfl⟩, fun _ _ => rfl⟩
  have hfault : s.regs.fault.isSome = decide (s.regs.fault ≠ none) := by cases s.regs.fault <;> rfl
  rw [readReg_status, getLsbD_statusWord s hn, hfault]
  split_ifs with h0 h1 h2 hcode h16 h17 h18 h19
  · subst h0; simp
  · subst h1; simp
  · subst h2; simp
  · obtain ⟨hlo, hhi⟩ := hcode
    simp [h0, h1, h2, hlo, hhi, show n ≠ 16 by omega, show n ≠ 17 by omega, show n ≠ 18 by omega, show n ≠ 19 by omega]
  · subst h16; simp
  · subst h17; simp
  · subst h18; simp
  · subst h19; simp
  · simp [h0, h1, h2, hcode, h16, h17, h18, h19]

end Sys2Proof

/-! ## No state that meets the invariant stops the machine (R20, R34, R72, R95, R97) -/

namespace Sys2Proof.Machine

/-! ### A stretch of pseudocode that its rule gives a result -/

/-- The stretch answers, or raises a fault of R261: its rule has a result (assumption 7). -/
def hasResult {α : Type} (x : Run α) : Prop := ∀ f, x ≠ .error (.undefined f)

theorem hasResult_ok {α : Type} (a : α) : hasResult (.ok a : Run α) := nofun

theorem hasResult_of_ok {α : Type} {x : Run α} (h : ∃ a, x = .ok a) : hasResult x := by
  obtain ⟨a, rfl⟩ := h
  exact hasResult_ok a

theorem hasResult_of_raised {α : Type} {x : Run α} {c : FaultCode} (h : x = .error (.raised c)) : hasResult x := by
  rw [h]
  nofun

/-- The encoder's symbols go out, or raise the fault `Front.after` says (R111, R112). -/
theorem hasResult_of_follows {x : Run Rc} {o : Except FaultCode Front} (h : follows x o) : hasResult x := by
  cases o with
  | ok f =>
    obtain ⟨y, hy, -⟩ := h
    exact hasResult_of_ok ⟨y, hy⟩
  | error c => exact hasResult_of_raised h

theorem hasResult_bind {α β : Type} {x : Run α} {f : α → Run β} (hx : hasResult x)
    (h : ∀ a, x = .ok a → hasResult (f a)) : hasResult (x >>= f) := by
  intro e he
  rcases run_bind_eq_error.1 he with he | ⟨a, ha, he⟩
  · exact hx e he
  · exact h a ha e he

theorem hasResult_check {β : Type} {p : Bool} {c : FaultCode} {f : Unit → Run β} (h : p = true → hasResult (f ())) :
    hasResult (check p c >>= f) := by
  refine hasResult_bind (fun e he => ?_) fun _ hu => h (check_eq_ok.1 hu)
  obtain ⟨-, he⟩ := check_eq_error.1 he
  cases he

theorem hasResult_rcReq {β : Type} {c : Coder} {dir : Direction} {f : Unit → Run β}
    (h : c.ready dir → hasResult (f ())) : hasResult (rcReq c dir false >>= f) := by
  by_cases hr : c.ready dir
  · rw [rcReq_ready hr]
    exact h hr
  · rw [rcReq_not_ready hr]
    exact hasResult_of_raised rfl

theorem hasResult_stReq {β : Type} {s : State} {f : Unit → Run β} (h : hasResult (f ())) :
    hasResult (stReq s >>= f) := by
  by_cases hm : modeOk s = true ∧ s.channels = 2
  · rw [stReq_ok hm.1 hm.2]
    exact h
  · rw [stReq_error hm]
    exact hasResult_of_raised rfl

/-! ### The coder's operations have a result under their invariant -/

section Coder

variable {hw : Params} {x : Rc}

/-- Three passes renormalize what a legal symbol leaves of a normalized interval (R113, R115). -/
theorem rcEncode_hasResult {fl fh ft : Nat} (hl : hw.legal = true) (hx : x.coder.ok hw) (hr : x.coder.ready .encode)
    (h1 : fl < fh) (h2 : fh ≤ ft) (h0 : ft ≤ 65536) : hasResult (rcEncode hw fl fh ft x) := by
  obtain ⟨hi, hd, -⟩ := hr
  obtain ⟨hgt, -, hsum, hst, hap, ⟨-, -, hext⟩, -⟩ := hx.encoder hi hd
  obtain ⟨-, hsize, -⟩ := narrowed_inside (low := x.coder.val.toNat) (rng := x.coder.rng.toNat) h1 h2
  obtain ⟨k, hk, hpass⟩ := renormPasses_exists (three_passes hgt (by omega) h0 hsize)
  exact hasResult_of_follows (rcEncode_front h1 h2 hst hap hext (Params.legal_extBits hl) hsum hk hpass)

/-- Whole bytes of the raw-bit window are written inside the frame, or raise BUF_OVF (R111). -/
theorem drainWindow_hasResult {k w : Nat} (hs : x.coder.storage.toNat ≤ hw.fbufBytes)
    (hap : x.coder.offs.toNat + x.coder.endOffs.toNat ≤ x.coder.storage.toNat) :
    hasResult (drainWindow hw k w x) := by
  by_cases hroom : x.coder.offs.toNat + x.coder.endOffs.toNat + k ≤ x.coder.storage.toNat
  · exact hasResult_of_ok (drainWindow_room hs (.inr hroom))
  · exact hasResult_of_raised (drainWindow_full hs (not_le.1 hroom) (by omega))

theorem rcEncBits_hasResult {v n : Nat} (hx : x.coder.ok hw) (hr : x.coder.ready .encode) :
    hasResult (rcEncBits hw v n x) := by
  obtain ⟨hi, hd, -⟩ := hr
  obtain ⟨-, -, -, hst, hap, -⟩ := hx.encoder hi hd
  exact hasResult_bind (drainWindow_hasResult hst hap) fun _ _ => hasResult_ok _

/-- The pending symbols fit below the end part, or raise BUF_OVF (R117). -/
theorem flushPending_hasResult (hs : x.coder.storage.toNat ≤ hw.fbufBytes)
    (hap : x.coder.offs.toNat + x.coder.endOffs.toNat ≤ x.coder.storage.toNat)
    (hext : x.coder.ext.toNat < 2 ^ hw.extBits) (hw32 : hw.extBits ≤ 32) : hasResult (flushPending hw x) := by
  obtain ⟨hroom, hfull⟩ := flushPending_cases hs hap hext hw32
  rcases Nat.lt_or_ge x.coder.storage.toNat (x.coder.symbolsOut + x.coder.endOffs.toNat) with hlt | hge
  · exact hasResult_of_raised (hfull hlt)
  · exact hasResult_of_ok (hroom hge)

theorem orLastBits_hasResult {w u spare : Nat} (hs : x.coder.storage.toNat ≤ hw.fbufBytes) :
    hasResult (orLastBits hw w u spare x) := by
  obtain ⟨hroom, hfull⟩ := @orLastBits_cases hw w u spare x hs
  by_cases hfits : u = 0 ∨ (x.coder.endOffs.toNat < x.coder.storage.toNat ∧
      (x.coder.offs.toNat + x.coder.endOffs.toNat < x.coder.storage.toNat ∨ u ≤ spare))
  · exact hasResult_of_ok (hroom hfits)
  · exact hasResult_of_raised (hfull hfits)

/-- Every part of RC_ENC_DONE works on a frame that fits FBUF, its two parts apart (R117). -/
theorem rcEncDone_hasResult (hl : hw.legal = true) (hx : x.coder.ok hw) (hr : x.coder.ready .encode) :
    hasResult (rcEncDone hw x) := by
  obtain ⟨hi, hd, -⟩ := hr
  obtain ⟨-, -, -, hst, hap, ⟨-, -, hext⟩, -⟩ := hx.encoder hi hd
  have hw32 := Params.legal_extBits hl
  refine hasResult_bind (hasResult_of_follows (emitCode_front hst hap hext hw32)) fun y hy => ?_
  obtain ⟨gy, -, hexty⟩ := emitCode_grew hext hw32 hy
  have hsty : y.coder.storage.toNat ≤ hw.fbufBytes := by rw [gy.storage]; exact hst
  refine hasResult_bind (flushPending_hasResult hsty (gy.apart hap) hexty hw32) fun z hz => ?_
  have gz := gy.trans (flushPending_ok hexty hw32 hz).1
  have hstz : z.coder.storage.toNat ≤ hw.fbufBytes := by rw [gz.storage]; exact hst
  have hapz := gz.apart hap
  refine hasResult_bind (drainWindow_hasResult hstz hapz) fun d hdrain => ?_
  have hstd : d.coder.storage.toNat ≤ hw.fbufBytes := by rw [(drainWindow_ok (by omega) hdrain).1]; exact hstz
  refine hasResult_bind (hasResult_of_ok (zeroGap_room hstd)) fun g hg => ?_
  have hstg : g.coder.storage.toNat ≤ hw.fbufBytes := by rw [(zeroGap_ok hg).1]; exact hstd
  exact hasResult_bind (orLastBits_hasResult hstg) fun _ _ => hasResult_ok _

theorem rcDecInit_hasResult {n : Nat} {m : Memory} (hl : hw.legal = true) (hn : n ≤ hw.fbufBytes) :
    hasResult (rcDecInit hw n m) := by
  have hfb := Params.legal_fbufBytes hl
  obtain ⟨c, hc, -⟩ := rcDecInit_ok (m := m) hn (by omega)
  exact hasResult_of_ok ⟨_, hc⟩

/-- The quotient of a normalized interval by a legal `ft` is not zero (R133). -/
theorem rcDecode_hasResult {ft : Nat} {c : Coder} (hc : c.ok hw) (hr : c.ready .decode) (h1 : 1 ≤ ft)
    (h2 : ft ≤ 65536) : hasResult (rcDecode ft c) := by
  obtain ⟨hi, hd, -⟩ := hr
  obtain ⟨-, -, heq⟩ := rcDecode_ok h1 h2 (hc.decoder hi hd).rng_gt
  exact hasResult_of_ok ⟨_, heq⟩

/-- Three passes renormalize what the committed symbol leaves of the interval (R131, R134). -/
theorem rcUpdate_hasResult {fl fh ft : Nat} (hx : x.coder.ok hw) (hr : x.coder.ready .decode)
    (hp : x.coder.dpend = true) (hft : x.coder.dft.toNat = ft) (h2 : fh ≤ ft) (hlo : fl ≤ x.coder.dfs.toNat)
    (hhi : x.coder.dfs.toNat < fh) : hasResult (rcUpdate hw fl fh ft x) := by
  subst hft
  obtain ⟨hi, hd, -⟩ := hr
  obtain ⟨hgt, -, hlt, hst, ho, -, -, hrec, -⟩ := hx.decoder hi hd
  obtain ⟨hft1, hft2, hdq, hdfs⟩ := hrec hp
  have hq : 0 < x.coder.dq.toNat := by rw [hdq]; exact (rcDecode_ok (c := x.coder) hft1 hft2 hgt).1
  have h1 : fl < fh := lt_of_le_of_lt hlo hhi
  rw [hdfs] at hlo hhi
  obtain ⟨hin, hin'⟩ := symbol_in_interval hq hdq hlt h2 hlo hhi
  obtain ⟨y, hy, -⟩ := rcUpdate_ok hft2 h1 h2 hst ho hgt hdq hin hin'
  exact hasResult_of_ok ⟨y, hy⟩

theorem rcDecBits_hasResult {n : Nat} (hx : x.coder.ok hw) (hr : x.coder.ready .decode) (hn : n ≤ 25) :
    hasResult (rcDecBits hw n x) := by
  obtain ⟨hi, hd, -⟩ := hr
  obtain ⟨-, -, -, hst, -, he, ⟨hu, hwin, -⟩, -⟩ := hx.decoder hi hd
  obtain ⟨c, hc, -⟩ := rcDecBits_ok hn hst he hu hwin
  exact hasResult_of_ok ⟨_, hc⟩

end Coder

/-- The number of symbols of a legal angle resolution is a legal `ft` (R208, R212). -/
theorem symbols_le {qb : Byte} (h : decide (lowFourBits qb ≤ Config.qbMax) = true) :
    2 ^ lowFourBits qb + 1 ≤ 65536 := by
  have hpow : 2 ^ lowFourBits qb ≤ 2 ^ 14 := Nat.pow_le_pow_right (by norm_num) (of_decide_eq_true h)
  omega

/-! ### Every command reaches a next state -/

section Command

variable {s : State}

/-- The outcome is a next state: neither a fault of the model nor a refusal. -/
def reachesNext (o : Host.Outcome State Fault Refusal) : Prop := ∃ t, o = .next t

/-- A command whose pseudocode has a result completes or takes a fault (R262). -/
theorem perform_reachesNext {i : Instr} {touched : List Nat} {body : Run State} (h : hasResult body) :
    reachesNext (perform i touched body s) := by
  cases body with
  | ok u => exact ⟨_, perform_ok rfl⟩
  | error e =>
    cases e with
    | raised c => exact ⟨_, perform_raised rfl⟩
    | undefined f => exact absurd rfl (h f)

theorem execRcEncode_reachesNext (hs : s.DataOk) : reachesNext (execRcEncode s) := by
  refine perform_reachesNext <| hasResult_rcReq fun hr => hasResult_check fun hops => ?_
  simp only [Bool.and_eq_true, decide_eq_true_eq] at hops
  obtain ⟨⟨⟨-, hft⟩, hlt⟩, hle⟩ := hops
  exact hasResult_bind (rcEncode_hasResult hs.legal hs.coder hr hlt hle hft) fun _ _ => hasResult_ok _

theorem execRcEncBits_reachesNext (hs : s.DataOk) (n : Byte) : reachesNext (execRcEncBits n s) :=
  perform_reachesNext <| hasResult_rcReq fun hr => hasResult_check fun _ =>
    hasResult_bind (rcEncBits_hasResult hs.coder hr) fun _ _ => hasResult_ok _

theorem execRcEncDone_reachesNext (hs : s.DataOk) : reachesNext (execRcEncDone s) :=
  perform_reachesNext <| hasResult_rcReq fun hr =>
    hasResult_bind (rcEncDone_hasResult hs.legal hs.coder hr) fun _ _ => hasResult_ok _

/-- The shift of R140 is by at least 0, since RC_RNG has more than 16 bits (R34). -/
theorem execRcTell_reachesNext (hs : s.DataOk) (g : Byte) : reachesNext (execRcTell g s) := by
  refine perform_reachesNext <| hasResult_check fun hi => hasResult_check fun _ => ?_
  obtain ⟨hint, -⟩ := hs.coder
  obtain ⟨hgt, hle, -⟩ := hint hi
  have hlog := (ilog_range hgt hle).1
  rw [if_neg (by omega)]
  exact hasResult_ok _

theorem execRcDecInit_reachesNext (hs : s.DataOk) : reachesNext (execRcDecInit s) :=
  perform_reachesNext <| hasResult_check fun hfits =>
    hasResult_bind (rcDecInit_hasResult hs.legal (of_decide_eq_true hfits)) fun _ _ => hasResult_ok _

theorem execRcDecode_reachesNext (hs : s.DataOk) : reachesNext (execRcDecode s) := by
  refine perform_reachesNext <| hasResult_rcReq fun hr => hasResult_check fun hops => ?_
  simp only [Bool.and_eq_true, decide_eq_true_eq] at hops
  obtain ⟨h1, h2⟩ := hops
  exact hasResult_bind (rcDecode_hasResult hs.coder hr h1 h2) fun _ _ => hasResult_ok _

theorem execRcDecUpdate_reachesNext (hs : s.DataOk) : reachesNext (execRcDecUpdate s) := by
  refine perform_reachesNext <| hasResult_rcReq fun hr => hasResult_check fun hrec => hasResult_check fun hops =>
    hasResult_check fun hsym => hasResult_bind ?_ fun _ _ => hasResult_ok _
  simp only [Bool.and_eq_true, decide_eq_true_eq] at hrec hops hsym
  obtain ⟨hp, hft⟩ := hrec
  obtain ⟨-, hle⟩ := hops
  obtain ⟨hlo, hhi⟩ := hsym
  exact rcUpdate_hasResult hs.coder hr hp (congrArg BitVec.toNat hft.symm) hle hlo hhi

theorem execRcDecBits_reachesNext (hs : s.DataOk) (n : Byte) : reachesNext (execRcDecBits n s) := by
  refine perform_reachesNext <| hasResult_rcReq fun hr => hasResult_check fun hops => ?_
  simp only [Bool.and_eq_true, decide_eq_true_eq] at hops
  exact hasResult_bind (rcDecBits_hasResult hs.coder hr hops.2) fun _ _ => hasResult_ok _

/-- ST_THETA_ENC codes one of the `2^qb + 1` symbols of R208, a legal one (R212). -/
theorem execStThetaEnc_reachesNext (hs : s.DataOk) (b qb : Byte) : reachesNext (execStThetaEnc b qb s) := by
  refine perform_reachesNext <| hasResult_stReq <| hasResult_rcReq fun hr => hasResult_check fun _ =>
    hasResult_check fun hq => hasResult_bind ?_ fun _ _ => hasResult_ok _
  have htq := quantize_le (lowFourBits qb)
    (angleFn_le s.hw.angle (s.mem.magnitude b.toNat 1) (s.mem.magnitude b.toNat 0))
  exact rcEncode_hasResult hs.legal hs.coder hr (Nat.lt_succ_self _) (Nat.succ_le_succ htq) (symbols_le hq)

/-- The symbol ST_THETA_DEC commits is the one it decoded (R213). -/
theorem execStThetaDec_reachesNext (hs : s.DataOk) (b qb : Byte) : reachesNext (execStThetaDec b qb s) := by
  refine perform_reachesNext <| hasResult_stReq <| hasResult_rcReq fun hr => hasResult_check fun _ =>
    hasResult_check fun hq => ?_
  have hft1 : 1 ≤ 2 ^ lowFourBits qb + 1 := Nat.le_add_left 1 _
  refine hasResult_bind (rcDecode_hasResult hs.coder hr hft1 (symbols_le hq)) fun r hx => ?_
  obtain ⟨hc, hr', hp, hft, hfs, hlt⟩ := rcDecode_keeps_ok hs.coder hr hft1 (symbols_le hq) hx
  exact hasResult_bind (rcUpdate_hasResult (x := { coder := r.2, mem := s.mem }) hc hr' hp hft hlt hfs.ge
    (by rw [hfs]; exact Nat.lt_succ_self _)) fun _ _ => hasResult_ok _

theorem execStSign2Enc_reachesNext (hs : s.DataOk) (b : Byte) : reachesNext (execStSign2Enc b s) := by
  refine perform_reachesNext <| hasResult_stReq <| hasResult_rcReq fun hr => hasResult_check fun _ =>
    hasResult_check fun _ => ?_
  split_ifs with hedge
  · exact hasResult_bind (rcEncBits_hasResult hs.coder hr) fun _ _ => hasResult_ok _
  · exact hasResult_ok _

theorem execStSign2Dec_reachesNext (hs : s.DataOk) (b : Byte) : reachesNext (execStSign2Dec b s) := by
  refine perform_reachesNext <| hasResult_stReq <| hasResult_rcReq fun hr => hasResult_check fun _ =>
    hasResult_check fun _ => ?_
  split_ifs with hedge
  · exact hasResult_bind (rcDecBits_hasResult hs.coder hr (by norm_num)) fun _ _ => hasResult_ok _
  · exact hasResult_ok _

/-- Every command reaches a next state: those that do not code end after their checks. -/
theorem exec_reachesNext (hs : s.DataOk) (i : Instr) : reachesNext (exec i s) := by
  have hdone {t : State} : hasResult (.ok t : Run State) := hasResult_ok t
  cases i with
  | nop => exact ⟨s.complete, rfl⟩
  | rcEncInit => exact perform_reachesNext <| hasResult_check fun _ => hdone
  | rcEncode => exact execRcEncode_reachesNext hs
  | rcEncBits n => exact execRcEncBits_reachesNext hs n
  | rcEncDone => exact execRcEncDone_reachesNext hs
  | rcTell g => exact execRcTell_reachesNext hs g
  | rcDecInit => exact execRcDecInit_reachesNext hs
  | rcDecode => exact execRcDecode_reachesNext hs
  | rcDecUpdate => exact execRcDecUpdate_reachesNext hs
  | rcDecBits n => exact execRcDecBits_reachesNext hs n
  | beCompute => exact perform_reachesNext <| hasResult_check fun _ => hdone
  | beNormalise => exact perform_reachesNext <| hasResult_check fun _ => hasResult_check fun _ => hdone
  | beDenormalise => exact perform_reachesNext <| hasResult_check fun _ => hdone
  | beRenormAll => exact perform_reachesNext <| hasResult_check fun _ => hdone
  | beRenormBand b k => exact perform_reachesNext <| hasResult_check fun _ => hasResult_check fun _ => hdone
  | stMix b k => exact perform_reachesNext <| hasResult_stReq <| hasResult_check fun _ => hdone
  | stQb b => exact perform_reachesNext <| hasResult_stReq <| hasResult_check fun _ => hdone
  | stThetaEnc b qb => exact execStThetaEnc_reachesNext hs b qb
  | stThetaDec b qb => exact execStThetaDec_reachesNext hs b qb
  | stSplit b => exact perform_reachesNext <| hasResult_stReq <| hasResult_check fun _ => hdone
  | stScale b => exact perform_reachesNext <| hasResult_stReq <| hasResult_check fun _ => hdone
  | stSign2Enc b => exact execStSign2Enc_reachesNext hs b
  | stSign2Dec b => exact execStSign2Dec_reachesNext hs b
  | stSign2Rebuild b =>
    exact perform_reachesNext <| hasResult_stReq <| hasResult_check fun _ => hasResult_check fun _ => hdone

/-- The engine waits, performs the decoded command, or takes ILLEGAL_CMD (R21, R95, R293). -/
theorem engineStep_reachesNext (hs : s.DataOk) : reachesNext (engineStep s) := by
  unfold engineStep
  split
  · exact ⟨_, rfl⟩
  · split
    · exact exec_reachesNext hs _
    · exact ⟨_, rfl⟩

/-- A host access always has an effect, and else the engine goes on (R20, R71). -/
theorem step_reachesNext (hs : s.DataOk) : reachesNext (step s) := by
  unfold step
  split
  · exact engineStep_reachesNext hs
  · split_ifs
    · exact ⟨_, rfl⟩
    · exact engineStep_reachesNext hs

end Command

end Sys2Proof.Machine

namespace Sys2Proof

open Machine

/-- Settles O26: under the invariant every operation of the coder stays inside its frame and its renormalization ends,
so a command completes or takes a fault of R261, and an access or an illegal word has its own next state. -/
theorem machineNeverStops : Obligations.MachineNeverStops := fun _ hs => step_reachesNext (State.ok_iff.1 hs).1

end Sys2Proof

/-! ## Which registers a command may write (R22, R33, R36, R93, R251) -/

namespace Sys2Proof.Machine

/-! ### Memory above the BAND window (R63) -/

/-- The addresses of the energy bank, FBUF, SIG and NORM: all that stands above the BAND window. -/
def aboveBands : Nat → Prop := fun a => 0x0800 ≤ a

theorem frameRange_aboveBands {lo hi a : Nat} (h : frameRange lo hi a) : aboveBands a := by
  unfold frameRange fbufAddr at h
  unfold aboveBands
  omega

theorem normElems_aboveBands {ks : List Nat} {a : Nat} (h : normElems ks a) : aboveBands a := by
  obtain ⟨k, -, h⟩ := h
  unfold normAddr at h
  unfold aboveBands
  omega

theorem sigElems_aboveBands {ks : List Nat} {a : Nat} (h : sigElems ks a) : aboveBands a := by
  obtain ⟨k, -, h, -⟩ := h
  unfold sigAddr at h
  unfold aboveBands
  omega

theorem enerElems_aboveBands {ps : List (Nat × Nat)} {a : Nat} (h : enerElems ps a) : aboveBands a := by
  obtain ⟨p, -, h, -⟩ := h
  unfold enerAddr at h
  unfold aboveBands
  omega

/-- A memory that differs above the BAND window alone has the same band boundaries. -/
theorem band_sameBut {m m' : Memory} (h : m.sameBut m' aboveBands) {k : Nat} (hk : k < 256) : m'.band k = m.band k := by
  have hlow : ¬ aboveBands (bandAddr k) := by unfold aboveBands bandAddr; omega
  have hhigh : ¬ aboveBands (bandAddr k + 1) := by unfold aboveBands bandAddr; omega
  unfold Memory.band Memory.half
  rw [h _ hlow, h _ hhigh]

theorem setNorms_aboveBands (m : Memory) (ws : List (Nat × Int)) : m.sameBut (m.setNorms ws) aboveBands :=
  fun a ha => Memory.byte_setNorms_other m ws a (fun h => ha (normElems_aboveBands h))

theorem setSigs_aboveBands (m : Memory) (ws : List (Nat × Int)) : m.sameBut (m.setSigs ws) aboveBands :=
  fun a ha => Memory.byte_setSigs_other m ws a (fun h => ha (sigElems_aboveBands h))

theorem setEners_aboveBands (m : Memory) (ws : List ((Nat × Nat) × Int)) : m.sameBut (m.setEners ws) aboveBands :=
  fun a ha => Memory.byte_setEners_other m ws a (fun h => ha (enerElems_aboveBands h))

/-- The coder's stores are all above the BAND window (R65, R72). -/
theorem aboveBands_keptByFrameStores (hw : Params) (m : Memory) :
    keptByFrameStores hw (fun m' => m.sameBut m' aboveBands) := by
  intro m' i b _ h
  refine Memory.sameBut_trans h (Memory.sameBut_setByte ?_)
  unfold aboveBands fbufAddr
  omega

/-- The decoder's renormalization writes no memory (R130, R131). -/
theorem decNormalizeLoop_mem {hw : Params} {n : Nat} {x y : Rc} (h : decNormalizeLoop hw n x = .ok y) :
    y.mem = x.mem := by
  induction n generalizing x with
  | zero =>
    unfold decNormalizeLoop at h
    split_ifs at h
    cases h; rfl
  | succ n ih =>
    unfold decNormalizeLoop at h
    split_ifs at h
    · obtain ⟨r, -, h⟩ := run_bind_eq_ok.1 h
      have hmem := ih h
      exact hmem
    · cases h; rfl

theorem rcUpdate_mem {hw : Params} {fl fh ft : Nat} {x y : Rc} (h : rcUpdate hw fl fh ft x = .ok y) :
    y.mem = x.mem := by
  have hmem := decNormalizeLoop_mem h
  exact hmem

theorem rcDecInit_mem {hw : Params} {n : Nat} {m : Memory} {y : Rc} (h : rcDecInit hw n m = .ok y) : y.mem = m := by
  obtain ⟨r, -, h⟩ := run_bind_eq_ok.1 h
  exact decNormalizeLoop_mem h

/-! ### What a command's rule names -/

/-- The commands whose rule writes RES0 (R93). -/
def res0Writers : List String :=
  ["RC_TELL", "RC_DECODE", "RC_DEC_BITS", "ST_QB", "ST_THETA_ENC", "ST_THETA_DEC", "ST_SPLIT", "ST_SIGN2_ENC",
    "ST_SIGN2_DEC"]

/-- The commands whose rule writes the stereo registers (R36). -/
def stereoWriters : List String := ["ST_THETA_ENC", "ST_THETA_DEC", "ST_SIGN2_ENC", "ST_SIGN2_DEC"]

/-- The command codes or starts a frame, so that its rule writes the coder's registers (R33). -/
def writesCoder (i : Instr) : Prop := i.direction.isSome = true ∨ i = .rcEncInit ∨ i = .rcDecInit

/-- From `s` to `t` no register changed but STATUS, FAULT_CMD and those the rule of `i` names, and no memory in or below
the BAND window. -/
structure WritesNamed (i : Instr) (s t : State) : Prop where
  kept : t.regs.irqEn = s.regs.irqEn ∧ t.regs.arg0 = s.regs.arg0 ∧ t.regs.arg1 = s.regs.arg1 ∧
    t.regs.arg2 = s.regs.arg2 ∧ t.regs.cfgChannels = s.regs.cfgChannels ∧ t.regs.cfgNbands = s.regs.cfgNbands ∧
    t.regs.cfgFrameLen = s.regs.cfgFrameLen ∧ t.hw = s.hw ∧ t.port = s.port ∧ t.replies = s.replies
  mem : s.mem.sameBut t.mem aboveBands
  res0 : t.regs.res0 ≠ s.regs.res0 → i.mnemonic ∈ res0Writers
  res1 : t.regs.res1 ≠ s.regs.res1 → i.mnemonic = "ST_SPLIT"
  coder : t.regs.rc ≠ s.regs.rc → writesCoder i
  stereo : t.regs.st ≠ s.regs.st → i.mnemonic ∈ stereoWriters

namespace WritesNamed

variable {i : Instr} {s t : State}

theorem refl (i : Instr) (s : State) : WritesNamed i s s where
  kept := ⟨rfl, rfl, rfl, rfl, rfl, rfl, rfl, rfl, rfl, rfl⟩
  mem := Memory.sameBut_refl _ _
  res0 h := absurd rfl h
  res1 h := absurd rfl h
  coder h := absurd rfl h
  stereo h := absurd rfl h

/-- A command that writes memory elements alone. -/
theorem elements {m : Memory} (hm : s.mem.sameBut m aboveBands) : WritesNamed i s { s with mem := m } :=
  { refl i s with mem := hm }

/-- A command that writes a result alone. -/
theorem result (hi : i.mnemonic ∈ res0Writers) {v : Word} :
    WritesNamed i s { s with regs := { s.regs with res0 := v } } :=
  { refl i s with res0 := fun _ => hi }

/-- ST_SPLIT, which writes both results (R216). -/
theorem results (h0 : i.mnemonic ∈ res0Writers) (h1 : i.mnemonic = "ST_SPLIT") {v w : Word} :
    WritesNamed i s { s with regs := { s.regs with res0 := v, res1 := w } } :=
  { refl i s with res0 := fun _ => h0, res1 := fun _ => h1 }

/-- A range coder command without a result. -/
theorem coded (hi : writesCoder i) {x : Rc} (hm : s.mem.sameBut x.mem aboveBands) : WritesNamed i s (s.putRc x) :=
  { refl i s with mem := hm, coder := fun _ => hi }

/-- A range coder command with a result. -/
theorem decoded (hi : writesCoder i) (h0 : i.mnemonic ∈ res0Writers) {c : Coder} {v : Word} :
    WritesNamed i s { s with regs := { s.regs with rc := c, res0 := v } } :=
  { refl i s with res0 := fun _ => h0, coder := fun _ => hi }

/-- A stereo command that codes. -/
theorem stereoCoded (hi : writesCoder i) (h0 : i.mnemonic ∈ res0Writers) (hst : i.mnemonic ∈ stereoWriters) {c : Coder}
    {v : Word} {st : Stereo} {m : Memory} (hm : s.mem.sameBut m aboveBands) :
    WritesNamed i s { s with regs := { s.regs with rc := c, res0 := v, st := st }, mem := m } :=
  { refl i s with mem := hm, res0 := fun _ => h0, coder := fun _ => hi, stereo := fun _ => hst }

theorem complete (h : WritesNamed i s t) : WritesNamed i s t.complete := { h with }

theorem faultEntry (h : WritesNamed i s t) (c : FaultCode) (w : Word) {touched : List Nat}
    (ht : ∀ a ∈ touched, aboveBands a) : WritesNamed i s (faultEntry c w touched t) :=
  { h with mem := Memory.sameBut_trans h.mem (Memory.sameBut_unspecify _ _ ht) }

end WritesNamed

/-! ### The bytes a fault leaves unspecified are above the BAND window (R270) -/

section Command

variable {s : State}

theorem frameBytes_aboveBands : ∀ a ∈ s.frameBytes, aboveBands a :=
  fun _ h => frameRange_aboveBands (frameBytes_inside h)

theorem bandNormBytes_aboveBands {b : Nat} : ∀ a ∈ s.bandNormBytes b, aboveBands a :=
  fun _ h => normElems_aboveBands (bandNormBytes_inside h)

theorem coveredNormBytes_aboveBands : ∀ a ∈ s.coveredNormBytes, aboveBands a :=
  fun _ h => normElems_aboveBands (coveredNormBytes_inside h)

theorem coveredSigBytes_aboveBands : ∀ a ∈ s.coveredSigBytes, aboveBands a :=
  fun _ h => sigElems_aboveBands (coveredSigBytes_inside h)

theorem coveredEnerBytes_aboveBands : ∀ a ∈ s.coveredEnerBytes, aboveBands a :=
  fun _ h => enerElems_aboveBands (coveredEnerBytes_inside h)

/-! ### Every command writes what its rule names -/

/-- Every next state the outcome can be differs from `s` in what the rule of `i` names. -/
def nextWritesNamed (i : Instr) (s : State) (o : Host.Outcome State Fault Refusal) : Prop :=
  ∀ t, o = .next t → WritesNamed i s t

/-- A command writes what its pseudocode does, or the fault it raised (R270). -/
theorem perform_nextWritesNamed {i : Instr} {touched : List Nat} {body : Run State}
    (ht : ∀ a ∈ touched, aboveBands a) (hb : yields body (WritesNamed i s)) :
    nextWritesNamed i s (perform i touched body s) := by
  intro t hnext
  rcases perform_eq_next.1 hnext with ⟨u, hu, rfl⟩ | ⟨c, -, rfl⟩
  · exact (hb u hu).complete
  · exact (WritesNamed.refl i s).faultEntry c _ ht

/-- What is left of a coder command after its checks: a coder operation, written back (R33). -/
theorem yields_putRc {i : Instr} (hi : writesCoder i) {x : Run Rc}
    (hx : ∀ y, x = .ok y → s.mem.sameBut y.mem aboveBands) :
    yields (x >>= fun y => .ok (s.putRc y)) (WritesNamed i s) :=
  yields_bind fun y hy => yields_ok (.coded hi (hx y hy))

/-- What is left of a command that writes memory elements alone, after its checks. -/
theorem yields_setMem {i : Instr} {m : Memory} (hm : s.mem.sameBut m aboveBands) :
    yields (.ok { s with mem := m }) (WritesNamed i s) :=
  yields_ok (.elements hm)

theorem execRcEncInit_nextWritesNamed : nextWritesNamed .rcEncInit s (execRcEncInit s) :=
  perform_nextWritesNamed frameBytes_aboveBands <| yields_check fun _ =>
    yields_ok (.coded (.inr (.inl rfl)) (Memory.sameBut_refl _ _))

theorem execRcEncode_nextWritesNamed : nextWritesNamed .rcEncode s (execRcEncode s) :=
  perform_nextWritesNamed frameBytes_aboveBands <| yields_rcReq fun _ => yields_check fun _ =>
    yields_putRc (.inl rfl) fun _ hx => rcEncode_keeps (aboveBands_keptByFrameStores s.hw s.mem) hx
      (Memory.sameBut_refl _ _)

theorem execRcEncBits_nextWritesNamed (n : Byte) : nextWritesNamed (.rcEncBits n) s (execRcEncBits n s) :=
  perform_nextWritesNamed frameBytes_aboveBands <| yields_rcReq fun _ => yields_check fun _ =>
    yields_putRc (.inl rfl) fun _ hx => rcEncBits_keeps (aboveBands_keptByFrameStores s.hw s.mem) hx
      (Memory.sameBut_refl _ _)

theorem execRcEncDone_nextWritesNamed : nextWritesNamed .rcEncDone s (execRcEncDone s) :=
  perform_nextWritesNamed frameBytes_aboveBands <| yields_rcReq fun _ =>
    yields_putRc (.inl rfl) fun _ hx => rcEncDone_keeps (aboveBands_keptByFrameStores s.hw s.mem) hx
      (Memory.sameBut_refl _ _)

theorem execRcTell_nextWritesNamed (g : Byte) : nextWritesNamed (.rcTell g) s (execRcTell g s) := by
  refine perform_nextWritesNamed frameBytes_aboveBands <| yields_check fun _ => yields_check fun _ => ?_
  split_ifs
  · exact yields_error _
  · exact yields_ok (WritesNamed.result (by simp [Instr.mnemonic, res0Writers]))

theorem execRcDecInit_nextWritesNamed : nextWritesNamed .rcDecInit s (execRcDecInit s) :=
  perform_nextWritesNamed frameBytes_aboveBands <| yields_check fun _ =>
    yields_putRc (.inr (.inr rfl)) fun _ hx => by rw [rcDecInit_mem hx]; exact Memory.sameBut_refl _ _

theorem execRcDecode_nextWritesNamed : nextWritesNamed .rcDecode s (execRcDecode s) :=
  perform_nextWritesNamed frameBytes_aboveBands <| yields_rcReq fun _ => yields_check fun _ =>
    yields_bind fun _ _ => yields_ok (.decoded (.inl rfl) (by simp [Instr.mnemonic, res0Writers]))

theorem execRcDecUpdate_nextWritesNamed : nextWritesNamed .rcDecUpdate s (execRcDecUpdate s) :=
  perform_nextWritesNamed frameBytes_aboveBands <| yields_rcReq fun _ => yields_check fun _ => yields_check fun _ =>
    yields_check fun _ => yields_putRc (.inl rfl) fun _ hx => by
      rw [rcUpdate_mem hx]; exact Memory.sameBut_refl _ _

theorem execRcDecBits_nextWritesNamed (n : Byte) : nextWritesNamed (.rcDecBits n) s (execRcDecBits n s) :=
  perform_nextWritesNamed frameBytes_aboveBands <| yields_rcReq fun _ => yields_check fun _ =>
    yields_bind fun _ _ => yields_ok (.decoded (.inl rfl) (by simp [Instr.mnemonic, res0Writers]))

theorem execBeCompute_nextWritesNamed : nextWritesNamed .beCompute s (execBeCompute s) :=
  perform_nextWritesNamed coveredEnerBytes_aboveBands <| yields_check fun _ =>
    yields_setMem (setEners_aboveBands _ _)

theorem execBeNormalise_nextWritesNamed : nextWritesNamed .beNormalise s (execBeNormalise s) :=
  perform_nextWritesNamed coveredNormBytes_aboveBands <| yields_check fun _ => yields_check fun _ =>
    yields_setMem (setNorms_aboveBands _ _)

theorem execBeDenormalise_nextWritesNamed : nextWritesNamed .beDenormalise s (execBeDenormalise s) :=
  perform_nextWritesNamed coveredSigBytes_aboveBands <| yields_check fun _ =>
    yields_setMem (setSigs_aboveBands _ _)

theorem execBeRenormAll_nextWritesNamed : nextWritesNamed .beRenormAll s (execBeRenormAll s) :=
  perform_nextWritesNamed coveredNormBytes_aboveBands <| yields_check fun _ =>
    yields_setMem (setNorms_aboveBands _ _)

theorem execBeRenormBand_nextWritesNamed (b k : Byte) :
    nextWritesNamed (.beRenormBand b k) s (execBeRenormBand b k s) :=
  perform_nextWritesNamed bandNormBytes_aboveBands <| yields_check fun _ => yields_check fun _ =>
    yields_setMem (setNorms_aboveBands _ _)

theorem execStMix_nextWritesNamed (b k : Byte) : nextWritesNamed (.stMix b k) s (execStMix b k s) :=
  perform_nextWritesNamed bandNormBytes_aboveBands <| yields_stReq fun _ => yields_check fun _ =>
    yields_setMem (setNorms_aboveBands _ _)

theorem execStQb_nextWritesNamed (b : Byte) : nextWritesNamed (.stQb b) s (execStQb b s) :=
  perform_nextWritesNamed nofun <| yields_stReq fun _ => yields_check fun _ =>
    yields_ok (WritesNamed.result (by simp [Instr.mnemonic, res0Writers]))

theorem execStThetaEnc_nextWritesNamed (b qb : Byte) :
    nextWritesNamed (.stThetaEnc b qb) s (execStThetaEnc b qb s) := by
  refine perform_nextWritesNamed frameBytes_aboveBands <| yields_stReq fun _ => yields_rcReq fun _ =>
    yields_check fun _ => yields_check fun _ => yields_bind fun x hx => yields_ok ?_
  have hmem := rcEncode_keeps (aboveBands_keptByFrameStores s.hw s.mem) hx (Memory.sameBut_refl _ _)
  exact .stereoCoded (.inl rfl) (by simp [Instr.mnemonic, res0Writers])
    (by simp [Instr.mnemonic, stereoWriters]) hmem

theorem execStThetaDec_nextWritesNamed (b qb : Byte) : nextWritesNamed (.stThetaDec b qb) s (execStThetaDec b qb s) :=
  perform_nextWritesNamed frameBytes_aboveBands <| yields_stReq fun _ => yields_rcReq fun _ =>
    yields_check fun _ => yields_check fun _ => yields_bind fun _ _ => yields_bind fun _ _ => yields_ok <|
      .stereoCoded (.inl rfl) (by simp [Instr.mnemonic, res0Writers])
        (by simp [Instr.mnemonic, stereoWriters]) (Memory.sameBut_refl _ _)

theorem execStSplit_nextWritesNamed (b : Byte) : nextWritesNamed (.stSplit b) s (execStSplit b s) :=
  perform_nextWritesNamed nofun <| yields_stReq fun _ => yields_check fun _ => yields_ok <|
    .results (by simp [Instr.mnemonic, res0Writers]) rfl

theorem execStScale_nextWritesNamed (b : Byte) : nextWritesNamed (.stScale b) s (execStScale b s) :=
  perform_nextWritesNamed bandNormBytes_aboveBands <| yields_stReq fun _ => yields_check fun _ =>
    yields_setMem (setNorms_aboveBands _ _)

theorem execStSign2Enc_nextWritesNamed (b : Byte) : nextWritesNamed (.stSign2Enc b) s (execStSign2Enc b s) := by
  refine perform_nextWritesNamed frameBytes_aboveBands <| yields_stReq fun _ => yields_rcReq fun _ =>
    yields_check fun _ => yields_check fun _ => ?_
  split_ifs
  · exact yields_bind fun x hx => yields_ok <| .stereoCoded (.inl rfl) (by simp [Instr.mnemonic, res0Writers])
      (by simp [Instr.mnemonic, stereoWriters]) <|
      rcEncBits_keeps (aboveBands_keptByFrameStores s.hw s.mem) hx (Memory.sameBut_refl _ _)
  · exact yields_ok <| .stereoCoded (.inl rfl) (by simp [Instr.mnemonic, res0Writers])
      (by simp [Instr.mnemonic, stereoWriters]) (Memory.sameBut_refl _ _)

theorem execStSign2Dec_nextWritesNamed (b : Byte) : nextWritesNamed (.stSign2Dec b) s (execStSign2Dec b s) := by
  refine perform_nextWritesNamed frameBytes_aboveBands <| yields_stReq fun _ => yields_rcReq fun _ =>
    yields_check fun _ => yields_check fun _ => ?_
  split_ifs
  · exact yields_bind fun _ _ => yields_ok <| .stereoCoded (.inl rfl) (by simp [Instr.mnemonic, res0Writers])
      (by simp [Instr.mnemonic, stereoWriters]) (Memory.sameBut_refl _ _)
  · exact yields_ok <| .stereoCoded (.inl rfl) (by simp [Instr.mnemonic, res0Writers])
      (by simp [Instr.mnemonic, stereoWriters]) (Memory.sameBut_refl _ _)

theorem execStSign2Rebuild_nextWritesNamed (b : Byte) :
    nextWritesNamed (.stSign2Rebuild b) s (execStSign2Rebuild b s) :=
  perform_nextWritesNamed bandNormBytes_aboveBands <| yields_stReq fun _ => yields_check fun _ =>
    yields_check fun _ => yields_setMem (setNorms_aboveBands _ _)

theorem execNop_nextWritesNamed : nextWritesNamed .nop s (execNop s) :=
  perform_nextWritesNamed nofun (yields_ok (WritesNamed.refl _ s))

end Command

/-- Every command writes what its own rule names, in whatever state it is performed. -/
theorem exec_nextWritesNamed (i : Instr) (s : State) : nextWritesNamed i s (exec i s) := by
  cases i with
  | nop => exact execNop_nextWritesNamed
  | rcEncInit => exact execRcEncInit_nextWritesNamed
  | rcEncode => exact execRcEncode_nextWritesNamed
  | rcEncBits n => exact execRcEncBits_nextWritesNamed n
  | rcEncDone => exact execRcEncDone_nextWritesNamed
  | rcTell g => exact execRcTell_nextWritesNamed g
  | rcDecInit => exact execRcDecInit_nextWritesNamed
  | rcDecode => exact execRcDecode_nextWritesNamed
  | rcDecUpdate => exact execRcDecUpdate_nextWritesNamed
  | rcDecBits n => exact execRcDecBits_nextWritesNamed n
  | beCompute => exact execBeCompute_nextWritesNamed
  | beNormalise => exact execBeNormalise_nextWritesNamed
  | beDenormalise => exact execBeDenormalise_nextWritesNamed
  | beRenormAll => exact execBeRenormAll_nextWritesNamed
  | beRenormBand b k => exact execBeRenormBand_nextWritesNamed b k
  | stMix b k => exact execStMix_nextWritesNamed b k
  | stQb b => exact execStQb_nextWritesNamed b
  | stThetaEnc b qb => exact execStThetaEnc_nextWritesNamed b qb
  | stThetaDec b qb => exact execStThetaDec_nextWritesNamed b qb
  | stSplit b => exact execStSplit_nextWritesNamed b
  | stScale b => exact execStScale_nextWritesNamed b
  | stSign2Enc b => exact execStSign2Enc_nextWritesNamed b
  | stSign2Dec b => exact execStSign2Dec_nextWritesNamed b
  | stSign2Rebuild b => exact execStSign2Rebuild_nextWritesNamed b

end Sys2Proof.Machine

namespace Sys2Proof

open Machine

/-- Settles O9: a command that completes writes the registers of its rule and memory above the BAND window; one that
faults writes STATUS, FAULT_CMD and memory bytes that are above the BAND window too. -/
theorem onlyNamedRegistersChange : Obligations.OnlyNamedRegistersChange := by
  intro i s t hnext
  obtain ⟨hkept, hmem, hres0, hres1, hcoder, hstereo⟩ := exec_nextWritesNamed i s t hnext
  exact ⟨hkept, fun _ hk => band_sameBut hmem hk, hres0, hres1, hcoder, hstereo⟩

end Sys2Proof

/-! ## Which bytes the engine and the host may store (R65, R70, R72, R270) -/

namespace Sys2Proof.Machine

/-! ### Byte stores inside a set of addresses -/

/-- `m'` is `m` after byte stores, each at an address of `A`. -/
inductive Memory.StoresIn (A : Nat → Prop) (m : Memory) : Memory → Prop
  | refl : Memory.StoresIn A m m
  | store {m' : Memory} {a : Nat} {b : Byte} : Memory.StoresIn A m m' → A a → Memory.StoresIn A m (m'.setByte a b)

/-- Every listed byte belongs to an element that a block with these parameters implements (R72). -/
def Memory.inside (hw : Params) (m : Memory) : Prop := ∀ p ∈ m.cells, implemented hw p.1 = true

namespace Memory.StoresIn

variable {A B : Nat → Prop} {m m' m'' : Memory}

theorem trans (h : m.StoresIn A m') (h' : m'.StoresIn A m'') : m.StoresIn A m'' := by
  induction h' with
  | refl => exact h
  | store _ ha ih => exact ih.store ha

theorem mono (h : m.StoresIn A m') (hAB : ∀ a, A a → B a) : m.StoresIn B m' := by
  induction h with
  | refl => exact .refl
  | store _ ha ih => exact ih.store (hAB _ ha)

/-- Stores change the bytes they name alone. -/
theorem sameBut (h : m.StoresIn A m') : m.sameBut m' A := by
  induction h with
  | refl => exact Memory.sameBut_refl _ _
  | store _ ha ih => exact Memory.sameBut_trans ih (Memory.sameBut_setByte ha)

/-- Stores into implemented elements list implemented bytes alone (R72). -/
theorem inside {hw : Params} (h : m.StoresIn A m') (hA : ∀ a, A a → implemented hw a = true) (hm : m.inside hw) :
    m'.inside hw := by
  induction h with
  | refl => exact hm
  | store _ ha ih =>
    intro p hp
    rcases Memory.mem_setByte hp with h | h
    · rw [h]; exact hA _ ha
    · exact ih p h

theorem setByte {a : Nat} (b : Byte) (ha : A a) : m.StoresIn A (m.setByte a b) := refl.store ha

theorem setHalf {a : Nat} (v : Half) (h : ∀ x, x = a ∨ x = a + 1 → A x) : m.StoresIn A (m.setHalf a v) :=
  (setByte _ (h _ (.inl rfl))).store (h _ (.inr rfl))

theorem setWord {a : Nat} (v : Word) (h : ∀ x, a ≤ x ∧ x ≤ a + 3 → A x) : m.StoresIn A (m.setWord a v) :=
  (((setByte _ (h _ (by omega))).store (h _ (by omega))).store (h _ (by omega))).store (h _ (by omega))

/-- A list of stores, each inside the set. -/
theorem foldl {α : Type} {f : Memory → α → Memory} {ws : List α} (h : ∀ m : Memory, ∀ w ∈ ws, m.StoresIn A (f m w)) :
    m.StoresIn A (ws.foldl f m) :=
  foldl_keeps (m.StoresIn A) f ws m .refl fun _ w hw hm => hm.trans (h _ w hw)

theorem unspecify (n : Nat) {touched : List Nat} (h : ∀ a ∈ touched, A a) : m.StoresIn A (m.unspecify n touched) :=
  foldl fun _ a ha => setByte _ (h a ha)

end Memory.StoresIn

/-! ### The coder's stores: bytes of the frame, at indices the block implements (R37, R111 to R117) -/

/-- From `x` to `y` the frame size stayed and stores went to implemented bytes of the frame alone. -/
def StaysInFrame (hw : Params) (x y : Rc) : Prop :=
  y.coder.storage = x.coder.storage ∧ x.mem.StoresIn (frameRange 0 (min x.coder.storage.toNat hw.fbufBytes)) y.mem

section Frame

variable {hw : Params} {x y z : Rc}

theorem StaysInFrame.refl (x : Rc) : StaysInFrame hw x x := ⟨rfl, .refl⟩

theorem StaysInFrame.trans (h : StaysInFrame hw x y) (h' : StaysInFrame hw y z) : StaysInFrame hw x z := by
  obtain ⟨hst, hmem⟩ := h
  obtain ⟨hst', hmem'⟩ := h'
  rw [hst] at hst' hmem'
  exact ⟨hst', hmem.trans hmem'⟩

/-- Two stretches of pseudocode in a row. -/
theorem staysInFrame_bind {f : Run Rc} {g : Rc → Run Rc} (hf : yields f (StaysInFrame hw x))
    (hg : ∀ y, yields (g y) (StaysInFrame hw y)) : yields (f >>= g) (StaysInFrame hw x) :=
  yields_bind fun y hy z hz => (hf y hy).trans (hg y z hz)

/-- Nothing is stored, and the frame size stays. -/
theorem staysInFrame_registers (hst : y.coder.storage = x.coder.storage) (hm : y.mem = x.mem) :
    yields (.ok y) (StaysInFrame hw x) := yields_ok ⟨hst, by rw [hm]; exact .refl⟩

/-- One byte of the frame is stored. -/
theorem staysInFrame_setByte {i : Nat} {b : Byte} {c : Coder} (hst : c.storage = x.coder.storage)
    (hi : i < x.coder.storage.toNat) (hi' : i < hw.fbufBytes) :
    StaysInFrame hw x { coder := c, mem := x.mem.setByte (fbufAddr i) b } :=
  ⟨hst, .setByte b (by unfold frameRange fbufAddr; omega)⟩

theorem writeFront_staysInFrame (v : Nat) : yields (writeFront hw v x) (StaysInFrame hw x) := by
  intro y h
  obtain ⟨hroom, hi, rfl⟩ := writeFront_eq_ok.1 h
  exact staysInFrame_setByte rfl (by omega) hi

theorem writeEnd_staysInFrame (v : Nat) : yields (writeEnd hw v x) (StaysInFrame hw x) := by
  intro y h
  obtain ⟨hroom, hi, rfl⟩ := writeEnd_eq_ok.1 h
  exact staysInFrame_setByte rfl (by omega) hi

theorem flushRun_staysInFrame (v n : Nat) : yields (flushRun hw v n x) (StaysInFrame hw x) := by
  induction n generalizing x with
  | zero => exact yields_ok (.refl x)
  | succ n ih => exact staysInFrame_bind (writeFront_staysInFrame v) fun _ => ih

theorem carryOut_staysInFrame (c : Nat) : yields (carryOut hw c x) (StaysInFrame hw x) := by
  unfold carryOut
  split_ifs with hrun hfull hbuf
  · exact yields_error _
  · exact staysInFrame_registers rfl rfl
  · exact staysInFrame_bind (writeFront_staysInFrame _) fun _ =>
      staysInFrame_bind (flushRun_staysInFrame _ _) fun _ => staysInFrame_registers rfl rfl
  · exact staysInFrame_bind (staysInFrame_registers rfl rfl) fun _ =>
      staysInFrame_bind (flushRun_staysInFrame _ _) fun _ => staysInFrame_registers rfl rfl

theorem encNormalizeLoop_staysInFrame (n : Nat) : yields (encNormalizeLoop hw n x) (StaysInFrame hw x) := by
  induction n generalizing x with
  | zero =>
    unfold encNormalizeLoop
    split_ifs
    · exact yields_error _
    · exact yields_ok (.refl x)
  | succ n ih =>
    unfold encNormalizeLoop
    split_ifs
    · exact staysInFrame_bind (carryOut_staysInFrame _) fun _ => ih
    · exact yields_ok (.refl x)

theorem rcEncode_staysInFrame (fl fh ft : Nat) : yields (rcEncode hw fl fh ft x) (StaysInFrame hw x) := by
  intro y h
  obtain ⟨hst, hmem⟩ := encNormalizeLoop_staysInFrame 3 y h
  rw [encNarrow_storage] at hst hmem
  exact ⟨hst, hmem⟩

theorem drainWindow_staysInFrame (k w : Nat) : yields (drainWindow hw k w x) (StaysInFrame hw x) := by
  induction k generalizing w x with
  | zero => exact yields_ok (.refl x)
  | succ k ih => exact staysInFrame_bind (writeEnd_staysInFrame _) fun _ => ih _

theorem rcEncBits_staysInFrame (v n : Nat) : yields (rcEncBits hw v n x) (StaysInFrame hw x) :=
  yields_bind fun y hy => yields_ok (drainWindow_staysInFrame _ _ y hy)

theorem emitCode_staysInFrame (k e : Nat) : yields (emitCode hw k e x) (StaysInFrame hw x) := by
  induction k generalizing e x with
  | zero => exact yields_ok (.refl x)
  | succ k ih => exact staysInFrame_bind (carryOut_staysInFrame _) fun _ => ih _

theorem flushPending_staysInFrame : yields (flushPending hw x) (StaysInFrame hw x) := by
  unfold flushPending
  split_ifs
  · exact carryOut_staysInFrame 0
  · exact yields_ok (.refl x)

theorem zeroGap_staysInFrame : yields (zeroGap hw x) (StaysInFrame hw x) := by
  unfold zeroGap
  simp only
  split_ifs
  · exact yields_error _
  · refine yields_ok ⟨rfl, .foldl fun m i hi => .setByte _ ?_⟩
    rw [List.mem_range'_1] at hi
    unfold frameRange fbufAddr
    omega

theorem orLastBits_staysInFrame (w u spare : Nat) : yields (orLastBits hw w u spare x) (StaysInFrame hw x) := by
  unfold orLastBits
  simp only
  split_ifs
  · exact yields_ok (.refl x)
  · exact yields_error _
  · exact yields_error _
  · exact yields_error _
  · exact yields_ok (staysInFrame_setByte rfl (by omega) (by omega))

theorem rcEncDone_staysInFrame : yields (rcEncDone hw x) (StaysInFrame hw x) :=
  staysInFrame_bind (emitCode_staysInFrame _ _) fun _ => staysInFrame_bind flushPending_staysInFrame fun _ =>
    staysInFrame_bind (drainWindow_staysInFrame _ _) fun _ => staysInFrame_bind zeroGap_staysInFrame fun _ =>
      staysInFrame_bind (orLastBits_staysInFrame _ _ _) fun _ => staysInFrame_registers rfl rfl

end Frame


/-! ### The bytes a command's rule names are implemented (R72) -/

/-- A byte of `A` that, with legal parameters, belongs to an implemented element. -/
def implementedOf (hw : Params) (A : Nat → Prop) : Nat → Prop :=
  fun a => A a ∧ (hw.legal = true → implemented hw a = true)

theorem implemented_frameRange {hw : Params} {lo hi a : Nat} (hhi : hi ≤ hw.fbufBytes) (h : frameRange lo hi a) :
    implemented hw a = true := by
  unfold frameRange fbufAddr at h
  unfold implemented
  simp only [Bool.or_eq_true, Bool.and_eq_true, decide_eq_true_eq]
  omega

theorem implemented_band {hw : Params} {i a : Nat} (hi : i ≤ hw.nbandsMax) (ha : a = bandAddr i ∨ a = bandAddr i + 1) :
    implemented hw a = true := by
  unfold bandAddr at ha
  unfold implemented
  simp only [Bool.or_eq_true, Bool.and_eq_true, decide_eq_true_eq]
  omega

section Command

variable {s : State}

/-- The bytes of the frame that the block implements. -/
theorem frame_implementedOf {a : Nat} (h : frameRange 0 (min s.regs.rc.storage.toNat s.hw.fbufBytes) a) :
    implementedOf s.hw (frameRange 0 s.regs.rc.storage.toNat) a :=
  ⟨frameRange_mono (le_refl _) (Nat.min_le_left _ _) a h, fun _ => implemented_frameRange (Nat.min_le_right _ _) h⟩

/-- An index of a channel of a band in use is inside SIG and NORM. -/
theorem bandIndices_lt (h : modeOk s = true) {c b k : Nat} (hc : c < s.channels) (hb : b < s.nbands)
    (hk : k ∈ s.bandIndices c b) : k < 2 * s.hw.frameMax := by
  obtain ⟨j, -, hj, rfl⟩ := (mem_bandIndices h hb).1 hk
  exact index_lt h hc (lt_of_lt_of_le hj (band_le_frameLen h hb))

theorem bandElements_lt (h : modeOk s = true) {b k : Nat} (hb : b < s.nbands) (hk : k ∈ s.bandElements b) :
    k < 2 * s.hw.frameMax := by
  obtain ⟨c, hc, hk⟩ := List.mem_flatMap.1 hk
  exact bandIndices_lt h (List.mem_range.1 hc) hb hk

theorem coveredIndices_lt (h : modeOk s = true) {k : Nat} (hk : k ∈ s.coveredIndices) : k < 2 * s.hw.frameMax := by
  obtain ⟨p, hp, hk⟩ := List.mem_flatMap.1 hk
  obtain ⟨hc, hb⟩ := mem_channelBands.1 hp
  exact bandIndices_lt h hc hb hk

theorem zeroFilled_lt (h : modeOk s = true) {k : Nat} (hk : k ∈ s.zeroFilled) : k < 2 * s.hw.frameMax := by
  obtain ⟨c, hc, hk⟩ := List.mem_flatMap.1 hk
  obtain ⟨j, hj, rfl⟩ := List.mem_map.1 hk
  rw [List.mem_range'_1] at hj
  exact index_lt h (List.mem_range.1 hc) (by omega)

/-! ### Lists of element stores -/

/-- Stores of NORM elements, each inside NORM and among `ks`. -/
theorem setNorms_storesIn {hw : Params} {m : Memory} {ks : List Nat} {ws : List (Nat × Int)} (hsub : ∀ w ∈ ws, w.1 ∈ ks)
    (hlt : ∀ k ∈ ks, k < 2 * hw.frameMax) : m.StoresIn (implementedOf hw (normElems ks)) (m.setNorms ws) :=
  .foldl fun _ w hw' => .setHalf _ fun _ hx =>
    ⟨⟨w.1, hsub w hw', hx⟩, fun _ => implemented_norm (hlt _ (hsub w hw')) hx⟩

theorem setSigs_storesIn {hw : Params} {m : Memory} {ks : List Nat} {ws : List (Nat × Int)} (hsub : ∀ w ∈ ws, w.1 ∈ ks)
    (hlt : ∀ k ∈ ks, k < 2 * hw.frameMax) : m.StoresIn (implementedOf hw (sigElems ks)) (m.setSigs ws) :=
  .foldl fun _ w hw' => .setWord _ fun _ hx =>
    ⟨⟨w.1, hsub w hw', hx⟩, fun _ => implemented_sig (hlt _ (hsub w hw')) hx.1 hx.2⟩

theorem setEners_storesIn {hw : Params} {m : Memory} {ps : List (Nat × Nat)} {ws : List ((Nat × Nat) × Int)}
    (hsub : ∀ w ∈ ws, w.1 ∈ ps) (hlt : ∀ p ∈ ps, p.1 < 2 ∧ p.2 < hw.nbandsMax) :
    m.StoresIn (implementedOf hw (enerElems ps)) (m.setEners ws) :=
  .foldl fun _ w hw' => .setWord _ fun _ hx =>
    ⟨⟨w.1, hsub w hw', hx⟩, fun hl =>
      implemented_ener hl (hlt _ (hsub w hw')).1 (hlt _ (hsub w hw')).2 hx.1 hx.2⟩

/-- `renorm_vec` writes the elements it is given (R176). -/
theorem mem_renormVec {m : Memory} {ks : List Nat} {w : Nat × Int} (h : w ∈ m.renormVec ks) : w.1 ∈ ks := by
  obtain ⟨k, hk, rfl⟩ := List.mem_map.1 h
  exact hk

/-- With two channels, `NORM[2j]` and `NORM[2j+1]` of a bin of a band are the band's elements (R16, R203). -/
theorem pair_mem_bandElements {b j c : Nat} (hch : s.channels = 2) (hj : j ∈ s.mem.bins b) (hc : c < 2) :
    2 * j + c ∈ s.bandElements b :=
  List.mem_flatMap.2 ⟨c, List.mem_range.2 (by omega), List.mem_map.2 ⟨j, hj, by rw [hch, Nat.mul_comm]⟩⟩

theorem mem_mapPairs {b : Nat} {f : Int → Int → Int × Int} (hch : s.channels = 2) {w : Nat × Int}
    (h : w ∈ s.mem.mapPairs (s.mem.bins b) f) : w.1 ∈ s.bandElements b := by
  obtain ⟨j, hj, h⟩ := List.mem_flatMap.1 h
  simp only [List.mem_cons, List.not_mem_nil, or_false] at h
  rcases h with rfl | rfl
  · exact pair_mem_bandElements hch hj (c := 0) (by norm_num)
  · exact pair_mem_bandElements hch hj (c := 1) (by norm_num)

/-- The two elements that R220 writes are those of the other channel in the band's two bins. -/
theorem mem_rebuilt {b c : Nat} {sign : Bool} (hch : s.channels = 2) (hwd : s.mem.width b = 2) (hc : c ≤ 1)
    {w : Nat × Int} (h : w ∈ s.mem.rebuilt (s.mem.band b) c sign) : w.1 ∈ s.bandElements b := by
  have hbin : ∀ i, i < 2 → s.mem.band b + i ∈ s.mem.bins b := fun i hi => by
    rw [Memory.bins, List.mem_range'_1]; omega
  simp only [Memory.rebuilt, List.mem_cons, List.not_mem_nil, or_false] at h
  rcases h with rfl | rfl
  · have hk := pair_mem_bandElements hch (hbin 0 (by norm_num)) (c := 1 - c) (by omega)
    rwa [show 2 * (s.mem.band b + 0) + (1 - c) = 2 * s.mem.band b + 1 - c by omega] at hk
  · have hk := pair_mem_bandElements hch (hbin 1 (by norm_num)) (c := 1 - c) (by omega)
    rwa [show 2 * (s.mem.band b + 1) + (1 - c) = 2 * s.mem.band b + 3 - c by omega] at hk

theorem codedChannel_le (st : Stereo) : st.codedChannel ≤ 1 := by
  unfold Stereo.codedChannel
  split_ifs <;> omega

/-! ### The bytes a fault leaves unspecified are in the footprint and implemented (R270) -/

theorem frameBytes_implementedOf : ∀ a ∈ s.frameBytes, implementedOf s.hw (frameRange 0 s.regs.rc.storage.toNat) a := by
  intro a h
  obtain ⟨i, hi, rfl⟩ := List.mem_map.1 h
  have hlt := List.mem_range.1 hi
  exact frame_implementedOf (by unfold frameRange fbufAddr; omega)

theorem bandNormBytes_implementedOf {b : Nat} :
    ∀ a ∈ s.bandNormBytes b, implementedOf s.hw (normElems (s.bandElements b)) a := by
  intro a h
  refine ⟨bandNormBytes_inside h, fun _ => ?_⟩
  obtain ⟨k, hk, ha⟩ := mem_normBytes.1 h
  exact implemented_norm (mem_indicesOf.1 hk).2.1 ha

theorem coveredNormBytes_implementedOf :
    ∀ a ∈ s.coveredNormBytes, implementedOf s.hw (normElems s.coveredIndices) a := by
  intro a h
  refine ⟨coveredNormBytes_inside h, fun _ => ?_⟩
  obtain ⟨k, hk, ha⟩ := mem_normBytes.1 h
  exact implemented_norm (mem_indicesOf.1 hk).2.1 ha

theorem coveredSigBytes_implementedOf :
    ∀ a ∈ s.coveredSigBytes, implementedOf s.hw (sigElems (s.coveredIndices ++ s.zeroFilled)) a := by
  intro a h
  refine ⟨coveredSigBytes_inside h, fun _ => ?_⟩
  obtain ⟨k, hk, ha⟩ := List.mem_flatMap.1 h
  obtain ⟨hlo, hhi⟩ := mem_wordBytes.1 ha
  exact implemented_sig (mem_indicesOf.1 hk).2.1 hlo hhi

theorem coveredEnerBytes_implementedOf :
    ∀ a ∈ s.coveredEnerBytes, implementedOf s.hw (enerElems s.channelBands) a := by
  intro a h
  refine ⟨coveredEnerBytes_inside h, fun hl => ?_⟩
  obtain ⟨c, hc, h⟩ := List.mem_flatMap.1 h
  obtain ⟨b, hb, h⟩ := List.mem_flatMap.1 h
  rw [List.mem_range] at hc hb
  obtain ⟨hlo, hhi⟩ := mem_wordBytes.1 h
  exact implemented_ener hl (by omega) (by omega) hlo hhi

/-! ### Every command stores bytes its rule names -/

/-- What a command may write when it completes it may change however it ends (R72, R270). -/
theorem writes_footprint (i : Instr) (s : State) {a : Nat} (h : i.writes s a) : i.footprint s a := by
  cases i with
  | rcEncInit | rcTell | rcDecInit | rcDecode | rcDecUpdate | rcDecBits | stThetaDec | stSign2Dec => exact h.elim
  | _ => exact h

/-- From `s` to `t` the command `i` stored bytes of its footprint alone, and bytes of the elements its rule names alone
if it took no fault; with legal parameters all of them are implemented (R72, R270). -/
structure StoresNamed (i : Instr) (s t : State) : Prop where
  ended : s.mem.StoresIn (implementedOf s.hw (i.footprint s)) t.mem
  completed : t.regs.fault = none → s.mem.StoresIn (implementedOf s.hw (i.writes s)) t.mem

/-- What the pseudocode of `i` may do to memory. -/
def storesWrites (i : Instr) (s t : State) : Prop := s.mem.StoresIn (implementedOf s.hw (i.writes s)) t.mem

/-- Every next state the outcome can be differs from `s` in memory as the rule of `i` says. -/
def nextStoresNamed (i : Instr) (s : State) (o : Host.Outcome State Fault Refusal) : Prop :=
  ∀ t, o = .next t → StoresNamed i s t

theorem perform_nextStoresNamed {i : Instr} {touched : List Nat} {body : Run State}
    (ht : ∀ a ∈ touched, implementedOf s.hw (i.footprint s) a) (hb : yields body (storesWrites i s)) :
    nextStoresNamed i s (perform i touched body s) := by
  intro t hnext
  rcases perform_eq_next.1 hnext with ⟨u, hu, rfl⟩ | ⟨c, -, rfl⟩
  · exact ⟨(hb u hu).mono fun a ha => ⟨writes_footprint i s ha.1, ha.2⟩, fun _ => hb u hu⟩
  · exact ⟨.unspecify _ ht, nofun⟩

/-- Pseudocode that stores nothing. -/
theorem yields_noStore {i : Instr} {t : State} (h : t.mem = s.mem) : yields (.ok t) (storesWrites i s) :=
  yields_ok (by unfold storesWrites; rw [h]; exact .refl)

/-- An encoder operation's stores (R111). -/
theorem StaysInFrame.storesIn {y : Rc} (h : StaysInFrame s.hw s.rcView y) :
    s.mem.StoresIn (implementedOf s.hw (frameRange 0 s.regs.rc.storage.toNat)) y.mem :=
  h.2.mono fun _ ha => frame_implementedOf ha

/-- After `ST_REQ` the mode descriptor is valid and has two channels (R200). -/
theorem yields_stereo {β : Type} {f : Unit → Run β} {P : β → Prop}
    (h : modeOk s = true → s.channels = 2 → yields (f ()) P) : yields (stReq s >>= f) P :=
  yields_bind fun _ hu => h (stReq_eq_ok.1 hu).1 (stReq_eq_ok.1 hu).2

theorem execNop_stores : nextStoresNamed .nop s (execNop s) := perform_nextStoresNamed nofun (yields_noStore rfl)

theorem execRcEncInit_stores : nextStoresNamed .rcEncInit s (execRcEncInit s) :=
  perform_nextStoresNamed frameBytes_implementedOf <| yields_check fun _ => yields_noStore rfl

theorem execRcEncode_stores : nextStoresNamed .rcEncode s (execRcEncode s) :=
  perform_nextStoresNamed frameBytes_implementedOf <| yields_rcReq fun _ => yields_check fun _ =>
    yields_bind fun y hy => yields_ok (rcEncode_staysInFrame _ _ _ y hy).storesIn

theorem execRcEncBits_stores (n : Byte) : nextStoresNamed (.rcEncBits n) s (execRcEncBits n s) :=
  perform_nextStoresNamed frameBytes_implementedOf <| yields_rcReq fun _ => yields_check fun _ =>
    yields_bind fun y hy => yields_ok (rcEncBits_staysInFrame _ _ y hy).storesIn

theorem execRcEncDone_stores : nextStoresNamed .rcEncDone s (execRcEncDone s) :=
  perform_nextStoresNamed frameBytes_implementedOf <| yields_rcReq fun _ =>
    yields_bind fun y hy => yields_ok (rcEncDone_staysInFrame y hy).storesIn

theorem execRcTell_stores (g : Byte) : nextStoresNamed (.rcTell g) s (execRcTell g s) := by
  refine perform_nextStoresNamed frameBytes_implementedOf <| yields_check fun _ => yields_check fun _ => ?_
  split_ifs
  · exact yields_error _
  · exact yields_noStore rfl

theorem execRcDecInit_stores : nextStoresNamed .rcDecInit s (execRcDecInit s) :=
  perform_nextStoresNamed frameBytes_implementedOf <| yields_check fun _ =>
    yields_bind fun _ hy => yields_noStore (rcDecInit_mem hy)

theorem execRcDecode_stores : nextStoresNamed .rcDecode s (execRcDecode s) :=
  perform_nextStoresNamed frameBytes_implementedOf <| yields_rcReq fun _ => yields_check fun _ =>
    yields_bind fun _ _ => yields_noStore rfl

theorem execRcDecUpdate_stores : nextStoresNamed .rcDecUpdate s (execRcDecUpdate s) :=
  perform_nextStoresNamed frameBytes_implementedOf <| yields_rcReq fun _ => yields_check fun _ => yields_check fun _ =>
    yields_check fun _ => yields_bind fun _ hy => yields_noStore (rcUpdate_mem hy)

theorem execRcDecBits_stores (n : Byte) : nextStoresNamed (.rcDecBits n) s (execRcDecBits n s) :=
  perform_nextStoresNamed frameBytes_implementedOf <| yields_rcReq fun _ => yields_check fun _ =>
    yields_bind fun _ _ => yields_noStore rfl

theorem execBeCompute_stores : nextStoresNamed .beCompute s (execBeCompute s) := by
  refine perform_nextStoresNamed coveredEnerBytes_implementedOf <| yields_check fun hmode =>
    yields_ok (setEners_storesIn (fun w hw => ?_) fun p hp => ?_)
  · obtain ⟨p, hp, rfl⟩ := List.mem_map.1 hw
    exact hp
  · obtain ⟨hch, ⟨-, hnb⟩, -⟩ := (modeOk_iff s).1 hmode
    obtain ⟨hc, hb⟩ := mem_channelBands.1 hp
    omega

theorem execBeNormalise_stores : nextStoresNamed .beNormalise s (execBeNormalise s) := by
  refine perform_nextStoresNamed coveredNormBytes_implementedOf <| yields_check fun hmode => yields_check fun _ =>
    yields_ok (setNorms_storesIn (fun w hw => ?_) fun _ => coveredIndices_lt hmode)
  obtain ⟨p, hp, hw⟩ := List.mem_flatMap.1 hw
  obtain ⟨k, hk, rfl⟩ := List.mem_map.1 hw
  exact List.mem_flatMap.2 ⟨p, hp, hk⟩

theorem execBeDenormalise_stores : nextStoresNamed .beDenormalise s (execBeDenormalise s) := by
  refine perform_nextStoresNamed coveredSigBytes_implementedOf <| yields_check fun hmode =>
    yields_ok (setSigs_storesIn (fun w hw => List.mem_append.2 ?_) fun k hk => ?_)
  · rcases List.mem_append.1 hw with hw | hw
    · obtain ⟨p, hp, hw⟩ := List.mem_flatMap.1 hw
      obtain ⟨k, hk, rfl⟩ := List.mem_map.1 hw
      exact .inl (List.mem_flatMap.2 ⟨p, hp, hk⟩)
    · obtain ⟨k, hk, rfl⟩ := List.mem_map.1 hw
      exact .inr hk
  · exact (List.mem_append.1 hk).elim (coveredIndices_lt hmode) (zeroFilled_lt hmode)

theorem execBeRenormAll_stores : nextStoresNamed .beRenormAll s (execBeRenormAll s) := by
  refine perform_nextStoresNamed coveredNormBytes_implementedOf <| yields_check fun hmode =>
    yields_ok (setNorms_storesIn (fun w hw => ?_) fun _ => coveredIndices_lt hmode)
  obtain ⟨p, hp, hw⟩ := List.mem_flatMap.1 hw
  exact List.mem_flatMap.2 ⟨p, hp, mem_renormVec hw⟩

theorem execBeRenormBand_stores (b k : Byte) : nextStoresNamed (.beRenormBand b k) s (execBeRenormBand b k s) := by
  refine perform_nextStoresNamed bandNormBytes_implementedOf <| yields_check fun hmode => yields_check fun hops =>
    yields_ok (setNorms_storesIn (fun w hw => ?_) fun _ => bandElements_lt hmode ?_)
  · obtain ⟨c, hc, hw⟩ := List.mem_flatMap.1 hw
    exact List.mem_flatMap.2 ⟨c, List.mem_of_mem_filter hc, mem_renormVec hw⟩
  · simp only [Bool.and_eq_true, decide_eq_true_eq] at hops
    exact hops.1.1

theorem execStMix_stores (b k : Byte) : nextStoresNamed (.stMix b k) s (execStMix b k s) :=
  perform_nextStoresNamed bandNormBytes_implementedOf <| yields_stereo fun hmode hch => yields_check fun hb =>
    yields_ok (setNorms_storesIn (fun _ => mem_mapPairs hch) fun _ => bandElements_lt hmode (of_decide_eq_true hb))

theorem execStQb_stores (b : Byte) : nextStoresNamed (.stQb b) s (execStQb b s) :=
  perform_nextStoresNamed nofun <| yields_stReq fun _ => yields_check fun _ => yields_noStore rfl

theorem execStThetaEnc_stores (b qb : Byte) : nextStoresNamed (.stThetaEnc b qb) s (execStThetaEnc b qb s) :=
  perform_nextStoresNamed frameBytes_implementedOf <| yields_stReq fun _ => yields_rcReq fun _ => yields_check fun _ =>
    yields_check fun _ => yields_bind fun y hy => yields_ok (rcEncode_staysInFrame _ _ _ y hy).storesIn

theorem execStThetaDec_stores (b qb : Byte) : nextStoresNamed (.stThetaDec b qb) s (execStThetaDec b qb s) :=
  perform_nextStoresNamed frameBytes_implementedOf <| yields_stReq fun _ => yields_rcReq fun _ => yields_check fun _ =>
    yields_check fun _ => yields_bind fun _ _ => yields_bind fun _ _ => yields_noStore rfl

theorem execStSplit_stores (b : Byte) : nextStoresNamed (.stSplit b) s (execStSplit b s) :=
  perform_nextStoresNamed nofun <| yields_stReq fun _ => yields_check fun _ => yields_noStore rfl

theorem execStScale_stores (b : Byte) : nextStoresNamed (.stScale b) s (execStScale b s) :=
  perform_nextStoresNamed bandNormBytes_implementedOf <| yields_stereo fun hmode hch => yields_check fun hb =>
    yields_ok (setNorms_storesIn (fun _ => mem_mapPairs hch) fun _ => bandElements_lt hmode (of_decide_eq_true hb))

theorem execStSign2Enc_stores (b : Byte) : nextStoresNamed (.stSign2Enc b) s (execStSign2Enc b s) := by
  refine perform_nextStoresNamed frameBytes_implementedOf <| yields_stReq fun _ => yields_rcReq fun _ =>
    yields_check fun _ => yields_check fun _ => ?_
  split_ifs
  · exact yields_bind fun y hy => yields_ok (rcEncBits_staysInFrame _ _ y hy).storesIn
  · exact yields_noStore rfl

theorem execStSign2Dec_stores (b : Byte) : nextStoresNamed (.stSign2Dec b) s (execStSign2Dec b s) := by
  refine perform_nextStoresNamed frameBytes_implementedOf <| yields_stReq fun _ => yields_rcReq fun _ =>
    yields_check fun _ => yields_check fun _ => ?_
  split_ifs
  · exact yields_bind fun _ _ => yields_noStore rfl
  · exact yields_noStore rfl

theorem execStSign2Rebuild_stores (b : Byte) : nextStoresNamed (.stSign2Rebuild b) s (execStSign2Rebuild b s) :=
  perform_nextStoresNamed bandNormBytes_implementedOf <| yields_stereo fun hmode hch => yields_check fun hb =>
    yields_check fun hwd => yields_ok <| setNorms_storesIn
      (fun _ => mem_rebuilt hch (of_decide_eq_true hwd) (codedChannel_le s.regs.st))
      fun _ => bandElements_lt hmode (of_decide_eq_true hb)

end Command

/-- Every command stores bytes its own rule names, in whatever state it is performed. -/
theorem exec_stores (i : Instr) (s : State) : nextStoresNamed i s (exec i s) := by
  cases i with
  | nop => exact execNop_stores
  | rcEncInit => exact execRcEncInit_stores
  | rcEncode => exact execRcEncode_stores
  | rcEncBits n => exact execRcEncBits_stores n
  | rcEncDone => exact execRcEncDone_stores
  | rcTell g => exact execRcTell_stores g
  | rcDecInit => exact execRcDecInit_stores
  | rcDecode => exact execRcDecode_stores
  | rcDecUpdate => exact execRcDecUpdate_stores
  | rcDecBits n => exact execRcDecBits_stores n
  | beCompute => exact execBeCompute_stores
  | beNormalise => exact execBeNormalise_stores
  | beDenormalise => exact execBeDenormalise_stores
  | beRenormAll => exact execBeRenormAll_stores
  | beRenormBand b k => exact execBeRenormBand_stores b k
  | stMix b k => exact execStMix_stores b k
  | stQb b => exact execStQb_stores b
  | stThetaEnc b qb => exact execStThetaEnc_stores b qb
  | stThetaDec b qb => exact execStThetaDec_stores b qb
  | stSplit b => exact execStSplit_stores b
  | stScale b => exact execStScale_stores b
  | stSign2Enc b => exact execStSign2Enc_stores b
  | stSign2Dec b => exact execStSign2Dec_stores b
  | stSign2Rebuild b => exact execStSign2Rebuild_stores b

end Sys2Proof.Machine

namespace Sys2Proof

open Machine

/-- Settles O10: every store of a command, or of the fault it takes, is at a byte `exec_stores` names. -/
theorem commandsStayInTheirElements : Obligations.CommandsStayInTheirElements := by
  intro i s t hnext
  obtain ⟨hended, hcompleted⟩ := exec_stores i s t hnext
  exact ⟨Memory.sameBut_mono hended.sameBut fun _ h => h.1,
    fun _ hfault => Memory.sameBut_mono (hcompleted hfault).sameBut fun _ h => h.1⟩

end Sys2Proof

/-! ## The memory windows at the host port (R61 to R67, R70, R72) -/

namespace Sys2Proof.Machine

/-- The bytes a write of the target may store (R62 to R67). -/
def Target.bytes (hw : Params) : Target → Nat → Prop
  | .reg _ => noByte
  | .band i => fun a => a = bandAddr i ∨ a = bandAddr i + 1
  | .ener c b => enerElems [(c, b)]
  | .fbuf w => frameRange (4 * w) (min (4 * w + 4) hw.fbufBytes)
  | .sig k => sigElems [k]
  | .norm k => normElems [k]
  | .absent => noByte

/-- The target's element is one the block implements (R63, R64, R66, R67); the FBUF window checks its bytes itself. -/
def Target.inRange (hw : Params) : Target → Prop
  | .band i => i ≤ hw.nbandsMax
  | .ener c b => c < 2 ∧ b < hw.nbandsMax
  | .sig k => k < 2 * hw.frameMax
  | .norm k => k < 2 * hw.frameMax
  | .reg _ => True
  | .fbuf _ => True
  | .absent => True

theorem fbufWrite_storesIn {hw : Params} {m : Memory} {A : Nat → Prop} {i : Nat} {b : Byte}
    (h : i < hw.fbufBytes → A (fbufAddr i)) : m.StoresIn A (fbufWrite hw m i b) := by
  unfold fbufWrite
  split_ifs with hi
  · exact .setByte b (h hi)
  · exact .refl

theorem fbufWriteWord_storesIn (hw : Params) (m : Memory) (w : Nat) (v : Word) :
    m.StoresIn (frameRange (4 * w) (min (4 * w + 4) hw.fbufBytes)) (fbufWriteWord hw m w v) := by
  have hbyte : ∀ j, 4 * w ≤ j → j < 4 * w + 4 → j < hw.fbufBytes →
      frameRange (4 * w) (min (4 * w + 4) hw.fbufBytes) (fbufAddr j) := by
    intro j hlo hhi hj
    unfold frameRange fbufAddr
    omega
  exact (((fbufWrite_storesIn (hbyte _ (by omega) (by omega))).trans
    (fbufWrite_storesIn (hbyte _ (by omega) (by omega)))).trans
    (fbufWrite_storesIn (hbyte _ (by omega) (by omega)))).trans (fbufWrite_storesIn (hbyte _ (by omega) (by omega)))

/-- A legal write stores bytes of its target alone (R70). -/
theorem writeTarget_storesIn (s : State) (v : Word) (g : Target) :
    s.mem.StoresIn (g.bytes s.hw) (writeTarget s v g).mem := by
  cases g with
  | reg r =>
    rw [show (writeTarget s v (.reg r)).mem = s.mem from (writeReg_frame s v r).1]
    exact .refl
  | band i => exact .setHalf _ fun _ => id
  | ener c b => exact .setWord _ fun _ hx => ⟨(c, b), List.mem_singleton.2 rfl, hx⟩
  | fbuf w => exact fbufWriteWord_storesIn _ _ _ _
  | sig k => exact .setWord _ fun _ hx => ⟨k, List.mem_singleton.2 rfl, hx⟩
  | norm k => exact .setHalf _ fun _ hx => ⟨k, List.mem_singleton.2 rfl, hx⟩
  | absent => exact .refl

/-- The address map names implemented elements alone (R62). -/
theorem target_inRange (hw : Params) (a : Nat) : (target hw a).inRange hw := by
  simp only [target]
  split_ifs with hregs hbands hi heners hb hgap hframe hsigs hk hk
  · unfold regAt
    split <;> trivial
  · exact hi
  · trivial
  · exact ⟨by omega, hb⟩
  · trivial
  · trivial
  · trivial
  · exact hk
  · trivial
  · exact hk
  · trivial

/-- The bytes of a target the address map names are implemented (R72). -/
theorem Target.bytes_implemented {hw : Params} (hl : hw.legal = true) {g : Target} (hg : g.inRange hw) {a : Nat}
    (ha : g.bytes hw a) : implemented hw a = true := by
  cases g with
  | reg r => exact ha.elim
  | band i => exact implemented_band hg ha
  | ener c b =>
    obtain ⟨p, hp, hlo, hhi⟩ := ha
    rw [List.mem_singleton.1 hp] at hlo hhi
    exact implemented_ener hl hg.1 hg.2 hlo hhi
  | fbuf w => exact implemented_frameRange (Nat.min_le_right _ _) ha
  | sig k =>
    obtain ⟨k', hk, hlo, hhi⟩ := ha
    rw [List.mem_singleton.1 hk] at hlo hhi
    exact implemented_sig hg hlo hhi
  | norm k =>
    obtain ⟨k', hk, ha⟩ := ha
    rw [List.mem_singleton.1 hk] at ha
    exact implemented_norm hg ha
  | absent => exact ha.elim


/-! ### No step leaves the memories (R72) -/

/-- A command, or the fault it takes, lists implemented bytes alone. -/
theorem exec_inside {i : Instr} {s t : State} (hl : s.hw.legal = true) (hin : s.mem.inside s.hw)
    (h : exec i s = .next t) : t.mem.inside t.hw := by
  obtain ⟨-, -, -, -, -, -, -, hhw, -⟩ := (exec_nextWritesNamed i s t h).kept
  rw [hhw]
  exact (exec_stores i s t h).ended.inside (fun _ ha => ha.2 hl) hin

theorem engineStep_inside {s t : State} (hl : s.hw.legal = true) (hin : s.mem.inside s.hw)
    (h : engineStep s = .next t) : t.mem.inside t.hw := by
  unfold engineStep at h
  split at h
  · cases h; exact hin
  · split at h
    · exact exec_inside hl hin h
    · cases h; exact hin

/-- A host event lists implemented bytes alone: a write's are those of an implemented element, and a power-on reset
lists none. -/
theorem serve_inside {s : State} (hl : s.hw.legal = true) (hin : s.mem.inside s.hw) (e : PortEvent) :
    (serve e s).mem.inside (serve e s).hw := by
  rw [serve_hw]
  cases e with
  | read a n =>
    obtain ⟨r, p, h⟩ := serve_read s a n
    rw [h]
    exact hin
  | write a n v =>
    simp only [serve]
    split_ifs
    · exact (writeTarget_storesIn s v _).inside (fun _ => Target.bytes_implemented hl (target_inRange _ _)) hin
    · exact hin
  | powerOn => exact nofun

theorem step_inside {s t : State} (hl : s.hw.legal = true) (hin : s.mem.inside s.hw) (h : step s = .next t) :
    t.mem.inside t.hw := by
  unfold step at h
  split at h
  · exact engineStep_inside hl hin h
  · next e rest _ =>
    split_ifs at h
    · cases h
      exact serve_inside (s := { s with port := rest }) hl hin e
    · exact engineStep_inside hl hin h

end Sys2Proof.Machine

namespace Sys2Proof

open Machine

/-- Settles O27: a command's stores and a host write's go to implemented elements, by `exec_stores` and
`writeTarget_storesIn`. -/
theorem noAccessLeavesMemory : Obligations.NoAccessLeavesMemory :=
  fun _ _ hok hin hstep => step_inside (State.ok_iff.1 hok).1.legal hin hstep

end Sys2Proof

/-! ## Accesses held by a running command (R71, R73, R97) -/

namespace Sys2Proof.Machine

section Busy

variable {s : State} {w : Word} {n : Nat}

/-- The one access that a running command does not hold is the STATUS read (R71; assumption 17). -/
theorem isStatusRead_iff {e : PortEvent} : isStatusRead e = true ↔ e = .read 0x0008#16 4 := by
  cases e with
  | read a k =>
    have haddr : a.toNat = 8 ↔ a = 0x0008#16 := BitVec.toNat_inj (y := 0x0008#16)
    simp only [isStatusRead, Bool.and_eq_true, decide_eq_true_eq, PortEvent.read.injEq, haddr, and_comm]
  | write a k v => simp [isStatusRead]
  | powerOn => simp [isStatusRead]

/-- A running command holds every other access but a power-on (R71). -/
theorem portReady_held (h : s.phase = .busy w n) {e : PortEvent} (hpower : e ≠ .powerOn)
    (hstatus : e ≠ .read 0x0008#16 4) : portReady s e = false := by
  have hread : isStatusRead e = false := Bool.eq_false_iff.2 fun hr => hstatus (isStatusRead_iff.1 hr)
  simp only [portReady, h, hpower, hread, decide_false, Bool.false_and, Bool.or_self]

/-- A STATUS read that is answered while a command runs (R71). -/
theorem serve_statusRead_busy (h : s.phase = .busy w n) :
    serve (.read 0x0008#16 4) s =
      { s with replies := .data s.statusWord :: s.replies, phase := .busy w (n + 1) } := by
  change State.countPoll { s with replies := .data s.statusWord :: s.replies } = _
  simp only [State.countPoll, h]

theorem statusWord_busy (h : s.phase = .busy w n) : s.statusWord.getLsbD 0 = true := by
  rw [getLsbD_statusWord s (by norm_num), h]
  rfl

/-- A word that no row selects is no command (R97). -/
theorem decode_unselected (h : ∀ r ∈ opcodeTable, r.selects w = false) : decode w = .error (decodeErrorOf w) := by
  have hnone : opcodeTable.find? (fun r => r.selects w) = none :=
    List.find?_eq_none.2 fun r hr => by rw [h r hr]; exact Bool.false_ne_true
  simp only [decode, hnone]

theorem engineStep_undecoded (h : s.phase = .busy w n) {err : DecodeError} (hw : decode w = .error err) :
    engineStep s = .next (illegalCommand w s) := by
  simp only [engineStep, h, hw]

end Busy

end Sys2Proof.Machine

namespace Sys2Proof

open Machine

/-- Settles O23: `portReady` says what a running command holds; the port answers a ready STATUS read from the registers
as they stand. -/
theorem accessesWaitForTheCommand : Obligations.AccessesWaitForTheCommand := by
  intro s w n e rest hbusy hport
  have hhead : ∀ {e' rest'}, s.port = e' :: rest' → e' = e := fun h => by rw [hport] at h; cases h; rfl
  refine ⟨fun hpower hstatus => ?_, fun hstatus => ?_, fun i hdec => engineStep_decoded hbusy hdec, fun hrows => ?_⟩
  · exact step_eq_engineStep fun e' _ h => by rw [hhead h]; exact portReady_held hbusy hpower hstatus
  · cases hready : portReady s e with
    | false => exact .inl (step_eq_engineStep fun e' _ h => by rw [hhead h]; exact hready)
    | true =>
      refine .inr ⟨?_, statusWord_busy hbusy⟩
      rw [step_eq_serve hport hready, hstatus, serve_statusRead_busy (s := { s with port := rest }) hbusy]
      rfl
  · rw [engineStep_undecoded hbusy (decode_unselected hrows)]
    rfl

end Sys2Proof

/-! ## The element windows and the FBUF window (R62 to R67, R70) -/

namespace Sys2Proof.Machine

section Windows

variable {hw : Params}

/-! ### Where each element is (R63 to R67) -/

theorem Params.legal_nbandsMax (h : hw.legal = true) : hw.nbandsMax ≤ 255 := by
  simp only [Params.legal, Bool.and_eq_true, decide_eq_true_eq] at h
  omega

theorem Params.legal_frameMax (h : hw.legal = true) : hw.frameMax ≤ 2048 := by
  simp only [Params.legal, Bool.and_eq_true, decide_eq_true_eq] at h
  omega

theorem target_band {i : Nat} (hl : hw.legal = true) (hi : i ≤ hw.nbandsMax) :
    target hw (0x0400 + 4 * i) = .band i := by
  have hnb := Params.legal_nbandsMax hl
  simp only [target]
  rw [if_neg (by omega), if_pos (by omega), show (0x0400 + 4 * i - 0x0400) / 4 = i by omega, if_pos hi]

theorem target_ener {c b : Nat} (hl : hw.legal = true) (hc : c < 2) (hb : b < hw.nbandsMax) :
    target hw (0x0800 + 4 * (256 * c + b)) = .ener c b := by
  have hnb := Params.legal_nbandsMax hl
  simp only [target]
  rw [if_neg (by omega), if_neg (by omega), if_pos (by omega),
    show (0x0800 + 4 * (256 * c + b) - 0x0800) / 4 = 256 * c + b by omega,
    show (256 * c + b) % 256 = b by omega, show (256 * c + b) / 256 = c by omega, if_pos hb]

theorem target_fbuf {w : Nat} (h : w < 4096) : target hw (0x4000 + 4 * w) = .fbuf w := by
  simp only [target]
  rw [if_neg (by omega), if_neg (by omega), if_neg (by omega), if_neg (by omega), if_pos (by omega),
    show (0x4000 + 4 * w - 0x4000) / 4 = w by omega]

theorem target_sig {k : Nat} (hl : hw.legal = true) (hk : k < 2 * hw.frameMax) :
    target hw (0x8000 + 4 * k) = .sig k := by
  have hfm := Params.legal_frameMax hl
  simp only [target]
  rw [if_neg (by omega), if_neg (by omega), if_neg (by omega), if_neg (by omega), if_neg (by omega), if_pos (by omega),
    show (0x8000 + 4 * k - 0x8000) / 4 = k by omega, if_pos hk]

theorem target_norm {k : Nat} (hk : k < 2 * hw.frameMax) : target hw (0xC000 + 4 * k) = .norm k := by
  simp only [target]
  rw [if_neg (by omega), if_neg (by omega), if_neg (by omega), if_neg (by omega), if_neg (by omega), if_neg (by omega),
    show (0xC000 + 4 * k - 0xC000) / 4 = k by omega, if_pos hk]

end Windows

/-! ### What an element reads after its write (R63, R64, R66, R67) -/

section Elements

variable (s : State) (v : Word)

/-- The stored half of a written word (R63, R67: truncation, not saturation). -/
theorem extract_low_half : v.extractLsb' 0 16 = v.setWidth 16 := (BitVec.setWidth_eq_extractLsb' (by norm_num)).symm

theorem readTarget_writeTarget_band (i : Nat) :
    readTarget (writeTarget s v (.band i)) (.band i) = (v.setWidth 16).setWidth 32 := by
  simp only [readTarget, writeTarget, Memory.half_setHalf_same, extract_low_half]

theorem readTarget_writeTarget_norm (k : Nat) :
    readTarget (writeTarget s v (.norm k)) (.norm k) = (v.setWidth 16).signExtend 32 := by
  simp only [readTarget, writeTarget, Memory.half_setHalf_same, extract_low_half]

theorem readTarget_writeTarget_ener (c b : Nat) : readTarget (writeTarget s v (.ener c b)) (.ener c b) = v := by
  simp only [readTarget, writeTarget, Memory.word_setWord_same]

theorem readTarget_writeTarget_sig (k : Nat) : readTarget (writeTarget s v (.sig k)) (.sig k) = v := by
  simp only [readTarget, writeTarget, Memory.word_setWord_same]

theorem readTarget_band (i : Nat) : (readTarget s (.band i)).toNat = s.mem.band i :=
  BitVec.toNat_setWidth_of_le (by norm_num)

theorem readTarget_norm (k : Nat) : (readTarget s (.norm k)).toInt = s.mem.norm k :=
  BitVec.toInt_signExtend_of_le (by norm_num)

/-! ### The FBUF window, byte by byte (R65) -/

/-- The bytes of a word put together low byte first. -/
theorem extract_append_byte (b : Nat → Byte) {i : Nat} (hi : i < 4) :
    (b 3 ++ b 2 ++ b 1 ++ b 0).extractLsb' (8 * i) 8 = b i := by
  have hhigh : ∀ {k start : Nat} (x : BitVec k) (y : Byte),
      (x ++ y).extractLsb' (start + 8) 8 = x.extractLsb' start 8 :=
    fun x y => (BitVec.extractLsb'_append_eq_of_le (Nat.le_add_left _ _)).trans (by rw [Nat.add_sub_cancel])
  interval_cases i
  · exact BitVec.extractLsb'_append_eq_right
  · exact (hhigh _ _).trans BitVec.extractLsb'_append_eq_right
  · exact (hhigh _ _).trans ((hhigh _ _).trans BitVec.extractLsb'_append_eq_right)
  · exact (hhigh _ _).trans ((hhigh _ _).trans ((hhigh _ _).trans BitVec.extractLsb'_eq_self))

/-- Byte `i` of a word read from the window is FBUF byte `4w + i`, or 0. -/
theorem readTarget_fbuf_byte {w i : Nat} (hi : i < 4) :
    (readTarget s (.fbuf w)).extractLsb' (8 * i) 8 = fbufRead s (4 * w + i) :=
  extract_append_byte (fun j => fbufRead s (4 * w + j)) hi

/-- A byte of the frame after a window write: byte `i` of the word where it stands below FBUF_BYTES. -/
theorem byte_fbufWriteWord (hw : Params) (m : Memory) {w i : Nat} (hi : i < 4) :
    (fbufWriteWord hw m w v).byte (fbufAddr (4 * w + i)) =
      if 4 * w + i < hw.fbufBytes then v.extractLsb' (8 * i) 8 else m.byte (fbufAddr (4 * w + i)) := by
  have haddr : ∀ a b : Nat, fbufAddr a = fbufAddr b ↔ a = b := by unfold fbufAddr; omega
  simp only [fbufWriteWord, byte_fbufWrite, haddr]
  interval_cases i <;> simp

end Elements

end Sys2Proof.Machine

namespace Sys2Proof

open Machine

/-- Settles O21: each window's address, what it reads and stores, and the bytes a write of it may store. -/
theorem elementWindows : Obligations.ElementWindows := by
  intro s v hl
  have hframe : ∀ g : Target, s.mem.sameBut (writeTarget s v g).mem (g.bytes s.hw) := fun g =>
    (writeTarget_storesIn s v g).sameBut
  exact ⟨fun i hi => ⟨target_band hl hi, readTarget_band s i, readTarget_writeTarget_band s v i, rfl, hframe (.band i)⟩,
    fun c b hc hb => ⟨target_ener hl hc hb, rfl, readTarget_writeTarget_ener s v c b, rfl, hframe (.ener c b)⟩,
    fun k hk => ⟨target_sig hl hk, rfl, readTarget_writeTarget_sig s v k, rfl, hframe (.sig k)⟩,
    fun k hk => ⟨target_norm hk, readTarget_norm s k, readTarget_writeTarget_norm s v k, rfl, hframe (.norm k)⟩⟩

/-- Settles O22: the window's bytes, one by one. -/
theorem frameWindow : Obligations.FrameWindow := by
  intro s w i v hw hi
  exact ⟨target_fbuf hw, readTarget_fbuf_byte s hi, byte_fbufWriteWord v s.hw s.mem hi, rfl,
    Memory.sameBut_mono (writeTarget_storesIn s v (.fbuf w)).sameBut
      (frameRange_mono (le_refl _) (Nat.min_le_left _ _))⟩

end Sys2Proof

/-! ## The register map and the accesses that change nothing (R22 to R36, R61, R62, R69, R70) -/

namespace Sys2Proof.Machine

/-! ### One access -/

section Access

variable {s : State} {a : BitVec 16}

theorem legalAccess_iff {n : Nat} : legalAccess a n = true ↔ n = 4 ∧ a.toNat % 4 = 0 := by
  simp only [legalAccess, Bool.and_eq_true, decide_eq_true_eq]

/-- Any other access is answered with a bus error and does nothing else (R69). -/
theorem serve_illegal {n : Nat} (h : n ≠ 4 ∨ a.toNat % 4 ≠ 0) :
    serve (.read a n) s = s.answer (.readError 0#32) ∧ ∀ v : Word, serve (.write a n v) s = s.answer .writeError := by
  have hill : ¬ legalAccess a n = true := fun hl => by
    obtain ⟨hn, ha⟩ := legalAccess_iff.1 hl
    exact h.elim (fun h => h hn) fun h => h ha
  exact ⟨if_neg hill, fun v => if_neg hill⟩

/-- A read at an idle block is the answer alone (R70). -/
theorem serve_read_idle (hidle : s.phase = .idle) (ha : a.toNat % 4 = 0) :
    serve (.read a 4) s = s.answer (.data (readTarget s (target s.hw a.toNat))) := by
  refine (if_pos (legalAccess_iff.2 ⟨rfl, ha⟩)).trans ?_
  simp only [State.countPoll, answer_phase, hidle]

theorem serve_write_legal (ha : a.toNat % 4 = 0) (v : Word) :
    serve (.write a 4 v) s = (writeTarget s v (target s.hw a.toNat)).answer .written :=
  if_pos (legalAccess_iff.2 ⟨rfl, ha⟩)

/-- A legal write leaves the parameters, the port and the answers so far alone (R70). -/
theorem writeTarget_frame (s : State) (v : Word) (g : Target) :
    (writeTarget s v g).hw = s.hw ∧ (writeTarget s v g).port = s.port ∧ (writeTarget s v g).replies = s.replies := by
  cases g with
  | reg r => exact (writeReg_frame s v r).2
  | band | ener | fbuf | sig | norm | absent => exact ⟨rfl, rfl, rfl⟩

end Access

/-! ### The map (R61) -/

/-- Every register stands at its own offset of the map. -/
theorem target_of_mem_regMap (hw : Params) : ∀ p ∈ regMap, target hw p.1 = .reg p.2 := by
  have hlow : ∀ p ∈ regMap, p.1 < 0x0400 ∧ regAt p.1 = .reg p.2 := by decide
  intro p hp
  obtain ⟨ha, hreg⟩ := hlow p hp
  rw [target, if_pos ha, hreg]

/-- An offset names a register of the map or nothing. -/
theorem regAt_cases (a : Nat) : regAt a = .absent ∨ ∃ r, (a, r) ∈ regMap ∧ regAt a = .reg r := by
  unfold regAt
  split
  · next p hp =>
    have hkey : p.1 = a := beq_iff_eq.1 (List.find?_some (p := fun q : Nat × Reg => q.1 == a) hp)
    exact .inr ⟨p.2, hkey ▸ List.mem_of_find?_eq_some hp, rfl⟩
  · exact .inl rfl

/-- The registers a host write may change (R62). -/
def hostWritable : List Reg :=
  [.ctrl, .status, .cmd, .arg0, .arg1, .arg2, .cfgChannels, .cfgNbands, .cfgFrameLen]

/-- A write of any other register is ignored (R62). -/
theorem writeReg_readOnly {r : Reg} (h : r ∉ hostWritable) (s : State) (v : Word) : writeReg s v r = s := by
  cases r with
  | ctrl | status | cmd | arg0 | arg1 | arg2 | cfgChannels | cfgNbands | cfgFrameLen => exact absurd (by decide) h
  | _ => rfl

/-- Offsets below the windows where a write is ignored (R61, R62). -/
abbrev writeIgnoredAt (a : Nat) : Prop := a = 0x0000 ∨ (0x001C ≤ a ∧ a ≤ 0x002C) ∨ (0x003C ≤ a ∧ a < 0x0400)

/-- Offsets below the windows that read 0 in every state (R26, R61, R62). -/
abbrev readsZeroAt (a : Nat) : Prop :=
  a = 0x000C ∨ a = 0x001C ∨ a = 0x002C ∨ a = 0x003C ∨ (0x0074 ≤ a ∧ a ≤ 0x007C) ∨ (0x009C ≤ a ∧ a ≤ 0x00F4) ∨
    (0x0100 ≤ a ∧ a < 0x0400)

/-- The address is of no element the block implements: an unimplemented offset, or one beyond a memory's size (R62). -/
def unimplementedAt (hw : Params) (a : Nat) : Prop :=
  (0x0404 + 4 * hw.nbandsMax ≤ a ∧ a < 0x0800) ∨
  (0x0800 ≤ a ∧ a < 0x1000 ∧ hw.nbandsMax ≤ (a - 0x0800) / 4 % 256) ∨
  (0x1000 ≤ a ∧ a < 0x4000) ∨ (0x4000 + hw.fbufBytes ≤ a ∧ a < 0x8000) ∨
  (0x8000 + 8 * hw.frameMax ≤ a ∧ a < 0xC000) ∨ 0xC000 + 8 * hw.frameMax ≤ a

/-- Such an address names nothing, or an FBUF word that is all at or above FBUF_BYTES. -/
theorem target_unimplemented {hw : Params} {a : Nat} (h4 : a % 4 = 0) (h : unimplementedAt hw a) :
    target hw a = .absent ∨ ∃ w, target hw a = .fbuf w ∧ hw.fbufBytes ≤ 4 * w := by
  unfold unimplementedAt at h
  simp only [target]
  split_ifs with hregs hbands hi heners hb hgap hframe hsigs hk hk
  · omega
  · omega
  · exact .inl rfl
  · omega
  · exact .inl rfl
  · exact .inl rfl
  · exact .inr ⟨_, rfl, by omega⟩
  · omega
  · exact .inl rfl
  · omega
  · exact .inl rfl

/-- An FBUF word at or above FBUF_BYTES reads 0 and is not written (R65). -/
theorem fbuf_beyond {s : State} {w : Nat} (h : s.hw.fbufBytes ≤ 4 * w) (v : Word) :
    writeTarget s v (.fbuf w) = s ∧ readTarget s (.fbuf w) = 0#32 := by
  have hread : ∀ i, 4 * w ≤ i → fbufRead s i = 0#8 := fun i hi => if_neg (by omega)
  have hwrite : ∀ (m : Memory) (i : Nat) (b : Byte), 4 * w ≤ i → fbufWrite s.hw m i b = m := fun m i b hi =>
    if_neg (by omega)
  refine ⟨?_, ?_⟩
  · simp only [writeTarget, fbufWriteWord, hwrite, Nat.le_add_right, le_refl]
  · simp only [readTarget, hread, Nat.le_add_right, le_refl]
    rfl

/-- A write that is ignored (R62). -/
theorem writeTarget_ignored {s : State} {a : Nat} (h4 : a % 4 = 0)
    (h : writeIgnoredAt a ∨ unimplementedAt s.hw a) (v : Word) :
    writeTarget s v (target s.hw a) = s := by
  rcases h with hign | habs
  · have hmap : ∀ p ∈ regMap, writeIgnoredAt p.1 → p.2 ∉ hostWritable := by decide
    rw [target, if_pos (show a < 0x0400 by omega)]
    rcases regAt_cases a with h | ⟨r, hr, h⟩ <;> rw [h]
    · rfl
    · exact writeReg_readOnly (hmap _ hr hign) s v
  · rcases target_unimplemented h4 habs with h | ⟨w, h, hw⟩ <;> rw [h]
    · rfl
    · exact (fbuf_beyond hw v).1

/-- A read of 0 whatever the state (R26, R62). -/
theorem readTarget_zero {s : State} {a : Nat} (h4 : a % 4 = 0)
    (h : readsZeroAt a ∨ unimplementedAt s.hw a) : readTarget s (target s.hw a) = 0#32 := by
  rcases h with hzero | habs
  · have hmap : ∀ p ∈ regMap, readsZeroAt p.1 → p.2 = .cmd := by decide
    rw [target, if_pos (show a < 0x0400 by omega)]
    rcases regAt_cases a with h | ⟨r, hr, h⟩ <;> rw [h]
    · rfl
    · rw [show r = .cmd from hmap _ hr hzero]
      rfl
  · rcases target_unimplemented h4 habs with h | ⟨w, h, hw⟩ <;> rw [h]
    · rfl
    · exact (fbuf_beyond hw 0#32).2

/-! ### What registers read after a write (R22, R24, R25, R29, R30) -/

/-- The registers that hold the word last written (R22, R29, R30). -/
def operandRegs : List Reg := [.arg0, .arg1, .arg2, .cfgChannels, .cfgNbands, .cfgFrameLen]

theorem readReg_writeReg_same {r : Reg} (h : r ∈ operandRegs) (s : State) (v : Word) :
    readReg (writeReg s v r) r = v := by
  simp only [operandRegs, List.mem_cons, List.not_mem_nil, or_false] at h
  rcases h with rfl | rfl | rfl | rfl | rfl | rfl <;> rfl

theorem readReg_writeReg_other {r r' : Reg} (h : r ∈ operandRegs) (hne : r' ≠ r) (s : State) (v : Word) :
    readReg (writeReg s v r) r' = readReg s r' := by
  simp only [operandRegs, List.mem_cons, List.not_mem_nil, or_false] at h
  rcases h with rfl | rfl | rfl | rfl | rfl | rfl
  · cases r' with
    | arg0 => exact absurd rfl hne
    | _ => rfl
  · cases r' with
    | arg1 => exact absurd rfl hne
    | _ => rfl
  · cases r' with
    | arg2 => exact absurd rfl hne
    | _ => rfl
  · cases r' with
    | cfgChannels => exact absurd rfl hne
    | _ => rfl
  · cases r' with
    | cfgNbands => exact absurd rfl hne
    | _ => rfl
  · cases r' with
    | cfgFrameLen => exact absurd rfl hne
    | _ => rfl

theorem writeStatus_eq (s : State) (v : Word) :
    writeStatus s v = { s with regs := { s.regs with done := s.regs.done && !v.getLsbD 1 } } := by
  unfold writeStatus
  cases v.getLsbD 1 <;> simp

theorem writeCtrl_flag {v : Word} (h : v.getLsbD 0 = false) (s : State) :
    writeCtrl s v = { s with regs := { s.regs with irqEn := v.getLsbD 1 } } := by
  unfold writeCtrl
  rw [h]
  rfl

/-! ### The narrower registers (R28, R33, R36, R62) -/

theorem toNat_remWord (c : Coder) : c.remWord.toNat = c.rem.toNat + if c.remValid then 256 else 0 := by
  have hrem : c.rem.toNat < 2 ^ 8 := c.rem.isLt
  unfold Coder.remWord flagBit
  cases c.remValid
  · simpa using lt_trans hrem (by norm_num)
  · have h := Nat.two_pow_add_eq_or_of_lt hrem 1
    simp only [if_true, BitVec.toNat_or, BitVec.toNat_setWidth_of_le (show 8 ≤ 32 by norm_num)]
    exact h.symm.trans (by omega)

theorem toNat_hwcfg0 {s : State} (hl : s.hw.legal = true) : (readReg s .hwcfg0).toNat = s.hw.fbufBytes := by
  have hf := Params.legal_fbufBytes hl
  exact Nat.mod_eq_of_lt (by omega)

/-- HWCFG1's three fields (R28). -/
theorem toNat_hwcfg1 {s : State} (hl : s.hw.legal = true) :
    (readReg s .hwcfg1).toNat = s.hw.nbandsMax + 2 ^ 8 * s.hw.extBits + 2 ^ 16 * s.hw.frameMax := by
  have hn := Params.legal_nbandsMax hl
  have he := Params.legal_extBits hl
  have hf := Params.legal_frameMax hl
  exact Nat.mod_eq_of_lt (by omega)

end Sys2Proof.Machine

namespace Sys2Proof

open Machine

/-- Settles O20: the answer to each kind of access, the map's offsets, and the registers one by one. -/
theorem portAccesses : Obligations.PortAccesses := by
  refine ⟨fun s a n h => serve_illegal h, fun s a hidle ha => serve_read_idle hidle ha, fun s a v ha => ?_,
    fun s a ha => ⟨fun h v => ?_, fun h => ?_⟩, target_of_mem_regMap, fun s v => ?_, fun s hl => ?_⟩
  · obtain ⟨hhw, hport, hreplies⟩ := writeTarget_frame s v (target s.hw a.toNat)
    refine ⟨?_, hhw, hport⟩
    rw [serve_write_legal ha, State.answer, hreplies]
  · have hign : writeIgnoredAt a.toNat ∨ unimplementedAt s.hw a.toNat := by
      simp only [writeIgnoredAt, or_assoc]; exact h
    rw [serve_write_legal ha, writeTarget_ignored ha hign]
    rfl
  · have hzero : readsZeroAt a.toNat ∨ unimplementedAt s.hw a.toNat := by
      simp only [readsZeroAt, or_assoc]; exact h
    exact readTarget_zero ha hzero
  · refine ⟨rfl, rfl, rfl, rfl, rfl, rfl, fun h0 => ?_, ?_, fun r hr => ⟨readReg_writeReg_same hr s v,
      fun r' hne => readReg_writeReg_other hr hne s v⟩, fun h0 => ?_⟩
    · exact congrArg (State.answer · .written) (writeCtrl_flag h0 s)
    · exact congrArg (State.answer · .written) (writeStatus_eq s v)
    · exact congrArg (readReg · .ctrl) (writeCtrl_flag h0 s)
  · have hn := Params.legal_nbandsMax hl
    have he := Params.legal_extBits hl
    have hcfg := toNat_hwcfg1 hl
    refine ⟨rfl, rfl, rfl, rfl, rfl, rfl, rfl, rfl, rfl, rfl, rfl, rfl, rfl, rfl, toNat_remWord s.regs.rc, rfl, rfl,
      rfl, rfl, rfl, rfl, rfl, rfl, rfl, rfl, rfl, rfl, rfl, rfl, rfl, rfl, rfl, toNat_hwcfg0 hl, ?_, ?_, ?_⟩ <;> omega

end Sys2Proof

/-! ## The command word, the opcode map and the decoder (R90, R94 to R98) -/

namespace Sys2Proof

open Machine Laws

/-! ### The four bytes of a command word (R90) -/

section Fields

variable {o a b : Byte} {w : Word}

theorem append_fields (w : Word) : fieldRsv w ++ fieldB w ++ fieldA w ++ fieldOpc w = w := word_bytes w

@[simp] theorem fieldOpc_commandWord : fieldOpc (commandWord o a b) = o := BitVec.extractLsb'_append_eq_right

@[simp] theorem fieldA_commandWord : fieldA (commandWord o a b) = a :=
  extract_append_byte (fun | 0 => o | 1 => a | 2 => b | _ => 0#8) (i := 1) (by norm_num)

@[simp] theorem fieldB_commandWord : fieldB (commandWord o a b) = b :=
  extract_append_byte (fun | 0 => o | 1 => a | 2 => b | _ => 0#8) (i := 2) (by norm_num)

/-- A word with RSV = 0 is the command word of its other three fields. -/
theorem commandWord_fields (h : fieldRsv w = 0#8) : commandWord (fieldOpc w) (fieldA w) (fieldB w) = w := by
  rw [commandWord, ← h, append_fields]

theorem word_eq_iff_fields {v : Word} :
    v = w ↔ fieldOpc v = fieldOpc w ∧ fieldA v = fieldA w ∧ fieldB v = fieldB w ∧ fieldRsv v = fieldRsv w := by
  constructor
  · rintro rfl
    exact ⟨rfl, rfl, rfl, rfl⟩
  · rintro ⟨ho, ha, hb, hr⟩
    rw [← append_fields v, ← append_fields w, ho, ha, hb, hr]

theorem and_ff (b : Byte) : b &&& 0xFF#8 = b := BitVec.and_allOnes

theorem and_ff_eq_zero_iff : b &&& 0xFF#8 = 0#8 ↔ b = 0#8 := by rw [and_ff]

/-- The bits of a byte from bit `k` up are 0: the byte is below `2 ^ k`. -/
theorem and_highBits_eq_zero_iff {k : Nat} : b &&& BitVec.allOnes 8 <<< k = 0#8 ↔ b.toNat < 2 ^ k := by
  have hbit : ∀ i < 8, (b &&& BitVec.allOnes 8 <<< k).getLsbD i = (!decide (i < k) && b.getLsbD i) := by
    intro i hi
    rw [BitVec.getLsbD_and, BitVec.getLsbD_shiftLeft, BitVec.getLsbD_allOnes, Bool.and_comm]
    simp [hi, show i - k < 8 by omega]
  refine ⟨fun h => Nat.lt_pow_two_of_testBit _ fun i hi => ?_, fun h => BitVec.eq_of_getLsbD_eq fun i hi => ?_⟩
  · rcases lt_or_ge i 8 with h8 | h8
    · have hzero := hbit i h8
      rw [h, decide_eq_false (Nat.not_lt.2 hi)] at hzero
      exact hzero.symm.trans BitVec.getLsbD_zero
    · exact BitVec.getLsbD_of_ge b i h8
  · rw [hbit i hi]
    rcases lt_or_ge i k with hk | hk
    · simp [hk]
    · simp [hi, EncodedRow.high_bit h hk hi]

end Fields

/-! ### The rows of the opcode map (R94, R95) -/

/-- The fixed bits of field A, by opcode (R94). -/
def unusedA (o : Byte) : Byte :=
  if o ∈ [0x00#8, 0x01#8, 0x02#8, 0x04#8, 0x09#8, 0x0A#8, 0x0B#8, 0x10#8, 0x11#8, 0x12#8, 0x13#8] then 0xFF#8 else 0#8

/-- The fixed bits of field B, by opcode (R94). -/
def unusedB (o : Byte) : Byte :=
  if o ∈ [0x14#8, 0x20#8] then 0xFC#8 else if o ∈ [0x22#8, 0x23#8] then 0xF0#8 else 0xFF#8

/-- The opcodes of R94. -/
def opcodes : List Byte := opcodeTable.map fun r => fieldOpc r.fixed

section Rows

variable {r r' : OpcodeRow} {w : Word} {o a b : Byte}

/-- Every row fixes OPC and RSV, and of A and B the bits its command does not use; but for OPC all of them are 0. -/
theorem row_fields (hr : r ∈ opcodeTable) :
    (fieldOpc r.mask = 0xFF#8 ∧ fieldA r.mask = unusedA (fieldOpc r.fixed) ∧
      fieldB r.mask = unusedB (fieldOpc r.fixed) ∧ fieldRsv r.mask = 0xFF#8) ∧
    fieldA r.fixed = 0#8 ∧ fieldB r.fixed = 0#8 ∧ fieldRsv r.fixed = 0#8 := by
  revert r
  decide

theorem selects_iff_masked : r.selects w = true ↔
    fieldOpc w &&& fieldOpc r.mask = fieldOpc r.fixed ∧ fieldA w &&& fieldA r.mask = fieldA r.fixed ∧
    fieldB w &&& fieldB r.mask = fieldB r.fixed ∧ fieldRsv w &&& fieldRsv r.mask = fieldRsv r.fixed := by
  rw [OpcodeRow.selects, beq_iff_eq, word_eq_iff_fields]
  simp only [fieldOpc, fieldA, fieldB, fieldRsv, BitVec.extractLsb'_and]

/-- A word selects a row when it has the row's OPC and 0 in RSV and in the unused bits of A and B (R94, R95). -/
theorem selects_iff (hr : r ∈ opcodeTable) : r.selects w = true ↔
    fieldOpc w = fieldOpc r.fixed ∧ fieldA w &&& unusedA (fieldOpc w) = 0#8 ∧
    fieldB w &&& unusedB (fieldOpc w) = 0#8 ∧ fieldRsv w = 0#8 := by
  obtain ⟨⟨ho, ha, hb, hv⟩, ha', hb', hv'⟩ := row_fields hr
  rw [selects_iff_masked, ho, ha, hb, hv, ha', hb', hv', and_ff, and_ff]
  exact and_congr_right fun h => by rw [h]

theorem fieldOpc_mem_opcodes (hr : r ∈ opcodeTable) : fieldOpc r.fixed ∈ opcodes := List.mem_map_of_mem hr

/-- The rows' OPC values differ, so at most one row selects a word (R97). -/
theorem eq_of_selects (hr : r ∈ opcodeTable) (hr' : r' ∈ opcodeTable) (h : r.selects w = true)
    (h' : r'.selects w = true) : r = r' := by
  have hnodup : opcodes.Nodup := by decide
  have hopc := ((selects_iff hr).1 h).1.symm.trans ((selects_iff hr').1 h').1
  exact List.inj_on_of_nodup_map hnodup hr hr' hopc

/-! ### The decoder (R97) -/

theorem selects_of_find (h : opcodeTable.find? (fun row => row.selects w) = some r) :
    r ∈ opcodeTable ∧ r.selects w = true :=
  ⟨List.mem_of_find?_eq_some h, List.find?_some (p := fun row : OpcodeRow => row.selects w) h⟩

theorem decode_of_selects (hr : r ∈ opcodeTable) (h : r.selects w = true) :
    decode w = .ok (r.build (fieldA w) (fieldB w)) := by
  unfold decode
  split
  next r' hfind =>
    obtain ⟨hr', h'⟩ := selects_of_find hfind
    rw [eq_of_selects hr' hr h' h]
  next hfind => exact absurd h (List.find?_eq_none.1 hfind r hr)

/-- A word decodes to a command when a row selects it and builds the command of its fields A and B (R97). -/
theorem decode_eq_ok_iff {i : Instr} : decode w = .ok i ↔
    ∃ r ∈ opcodeTable, r.selects w = true ∧ i = r.build (fieldA w) (fieldB w) := by
  constructor
  · intro h
    unfold decode at h
    split at h
    next r hfind =>
      obtain ⟨hr, hsel⟩ := selects_of_find hfind
      exact ⟨r, hr, hsel, (Except.ok.inj h).symm⟩
    next => cases h
  · rintro ⟨r, hr, hsel, rfl⟩
    exact decode_of_selects hr hsel

/-- The command word of a row's fixed bits decodes to the row's command, whatever its fields. -/
theorem decode_commandWord (k : Fin 24)
    (h : commandWord o a b &&& (opcodeTable.get k).mask = (opcodeTable.get k).fixed) :
    decode (commandWord o a b) = .ok ((opcodeTable.get k).build a b) := by
  rw [decode_of_selects (List.get_mem opcodeTable k) (beq_iff_eq.2 h), fieldA_commandWord, fieldB_commandWord]

end Rows

open EncodedRow in
/-- Each command against its row of R94: the encoded word has the row's fixed bits (R95), and the row builds the command
back from the fields. -/
theorem decode_encode : ∀ i : Instr, i.wellFormed = true → decode (encode i) = .ok i
  | .nop, _ => decode_commandWord 0 rfl
  | .rcEncInit, _ => decode_commandWord 1 rfl
  | .rcEncode, _ => decode_commandWord 2 rfl
  | .rcEncBits n, _ => decode_commandWord 3 (masked_a _ n)
  | .rcEncDone, _ => decode_commandWord 4 rfl
  | .rcTell g, _ => decode_commandWord 5 (masked_a _ g)
  | .rcDecInit, _ => decode_commandWord 6 rfl
  | .rcDecode, _ => decode_commandWord 7 rfl
  | .rcDecUpdate, _ => decode_commandWord 8 rfl
  | .rcDecBits n, _ => decode_commandWord 9 (masked_a _ n)
  | .beCompute, _ => decode_commandWord 10 rfl
  | .beNormalise, _ => decode_commandWord 11 rfl
  | .beDenormalise, _ => decode_commandWord 12 rfl
  | .beRenormAll, _ => decode_commandWord 13 rfl
  | .beRenormBand j mask, h => decode_commandWord 14 (masked_two _ j mask h)
  | .stMix j sel, h => decode_commandWord 15 (masked_two _ j sel h)
  | .stQb j, _ => decode_commandWord 16 (masked_a _ j)
  | .stThetaEnc j qb, h => decode_commandWord 17 (masked_four _ j qb h)
  | .stThetaDec j qb, h => decode_commandWord 18 (masked_four _ j qb h)
  | .stSplit j, _ => decode_commandWord 19 (masked_a _ j)
  | .stScale j, _ => decode_commandWord 20 (masked_a _ j)
  | .stSign2Enc j, _ => decode_commandWord 21 (masked_a _ j)
  | .stSign2Dec j, _ => decode_commandWord 22 (masked_a _ j)
  | .stSign2Rebuild j, _ => decode_commandWord 23 (masked_a _ j)


/-! ### The command a row builds (R94, R95) -/

/-- What a row builds of fields with 0 in their unused bits is a well-formed command, and its word has those fields. -/
def OpcodeRow.Sound (r : OpcodeRow) : Prop :=
  ∀ a b : Byte, a &&& unusedA (fieldOpc r.fixed) = 0#8 → b &&& unusedB (fieldOpc r.fixed) = 0#8 →
    (r.build a b).wellFormed = true ∧ encode (r.build a b) = commandWord (fieldOpc r.fixed) a b

section Sound

variable {r : OpcodeRow} {w : Word}

theorem sound_of_fieldsAB (k : Nat) (hb : unusedB (fieldOpc r.fixed) = BitVec.allOnes 8 <<< k)
    (h : ∀ a b, b.toNat < 2 ^ k →
      (r.build a b).wellFormed = true ∧ encode (r.build a b) = commandWord (fieldOpc r.fixed) a b) : r.Sound := by
  intro a b _ hzero
  rw [hb, and_highBits_eq_zero_iff] at hzero
  exact h a b hzero

theorem sound_of_fieldA (hb : unusedB (fieldOpc r.fixed) = 0xFF#8)
    (h : ∀ a, (r.build a 0#8).wellFormed = true ∧ encode (r.build a 0#8) = commandWord (fieldOpc r.fixed) a 0#8) :
    r.Sound := by
  intro a b _ hzero
  rw [hb, and_ff_eq_zero_iff] at hzero
  rw [hzero]
  exact h a

theorem sound_of_noField (ha : unusedA (fieldOpc r.fixed) = 0xFF#8) (hb : unusedB (fieldOpc r.fixed) = 0xFF#8)
    (h : (r.build 0#8 0#8).wellFormed = true ∧
      encode (r.build 0#8 0#8) = commandWord (fieldOpc r.fixed) 0#8 0#8) : r.Sound := by
  intro a b hzero hzero'
  rw [ha, and_ff_eq_zero_iff] at hzero
  rw [hb, and_ff_eq_zero_iff] at hzero'
  rw [hzero, hzero']
  exact h

theorem encoderRows_sound : ∀ r ∈ encoderRows, r.Sound := by
  simp only [encoderRows, List.forall_mem_cons]
  exact ⟨sound_of_noField rfl rfl ⟨rfl, rfl⟩, sound_of_noField rfl rfl ⟨rfl, rfl⟩,
    sound_of_noField rfl rfl ⟨rfl, rfl⟩, sound_of_fieldA rfl fun _ => ⟨rfl, rfl⟩,
    sound_of_noField rfl rfl ⟨rfl, rfl⟩, sound_of_fieldA rfl fun _ => ⟨rfl, rfl⟩, List.forall_mem_nil _⟩

theorem decoderRows_sound : ∀ r ∈ decoderRows, r.Sound := by
  simp only [decoderRows, List.forall_mem_cons]
  exact ⟨sound_of_noField rfl rfl ⟨rfl, rfl⟩, sound_of_noField rfl rfl ⟨rfl, rfl⟩,
    sound_of_noField rfl rfl ⟨rfl, rfl⟩, sound_of_fieldA rfl fun _ => ⟨rfl, rfl⟩, List.forall_mem_nil _⟩

theorem bandRows_sound : ∀ r ∈ bandRows, r.Sound := by
  simp only [bandRows, List.forall_mem_cons]
  exact ⟨sound_of_noField rfl rfl ⟨rfl, rfl⟩, sound_of_noField rfl rfl ⟨rfl, rfl⟩,
    sound_of_noField rfl rfl ⟨rfl, rfl⟩, sound_of_noField rfl rfl ⟨rfl, rfl⟩,
    sound_of_fieldsAB 2 rfl fun _ _ h => ⟨decide_eq_true h, rfl⟩, List.forall_mem_nil _⟩

theorem stereoRows_sound : ∀ r ∈ stereoRows, r.Sound := by
  simp only [stereoRows, List.forall_mem_cons]
  exact ⟨sound_of_fieldsAB 2 rfl fun _ _ h => ⟨decide_eq_true h, rfl⟩,
    sound_of_fieldA rfl fun _ => ⟨rfl, rfl⟩, sound_of_fieldsAB 4 rfl fun _ _ h => ⟨decide_eq_true h, rfl⟩,
    sound_of_fieldsAB 4 rfl fun _ _ h => ⟨decide_eq_true h, rfl⟩, sound_of_fieldA rfl fun _ => ⟨rfl, rfl⟩,
    sound_of_fieldA rfl fun _ => ⟨rfl, rfl⟩, sound_of_fieldA rfl fun _ => ⟨rfl, rfl⟩,
    sound_of_fieldA rfl fun _ => ⟨rfl, rfl⟩, sound_of_fieldA rfl fun _ => ⟨rfl, rfl⟩, List.forall_mem_nil _⟩

theorem opcodeTable_sound : ∀ r ∈ opcodeTable, r.Sound :=
  List.forall_mem_append.2 ⟨List.forall_mem_append.2 ⟨List.forall_mem_append.2
    ⟨encoderRows_sound, decoderRows_sound⟩, bandRows_sound⟩, stereoRows_sound⟩

/-- Decoding drops no bit: a word that a row selects is the word of the command the row builds of it. -/
theorem encode_decode {i : Instr} (h : decode w = .ok i) : i.wellFormed = true ∧ encode i = w := by
  obtain ⟨r, hr, hsel, rfl⟩ := decode_eq_ok_iff.1 h
  obtain ⟨ho, ha, hb, hv⟩ := (selects_iff hr).1 hsel
  rw [ho] at ha hb
  obtain ⟨hwf, henc⟩ := opcodeTable_sound r hr _ _ ha hb
  exact ⟨hwf, by rw [henc, ← ho, commandWord_fields hv]⟩

end Sound

/-! ### Illegal words (R95, R96) -/

section Illegal

variable {w : Word}

/-- A word with one of its fixed bits wrong is in no row. -/
theorem unselected_of_not (h : ¬ (fieldOpc w ∈ opcodes ∧ fieldA w &&& unusedA (fieldOpc w) = 0#8 ∧
    fieldB w &&& unusedB (fieldOpc w) = 0#8 ∧ fieldRsv w = 0#8)) : ∀ r ∈ opcodeTable, r.selects w = false := by
  intro r hr
  refine Bool.eq_false_iff.2 fun hsel => h ?_
  obtain ⟨ho, hfields⟩ := (selects_iff hr).1 hsel
  exact ⟨ho ▸ fieldOpc_mem_opcodes hr, hfields⟩

/-- No row's OPC is a reserved value (R96). -/
theorem opcodes_not_reserved : ∀ o ∈ opcodes, ¬ ((0x06 ≤ o.toNat ∧ o.toNat ≤ 0x08) ∨
    (0x0D ≤ o.toNat ∧ o.toNat ≤ 0x0F) ∨ (0x15 ≤ o.toNat ∧ o.toNat ≤ 0x1F) ∨ 0x29 ≤ o.toNat) := by decide

theorem and_twoBits_eq_zero_iff {b : Byte} : b &&& 0xFC#8 = 0#8 ↔ b.toNat < 4 := and_highBits_eq_zero_iff (k := 2)

theorem and_fourBits_eq_zero_iff {b : Byte} : b &&& 0xF0#8 = 0#8 ↔ b.toNat < 16 := and_highBits_eq_zero_iff (k := 4)

theorem unusedB_twoBits {o : Byte} (h : o ∈ [0x14#8, 0x20#8]) : unusedB o = 0xFC#8 := if_pos h

theorem unusedB_none {o : Byte} (h : o ∉ [0x14#8, 0x20#8, 0x22#8, 0x23#8]) : unusedB o = 0xFF#8 := by
  obtain ⟨h2, h4⟩ : o ∉ [0x14#8, 0x20#8] ∧ o ∉ [0x22#8, 0x23#8] := by
    rw [← not_or, ← List.mem_append]
    exact h
  rw [unusedB, if_neg h2, if_neg h4]

/-- No row uses more than B[3:0]. -/
theorem lt_of_and_unusedB {o b : Byte} (h : b &&& unusedB o = 0#8) : b.toNat < 16 := by
  unfold unusedB at h
  split_ifs at h
  · exact (and_twoBits_eq_zero_iff.1 h).trans (by norm_num)
  · exact and_fourBits_eq_zero_iff.1 h
  · rw [and_ff_eq_zero_iff.1 h]
    norm_num

/-- NOP is the zero word alone (R96). -/
theorem decode_eq_nop_iff : decode w = .ok .nop ↔ w = 0#32 := by
  constructor
  · exact fun h => (encode_decode h).2.symm
  · rintro rfl
    exact decode_encode .nop rfl

end Illegal

/-- Settles O1, one row of the opcode map per command. -/
theorem decodeOfEncode : Obligations.DecodeOfEncode := decode_encode

/-- Settles O2: the selecting row builds a well-formed command of the word's fields, whose word has the same fields. -/
theorem encodeOfDecode : Obligations.EncodeOfDecode := fun _ _ => encode_decode

/-- Settles O3: a selecting row is the one with the word's OPC, and a word without one raises ILLEGAL_CMD. -/
theorem decodingProcedure : Obligations.DecodingProcedure := by
  refine ⟨fun w r r' hr hr' h h' => ?_, fun w i => decode_eq_ok_iff, fun s w n hbusy hport hrows => ?_⟩
  · rw [eq_of_selects hr hr' h h']
    exact ⟨rfl, rfl, rfl⟩
  · rw [step_eq_engineStep (by rw [hport]; nofun), engineStep_undecoded hbusy (decode_unselected hrows)]
    rfl

/-- Settles O4: `unselected_of_not` at each fixed part of the word; the two decoded forms are `decode_encode`'s. -/
theorem illegalWords : Obligations.IllegalWords := by
  refine ⟨fun w h => ?_, fun w h => ?_, fun w h => ?_, fun w hop h => ?_, fun w hop h => ?_, fun w hop h => ?_,
    fun w hop hb hv => ?_, fun w => decode_eq_nop_iff⟩
  · exact unselected_of_not fun ⟨ho, _, _, _⟩ => opcodes_not_reserved _ ho h
  · exact unselected_of_not fun ⟨_, _, _, hv⟩ => h hv
  · exact unselected_of_not fun ⟨_, _, hb, _⟩ => h.not_gt (lt_of_and_unusedB hb)
  · refine unselected_of_not fun ⟨_, _, hb, _⟩ => h.not_gt ?_
    rwa [unusedB_twoBits hop, and_twoBits_eq_zero_iff] at hb
  · refine unselected_of_not fun ⟨_, _, hb, _⟩ => h ?_
    rwa [unusedB_none hop, and_ff_eq_zero_iff] at hb
  · refine unselected_of_not fun ⟨_, ha, _, _⟩ => h ?_
    rwa [unusedA, if_pos hop, and_ff_eq_zero_iff] at ha
  · have hword : encode (.stThetaEnc (fieldA w) (fieldB w)) = w := by
      rw [encode, ← hop, commandWord_fields hv]
    have hdec := decode_encode (.stThetaEnc (fieldA w) (fieldB w)) (decide_eq_true hb)
    rwa [hword] at hdec

/-- Settles O5: each word is the encoded word of its command. -/
theorem sampleWords : Obligations.SampleWords :=
  ⟨decode_encode .nop rfl, decode_encode (.rcTell 3#8) rfl, decode_encode (.rcEncBits 25#8) rfl,
    decode_encode (.beRenormBand 0#8 1#8) rfl, decode_encode (.stThetaEnc 7#8 14#8) rfl,
    decode_encode (.stMix 0#8 3#8) rfl⟩

end Sys2Proof

/-! ## How a command ends, and what it makes of the coder (R33, R110, R262, R270, R273) -/

namespace Sys2Proof.Machine

section Endings

variable {i : Instr} {s t : State} {touched : List Nat} {body : Run State}

/-- Pseudocode that writes registers and memory alone completes with them (R273). -/
theorem completesWith_of_body {regs : Regs} {mem : Memory} (hexec : exec i s = perform i touched body s)
    (hbody : body = .ok { s with regs := regs, mem := mem }) : completesWith i s regs mem :=
  hexec.trans (perform_ok hbody)

/-- A raised fault leaves the registers, and the memory outside the bytes it leaves unspecified (R270). -/
theorem faultsWith_of_body {c : FaultCode} {p : Nat → Prop} (hexec : exec i s = perform i touched body s)
    (hbody : body = .error (.raised c)) (ht : ∀ a ∈ touched, p a) : faultsWith i s c p :=
  ⟨s.mem.unspecify s.draws touched, hexec.trans (perform_raised hbody), Memory.sameBut_unspecify _ _ ht⟩

/-- The fault of a coder command leaves the frame unspecified (R270). -/
theorem faultsWith_of_frameBody {c : FaultCode} (hexec : exec i s = perform i s.frameBytes body s)
    (hbody : body = .error (.raised c)) : faultsWith i s c (frameRange 0 s.regs.rc.storage.toNat) :=
  faultsWith_of_body hexec hbody fun _ => frameBytes_inside

/-- Every unfaulted next state the outcome can be meets `P`. -/
def unfaultedNext (o : Host.Outcome State Fault Refusal) (P : State → Prop) : Prop :=
  ∀ t, o = .next t → t.regs.fault = none → P t

/-- A command that reaches an unfaulted state completed, with what its pseudocode answers (R262). -/
theorem perform_unfaulted {P : State → Prop} (hb : yields body fun u => P u.complete) :
    unfaultedNext (perform i touched body s) P := by
  intro t h hf
  rcases perform_eq_next.1 h with ⟨u, hu, rfl⟩ | ⟨c, -, rfl⟩
  · exact hb u hu
  · cases hf

end Endings

/-! ### The decoder commits what it decoded (R133, R134) -/

section Decoder

variable {hw : Params} {x : Rc}

/-- The update of an interval that holds the pending value goes through: the code value is in the interval (R134). -/
theorem rcUpdate_record {fl fh ft : Nat} (hx : x.coder.ok hw) (hr : x.coder.ready .decode)
    (hp : x.coder.dpend = true) (hft : x.coder.dft.toNat = ft) (h2 : fh ≤ ft) (hlo : fl ≤ x.coder.dfs.toNat)
    (hhi : x.coder.dfs.toNat < fh) :
    x.coder.rng.toNat / ft * (ft - fh) ≤ x.coder.val.toNat ∧
    x.coder.val.toNat - x.coder.rng.toNat / ft * (ft - fh) < (narrowed 0 x.coder.rng.toNat fl fh ft).2 ∧
    ∃ y, rcUpdate hw fl fh ft x = .ok y ∧ y.mem = x.mem ∧
      (∃ k ≤ 3, x.coder.decoded y.coder x.mem (x.coder.val.toNat - x.coder.rng.toNat / ft * (ft - fh))
        (narrowed 0 x.coder.rng.toNat fl fh ft).2 k) ∧
      y.coder = { x.coder with val := y.coder.val, rng := y.coder.rng, rem := y.coder.rem, offs := y.coder.offs
                               nbitsTotal := y.coder.nbitsTotal, dpend := false } := by
  subst hft
  obtain ⟨hi, hd, -⟩ := hr
  obtain ⟨hgt, -, hlt, hst, ho, -, -, hrec, -⟩ := hx.decoder hi hd
  obtain ⟨hft1, hft2, hdq, hdfs⟩ := hrec hp
  have hq : 0 < x.coder.dq.toNat := by rw [hdq]; exact (rcDecode_ok (c := x.coder) hft1 hft2 hgt).1
  have h1 : fl < fh := lt_of_le_of_lt hlo hhi
  rw [hdfs] at hlo hhi
  obtain ⟨hin, hin'⟩ := symbol_in_interval hq hdq hlt h2 hlo hhi
  have hok := rcUpdate_ok hft2 h1 h2 hst ho hgt hdq hin hin'
  rw [hdq] at hin hin' hok
  exact ⟨hin, hin', hok⟩

/-- A decoded value's own interval of one can be committed: the decoder stays one (R213). -/
theorem rcUpdate_decoded {ft : Nat} {r : Nat × Coder} (hx : x.coder.ok hw) (hr : x.coder.ready .decode)
    (h1 : 1 ≤ ft) (h2 : ft ≤ 65536) (h : rcDecode ft x.coder = .ok r) :
    ∃ y, rcUpdate hw r.1 (r.1 + 1) ft { x with coder := r.2 } = .ok y ∧ y.mem = x.mem ∧
      (∃ k ≤ 3, r.2.decoded y.coder x.mem (r.2.val.toNat - r.2.rng.toNat / ft * (ft - (r.1 + 1)))
        (narrowed 0 r.2.rng.toNat r.1 (r.1 + 1) ft).2 k) ∧
      y.coder = { r.2 with val := y.coder.val, rng := y.coder.rng, rem := y.coder.rem, offs := y.coder.offs
                           nbitsTotal := y.coder.nbitsTotal, dpend := false } := by
  obtain ⟨hc, hr', hp, hft, hfs, hlt⟩ := rcDecode_keeps_ok hx hr h1 h2 h
  obtain ⟨-, -, hok⟩ := rcUpdate_record (x := { x with coder := r.2 }) hc hr' hp hft hlt hfs.ge
    (by rw [hfs]; exact Nat.lt_succ_self _)
  exact hok

end Decoder

/-! ### What a command may make of the coder

One operation of the coder, its operands legal as the command's checks found them, or nothing. -/

/-- What the coder can be after the command `i` from `s`. -/
inductive CoderStep (i : Instr) (s : State) : Coder → Prop
  | kept : CoderStep i s s.regs.rc
  | encInit (hi : i = .rcEncInit) (n : Nat) : CoderStep i s (encInitCoder n)
  | decInit (hi : i = .rcDecInit) {n : Nat} {y : Rc} (hn : n ≤ s.hw.fbufBytes)
      (hy : rcDecInit s.hw n s.mem = .ok y) : CoderStep i s y.coder
  | encode (hr : s.regs.rc.ready .encode) {fl fh ft : Nat} {y : Rc} (h0 : ft ≤ 65536) (h1 : fl < fh) (h2 : fh ≤ ft)
      (hy : rcEncode s.hw fl fh ft s.rcView = .ok y) : CoderStep i s y.coder
  | encBits (hr : s.regs.rc.ready .encode) {v n : Nat} {y : Rc} (hn : n ≤ 25) (hv : v < 2 ^ n)
      (hy : rcEncBits s.hw v n s.rcView = .ok y) : CoderStep i s y.coder
  | encDone (hr : s.regs.rc.ready .encode) {y : Rc} (hy : rcEncDone s.hw s.rcView = .ok y) : CoderStep i s y.coder
  | decode (hr : s.regs.rc.ready .decode) {ft : Nat} {r : Nat × Coder} (h1 : 1 ≤ ft) (h2 : ft ≤ 65536)
      (hy : rcDecode ft s.regs.rc = .ok r) : CoderStep i s r.2
  | update (hr : s.regs.rc.ready .decode) {fl fh ft : Nat} {y : Rc} (hp : s.regs.rc.dpend = true)
      (hft : s.regs.rc.dft.toNat = ft) (h2 : fh ≤ ft) (hlo : fl ≤ s.regs.rc.dfs.toNat)
      (hhi : s.regs.rc.dfs.toNat < fh) (hy : rcUpdate s.hw fl fh ft s.rcView = .ok y) : CoderStep i s y.coder
  | decodeUpdate (hr : s.regs.rc.ready .decode) {ft : Nat} {r : Nat × Coder} {y : Rc} (h1 : 1 ≤ ft) (h2 : ft ≤ 65536)
      (hd : rcDecode ft s.regs.rc = .ok r)
      (hy : rcUpdate s.hw r.1 (r.1 + 1) ft { coder := r.2, mem := s.mem } = .ok y) : CoderStep i s y.coder
  | decBits (hr : s.regs.rc.ready .decode) {n : Nat} {r : Nat × Coder} (hn : n ≤ 25)
      (hy : rcDecBits s.hw n s.rcView = .ok r) : CoderStep i s r.2

section Command

variable {s : State}

/-- Every next state the outcome can be has a coder that `i` can make. -/
def nextCoderStep (i : Instr) (s : State) (o : Host.Outcome State Fault Refusal) : Prop :=
  ∀ t, o = .next t → CoderStep i s t.regs.rc

/-- A fault keeps the coder (R270). -/
theorem perform_nextCoderStep {i : Instr} {touched : List Nat} {body : Run State}
    (hb : yields body fun u => CoderStep i s u.regs.rc) : nextCoderStep i s (perform i touched body s) := by
  intro t hnext
  rcases perform_eq_next.1 hnext with ⟨u, hu, rfl⟩ | ⟨c, -, rfl⟩
  · exact hb u hu
  · exact .kept

theorem execRcEncInit_coderStep : nextCoderStep .rcEncInit s (execRcEncInit s) :=
  perform_nextCoderStep <| yields_check fun _ => yields_ok (.encInit rfl _)

theorem execRcEncode_coderStep : nextCoderStep .rcEncode s (execRcEncode s) := by
  refine perform_nextCoderStep <| yields_rcReq fun hr => yields_check fun hops => yields_bind fun y hy => yields_ok ?_
  simp only [Bool.and_eq_true, decide_eq_true_eq] at hops
  obtain ⟨⟨⟨-, hft⟩, hlt⟩, hle⟩ := hops
  exact .encode hr hft hlt hle hy

theorem execRcEncBits_coderStep (n : Byte) : nextCoderStep (.rcEncBits n) s (execRcEncBits n s) := by
  refine perform_nextCoderStep <| yields_rcReq fun hr => yields_check fun hops => yields_bind fun y hy => yields_ok ?_
  simp only [Bool.and_eq_true, decide_eq_true_eq] at hops
  obtain ⟨⟨-, hn⟩, hv⟩ := hops
  exact .encBits hr hn hv hy

theorem execRcEncDone_coderStep : nextCoderStep .rcEncDone s (execRcEncDone s) :=
  perform_nextCoderStep <| yields_rcReq fun hr => yields_bind fun _ hy => yields_ok (.encDone hr hy)

theorem execRcDecInit_coderStep : nextCoderStep .rcDecInit s (execRcDecInit s) :=
  perform_nextCoderStep <| yields_check fun hfits => yields_bind fun _ hy =>
    yields_ok (.decInit rfl (of_decide_eq_true hfits) hy)

theorem execRcDecode_coderStep : nextCoderStep .rcDecode s (execRcDecode s) := by
  refine perform_nextCoderStep <| yields_rcReq fun hr => yields_check fun hops => yields_bind fun r hy => yields_ok ?_
  simp only [Bool.and_eq_true, decide_eq_true_eq] at hops
  exact .decode hr hops.1 hops.2 hy

theorem execRcDecUpdate_coderStep : nextCoderStep .rcDecUpdate s (execRcDecUpdate s) := by
  refine perform_nextCoderStep <| yields_rcReq fun hr => yields_check fun hrec => yields_check fun hops =>
    yields_check fun hsym => yields_bind fun y hy => yields_ok ?_
  simp only [Bool.and_eq_true, decide_eq_true_eq] at hrec hops hsym
  obtain ⟨hp, hft⟩ := hrec
  exact .update hr hp (congrArg BitVec.toNat hft.symm) hops.2 hsym.1 hsym.2 hy

theorem execRcDecBits_coderStep (n : Byte) : nextCoderStep (.rcDecBits n) s (execRcDecBits n s) := by
  refine perform_nextCoderStep <| yields_rcReq fun hr => yields_check fun hops => yields_bind fun r hy => yields_ok ?_
  simp only [Bool.and_eq_true, decide_eq_true_eq] at hops
  exact .decBits hr hops.2 hy

/-- ST_THETA_ENC codes one of the `2^qb + 1` symbols of R208 (R212). -/
theorem execStThetaEnc_coderStep (b qb : Byte) : nextCoderStep (.stThetaEnc b qb) s (execStThetaEnc b qb s) := by
  refine perform_nextCoderStep <| yields_stReq fun _ => yields_rcReq fun hr => yields_check fun _ =>
    yields_check fun hq => yields_bind fun y hy => yields_ok ?_
  have htq := quantize_le (lowFourBits qb)
    (angleFn_le s.hw.angle (s.mem.magnitude b.toNat 1) (s.mem.magnitude b.toNat 0))
  exact .encode hr (symbols_le hq) (Nat.lt_succ_self _) (Nat.succ_le_succ htq) hy

theorem execStThetaDec_coderStep (b qb : Byte) : nextCoderStep (.stThetaDec b qb) s (execStThetaDec b qb s) :=
  perform_nextCoderStep <| yields_stReq fun _ => yields_rcReq fun hr => yields_check fun _ => yields_check fun hq =>
    yields_bind fun _ hd => yields_bind fun _ hy =>
      yields_ok (.decodeUpdate hr (Nat.le_add_left 1 _) (symbols_le hq) hd hy)

theorem execStSign2Enc_coderStep (b : Byte) : nextCoderStep (.stSign2Enc b) s (execStSign2Enc b s) := by
  refine perform_nextCoderStep <| yields_stReq fun _ => yields_rcReq fun hr => yields_check fun _ =>
    yields_check fun _ => ?_
  split_ifs
  · exact yields_bind fun y hy => yields_ok (.encBits hr (by norm_num) (Bool.toNat_lt _) hy)
  · exact yields_ok .kept

theorem execStSign2Dec_coderStep (b : Byte) : nextCoderStep (.stSign2Dec b) s (execStSign2Dec b s) := by
  refine perform_nextCoderStep <| yields_stReq fun _ => yields_rcReq fun hr => yields_check fun _ =>
    yields_check fun _ => ?_
  split_ifs
  · exact yields_bind fun r hy => yields_ok (.decBits hr (by norm_num) hy)
  · exact yields_ok .kept

end Command

/-- Every command makes one coder operation of its rule, or keeps the coder. -/
theorem exec_coderStep {i : Instr} {s t : State} (h : exec i s = .next t) : CoderStep i s t.regs.rc := by
  by_cases hkept : t.regs.rc = s.regs.rc
  · rw [hkept]; exact .kept
  have hcodes := (exec_nextWritesNamed i s t h).coder hkept
  cases i with
  | rcEncInit => exact execRcEncInit_coderStep t h
  | rcEncode => exact execRcEncode_coderStep t h
  | rcEncBits n => exact execRcEncBits_coderStep n t h
  | rcEncDone => exact execRcEncDone_coderStep t h
  | rcDecInit => exact execRcDecInit_coderStep t h
  | rcDecode => exact execRcDecode_coderStep t h
  | rcDecUpdate => exact execRcDecUpdate_coderStep t h
  | rcDecBits n => exact execRcDecBits_coderStep n t h
  | stThetaEnc b qb => exact execStThetaEnc_coderStep b qb t h
  | stThetaDec b qb => exact execStThetaDec_coderStep b qb t h
  | stSign2Enc b => exact execStSign2Enc_coderStep b t h
  | stSign2Dec b => exact execStSign2Dec_coderStep b t h
  | _ => exact absurd hcodes (by simp [writesCoder, Instr.direction])

end Sys2Proof.Machine

/-! ## The carry scheme loses nothing (R112, R113, R115, R212) -/

namespace Sys2Proof.Machine

/-- An encoder, if the coder is one, is safe from a lost carry (R112). -/
def Coder.carryOk (c : Coder) : Prop := c.inited = true → c.dir = .encode → c.carrySafe

theorem Coder.carryOk_of_decoder {c : Coder} (h : c.dir = .decode) : c.carryOk := by
  intro _ hd
  rw [h] at hd; cases hd

/-- RC_ENC_INIT leaves the whole interval below bit 31 (R114). -/
theorem encInitCoder_carrySafe (n : Nat) : (encInitCoder n).carrySafe := by
  have hrng : (encInitCoder n).rng.toNat = 2147483648 := rfl
  intro _
  rw [hrng]
  exact (Nat.zero_add 2147483648).le

/-- Raw bits touch neither the interval nor the pending symbols (R116). -/
theorem rcEncBits_carrySafe {hw : Params} {v n : Nat} {x y : Rc} (hx : x.coder.ok hw) (hr : x.coder.ready .encode)
    (hn : n ≤ 25) (hv : v < 2 ^ n) (hc : x.coder.carrySafe) (h : rcEncBits hw v n x = .ok y) : y.coder.carrySafe := by
  obtain ⟨hi, hd, -⟩ := hr
  obtain ⟨-, -, -, -, hap, ⟨hu, hwin, -⟩, -⟩ := hx.encoder hi hd
  obtain ⟨hframe, -⟩ := rcEncBits_ok hn hv hu hwin (by omega) h
  rw [hframe]
  exact hc

/-- `rc_encode` of a legal symbol from a ready encoder, which the invariant keeps in its range, is exact. -/
theorem rcEncode_codes {hw : Params} {fl fh ft : Nat} {x y : Rc} (hl : hw.legal = true) (hx : x.coder.ok hw)
    (hr : x.coder.ready .encode) (h0 : ft ≤ 65536) (h1 : fl < fh) (h2 : fh ≤ ft) (hc : x.coder.carrySafe)
    (h : rcEncode hw fl fh ft x = .ok y) :
    let v := narrowed x.coder.val.toNat x.coder.rng.toNat fl fh ft
    y.coder.carrySafe ∧ ∃ k ≤ 3, renormPasses v.2 k ∧ y.coder.rng.toNat = v.2 * 256 ^ k ∧
      y.produced * 2 ^ 31 + y.coder.val.toNat = (x.produced * 2 ^ 31 + v.1) * 256 ^ k ∧
      y.coder.symbolsOut = x.coder.symbolsOut + k := by
  obtain ⟨hi, hd, -⟩ := hr
  obtain ⟨hgt, -, hsum, -, -, ⟨-, -, hext⟩, -⟩ := hx.encoder hi hd
  exact rcEncode_exact h0 h1 h2 hext (Params.legal_extBits hl) hgt hsum hc h

/-- Every coder operation keeps an encoder safe from a lost carry, or leaves a decoder. -/
theorem CoderStep.carryOk {i : Instr} {s : State} {c : Coder} (hs : s.DataOk) (hsafe : s.regs.rc.carryOk)
    (h : CoderStep i s c) : c.carryOk := by
  cases h with
  | kept => exact hsafe
  | encInit => exact fun _ _ => encInitCoder_carrySafe _
  | decInit _ hn hy =>
    have hfb := Params.legal_fbufBytes hs.legal
    obtain ⟨c, hc, hframe, -⟩ := rcDecInit_ok (m := s.mem) hn (by omega)
    obtain rfl := Except.ok.inj (hc.symm.trans hy)
    exact Coder.carryOk_of_decoder (by rw [hframe]; rfl)
  | encode hr h0 h1 h2 hy =>
    exact fun _ _ => (rcEncode_codes hs.legal hs.coder hr h0 h1 h2 (hsafe hr.1 hr.2.1) hy).1
  | encBits hr hn hv hy =>
    exact fun _ _ => rcEncBits_carrySafe (x := s.rcView) hs.coder hr hn hv (hsafe hr.1 hr.2.1) hy
  | encDone hr hy =>
    obtain ⟨-, -, -, -, hap, ⟨-, -, hext⟩, -⟩ := hs.coder.encoder hr.1 hr.2.1
    exact fun _ _ => rcEncDone_carrySafe (x := s.rcView) (by simp only [rcView_coder]; omega) hext
      (Params.legal_extBits hs.legal) (hsafe hr.1 hr.2.1) hy
  | decode hr h1 h2 hy =>
    obtain ⟨-, ⟨-, hd, -⟩, -⟩ := rcDecode_keeps_ok hs.coder hr h1 h2 hy
    exact Coder.carryOk_of_decoder hd
  | update hr hp hft h2 hlo hhi hy =>
    obtain ⟨-, -, y', hy', -, -, hframe⟩ := rcUpdate_record (x := s.rcView) hs.coder hr hp hft h2 hlo hhi
    obtain rfl := Except.ok.inj (hy'.symm.trans hy)
    exact Coder.carryOk_of_decoder (by rw [hframe]; exact hr.2.1)
  | decodeUpdate hr h1 h2 hd hy =>
    obtain ⟨-, ⟨-, hdir, -⟩, -⟩ := rcDecode_keeps_ok hs.coder hr h1 h2 hd
    obtain ⟨y', hy', -, -, hframe⟩ := rcUpdate_decoded (x := s.rcView) hs.coder hr h1 h2 hd
    obtain rfl := Except.ok.inj (hy'.symm.trans hy)
    exact Coder.carryOk_of_decoder (by rw [hframe]; exact hdir)
  | decBits hr hn hy =>
    obtain ⟨-, -, -, hst, -, he, ⟨hu, hwin, -⟩, -⟩ := hs.coder.decoder hr.1 hr.2.1
    obtain ⟨c, hc, hframe, -⟩ := rcDecBits_ok (x := s.rcView) hn hst he hu hwin
    obtain rfl := Except.ok.inj (hc.symm.trans hy)
    exact Coder.carryOk_of_decoder (by rw [hframe]; exact hr.2.1)

/-- The host's accesses keep the coder, or reset it (R62, R290, R291). -/
theorem serve_coder (e : PortEvent) (s : State) :
    (serve e s).regs.rc = s.regs.rc ∨ (serve e s).regs.rc = Coder.reset := by
  cases e with
  | read a n =>
    obtain ⟨r, p, h⟩ := serve_read s a n
    rw [h]; exact .inl rfl
  | write a n v =>
    simp only [serve]
    split_ifs
    · show (writeTarget s v _).regs.rc = _ ∨ (writeTarget s v _).regs.rc = _
      cases target s.hw a.toNat with
      | reg r =>
        simp only [writeTarget]
        rcases writeReg_cases s v r with h | ⟨-, h⟩ | ⟨-, h⟩ | ⟨_, _, _, _, _, _, _, h⟩ <;> rw [h]
        · exact .inl rfl
        · unfold writeCtrl
          split_ifs
          · exact .inr rfl
          · exact .inl rfl
        · unfold writeCmd
          split_ifs <;> exact .inl rfl
        · exact .inl rfl
      | _ => exact .inl rfl
    · exact .inl rfl
  | powerOn => exact .inr rfl

/-- The engine's step keeps the encoder safe from a lost carry. -/
theorem engineStep_carryOk {s t : State} (hs : s.DataOk) (hsafe : s.carryOk) (h : engineStep s = .next t) :
    t.carryOk := by
  unfold engineStep at h
  split at h
  · cases h; exact hsafe
  · split at h
    · exact (exec_coderStep h).carryOk hs hsafe
    · cases h; exact hsafe

theorem step_carryOk {s t : State} (hs : s.DataOk) (hsafe : s.carryOk) (h : step s = .next t) : t.carryOk := by
  unfold step at h
  split at h
  · exact engineStep_carryOk hs hsafe h
  · next e rest _ =>
    split_ifs at h
    · cases h
      intro hi
      rcases serve_coder e { s with port := rest } with hrc | hrc <;> rw [hrc] at hi ⊢
      · exact hsafe hi
      · exact absurd hi Bool.false_ne_true
    · exact engineStep_carryOk hs hsafe h

/-- RC_ENC_INIT that completes leaves an encoder that is safe from a lost carry (R114). -/
theorem execRcEncInit_unfaulted {s : State} : unfaultedNext (exec .rcEncInit s) fun t => t.regs.rc.carrySafe :=
  perform_unfaulted <| yields_check fun _ => yields_ok (encInitCoder_carrySafe _)

/-- RC_ENCODE that completes coded its operands' symbol, a legal one (R115). -/
theorem execRcEncode_unfaulted {s : State} : unfaultedNext (exec .rcEncode s) fun t =>
    s.regs.rc.ready .encode ∧ s.arg2 ≤ 65536 ∧ s.arg0 < s.arg1 ∧ s.arg1 ≤ s.arg2 ∧
    rcEncode s.hw s.arg0 s.arg1 s.arg2 s.rcView = .ok t.rcView := by
  refine perform_unfaulted <| yields_rcReq fun hr => yields_check fun hops => yields_bind fun x hx => yields_ok ?_
  simp only [Bool.and_eq_true, decide_eq_true_eq] at hops
  obtain ⟨⟨⟨-, hft⟩, hlt⟩, hle⟩ := hops
  exact ⟨hr, hft, hlt, hle, hx⟩

/-- ST_THETA_ENC that completes coded the symbol it answers in RES0, one of `2^qb + 1` (R212). -/
theorem execStThetaEnc_unfaulted {s : State} {b qb : Byte} : unfaultedNext (exec (.stThetaEnc b qb) s) fun t =>
    s.regs.rc.ready .encode ∧ 2 ^ (qb.toNat % 16) + 1 ≤ 65536 ∧ t.regs.res0.toNat ≤ 2 ^ (qb.toNat % 16) ∧
    rcEncode s.hw t.regs.res0.toNat (t.regs.res0.toNat + 1) (2 ^ (qb.toNat % 16) + 1) s.rcView = .ok t.rcView := by
  refine perform_unfaulted <| yields_stReq fun _ => yields_rcReq fun hr => yields_check fun _ =>
    yields_check fun hq => yields_bind fun x hx => yields_ok ?_
  have htq := quantize_le (lowFourBits qb)
    (angleFn_le s.hw.angle (s.mem.magnitude b.toNat 1) (s.mem.magnitude b.toNat 0))
  have hft := symbols_le hq
  simp only [complete_regs, toNat_regNat (lt_of_le_of_lt htq (show 2 ^ lowFourBits qb < 2 ^ 32 by omega))]
  exact ⟨hr, hft, htq, hx⟩

end Sys2Proof.Machine

namespace Sys2Proof

open Machine

/-- Settles O32: a coder operation either codes exactly, leaves the interval and the pending symbols alone, or leaves
0 buffered; and the two coding commands are `rc_encode` of their symbol. -/
theorem encodedValueIsExact : Obligations.EncodedValueIsExact := by
  refine ⟨fun s t hs hsafe h => step_carryOk (State.ok_iff.1 hs).1 hsafe h, fun s t _ h hf => ?_,
    fun s t hs hc _ h hf => ?_, fun s t b qb hs hc _ h hf => ?_⟩
  · exact execRcEncInit_unfaulted t h hf
  · obtain ⟨hdata, -⟩ := State.ok_iff.1 hs
    obtain ⟨hr, h0, h1, h2, hx⟩ := execRcEncode_unfaulted t h hf
    exact rcEncode_codes hdata.legal hdata.coder hr h0 h1 h2 hc hx
  · obtain ⟨hdata, -⟩ := State.ok_iff.1 hs
    obtain ⟨hr, h0, htq, hx⟩ := execStThetaEnc_unfaulted t h hf
    exact rcEncode_codes hdata.legal hdata.coder hr h0 (Nat.lt_succ_self _) (Nat.succ_le_succ htq) hc hx

end Sys2Proof

/-! ## The checks of the coder commands (R110, R114 to R117, R132 to R135, R141, R200, R265 to R267) -/

namespace Sys2Proof.Machine

section Checks

variable {α : Type} {dir : Direction} {c : Coder} {p : Bool} {code : FaultCode} {k : Unit → Run α}

theorem passed_check (h : p = true) : (check p code >>= k) = k () := by rw [h]; rfl

theorem refused_check (h : p = false) : (check p code >>= k) = .error (.raised code) := by rw [h]; rfl

theorem passed_rcReq (h : c.ready dir) : (rcReq c dir false >>= k) = k () := by rw [rcReq_ready h]; rfl

theorem refused_rcReq (h : ¬ c.ready dir) : (rcReq c dir false >>= k) = .error (.raised .rcState) := by
  rw [rcReq_not_ready h]; rfl

theorem passed_stReq {s : State} (h : modeOk s = true) (hc : s.channels = 2) : (stReq s >>= k) = k () := by
  rw [stReq_ok h hc]; rfl

theorem passed_stBand {s : State} {b : Nat} (h : b < s.nbands) : (stBand s b >>= k) = k () := by
  rw [stBand_ok h]; rfl

end Checks

/-- A command with a direction is ready when the coder is ready in it (R110). -/
theorem coderReady_iff {i : Instr} {dir : Direction} {c : Coder} (hd : i.direction = some dir) :
    i.coderReady c ↔ c.ready dir := by
  unfold Instr.coderReady
  simp [hd]

/-- A range coder command that codes begins with `RC_REQ` (R110). -/
theorem exec_coding {i : Instr} {dir : Direction} {s : State} (hi : i.isCoder = true) (hd : i.direction = some dir) :
    i.footprint s = frameRange 0 s.regs.rc.storage.toNat ∧
    ∃ k, exec i s = perform i s.frameBytes (rcReq s.regs.rc dir false >>= k) s := by
  cases i with
  | rcEncode | rcEncBits n | rcEncDone | rcDecode | rcDecUpdate | rcDecBits n => cases hd; exact ⟨rfl, _, rfl⟩
  | rcTell g => cases hd
  | _ => cases hi

/-- A stereo command that codes begins with `ST_REQ` and `RC_REQ` (R200). -/
theorem exec_stereoCoding {i : Instr} {dir : Direction} {s : State} (hi : i.isStereo = true)
    (hd : i.direction = some dir) :
    i.footprint s = frameRange 0 s.regs.rc.storage.toNat ∧
    ∃ k, exec i s = perform i s.frameBytes (stReq s >>= fun _ => rcReq s.regs.rc dir false >>= k) s := by
  cases i with
  | stThetaEnc b q | stThetaDec b q | stSign2Enc b | stSign2Dec b => cases hd; exact ⟨rfl, _, rfl⟩
  | stMix b k | stQb b | stSplit b | stScale b | stSign2Rebuild b => cases hd
  | _ => cases hi

section Operands

variable {s : State}

theorem encodeOperands_iff : (decide (1 ≤ s.arg2) && decide (s.arg2 ≤ Config.ftMax) && decide (s.arg0 < s.arg1) &&
    decide (s.arg1 ≤ s.arg2)) = true ↔ 1 ≤ s.arg2 ∧ s.arg2 ≤ 65536 ∧ s.arg0 < s.arg1 ∧ s.arg1 ≤ s.arg2 := by
  simp only [Bool.and_eq_true, decide_eq_true_eq, and_assoc]
  exact Iff.rfl

theorem encBitsOperands_iff {n : Byte} : (decide (1 ≤ n.toNat) && decide (n.toNat ≤ Config.rawMax) &&
    decide (s.arg0 < 2 ^ n.toNat)) = true ↔ 1 ≤ n.toNat ∧ n.toNat ≤ 25 ∧ s.arg0 < 2 ^ n.toNat := by
  simp only [Bool.and_eq_true, decide_eq_true_eq, and_assoc]
  exact Iff.rfl

theorem decodeOperands_iff : (decide (1 ≤ s.arg2) && decide (s.arg2 ≤ Config.ftMax)) = true ↔
    1 ≤ s.arg2 ∧ s.arg2 ≤ 65536 := by
  simp only [Bool.and_eq_true, decide_eq_true_eq]
  exact Iff.rfl

theorem decBitsOperands_iff {n : Byte} : (decide (1 ≤ n.toNat) && decide (n.toNat ≤ Config.rawMax)) = true ↔
    1 ≤ n.toNat ∧ n.toNat ≤ 25 := by
  simp only [Bool.and_eq_true, decide_eq_true_eq]
  exact Iff.rfl

/-- The pending record of RC_DEC_UPDATE is one of its `ft` (R134). -/
theorem pendingRecord_iff : (s.regs.rc.dpend && decide (s.regs.arg2 = s.regs.rc.dft)) = true ↔
    s.regs.rc.dpend = true ∧ s.arg2 = s.regs.rc.dft.toNat := by
  simp [State.arg2, BitVec.toNat_inj]

theorem updateOperands_iff : (decide (s.arg0 < s.arg1) && decide (s.arg1 ≤ s.arg2)) = true ↔
    s.arg0 < s.arg1 ∧ s.arg1 ≤ s.arg2 := by
  simp

theorem updateSymbol_iff : (decide (s.arg0 ≤ s.regs.rc.dfs.toNat) && decide (s.regs.rc.dfs.toNat < s.arg1)) = true ↔
    s.arg0 ≤ s.regs.rc.dfs.toNat ∧ s.regs.rc.dfs.toNat < s.arg1 := by
  simp

end Operands

theorem eq_false_of_iff {p : Bool} {P : Prop} (h : p = true ↔ P) (hn : ¬ P) : p = false :=
  Bool.eq_false_iff.2 fun hp => hn (h.1 hp)

/-- The checks of RC_DEC_UPDATE, each after the ones before it (R134). -/
theorem rcDecUpdate_checks {s : State} (hr : s.regs.rc.ready .decode) :
    (¬ (s.regs.rc.dpend = true ∧ s.arg2 = s.regs.rc.dft.toNat) →
      faultsWith .rcDecUpdate s .rcState (Instr.rcDecUpdate.footprint s)) ∧
    (s.regs.rc.dpend = true → s.arg2 = s.regs.rc.dft.toNat → ¬ (s.arg0 < s.arg1 ∧ s.arg1 ≤ s.arg2) →
      faultsWith .rcDecUpdate s .badOperand (Instr.rcDecUpdate.footprint s)) ∧
    (s.regs.rc.dpend = true → s.arg2 = s.regs.rc.dft.toNat → s.arg0 < s.arg1 → s.arg1 ≤ s.arg2 →
      ¬ (s.arg0 ≤ s.regs.rc.dfs.toNat ∧ s.regs.rc.dfs.toNat < s.arg1) →
      faultsWith .rcDecUpdate s .rcSymbol (Instr.rcDecUpdate.footprint s)) := by
  refine ⟨fun h => ?_, fun hp hft h => ?_, fun hp hft h1 h2 h => ?_⟩
  · exact faultsWith_of_frameBody rfl <| (passed_rcReq hr).trans <|
      refused_check (eq_false_of_iff pendingRecord_iff h)
  · exact faultsWith_of_frameBody rfl <| (passed_rcReq hr).trans <|
      (passed_check (pendingRecord_iff.2 ⟨hp, hft⟩)).trans <| refused_check (eq_false_of_iff updateOperands_iff h)
  · exact faultsWith_of_frameBody rfl <| (passed_rcReq hr).trans <|
      (passed_check (pendingRecord_iff.2 ⟨hp, hft⟩)).trans <| (passed_check (updateOperands_iff.2 ⟨h1, h2⟩)).trans <|
        refused_check (eq_false_of_iff updateSymbol_iff h)

end Sys2Proof.Machine

namespace Sys2Proof

open Machine

/-- Settles O12: `RC_REQ` is the first check of a coder command and the second of a stereo command. -/
theorem coderStateChecked : Obligations.CoderStateChecked := by
  refine ⟨fun i s hi hd hr => ?_, fun i s hi hd hm hc hr => ?_, fun g s hi => ?_⟩
  · obtain ⟨dir, hdir⟩ := Option.ne_none_iff_exists'.1 hd
    obtain ⟨hfoot, k, hexec⟩ := exec_coding (s := s) hi hdir
    rw [coderReady_iff hdir] at hr
    rw [hfoot]
    exact faultsWith_of_frameBody hexec (refused_rcReq hr)
  · obtain ⟨dir, hdir⟩ := Option.ne_none_iff_exists'.1 hd
    obtain ⟨hfoot, k, hexec⟩ := exec_stereoCoding (s := s) hi hdir
    rw [coderReady_iff hdir] at hr
    rw [hfoot]
    exact faultsWith_of_frameBody hexec ((passed_stReq hm hc).trans (refused_rcReq hr))
  · exact faultsWith_of_frameBody rfl (refused_check hi)

/-- Settles O13: each command's operand check follows its state check. -/
theorem coderOperandsChecked : Obligations.CoderOperandsChecked := by
  refine ⟨fun s h => ?_, fun s hr h => ?_, fun s n hr h => ?_, fun s g hi h => ?_, fun s hr h => ?_, fun s n hr h => ?_,
    fun s hr => rcDecUpdate_checks hr⟩
  · have hfits : decide (s.arg0 ≤ s.hw.fbufBytes) = false := decide_eq_false (not_le.2 h)
    exact ⟨faultsWith_of_frameBody rfl (refused_check hfits), faultsWith_of_frameBody rfl (refused_check hfits)⟩
  · exact faultsWith_of_frameBody rfl <| (passed_rcReq hr).trans <|
      refused_check (eq_false_of_iff encodeOperands_iff h)
  · exact faultsWith_of_frameBody rfl <| (passed_rcReq hr).trans <|
      refused_check (eq_false_of_iff encBitsOperands_iff h)
  · exact faultsWith_of_frameBody rfl <| (passed_check hi).trans <| refused_check (decide_eq_false (not_le.2 h))
  · exact faultsWith_of_frameBody rfl <| (passed_rcReq hr).trans <|
      refused_check (eq_false_of_iff decodeOperands_iff h)
  · exact faultsWith_of_frameBody rfl <| (passed_rcReq hr).trans <|
      refused_check (eq_false_of_iff decBitsOperands_iff h)

end Sys2Proof

/-! ## The encoder's commands (R113 to R116) -/

namespace Sys2Proof.Machine

/-- A new frame's tell (R141). -/
theorem tell_newFrame {c : Coder} (hr : c.rng = 0x80000000#32) (hn : c.nbitsTotal = 33#32) :
    tell 0 c = 1 ∧ tell 3 c = 8 := by
  unfold tell
  rw [hr, hn]
  decide

theorem regNat_toNat (w : Word) : regNat w.toNat = w := by
  unfold regNat
  rw [BitVec.ofNat_toNat, BitVec.setWidth_eq]

/-- Narrowing writes RC_VAL and RC_RNG alone (R115). -/
theorem encNarrow_registers {fl fh ft : Nat} {c : Coder} (h1 : fl < fh) (h2 : fh ≤ ft)
    (hsum : c.val.toNat + c.rng.toNat ≤ 4294967295) :
    encNarrow fl fh ft c =
      { c with val := regNat (narrowed c.val.toNat c.rng.toNat fl fh ft).1
               rng := regNat (narrowed c.val.toNat c.rng.toNat fl fh ft).2 } := by
  obtain ⟨hval, hrng⟩ := encNarrow_eq h1 h2 hsum
  have hframe : encNarrow fl fh ft c = { c with val := (encNarrow fl fh ft c).val, rng := (encNarrow fl fh ft c).rng } := by
    unfold encNarrow
    split_ifs <;> rfl
  rw [hframe, ← hval, ← hrng, regNat_toNat, regNat_toNat]

section Encoder

variable {i : Instr} {s : State}

/-- What is left of a coder command after its checks: a coder operation that answers is written back (R33). -/
theorem completesWith_putRc {touched : List Nat} {op : Run Rc} {y : Rc}
    (hexec : exec i s = perform i touched (op >>= fun x => .ok (s.putRc x)) s) (hop : op = .ok y) :
    completesWith i s { s.regs with rc := y.coder } y.mem :=
  completesWith_of_body hexec (by rw [hop]; rfl)

/-- A coder operation that raises a fault ends its command (R262). -/
theorem faultsWith_putRc {op : Run Rc} {code : FaultCode}
    (hexec : exec i s = perform i s.frameBytes (op >>= fun x => .ok (s.putRc x)) s) (hop : op = .error (.raised code)) :
    faultsWith i s code (frameRange 0 s.regs.rc.storage.toNat) :=
  faultsWith_of_frameBody hexec (by rw [hop]; rfl)

theorem exec_rcEncode_checked (hr : s.regs.rc.ready .encode) (h1 : 1 ≤ s.arg2) (h2 : s.arg2 ≤ 65536)
    (hlt : s.arg0 < s.arg1) (hle : s.arg1 ≤ s.arg2) :
    exec .rcEncode s = perform .rcEncode s.frameBytes
      (rcEncode s.hw s.arg0 s.arg1 s.arg2 s.rcView >>= fun x => .ok (s.putRc x)) s :=
  congrArg (fun body => perform .rcEncode s.frameBytes body s) <|
    (passed_rcReq hr).trans (passed_check (encodeOperands_iff.2 ⟨h1, h2, hlt, hle⟩))

theorem exec_rcEncBits_checked {n : Byte} (hr : s.regs.rc.ready .encode) (h1 : 1 ≤ n.toNat) (h2 : n.toNat ≤ 25)
    (hv : s.arg0 < 2 ^ n.toNat) :
    exec (.rcEncBits n) s = perform (.rcEncBits n) s.frameBytes
      (rcEncBits s.hw s.arg0 n.toNat s.rcView >>= fun x => .ok (s.putRc x)) s :=
  congrArg (fun body => perform (.rcEncBits n) s.frameBytes body s) <|
    (passed_rcReq hr).trans (passed_check (encBitsOperands_iff.2 ⟨h1, h2, hv⟩))

/-- How `rc_encode` of a legal symbol ends: as `Front.after` says of the symbols its interval puts out (R111 to R113,
R115). -/
theorem rcEncode_outcome (hs : s.DataOk) (hr : s.regs.rc.ready .encode) {fl fh ft : Nat} (h0 : ft ≤ 65536)
    (h1 : fl < fh) (h2 : fh ≤ ft) :
    let v := narrowed s.regs.rc.val.toNat s.regs.rc.rng.toNat fl fh ft
    ∃ k ≤ 3, renormPasses v.2 k ∧
      (s.roomFor 3 → ∃ f, s.frontAfter (codeSymbols k v.1) = .ok f) ∧
      (∀ f, s.frontAfter (codeSymbols k v.1) = .ok f →
        ∃ y, rcEncode s.hw fl fh ft s.rcView = .ok y ∧ s.regs.rc.encoded y.coder v.1 v.2 k ∧ y.coder.front = f ∧
          s.mem.sameBut y.mem (frameRange s.regs.rc.offs.toNat y.coder.offs.toNat)) ∧
      (∀ code, s.frontAfter (codeSymbols k v.1) = .error code →
        rcEncode s.hw fl fh ft s.rcView = .error (.raised code)) := by
  intro v
  obtain ⟨hi, hd, -⟩ := hr
  obtain ⟨hgt, -, hsum, hst, hap, ⟨-, -, hext⟩, -⟩ := hs.coder.encoder hi hd
  have hw32 := Params.legal_extBits hs.legal
  obtain ⟨-, hsize, -, -⟩ := narrowed_inside (low := s.regs.rc.val.toNat) (rng := s.regs.rc.rng.toNat) h1 h2
  obtain ⟨k, hk, hpass⟩ := renormPasses_exists (three_passes hgt (by omega) h0 hsize)
  have hfollows : follows (rcEncode s.hw fl fh ft s.rcView) (s.frontAfter (codeSymbols k v.1)) :=
    rcEncode_front (x := s.rcView) h1 h2 hst hap hext hw32 hsum hk hpass
  refine ⟨k, hk, hpass, fun hroom => ?_, fun f hf => ?_, fun code hcode => ?_⟩
  · have hbuf : s.regs.rc.remValid.toNat ≤ 1 := Bool.toNat_le _
    refine Front.after_room _ _ _ _ (.inr ?_) ?_
    · simp only [Coder.front, codeSymbols_length]; omega
    · simp only [Coder.front, codeSymbols_length]; omega
  · rw [hf] at hfollows
    obtain ⟨y, hy, hfront⟩ := hfollows
    obtain ⟨⟨k', -, henc⟩, -, -, hmem, -⟩ := rcEncode_ok (x := s.rcView) h1 h2 hext hw32 hsum hy
    obtain rfl : k' = k := renormPasses_unique henc.1 hpass
    exact ⟨y, hy, henc, hfront, hmem⟩
  · rw [hcode] at hfollows
    exact hfollows

end Encoder

end Sys2Proof.Machine

namespace Sys2Proof

open Machine

/-- Settles O29: the registers `encInitCoder` lists. -/
theorem encoderInit : Obligations.EncoderInit := by
  intro s hfits
  refine ⟨encInitCoder s.arg0, completesWith_of_body rfl (passed_check (decide_eq_true hfits)), ?_,
    tell_newFrame rfl rfl⟩
  have hst : regNat s.arg0 = s.regs.arg0 := regNat_toNat s.regs.arg0
  unfold encInitCoder
  rw [hst]
  rfl

/-- Settles O30: an interval that stays above the threshold is not renormalized. -/
theorem encodeWithoutOutput : Obligations.EncodeWithoutOutput := by
  intro s hs hr h1 h2 hlt hle v hquiet
  obtain ⟨hdata, -⟩ := State.ok_iff.1 hs
  have hsum := (hdata.coder.encoder hr.1 hr.2.1).sum_le
  obtain ⟨hin, -⟩ := narrowed_inside (low := s.regs.rc.val.toNat) (rng := s.regs.rc.rng.toNat) hlt hle
  have hin' : v.1 + v.2 ≤ 4294967295 := le_trans hin hsum
  have hop := rcEncode_quiet (hw := s.hw) (x := s.rcView) hlt hle hsum hquiet
  rw [rcView_coder, encNarrow_registers hlt hle hsum] at hop
  exact ⟨by omega, by omega, completesWith_putRc (exec_rcEncode_checked hr h1 h2 hlt hle) hop⟩

/-- Settles O31: RC_ENCODE ends as `rc_encode` does. -/
theorem encodeCompletes : Obligations.EncodeCompletes := by
  intro s hs hr h1 h2 hlt hle v
  have hexec := exec_rcEncode_checked hr h1 h2 hlt hle
  obtain ⟨k, hk, hpass, hroom, hdone, hfault⟩ := rcEncode_outcome (State.ok_iff.1 hs).1 hr h2 hlt hle
  refine ⟨k, hk, hpass, hroom, fun f hf => ?_, fun code hcode => faultsWith_putRc hexec (hfault code hcode)⟩
  obtain ⟨y, hy, henc, hfront, hmem⟩ := hdone f hf
  exact ⟨y.coder, y.mem, completesWith_putRc hexec hy, henc, hfront, hmem⟩

/-- Settles O33: RC_ENC_BITS ends as `rc_enc_bits` does, by whether the window's whole bytes fit. -/
theorem encodeRawBits : Obligations.EncodeRawBits := by
  intro s n hs hr h1 h2 hv c u k
  obtain ⟨hdata, -⟩ := State.ok_iff.1 hs
  obtain ⟨-, -, -, hst, hap, ⟨hu, hwin, -⟩, -⟩ := hdata.coder.encoder hr.1 hr.2.1
  have hexec := exec_rcEncBits_checked hr h1 h2 hv
  refine ⟨fun hroom => ?_, fun hfull => ?_⟩
  · obtain ⟨y, hy⟩ := rcEncBits_room (hw := s.hw) (v := s.arg0) (n := n.toNat) (x := s.rcView) hst hroom
    obtain ⟨hframe, hend, hbits, hwindow, htotal, -, hbytes, hmem, -, -⟩ :=
      rcEncBits_ok h2 hv hu hwin (by simp only [rcView_coder]; omega) hy
    refine ⟨y.coder, y.mem, completesWith_putRc hexec hy, hframe, hend, hbits, hwindow, fun hov => ?_, hbytes, hmem⟩
    rw [htotal]
    exact toNat_bitCount hov
  · exact faultsWith_putRc hexec (rcEncBits_full hst hap hfull)

end Sys2Proof

/-! ## The decoder's commands (R131 to R135) -/

namespace Sys2Proof

open Machine

/-- Settles O37: `rcDecInit_ok` for the frame size in ARG0. -/
theorem decoderInit : Obligations.DecoderInit := by
  intro s hfits
  obtain ⟨c, hc, hframe, hoffs, hval, hrem⟩ := rcDecInit_ok (m := s.mem) hfits s.regs.arg0.isLt
  have hst : regNat s.arg0 = s.regs.arg0 := regNat_toNat s.regs.arg0
  refine ⟨c, completesWith_of_body rfl ((passed_check (decide_eq_true hfits)).trans ?_), ?_, hoffs, hval, hrem,
    tell_newFrame (by rw [hframe]) (by rw [hframe])⟩
  · rw [hc]; rfl
  · rw [hframe]
    unfold decInitCoder
    rw [hst]
    rfl

/-- Settles O38: `rc_decode` of a legal `ft` answers, since the quotient is not zero (R34). -/
theorem decodeSymbol : Obligations.DecodeSymbol := by
  intro s hs hr h1 h2 q fs
  obtain ⟨hdata, -⟩ := State.ok_iff.1 hs
  obtain ⟨hq, hfs, hop⟩ := rcDecode_ok h1 h2 (hdata.coder.decoder hr.1 hr.2.1).rng_gt
  refine ⟨hq, hfs, completesWith_of_body rfl <| (passed_rcReq hr).trans <|
    (passed_check (decodeOperands_iff.2 ⟨h1, h2⟩)).trans ?_⟩
  have hft : regNat s.arg2 = s.regs.arg2 := regNat_toNat s.regs.arg2
  rw [hop, hft]
  rfl

/-- Settles O39: the committed interval holds the decoded value, so it holds the code value. -/
theorem commitSymbol : Obligations.CommitSymbol := by
  intro s hs hr hp hft hlt hle hlo hhi t size
  obtain ⟨hin, hin', y, hy, hmem, ⟨k, hk, hdec⟩, hframe⟩ :=
    rcUpdate_record (x := s.rcView) (State.ok_iff.1 hs).1.coder hr hp hft.symm hle hlo hhi
  refine ⟨hin, hin', y.coder, k, hk, ?_, hdec, by rw [hframe], by rw [hframe]; rfl, by rw [hframe]; rfl,
    by rw [hframe]; rfl⟩
  have hdone : completesWith .rcDecUpdate s { s.regs with rc := y.coder } y.mem :=
    completesWith_of_body rfl <| (passed_rcReq hr).trans <| (passed_check (pendingRecord_iff.2 ⟨hp, hft⟩)).trans <|
      (passed_check (updateOperands_iff.2 ⟨hlt, hle⟩)).trans <| (passed_check (updateSymbol_iff.2 ⟨hlo, hhi⟩)).trans <|
        by rw [hy]; rfl
  rwa [hmem] at hdone

/-- Settles O40: `rcDecBits_ok`, with the bit counter in its 32 bits. -/
theorem decodeRawBits : Obligations.DecodeRawBits := by
  intro s n hs hr h1 h2 c a k window
  obtain ⟨-, -, -, hst, -, he, ⟨hu, hwin, -⟩, -⟩ := (State.ok_iff.1 hs).1.coder.decoder hr.1 hr.2.1
  obtain ⟨c', hop, hframe, hend, hwindow, hbits, htotal, -⟩ :=
    rcDecBits_ok (hw := s.hw) (x := s.rcView) h2 hst he hu hwin
  refine ⟨c', completesWith_of_body rfl <| (passed_rcReq hr).trans <|
    (passed_check (decBitsOperands_iff.2 ⟨h1, h2⟩)).trans (by rw [hop]; rfl), hframe, hend, hwindow, hbits,
    fun hov => ?_⟩
  rw [htotal]
  exact toNat_bitCount hov

end Sys2Proof

/-! ## Tell (R140 to R142, R144) -/

namespace Sys2Proof.Machine

/-! ### The squaring steps (R140) -/

/-- The loop of `tell` makes `g` squaring steps. -/
theorem tellLoop_eq_iterate (g r l : Nat) : tellLoop g r l = (tellStep^[g] (r, l)).2 := by
  induction g generalizing r l with
  | zero => rfl
  | succ g ih => exact ih _ _

/-- The top bits of a normalized `r`, squared, have one bit more than `r` or as many. -/
theorem square_lt {r : Nat} (h : r < 2 ^ 16) : r * r / 2 ^ 15 < 2 ^ 17 := by
  have hsq : r * r < 2 ^ 16 * 2 ^ 16 := Nat.mul_self_lt_mul_self h
  omega

/-- The squared bits stay below `2^16`: no bit is shifted out (R140). -/
theorem tellStep_low {r l : Nat} (h : r * r / 2 ^ 15 < 2 ^ 16) : tellStep (r, l) = (r * r / 2 ^ 15, 2 * l) := by
  have hbit : r * r / 2 ^ 15 / 2 ^ 16 = 0 := Nat.div_eq_of_lt h
  simp only [tellStep, hbit, pow_zero, Nat.div_one, Nat.add_zero]

/-- The squared bits reach `2^16`: a bit is shifted out (R140). -/
theorem tellStep_high {r l : Nat} (hr : r < 2 ^ 16) (h : 2 ^ 16 ≤ r * r / 2 ^ 15) :
    tellStep (r, l) = (r * r / 2 ^ 16, 2 * l + 1) := by
  have hlt := square_lt hr
  have hbit : r * r / 2 ^ 15 / 2 ^ 16 = 1 := by omega
  have hhalf : r * r / 2 ^ 15 / 2 = r * r / 2 ^ 16 := by rw [Nat.div_div_eq_div_mul, ← pow_succ]
  simp only [tellStep, hbit, pow_one, hhalf]

/-- A step keeps `r` below `2^16` and doubles `l`, adding at most one. -/
theorem tellStep_bounds {p : Nat × Nat} (h : p.1 < 2 ^ 16) :
    (tellStep p).1 < 2 ^ 16 ∧ 2 * p.2 ≤ (tellStep p).2 ∧ (tellStep p).2 ≤ 2 * p.2 + 1 := by
  obtain ⟨r, l⟩ := p
  have hlt : r * r / 2 ^ 15 < 2 ^ 17 := square_lt h
  rcases Nat.lt_or_ge (r * r / 2 ^ 15) (2 ^ 16) with hlow | hhigh
  · rw [tellStep_low hlow]
    exact ⟨hlow, le_refl _, Nat.le_succ _⟩
  · rw [tellStep_high h hhigh]
    exact ⟨(by omega : r * r / 2 ^ 16 < 2 ^ 16), Nat.le_succ _, le_refl _⟩

theorem tellStep_iterate_lt {p : Nat × Nat} (h : p.1 < 2 ^ 16) (g : Nat) : (tellStep^[g] p).1 < 2 ^ 16 := by
  induction g with
  | zero => exact h
  | succ g ih =>
    rw [Function.iterate_succ_apply']
    exact (tellStep_bounds ih).1

/-- `tell` by the number of bits `l` of RC_RNG (R140). -/
theorem tell_eq (g : Nat) {c : Coder} {l : Nat} (hl : ilog c.rng.toNat = l) :
    tell g c = ((c.nbitsTotal.toNat * 2 ^ g : Nat) : Int) -
      ((tellStep^[g] (c.rng.toNat / 2 ^ (l - 16), l)).2 : Nat) := by
  rw [← hl, ← tellLoop_eq_iterate]
  rfl

/-- With granularity 0 no step is made (R140). -/
theorem tell_zero (c : Coder) : tell 0 c = c.wholeBits := by
  rw [tell_eq 0 rfl, pow_zero, Nat.mul_one]
  rfl

/-- The top 16 bits of an interval of at least 16 bits (R140). -/
theorem topBits_lt {x : Nat} (h : 16 ≤ ilog x) : x / 2 ^ (ilog x - 16) < 2 ^ 16 := by
  have hx : x ≠ 0 := by
    rintro rfl
    exact absurd h (by decide)
  obtain ⟨-, hlt, -⟩ := ilog_bounds hx
  rw [Nat.div_lt_iff_lt_mul (by positivity), ← pow_add, Nat.add_sub_cancel' h]
  exact hlt

/-- A finer tell lies in the unit of the coarser one (R140). -/
theorem tell_succ (g : Nat) {c : Coder} (h : 16 ≤ ilog c.rng.toNat) :
    2 * tell g c - 1 ≤ tell (g + 1) c ∧ tell (g + 1) c ≤ 2 * tell g c := by
  rw [tell_eq g rfl, tell_eq (g + 1) rfl, Function.iterate_succ_apply', pow_succ, ← mul_assoc]
  obtain ⟨-, hlo, hhi⟩ := tellStep_bounds (tellStep_iterate_lt (p := (_, ilog c.rng.toNat)) (topBits_lt h) g)
  generalize tellStep^[g] _ = p at hlo hhi ⊢
  omega

/-! ### No command makes tell decrease (R144) -/

/-- Shifting a number by whole bytes makes it that many bits longer. -/
theorem ilog_mul_256_pow {x : Nat} (hx : x ≠ 0) (k : Nat) : ilog (x * 256 ^ k) = ilog x + 8 * k := by
  obtain ⟨hlo, hhi, hone⟩ := ilog_bounds hx
  have hpow : (256 : Nat) ^ k = 2 ^ (8 * k) := by rw [pow_mul]; rfl
  rw [hpow, ilog_eq (n := ilog x - 1 + 8 * k)]
  · omega
  · rw [pow_add]
    exact Nat.mul_le_mul_right _ hlo
  · rw [show ilog x - 1 + 8 * k + 1 = ilog x + 8 * k by omega, pow_add]
    exact Nat.mul_lt_mul_of_pos_right hhi (by positivity)

theorem ilog_mono {x y : Nat} (h : x ≤ y) : ilog x ≤ ilog y := by
  by_cases hx : x = 0
  · simp [hx, ilog]
  obtain ⟨hlo, -, hone⟩ := ilog_bounds hx
  obtain ⟨-, hhi, -⟩ := ilog_bounds (x := y) (by omega)
  have hlt : ilog x - 1 < ilog y := (Nat.pow_lt_pow_iff_right (by norm_num)).1 (lt_of_le_of_lt hlo (lt_of_le_of_lt h hhi))
  omega

/-- A narrowed interval has no more bits, and each pass counts 8 bits and makes it 8 bits longer (R113, R131). -/
theorem wholeBits_renormalized {c c' : Coder} {size k : Nat} (hpass : renormPasses size k) (hsize : size ≤ c.rng.toNat)
    (hrng : c'.rng.toNat = size * 256 ^ k) (htotal : c'.nbitsTotal.toNat = c.nbitsTotal.toNat + 8 * k) :
    c.wholeBits ≤ c'.wholeBits := by
  have hne : size ≠ 0 := by
    rintro rfl
    have := hpass.1
    simp at this
  have hlog := ilog_mono hsize
  unfold Coder.wholeBits
  rw [hrng, ilog_mul_256_pow hne, htotal]
  omega

/-- Raw bits count, and leave the interval (R116, R135). -/
theorem wholeBits_rawBits {c c' : Coder} {n : Nat} (hrng : c'.rng = c.rng)
    (htotal : c'.nbitsTotal = bitCount (c.nbitsTotal.toNat + n)) (hfits : c.nbitsTotal.toNat + n < 2 ^ 32) :
    c.wholeBits ≤ c'.wholeBits := by
  unfold Coder.wholeBits
  rw [hrng, htotal, toNat_bitCount hfits]
  omega

theorem wholeBits_kept {c c' : Coder} (hrng : c'.rng = c.rng) (htotal : c'.nbitsTotal = c.nbitsTotal) :
    c.wholeBits ≤ c'.wholeBits := by
  unfold Coder.wholeBits
  rw [hrng, htotal]

/-- `rc_decode` leaves the interval and the bit counter (R133). -/
theorem rcDecode_registers {ft : Nat} {c : Coder} {r : Nat × Coder} (h : rcDecode ft c = .ok r) :
    r.2 = { c with dq := r.2.dq, dft := r.2.dft, dfs := r.2.dfs, dpend := true } := by
  unfold rcDecode at h
  simp only at h
  split_ifs at h
  cases h; rfl

/-- Every coder operation but the inits keeps tell(0) from decreasing (R144). -/
theorem CoderStep.wholeBits_le {i : Instr} {s : State} {c : Coder} (hs : s.DataOk) (he : i ≠ .rcEncInit)
    (hd : i ≠ .rcDecInit) (hfits : s.regs.rc.nbitsTotal.toNat + 25 < 2 ^ 32) (h : CoderStep i s c) :
    s.regs.rc.wholeBits ≤ c.wholeBits := by
  cases h with
  | kept => exact le_refl _
  | encInit hi => exact absurd hi he
  | decInit hi => exact absurd hi hd
  | encode hr h0 h1 h2 hy =>
    obtain ⟨-, -, hsum, -, -, ⟨-, -, hext⟩, -⟩ := hs.coder.encoder hr.1 hr.2.1
    obtain ⟨⟨k, hk, hpass, hrng, -, -, htotal, -⟩, -⟩ :=
      rcEncode_ok (x := s.rcView) h1 h2 hext (Params.legal_extBits hs.legal) hsum hy
    obtain ⟨-, -, hsize, -⟩ := narrowed_inside (low := s.regs.rc.val.toNat) (rng := s.regs.rc.rng.toNat) h1 h2
    exact wholeBits_renormalized hpass hsize hrng (htotal (by simp only [rcView_coder]; omega))
  | encBits hr hn hv hy =>
    obtain ⟨-, -, -, -, hap, ⟨hu, hwin, -⟩, -⟩ := hs.coder.encoder hr.1 hr.2.1
    obtain ⟨hframe, -, -, -, htotal, -⟩ :=
      rcEncBits_ok (x := s.rcView) hn hv hu hwin (by simp only [rcView_coder]; omega) hy
    exact wholeBits_rawBits (c := s.regs.rc) (by rw [hframe]; rfl) htotal (by omega)
  | encDone hr hy =>
    obtain ⟨-, -, -, -, hap, hwin, -⟩ := hs.coder.encoder hr.1 hr.2.1
    obtain ⟨hframe, -⟩ := rcEncDone_ok (x := s.rcView) hap hwin (Params.legal_extBits hs.legal) hy
    exact wholeBits_kept (by rw [hframe]; rfl) (by rw [hframe]; rfl)
  | decode hr h1 h2 hy =>
    have hframe := rcDecode_registers hy
    exact wholeBits_kept (by rw [hframe]) (by rw [hframe])
  | update hr hp hft h2 hlo hhi hy =>
    obtain ⟨-, -, y', hy', -, ⟨k, hk, hpass, hrng, -, -, -, htotal, -⟩, -⟩ :=
      rcUpdate_record (x := s.rcView) hs.coder hr hp hft h2 hlo hhi
    obtain rfl := Except.ok.inj (hy'.symm.trans hy)
    obtain ⟨-, -, hsize, -⟩ := narrowed_inside (low := 0) (rng := s.regs.rc.rng.toNat) (lt_of_le_of_lt hlo hhi) h2
    exact wholeBits_renormalized hpass hsize hrng (htotal (by simp only [rcView_coder]; omega))
  | @decodeUpdate hr ft r y h1 h2 hd hy =>
    obtain ⟨-, -, -, -, -, hlt⟩ := rcDecode_keeps_ok hs.coder hr h1 h2 hd
    have hframe := rcDecode_registers hd
    obtain ⟨y', hy', -, ⟨k, hk, hpass, hrng, -, -, -, htotal, -⟩, -⟩ :=
      rcUpdate_decoded (x := s.rcView) hs.coder hr h1 h2 hd
    obtain rfl := Except.ok.inj (hy'.symm.trans hy)
    obtain ⟨-, -, hsize, -⟩ := narrowed_inside (low := 0) (rng := r.2.rng.toNat) (Nat.lt_succ_self r.1) hlt
    have hkept := wholeBits_kept (c := s.regs.rc) (c' := r.2) (by rw [hframe]) (by rw [hframe])
    refine hkept.trans (wholeBits_renormalized hpass hsize hrng (htotal ?_))
    rw [hframe]
    simp only
    omega
  | decBits hr hn hy =>
    obtain ⟨-, -, -, hst, -, hend, ⟨hu, hwin, -⟩, -⟩ := hs.coder.decoder hr.1 hr.2.1
    obtain ⟨c, hc, hframe, -, -, -, htotal, -⟩ := rcDecBits_ok (x := s.rcView) hn hst hend hu hwin
    obtain rfl := Except.ok.inj (hc.symm.trans hy)
    exact wholeBits_rawBits (c := s.regs.rc) (by rw [hframe]; rfl) htotal (by omega)

/-! ### An encoder and a decoder in step (R142) -/

/-- Two coders with the same interval size and bit counter, so with the same tell. -/
def Coder.sameTell (c d : Coder) : Prop := c.nbitsTotal = d.nbitsTotal ∧ c.rng = d.rng

theorem Coder.sameTell.tell_eq {c d : Coder} (h : c.sameTell d) (g : Nat) : tell g c = tell g d := by
  obtain ⟨htotal, hrng⟩ := h
  unfold tell
  rw [htotal, hrng]

/-- One pass of R113 and one of R131 do the same to the interval size and the bit counter. -/
theorem sameTell_shift {c d : Coder} (b : Nat) (h : c.sameTell d) : (encShift c).sameTell (decShift b d) := by
  obtain ⟨htotal, hrng⟩ := h
  refine ⟨?_, ?_⟩
  · simp only [encShift, decShift, htotal]
  · simp only [encShift, decShift, hrng]

/-- A symbol out touches neither (R112). -/
theorem carryOut_sameTell {hw : Params} {c : Nat} {x y : Rc} {d : Coder} (h : carryOut hw c x = .ok y)
    (hx : x.coder.sameTell d) : y.coder.sameTell d := by
  have hframe : y.coder.nbitsTotal = x.coder.nbitsTotal ∧ y.coder.rng = x.coder.rng := by
    unfold carryOut at h
    split_ifs at h
    · cases h; exact ⟨rfl, rfl⟩
    · obtain ⟨a, ha, h⟩ := run_bind_eq_ok.1 h
      obtain ⟨z, hz, h⟩ := run_bind_eq_ok.1 h
      have g := (writeFront_grew ha).1.trans (flushRun_grew rfl hz).1
      cases h; exact ⟨g.nbitsTotal, g.rng⟩
    · obtain ⟨a, ha, h⟩ := run_bind_eq_ok.1 h
      obtain rfl : x = a := by simpa using ha
      obtain ⟨z, hz, h⟩ := run_bind_eq_ok.1 h
      have g := (flushRun_grew rfl hz).1
      cases h; exact ⟨g.nbitsTotal, g.rng⟩
  exact ⟨hframe.1.trans hx.1, hframe.2.trans hx.2⟩

/-- A front byte read touches neither (R130). -/
theorem readFront_sameTell {hw : Params} {x : Rc} {r : Nat × Coder} {c : Coder} (h : readFront hw x = .ok r)
    (hx : c.sameTell x.coder) : c.sameTell r.2 := by
  unfold readFront at h
  simp only at h
  split_ifs at h
  · cases h; exact hx
  · cases h; exact hx

/-- The two renormalizations test the same interval size, so they make as many passes (R113, R131). -/
theorem renormalize_sameTell {hw hw' : Params} {n : Nat} {x x' y y' : Rc} (h : encNormalizeLoop hw n x = .ok y)
    (h' : decNormalizeLoop hw' n x' = .ok y') (hx : x.coder.sameTell x'.coder) : y.coder.sameTell y'.coder := by
  induction n generalizing x x' with
  | zero =>
    unfold encNormalizeLoop at h
    unfold decNormalizeLoop at h'
    split_ifs at h h'
    cases h; cases h'
    exact hx
  | succ n ih =>
    unfold encNormalizeLoop at h
    unfold decNormalizeLoop at h'
    rw [← hx.2] at h'
    split_ifs at h h'
    · obtain ⟨z, hz, h⟩ := run_bind_eq_ok.1 h
      obtain ⟨r, hr, h'⟩ := run_bind_eq_ok.1 h'
      exact ih h h' (sameTell_shift _ (readFront_sameTell hr (carryOut_sameTell hz hx)))
    · cases h; cases h'
      exact hx

/-- RC_DEC_UPDATE that completes committed its operands' symbol, which holds the pending value (R134). -/
theorem execRcDecUpdate_unfaulted {s : State} : unfaultedNext (exec .rcDecUpdate s) fun t =>
    s.regs.rc.ready .decode ∧ s.regs.rc.dpend = true ∧ s.arg2 = s.regs.rc.dft.toNat ∧ s.arg1 ≤ s.arg2 ∧
    s.arg0 ≤ s.regs.rc.dfs.toNat ∧ s.regs.rc.dfs.toNat < s.arg1 ∧
    rcUpdate s.hw s.arg0 s.arg1 s.arg2 s.rcView = .ok t.rcView := by
  refine perform_unfaulted <| yields_rcReq fun hr => yields_check fun hrec => yields_check fun hops =>
    yields_check fun hsym => yields_bind fun x hx => yields_ok ?_
  obtain ⟨hp, hft⟩ := pendingRecord_iff.1 hrec
  obtain ⟨hlo, hhi⟩ := updateSymbol_iff.1 hsym
  exact ⟨hr, hp, hft, (updateOperands_iff.1 hops).2, hlo, hhi, hx⟩

theorem execRcEncBits_unfaulted {s : State} {n : Byte} : unfaultedNext (exec (.rcEncBits n) s) fun t =>
    s.regs.rc.ready .encode ∧ n.toNat ≤ 25 ∧ s.arg0 < 2 ^ n.toNat ∧
    rcEncBits s.hw s.arg0 n.toNat s.rcView = .ok t.rcView := by
  refine perform_unfaulted <| yields_rcReq fun hr => yields_check fun hops => yields_bind fun x hx => yields_ok ?_
  obtain ⟨-, hn, hv⟩ := encBitsOperands_iff.1 hops
  exact ⟨hr, hn, hv, hx⟩

theorem execRcDecBits_unfaulted {s : State} {n : Byte} : unfaultedNext (exec (.rcDecBits n) s) fun t =>
    s.regs.rc.ready .decode ∧ n.toNat ≤ 25 ∧ ∃ v, rcDecBits s.hw n.toNat s.rcView = .ok (v, t.regs.rc) := by
  refine perform_unfaulted <| yields_rcReq fun hr => yields_check fun hops => yields_bind fun r hx => yields_ok ?_
  obtain ⟨-, hn⟩ := decBitsOperands_iff.1 hops
  exact ⟨hr, hn, r.1, hx⟩

section Agreement

variable {e d e' d' : State}

/-- Coding and committing the same symbol narrow equal intervals to equal ones (R115, R134). -/
theorem symbol_sameTell (he : e.DataOk) (hd : d.DataOk) (hsame : e.regs.rc.sameTell d.regs.rc)
    (h0 : e.regs.arg0 = d.regs.arg0) (h1 : e.regs.arg1 = d.regs.arg1) (h2 : e.regs.arg2 = d.regs.arg2)
    (hee : exec .rcEncode e = .next e') (hdd : exec .rcDecUpdate d = .next d') (hfe : e'.regs.fault = none)
    (hfd : d'.regs.fault = none) : e'.regs.rc.sameTell d'.regs.rc := by
  obtain ⟨hr, hmax, hlt, hle, hx⟩ := execRcEncode_unfaulted e' hee hfe
  obtain ⟨hr', hp, hft, -, hlo, hhi, hx'⟩ := execRcDecUpdate_unfaulted d' hdd hfd
  have ha0 : e.arg0 = d.arg0 := congrArg BitVec.toNat h0
  have ha1 : e.arg1 = d.arg1 := congrArg BitVec.toNat h1
  have ha2 : e.arg2 = d.arg2 := congrArg BitVec.toNat h2
  rw [ha0, ha1] at hlt
  rw [ha1, ha2] at hle
  rw [ha0, ha1, ha2] at hx
  have hsum := (he.coder.encoder hr.1 hr.2.1).sum_le
  have hrec := (hd.coder.decoder hr'.1 hr'.2.1).record hp
  have hdq : d.regs.rc.dq.toNat = d.regs.rc.rng.toNat / d.arg2 := by rw [hft]; exact hrec.dq_eq
  obtain ⟨hin, -⟩ := rcUpdate_record (x := d.rcView) hd.coder hr' hp hft.symm hle hlo hhi
  rw [rcView_coder, ← hdq] at hin
  refine renormalize_sameTell hx hx' ⟨by simp only [encNarrow_nbitsTotal, decNarrow_nbitsTotal]; exact hsame.1, ?_⟩
  apply BitVec.eq_of_toNat_eq
  simp only [rcView_coder]
  rw [(encNarrow_eq hlt hle hsum).2, (decNarrow_eq hlt hle hdq hin).2, hsame.2]
  exact narrowed_size _ _ _ _ _ _

/-- Writing and reading as many raw bits count as many (R116, R135). -/
theorem rawBits_sameTell {n : Byte} (he : e.DataOk) (hd : d.DataOk) (hsame : e.regs.rc.sameTell d.regs.rc)
    (hee : exec (.rcEncBits n) e = .next e') (hdd : exec (.rcDecBits n) d = .next d') (hfe : e'.regs.fault = none)
    (hfd : d'.regs.fault = none) : e'.regs.rc.sameTell d'.regs.rc := by
  obtain ⟨hr, hn, hv, hx⟩ := execRcEncBits_unfaulted e' hee hfe
  obtain ⟨hr', -, v, hx'⟩ := execRcDecBits_unfaulted d' hdd hfd
  obtain ⟨-, -, -, -, hap, ⟨hu, hwin, -⟩, -⟩ := he.coder.encoder hr.1 hr.2.1
  obtain ⟨-, -, -, hst, -, hend, ⟨hu', hwin', -⟩, -⟩ := hd.coder.decoder hr'.1 hr'.2.1
  obtain ⟨hframe, -, -, -, htotal, -⟩ :=
    rcEncBits_ok (x := e.rcView) hn hv hu hwin (by simp only [rcView_coder]; omega) hx
  obtain ⟨c, hc, hframe', -, -, -, htotal', -⟩ := rcDecBits_ok (x := d.rcView) hn hst hend hu' hwin'
  obtain ⟨-, rfl⟩ := Prod.mk.inj (Except.ok.inj (hc.symm.trans hx'))
  refine ⟨?_, ?_⟩
  · rw [htotal', ← rcView_coder e', htotal, rcView_coder, rcView_coder, hsame.1]
  · rw [hframe', ← rcView_coder e', hframe]
    exact hsame.2

end Agreement

end Sys2Proof.Machine

namespace Sys2Proof

open Machine

/-- Settles O36: R34 gives RC_RNG at least 24 bits, so `tell` has a result; each squaring step adds at most one. -/
theorem tellCompletes : Obligations.TellCompletes := by
  intro s g hs hi hg
  obtain ⟨hint, -⟩ := (State.ok_iff.1 hs).1.coder
  obtain ⟨hgt, hle, -⟩ := hint hi
  obtain ⟨hlog, -, -⟩ := ilog_range hgt hle
  obtain ⟨hfiner, hcoarser⟩ := tell_succ g.toNat (c := s.regs.rc) (by omega)
  refine ⟨completesWith_of_body rfl <| (passed_check hi).trans <| (passed_check (decide_eq_true hg)).trans <|
    if_neg (by omega), fun l hl hlo hhi => ?_, fun r l _ hr => ⟨tellStep_low, tellStep_high hr⟩, tell_zero _, hfiner,
    hcoarser⟩
  have hbits := ilog_eq (n := l - 1) hlo (by rwa [Nat.sub_add_cancel (by omega)])
  exact tell_eq g.toNat (by omega)

/-- Settles O41: the two directions narrow, renormalize and count alike. -/
theorem tellAgrees : Obligations.TellAgrees := by
  intro e d e' d' he hd _ _ htotal hrng hfe hfd h
  obtain ⟨hedata, -⟩ := State.ok_iff.1 he
  obtain ⟨hddata, -⟩ := State.ok_iff.1 hd
  have hsame : e'.regs.rc.sameTell d'.regs.rc := by
    rcases h with ⟨h0, h1, h2, hee, hdd⟩ | ⟨n, hee, hdd⟩
    · exact symbol_sameTell hedata hddata ⟨htotal, hrng⟩ h0 h1 h2 hee hdd hfe hfd
    · exact rawBits_sameTell hedata hddata ⟨htotal, hrng⟩ hee hdd hfe hfd
  exact ⟨hsame.1, hsame.2, hsame.tell_eq⟩

/-- Settles O42: one coder operation per command, none of them an init. -/
theorem tellNeverDecreases : Obligations.TellNeverDecreases := by
  intro i s t hs _ he hd hfits h
  exact (exec_coderStep h).wholeBits_le (State.ok_iff.1 hs).1 he hd hfits

end Sys2Proof

/-! ## The end of a frame (R111, R112, R117) -/

namespace Sys2Proof.Machine

/-! ### The fewest bits of the final code value -/

/-- Rounding up is the least multiple from there on. -/
theorem roundUp_le {v j x : Nat} (hdvd : 2 ^ j ∣ x) (h : v ≤ x) : (v + (2 ^ j - 1)) / 2 ^ j * 2 ^ j ≤ x := by
  obtain ⟨m, rfl⟩ := hdvd
  have hp : 0 < 2 ^ j := by positivity
  rw [mul_comm (2 ^ j) m] at h ⊢
  refine Nat.mul_le_mul_right _ (Nat.lt_succ_iff.1 ((Nat.div_lt_iff_lt_mul hp).2 ?_))
  rw [Nat.succ_mul]
  omega

section FinalCode

variable {c : Coder}

/-- A block of code values with fewer free bits than R117 fixes is not inside the final interval. -/
theorem finalCode_fewest (hr : Config.bot < c.rng.toNat) (ht : c.rng.toNat ≤ Config.top)
    (hsum : c.val.toNat + c.rng.toNat ≤ 4294967295) {l x : Nat} (hl : l < (finalCode c).1) (hdvd : 2 ^ (31 - l) ∣ x)
    (hx : c.val.toNat ≤ x) : c.val.toNat + c.rng.toNat < x + 2 ^ (31 - l) := by
  obtain ⟨hl1, hl2, -⟩ := ilog_range hr ht
  obtain ⟨-, hlt, -⟩ := ilog_bounds (x := c.rng.toNat) (by omega)
  have hfew : l < 32 - ilog c.rng.toNat → c.val.toNat + c.rng.toNat < x + 2 ^ (31 - l) := fun hl => by
    have hpow : 2 ^ ilog c.rng.toNat ≤ 2 ^ (31 - l) := Nat.pow_le_pow_right (by norm_num) (by omega)
    omega
  rw [finalCode_eq hr ht hsum] at hl
  simp only at hl
  split_ifs at hl with hwide
  · rcases Nat.lt_succ_iff_lt_or_eq.1 hl with hl | rfl
    · exact hfew hl
    · have hup := roundUp_le hdvd hx
      have hp : 0 < 2 ^ (31 - (32 - ilog c.rng.toNat)) := by positivity
      omega
  · exact hfew hl

/-- The final code value is below the top of the interval, so below bit 31 where a carry would be lost (R112). -/
theorem finalCode_lt_top (hx : c.val.toNat + c.rng.toNat ≤ Config.top)
    (hspec : (finalCode c).2 + (2 ^ (31 - (finalCode c).1) - 1) < c.val.toNat + c.rng.toNat) :
    (finalCode c).2 < 2 ^ 31 := by
  have htop : Config.top = 2 ^ 31 := rfl
  omega

/-- How many symbols the final code value takes: whole bytes of its bits (R117). -/
def Coder.finalSymbols (c : Coder) : Nat := ((finalCode c).1 + 7) / 8

/-- The front part and the end part of the finished frame, in bytes (R117). -/
def Coder.finalFront (c : Coder) : Nat := c.symbolsOut + c.finalSymbols
def Coder.finalEnd (c : Coder) : Nat := c.endOffs.toNat + c.nendBits.toNat / 8

/-- The raw bits of the window that are left when its whole bytes are written (R117). -/
def Coder.lastBits (c : Coder) : Nat := c.endWin.toNat / 256 ^ (c.nendBits.toNat / 8)

/-- Everything fits the frame: both parts, and the last raw bits in a byte of their own or in the spare bits of the last
front byte (R117). -/
abbrev Coder.frameFits (c : Coder) : Prop :=
  c.finalFront + c.finalEnd ≤ c.storage.toNat ∧
  (c.nendBits.toNat % 8 = 0 ∨ (c.finalEnd < c.storage.toNat ∧
    (c.finalFront + c.finalEnd < c.storage.toNat ∨ c.nendBits.toNat % 8 ≤ 8 * c.finalSymbols - (finalCode c).1)))

theorem lastBits_lt {hw : Params} (hwin : c.windowOk hw) : c.lastBits < 2 ^ (c.nendBits.toNat % 8) := by
  obtain ⟨-, hlt, -⟩ := hwin
  unfold Coder.lastBits
  rw [Nat.div_lt_iff_lt_mul (by positivity), show (256 : Nat) = 2 ^ 8 by norm_num, ← pow_mul, ← pow_add,
    Nat.mod_add_div]
  exact hlt

theorem lastBits_byte {hw : Params} (hwin : c.windowOk hw) : c.lastBits < 256 :=
  lt_of_lt_of_le (lastBits_lt hwin) ((Nat.pow_le_pow_right (by norm_num) (by omega)).trans_eq (by norm_num : 2 ^ 8 = 256))

theorem lastBits_none {hw : Params} (hwin : c.windowOk hw) (h : c.nendBits.toNat % 8 = 0) : c.lastBits = 0 := by
  have := lastBits_lt hwin
  rw [h] at this
  omega

end FinalCode

/-! ### Whether the frame fits -/

section Finish

variable {hw : Params} {x y a z : Rc}

/-- The front part once its symbols are flushed (R112, R117). -/
structure FrontFinished (x z : Rc) : Prop where
  grew : FrontGrew x z
  offs : z.coder.offs.toNat = x.coder.finalFront

theorem frontFinished (hx : x.coder.EncoderOk hw) (hw32 : hw.extBits ≤ 32)
    (ha : emitCode hw x.coder.finalSymbols (finalCode x.coder).2 x = .ok a) (hz : flushPending hw a = .ok z) :
    FrontFinished x z := by
  obtain ⟨ga, hout, hext⟩ := emitCode_grew hx.window.2.2 hw32 ha
  obtain ⟨gz, hoffs, -⟩ := flushPending_ok hext hw32 hz
  exact ⟨ga.trans gz, hoffs.trans hout⟩

/-- The end part once the window's whole bytes are written and the gap is zero (R117). -/
theorem windowDrained {w : Nat} {d : Rc} (hz : FrontFinished x z)
    (hap : z.coder.offs.toNat + z.coder.endOffs.toNat ≤ z.coder.storage.toNat)
    (hd : drainWindow hw (z.coder.nendBits.toNat / 8) w z = .ok d) :
    d.coder = { z.coder with endOffs := d.coder.endOffs } ∧ d.coder.offs.toNat = x.coder.finalFront ∧
    d.coder.endOffs.toNat = x.coder.finalEnd ∧ d.coder.storage = x.coder.storage := by
  obtain ⟨hframe, hend, -⟩ := drainWindow_ok (by omega) hd
  refine ⟨hframe, by rw [hframe]; exact hz.offs, ?_, by rw [hframe]; exact hz.grew.storage⟩
  rw [hend, hz.grew.endOffs, hz.grew.nendBits]
  rfl

/-- RC_ENC_DONE whose symbols went out completes exactly when the frame holds everything (R117, R269). -/
theorem rcEncDone_cases (hx : x.coder.EncoderOk hw) (hw32 : hw.extBits ≤ 32)
    (ha : emitCode hw x.coder.finalSymbols (finalCode x.coder).2 x = .ok a) :
    (x.coder.frameFits → ∃ y, rcEncDone hw x = .ok y) ∧
    (¬ x.coder.frameFits → rcEncDone hw x = .error (.raised .bufOvf)) := by
  obtain ⟨ga, hout, hext⟩ := emitCode_grew hx.window.2.2 hw32 ha
  have hsta : a.coder.storage.toNat ≤ hw.fbufBytes := by rw [ga.storage]; exact hx.storage_le
  obtain ⟨hflush, hnoflush⟩ := flushPending_cases hsta (ga.apart hx.apart) hext hw32
  rw [hout, ga.endOffs, ga.storage] at hflush hnoflush
  have hstart : rcEncDone hw x = emitCode hw x.coder.finalSymbols (finalCode x.coder).2 x >>= fun y =>
      flushPending hw y >>= fun z => drainWindow hw (z.coder.nendBits.toNat / 8) z.coder.endWin.toNat z >>= fun d =>
      zeroGap hw d >>= fun g => orLastBits hw (z.coder.endWin.toNat / 256 ^ (z.coder.nendBits.toNat / 8))
        (z.coder.nendBits.toNat % 8) (8 * x.coder.finalSymbols - (finalCode x.coder).1) g >>= fun f =>
      .ok { f with coder := { f.coder with
              endWin := regNat (z.coder.endWin.toNat / 256 ^ (z.coder.nendBits.toNat / 8))
              nendBits := regNat (z.coder.nendBits.toNat % 8), fin := true } } := rfl
  rw [hstart, ha, run_ok_bind]
  by_cases hfront : x.coder.finalFront + x.coder.endOffs.toNat ≤ x.coder.storage.toNat
  case neg =>
    exact ⟨fun h => absurd h.1 (by unfold Coder.finalEnd; omega), fun _ =>
      run_bind_eq_error.2 (.inl (hnoflush (not_le.1 hfront)))⟩
  obtain ⟨z, hz⟩ := hflush hfront
  have hzf := frontFinished hx hw32 ha hz
  have hapz := hzf.grew.apart hx.apart
  rw [hz, run_ok_bind]
  have hstz : z.coder.storage.toNat ≤ hw.fbufBytes := by rw [hzf.grew.storage]; exact hx.storage_le
  have hneed : z.coder.offs.toNat + z.coder.endOffs.toNat + z.coder.nendBits.toNat / 8 =
      x.coder.finalFront + x.coder.finalEnd := by
    rw [hzf.offs, hzf.grew.endOffs, hzf.grew.nendBits, add_assoc]; rfl
  by_cases hend : x.coder.finalFront + x.coder.finalEnd ≤ x.coder.storage.toNat
  case neg =>
    refine ⟨fun h => absurd h.1 hend, fun _ => run_bind_eq_error.2 (.inl (drainWindow_full hstz ?_ ?_))⟩
    · rw [hneed, hzf.grew.storage]; omega
    · rw [hzf.grew.nendBits]
      unfold Coder.finalEnd at hend
      omega
  obtain ⟨d, hd⟩ := drainWindow_room (w := z.coder.endWin.toNat) hstz (.inr (by rw [hneed, hzf.grew.storage]; exact hend))
  obtain ⟨-, hdo, hde, hds⟩ := windowDrained hzf hapz hd
  obtain ⟨g, hg⟩ := zeroGap_room (hw := hw) (x := d) (by rw [hds]; exact hx.storage_le)
  have hgc := (zeroGap_ok hg).1
  rw [hd, run_ok_bind, hg, run_ok_bind]
  obtain ⟨hlast, hnolast⟩ := orLastBits_cases (hw := hw)
    (w := z.coder.endWin.toNat / 256 ^ (z.coder.nendBits.toNat / 8)) (u := z.coder.nendBits.toNat % 8)
    (spare := 8 * x.coder.finalSymbols - (finalCode x.coder).1) (x := g) (by rw [hgc, hds]; exact hx.storage_le)
  rw [hgc, hdo, hde, hds, hzf.grew.nendBits] at hlast hnolast
  refine ⟨fun h => ?_, fun h => ?_⟩
  · obtain ⟨f, hf⟩ := hlast h.2
    rw [hzf.grew.nendBits, hf]
    exact ⟨_, rfl⟩
  · refine run_bind_eq_error.2 (.inl ?_)
    rw [hzf.grew.nendBits]
    exact hnolast fun h2 => h ⟨hend, h2⟩

/-! ### What the finished frame holds -/

/-- The finished frame's registers and bytes: each byte below the end part is the flushed front's, or 0, and the last raw
bits are ORed into the last of them (R117). -/
structure FrameFinished (x z y : Rc) : Prop where
  offs : y.coder.offs.toNat = x.coder.finalFront
  endOffs : y.coder.endOffs.toNat = x.coder.finalEnd
  nendBits : y.coder.nendBits.toNat = x.coder.nendBits.toNat % 8
  endWin : y.coder.endWin.toNat = x.coder.lastBits
  byte : ∀ j, j < x.coder.storage.toNat - x.coder.finalEnd → y.mem.fbuf j =
    (if j < x.coder.finalFront then z.mem.fbuf j else 0) |||
      (if j = x.coder.storage.toNat - x.coder.finalEnd - 1 then x.coder.lastBits else 0)
  endBytes : ∀ j, j < x.coder.nendBits.toNat / 8 →
    y.mem.fbuf (x.coder.storage.toNat - 1 - (x.coder.endOffs.toNat + j)) = x.coder.endWin.toNat / 256 ^ j % 256
  mem : x.mem.sameBut y.mem (frameRange x.coder.offs.toNat (x.coder.storage.toNat - x.coder.endOffs.toNat))

/-- Between the two parts only the byte of the last raw bits is not 0 (R117). -/
theorem FrameFinished.gap (h : FrameFinished x z y) {j : Nat} (hlo : x.coder.finalFront ≤ j)
    (hhi : j + 1 < x.coder.storage.toNat - x.coder.finalEnd) : y.mem.fbuf j = 0 := by
  rw [h.byte j (by omega), if_neg (by omega), if_neg (by omega), Nat.or_zero]

theorem FrameFinished.last (h : FrameFinished x z y)
    (hroom : x.coder.finalFront + x.coder.finalEnd < x.coder.storage.toNat) :
    y.mem.fbuf (x.coder.storage.toNat - x.coder.finalEnd - 1) = x.coder.lastBits := by
  rw [h.byte _ (by omega), if_neg (by omega), if_pos rfl, Nat.zero_or]

theorem finalFront_le {c : Coder} : c.offs.toNat ≤ c.finalFront :=
  (Nat.le_add_right _ _).trans ((Nat.le_add_right _ _).trans (Nat.le_add_right _ _))

/-- The last raw bits land between the front part the encoder had and its end part (R117). -/
theorem lastByte_inside {c : Coder} (hfits : c.frameFits) (hu : c.nendBits.toNat % 8 ≠ 0) :
    c.offs.toNat ≤ c.storage.toNat - c.finalEnd - 1 := by
  obtain ⟨hroom, hlast⟩ := hfits
  obtain ⟨-, hspare⟩ := hlast.resolve_left hu
  have hle : c.offs.toNat + c.finalSymbols ≤ c.finalFront := by
    unfold Coder.finalFront Coder.symbolsOut; omega
  omega

theorem rcEncDone_finished (hx : x.coder.EncoderOk hw) (hw32 : hw.extBits ≤ 32) (hfits : x.coder.frameFits)
    (h : rcEncDone hw x = .ok y) :
    ∃ a z, emitCode hw x.coder.finalSymbols (finalCode x.coder).2 x = .ok a ∧ flushPending hw a = .ok z ∧
      FrameFinished x z y := by
  obtain ⟨a, ha, h⟩ := run_bind_eq_ok.1 h
  obtain ⟨z, hz, h⟩ := run_bind_eq_ok.1 h
  obtain ⟨d, hd, h⟩ := run_bind_eq_ok.1 h
  obtain ⟨g, hg, h⟩ := run_bind_eq_ok.1 h
  obtain ⟨f, hf, h⟩ := run_bind_eq_ok.1 h
  cases h
  refine ⟨a, z, ha, hz, ?_⟩
  have hzf := frontFinished hx hw32 ha hz
  have hapz := hzf.grew.apart hx.apart
  obtain ⟨-, hdo, hde, hds⟩ := windowDrained hzf hapz hd
  obtain ⟨-, -, -, hdrained, hdmem⟩ := drainWindow_ok (by omega) hd
  obtain ⟨hgc, hgbyte, hgmem⟩ := zeroGap_ok hg
  obtain ⟨hfc, hnone, hlast, hfmem⟩ := orLastBits_ok hf
  have hbyte := lastBits_byte hx.window
  have hwin : x.coder.endWin.toNat / 256 ^ (x.coder.nendBits.toNat / 8) = x.coder.lastBits := rfl
  have hzo := hzf.offs
  simp only [hgc, hdo, hde, hds, hzf.grew.nendBits, hzf.grew.endWin, hzf.grew.storage, hzf.grew.endOffs, hwin,
    Nat.mod_eq_of_lt hbyte] at hapz hdrained hdmem hgbyte hgmem hnone hlast hfmem
  have hle := finalFront_le (c := x.coder)
  have hend : x.coder.finalEnd = x.coder.endOffs.toNat + x.coder.nendBits.toNat / 8 := rfl
  have hroom := hfits.1
  have hfbuf : ∀ j, f.mem.fbuf j = if j = x.coder.storage.toNat - x.coder.finalEnd - 1
      then g.mem.fbuf j ||| x.coder.lastBits else g.mem.fbuf j := fun j => by
    by_cases hu : x.coder.nendBits.toNat % 8 = 0
    · rw [hnone hu, lastBits_none hx.window hu, Nat.or_zero, ite_self]
    · exact (hlast hu).2.2 j
  refine ⟨?_, ?_, ?_, ?_, fun j hj => ?_, fun j hj => ?_, ?_⟩
  · simp only [hfc, hgc]; exact hdo
  · simp only [hfc, hgc]; exact hde
  · simp only [hzf.grew.nendBits]; exact toNat_regNat (by omega)
  · simp only [hzf.grew.nendBits, hzf.grew.endWin, hwin]; exact toNat_regNat (by omega)
  · have hz' : d.mem.fbuf j = z.mem.fbuf j := Memory.fbuf_sameBut hdmem (.inl hj)
    have hgap : g.mem.fbuf j = if j < x.coder.finalFront then z.mem.fbuf j else 0 := by
      rw [hgbyte, hz']
      by_cases hlt : j < x.coder.finalFront
      · rw [if_pos hlt, if_neg (by omega)]
      · rw [if_neg hlt, if_pos ⟨by omega, hj⟩]
    rw [hfbuf, hgap]
    by_cases hlast : j = x.coder.storage.toNat - x.coder.finalEnd - 1
    · rw [if_pos hlast, if_pos hlast]
    · rw [if_neg hlast, if_neg hlast, Nat.or_zero]
  · have hlast0 : x.coder.finalEnd < x.coder.storage.toNat ∨ x.coder.lastBits = 0 :=
      hfits.2.symm.imp (fun h => h.1) (lastBits_none hx.window)
    have hdone := (hgbyte _).trans ((if_neg (by omega)).trans (hdrained j hj))
    rw [hfbuf, hdone]
    rcases hlast0 with hlt | h0
    · rw [if_neg (by omega)]
    · rw [h0, Nat.or_zero, ite_self]
  · have hzmem := Memory.sameBut_mono hzf.grew.mem (frameRange_mono (le_refl x.coder.offs.toNat)
      (show z.coder.offs.toNat ≤ x.coder.storage.toNat - x.coder.endOffs.toNat by omega))
    have hd' := Memory.sameBut_mono hdmem (frameRange_mono (lo' := x.coder.offs.toNat) (by omega) (le_refl _))
    have hg' := Memory.sameBut_mono hgmem (frameRange_mono hle
      (show _ ≤ x.coder.storage.toNat - x.coder.endOffs.toNat by omega))
    refine Memory.sameBut_trans hzmem (Memory.sameBut_trans hd' (Memory.sameBut_trans hg' ?_))
    by_cases hu : x.coder.nendBits.toNat % 8 = 0
    · rw [hnone hu]; exact Memory.sameBut_refl _ _
    · exact Memory.sameBut_mono hfmem (frameRange_mono (lastByte_inside hfits hu) (by omega))

/-! ### The code value the front bytes stand for -/

/-- `k` whole bytes hold a code value of `l` bits, and fewer would not (R117). -/
theorem finalSymbols_bounds (hx : x.coder.EncoderOk hw) :
    x.coder.finalSymbols ≤ 2 ∧ (finalCode x.coder).1 ≤ 8 * x.coder.finalSymbols ∧
    8 * x.coder.finalSymbols ≤ (finalCode x.coder).1 + 7 := by
  obtain ⟨hl, -⟩ := finalCode_spec hx.rng_gt hx.rng_le hx.sum_le
  unfold Coder.finalSymbols
  omega

/-- Without symbols the final code value is 0: the interval is the whole one (R114, R117). -/
theorem finalCode_zero (hx : x.coder.EncoderOk hw) (hl : (finalCode x.coder).1 = 0) : (finalCode x.coder).2 = 0 := by
  obtain ⟨-, ⟨m, hm⟩, -, hlt⟩ := finalCode_spec hx.rng_gt hx.rng_le hx.sum_le
  have hle := hx.rng_le
  have hsum := hx.sum_le
  simp only [Config.top, hl] at *
  omega

/-- The emitted symbols append the final code value to what was produced, exactly (R112, R117). -/
theorem emitCode_value (hx : x.coder.EncoderOk hw) (hw32 : hw.extBits ≤ 32) (hsafe : x.coder.carrySafe)
    (ha : emitCode hw x.coder.finalSymbols (finalCode x.coder).2 x = .ok a) :
    a.produced * 2 ^ (31 - 8 * x.coder.finalSymbols) = x.produced * 2 ^ 31 + (finalCode x.coder).2 := by
  obtain ⟨hk2, hlo, hhi⟩ := finalSymbols_bounds hx
  obtain ⟨-, hdvd, -, hspec⟩ := finalCode_spec hx.rng_gt hx.rng_le hx.sum_le
  have hsum := hx.sum_le
  obtain ⟨-, -, -, -, hval⟩ := emitCode_ok hx.window.2.2 hw32 (by omega)
    (fun h => finalCode_lt_top (hsafe h) hspec) ha
  by_cases hk : x.coder.finalSymbols = 0
  · have hzero := finalCode_zero hx (by omega)
    rw [hk, hzero, if_pos rfl, pow_zero, Nat.mul_one, Nat.add_zero] at hval
    rw [hk, hzero, Nat.mul_zero, Nat.sub_zero]
    exact hval
  · have hwhole : 2 ^ 31 ∣ (finalCode x.coder).2 * 256 ^ x.coder.finalSymbols := by
      rw [show (256 : Nat) = 2 ^ 8 by norm_num, ← pow_mul]
      exact (pow_dvd_pow 2 (by omega)).trans ((pow_add 2 _ _).symm ▸ Nat.mul_dvd_mul_right hdvd _)
    rw [if_neg hk, Nat.mod_eq_zero_of_dvd hwhole, Nat.add_zero] at hval
    refine Nat.eq_of_mul_eq_mul_right (pow_pos (by norm_num) x.coder.finalSymbols : 0 < 256 ^ _) ?_
    rw [← hval, mul_assoc, show (256 : Nat) = 2 ^ 8 by norm_num, ← pow_mul, ← pow_add, Nat.sub_add_cancel (by omega)]

/-- The flushed front bytes hold the final code value below what was produced (R117). -/
theorem flushed_value (hx : x.coder.EncoderOk hw) (hw32 : hw.extBits ≤ 32) (hsafe : x.coder.carrySafe)
    (ha : emitCode hw x.coder.finalSymbols (finalCode x.coder).2 x = .ok a) (hz : flushPending hw a = .ok z) :
    z.mem.frontBytes x.coder.finalFront 0 x.coder.finalFront * 2 ^ (31 - 8 * x.coder.finalSymbols) =
      x.produced * 2 ^ 31 + (finalCode x.coder).2 := by
  obtain ⟨-, -, hext⟩ := emitCode_grew hx.window.2.2 hw32 ha
  obtain ⟨-, -, hbytes⟩ := flushPending_ok hext hw32 hz
  rw [(frontFinished hx hw32 ha hz).offs] at hbytes
  rw [hbytes]
  exact emitCode_value hx hw32 hsafe ha

/-- The spare low bits of the last front byte are 0 (R117). -/
theorem spare_dvd {p b e l k : Nat} (h : b * 2 ^ (31 - 8 * k) = p * 2 ^ 31 + e) (hl : l ≤ 8 * k) (hk : 8 * k ≤ 31)
    (hdvd : 2 ^ (31 - l) ∣ e) : 2 ^ (8 * k - l) ∣ b := by
  have hall : 2 ^ (31 - l) ∣ b * 2 ^ (31 - 8 * k) :=
    h ▸ dvd_add ((pow_dvd_pow 2 (Nat.sub_le _ _)).mul_left p) hdvd
  rw [show 31 - l = (8 * k - l) + (31 - 8 * k) by omega, pow_add] at hall
  exact Nat.dvd_of_mul_dvd_mul_right (by positivity) hall

/-- Bits ORed below a multiple of `2^m` are added. -/
theorem or_eq_add_of_dvd {b w m : Nat} (hb : 2 ^ m ∣ b) (hw : w < 2 ^ m) : b ||| w = b + w := by
  obtain ⟨n, rfl⟩ := hb
  exact (Nat.two_pow_add_eq_or_of_lt hw n).symm

/-- The last raw bits share the last front byte: the frame is full and some are left (R117). -/
abbrev Coder.shared (c : Coder) : Prop := c.nendBits.toNat % 8 ≠ 0 ∧ c.finalFront + c.finalEnd = c.storage.toNat

/-- Shared raw bits are few enough for the spare bits of the last front byte (R117). -/
theorem shared_spare {c : Coder} (hfits : c.frameFits) (h : c.shared) :
    c.finalEnd < c.storage.toNat ∧ c.nendBits.toNat % 8 ≤ 8 * c.finalSymbols - (finalCode c).1 := by
  obtain ⟨-, hlast⟩ := hfits
  obtain ⟨hend, hspare⟩ := hlast.resolve_left h.1
  exact ⟨hend, hspare.resolve_left (by omega)⟩

/-- The byte the last raw bits share, before and after (R117). -/
theorem sharedByte (hx : x.coder.EncoderOk hw) (hfits : x.coder.frameFits) (hf : FrameFinished x z y)
    (h : x.coder.shared) {n : Nat} (hn : x.coder.finalFront = n + 1)
    (hdvd : 2 ^ (8 * x.coder.finalSymbols - (finalCode x.coder).1) ∣ z.mem.fbuf n) :
    y.mem.fbuf n = z.mem.fbuf n + x.coder.lastBits := by
  obtain ⟨hend, hspare⟩ := shared_spare hfits h
  have hfull := h.2
  rw [hf.byte n (by omega), if_pos (by omega), if_pos (by omega)]
  exact or_eq_add_of_dvd hdvd
    ((lastBits_lt hx.window).trans_le (Nat.pow_le_pow_right (by norm_num) hspare))

/-- The front bytes are those flushed, with the last raw bits added where they share the last one (R117). -/
theorem finished_front (hx : x.coder.EncoderOk hw) (hfits : x.coder.frameFits) (hf : FrameFinished x z y)
    (hdvd : 2 ^ (8 * x.coder.finalSymbols - (finalCode x.coder).1) ∣
      z.mem.frontBytes x.coder.finalFront 0 x.coder.finalFront) :
    y.mem.frontBytes x.coder.finalFront 0 x.coder.finalFront =
      z.mem.frontBytes x.coder.finalFront 0 x.coder.finalFront + (if x.coder.shared then x.coder.lastBits else 0) := by
  have hroom := hfits.1
  by_cases h : x.coder.shared
  · obtain ⟨hend, -⟩ := shared_spare hfits h
    have hfull := h.2
    obtain ⟨n, hn⟩ : ∃ n, x.coder.finalFront = n + 1 := ⟨x.coder.finalFront - 1, by omega⟩
    have hpow : 2 ^ (8 * x.coder.finalSymbols - (finalCode x.coder).1) ∣ 256 :=
      pow_dvd_pow 2 (n := 8) (by have := finalSymbols_bounds hx; omega)
    have hbyte := sharedByte hx hfits hf h hn
    rw [hn, Memory.written_succ] at hdvd
    rw [if_pos h, hn, Memory.written_succ, Memory.written_succ,
      hbyte ((Nat.dvd_add_right (hpow.mul_left _)).1 hdvd), ← Nat.add_assoc]
    congr 3
    exact Memory.written_congr (le_refl _) (le_refl _) fun i hi => by
      rw [hf.byte i (by omega), if_pos (by omega), if_neg (by omega), Nat.or_zero]
  · rw [if_neg h, Nat.add_zero]
    refine Memory.written_congr (le_refl _) (le_refl _) fun i hi => ?_
    have hkept : (if i = x.coder.storage.toNat - x.coder.finalEnd - 1 then x.coder.lastBits else 0) = 0 := by
      by_cases hu : x.coder.nendBits.toNat % 8 = 0
      · rw [lastBits_none hx.window hu, ite_self]
      · exact if_neg fun hi' => h ⟨hu, by omega⟩
    rw [hf.byte i (by omega), if_pos hi, hkept, Nat.or_zero]

/-- The front bytes of a finished frame as a code value: what was produced and the final code value, its spare bits 0 but
for shared raw bits (R117). -/
theorem finished_code (hx : x.coder.EncoderOk hw) (hfits : x.coder.frameFits) (hf : FrameFinished x z y)
    (hz : z.mem.frontBytes x.coder.finalFront 0 x.coder.finalFront * 2 ^ (31 - 8 * x.coder.finalSymbols) =
      x.produced * 2 ^ 31 + (finalCode x.coder).2) :
    y.mem.frontBytes x.coder.finalFront 0 x.coder.finalFront * 2 ^ (31 - 8 * x.coder.finalSymbols) =
      x.produced * 2 ^ 31 + (finalCode x.coder).2 +
        (if x.coder.shared then x.coder.lastBits * 2 ^ (31 - 8 * x.coder.finalSymbols) else 0) := by
  obtain ⟨hk2, hlo, -⟩ := finalSymbols_bounds hx
  obtain ⟨-, hdvd, -, -⟩ := finalCode_spec hx.rng_gt hx.rng_le hx.sum_le
  rw [finished_front hx hfits hf (spare_dvd hz hlo (by omega) hdvd), Nat.add_mul, hz, ite_mul, Nat.zero_mul]

/-- Whatever bits follow, the shared ones included, the final code value stays in its block (R117). -/
theorem shared_block (hx : x.coder.EncoderOk hw) (hfits : x.coder.frameFits) :
    (if x.coder.shared then x.coder.lastBits * 2 ^ (31 - 8 * x.coder.finalSymbols) else 0) +
      2 ^ (31 - 8 * x.coder.finalSymbols) ≤ 2 ^ (31 - (finalCode x.coder).1) := by
  obtain ⟨hk2, hlo, -⟩ := finalSymbols_bounds hx
  by_cases h : x.coder.shared
  · obtain ⟨-, hspare⟩ := shared_spare hfits h
    have hlt := (lastBits_lt hx.window).trans_le (Nat.pow_le_pow_right (by norm_num) hspare)
    rw [if_pos h, ← Nat.succ_mul, show 31 - (finalCode x.coder).1 =
      (8 * x.coder.finalSymbols - (finalCode x.coder).1) + (31 - 8 * x.coder.finalSymbols) by omega, pow_add]
    exact Nat.mul_le_mul_right _ hlt
  · rw [if_neg h, Nat.zero_add]
    exact Nat.pow_le_pow_right (by norm_num) (by omega)

/-- Followed by any bits at all, the front bytes are a code value inside the final interval (R117). -/
theorem finished_inside (hx : x.coder.EncoderOk hw) (hfits : x.coder.frameFits) (hf : FrameFinished x z y)
    (hz : z.mem.frontBytes x.coder.finalFront 0 x.coder.finalFront * 2 ^ (31 - 8 * x.coder.finalSymbols) =
      x.produced * 2 ^ 31 + (finalCode x.coder).2) :
    x.produced * 2 ^ 31 + x.coder.val.toNat ≤
      y.mem.frontBytes x.coder.finalFront 0 x.coder.finalFront * 2 ^ (31 - 8 * x.coder.finalSymbols) ∧
    y.mem.frontBytes x.coder.finalFront 0 x.coder.finalFront * 2 ^ (31 - 8 * x.coder.finalSymbols) +
      (2 ^ (31 - 8 * x.coder.finalSymbols) - 1) < x.produced * 2 ^ 31 + x.coder.val.toNat + x.coder.rng.toNat := by
  obtain ⟨-, -, hval, htop⟩ := finalCode_spec hx.rng_gt hx.rng_le hx.sum_le
  have hblock := shared_block hx hfits
  have hpos : 0 < 2 ^ (31 - 8 * x.coder.finalSymbols) := by positivity
  rw [finished_code hx hfits hf hz]
  omega

/-- The last raw bits read back from the byte before the end part (R117). -/
theorem finished_lastBits (hx : x.coder.EncoderOk hw) (hfits : x.coder.frameFits) (hf : FrameFinished x z y)
    (hdvd : 2 ^ (8 * x.coder.finalSymbols - (finalCode x.coder).1) ∣
      z.mem.frontBytes x.coder.finalFront 0 x.coder.finalFront) (hu : x.coder.nendBits.toNat % 8 ≠ 0) :
    y.mem.fbuf (x.coder.storage.toNat - x.coder.finalEnd - 1) % 2 ^ (x.coder.nendBits.toNat % 8) =
      x.coder.lastBits := by
  obtain ⟨hend, -⟩ := hfits.2.resolve_left hu
  have hroom := hfits.1
  have hlt := lastBits_lt hx.window
  by_cases h : x.coder.shared
  · obtain ⟨-, hspare⟩ := shared_spare hfits h
    have hfull := h.2
    obtain ⟨n, hn⟩ : ∃ n, x.coder.finalFront = n + 1 := ⟨x.coder.finalFront - 1, by omega⟩
    have hbyte : 2 ^ (8 * x.coder.finalSymbols - (finalCode x.coder).1) ∣ z.mem.fbuf n := by
      rw [hn, Memory.written_succ] at hdvd
      exact (Nat.dvd_add_right ((pow_dvd_pow 2 (n := 8) (by have := finalSymbols_bounds hx; omega)).mul_left _)).1 hdvd
    rw [show x.coder.storage.toNat - x.coder.finalEnd - 1 = n by omega, sharedByte hx hfits hf h hn hbyte,
      Nat.add_mod, Nat.mod_eq_zero_of_dvd ((pow_dvd_pow 2 hspare).trans hbyte), Nat.zero_add, Nat.mod_mod,
      Nat.mod_eq_of_lt hlt]
  · have hfree : x.coder.finalFront + x.coder.finalEnd ≠ x.coder.storage.toNat := fun hfull => h ⟨hu, hfull⟩
    rw [hf.last (by omega), Nat.mod_eq_of_lt hlt]

end Finish

/-! ### The command -/

section Command

variable {s : State}

theorem exec_rcEncDone_checked (hr : s.regs.rc.ready .encode) :
    exec .rcEncDone s = perform .rcEncDone s.frameBytes
      (rcEncDone s.hw s.rcView >>= fun x => .ok (s.putRc x)) s :=
  congrArg (fun body => perform .rcEncDone s.frameBytes body s) (passed_rcReq hr)

/-- Eight bytes of room suffice for the end of a frame (R117). -/
theorem roomFor_eight (hx : s.regs.rc.EncoderOk s.hw) (h : s.roomFor 8) :
    (∃ f, s.frontAfter (codeSymbols s.regs.rc.finalSymbols (finalCode s.regs.rc).2) = .ok f) ∧
    s.regs.rc.frameFits ∧ s.regs.rc.finalFront + s.regs.rc.finalEnd < s.regs.rc.storage.toNat := by
  have hk2 : s.regs.rc.finalSymbols ≤ 2 := (finalSymbols_bounds (x := s.rcView) hx).1
  obtain ⟨hu, -⟩ := hx.window
  have hbuf : s.regs.rc.remValid.toNat ≤ 1 := Bool.toNat_le _
  have hroom : s.regs.rc.finalFront + s.regs.rc.finalEnd < s.regs.rc.storage.toNat := by
    unfold Coder.finalFront Coder.finalEnd Coder.symbolsOut
    omega
  refine ⟨Front.after_room _ _ _ _ (.inr ?_) ?_, ⟨by omega, .inr ⟨by omega, .inl hroom⟩⟩, hroom⟩
  · simp only [Coder.front, codeSymbols_length]; omega
  · simp only [Coder.front, codeSymbols_length]; omega

end Command

end Sys2Proof.Machine

namespace Sys2Proof

open Machine

/-- Settles O34: `done()` emits, flushes, drains, zeroes and ORs, and each part either fits or faults. -/
theorem finishFrame : Obligations.FinishFrame := by
  intro s hs hr
  have hdata := (State.ok_iff.1 hs).1
  have hx : s.regs.rc.EncoderOk s.hw := hdata.coder.encoder hr.1 hr.2.1
  have hw32 := Params.legal_extBits hdata.legal
  have hexec := exec_rcEncDone_checked hr
  have hfront := emitCode_front (k := s.regs.rc.finalSymbols) (e := (finalCode s.regs.rc).2) (x := s.rcView)
    hx.storage_le hx.apart hx.window.2.2 hw32
  have emitted : ∀ {f}, s.frontAfter (codeSymbols s.regs.rc.finalSymbols (finalCode s.regs.rc).2) = .ok f →
      ∃ a, emitCode s.hw s.regs.rc.finalSymbols (finalCode s.regs.rc).2 s.rcView = .ok a := fun hf => by
    rw [State.frontAfter_eq] at hf
    rw [hf] at hfront
    obtain ⟨a, ha, -⟩ := hfront
    exact ⟨a, ha⟩
  simp only
  rw [← finalCode_eq hx.rng_gt hx.rng_le hx.sum_le]
  obtain ⟨hl9, hdvd, hval, htop⟩ := finalCode_spec hx.rng_gt hx.rng_le hx.sum_le
  obtain ⟨hk2, hlo, -⟩ := finalSymbols_bounds (x := s.rcView) hx
  refine ⟨hk2, fun l x hl hd hv => finalCode_fewest hx.rng_gt hx.rng_le hx.sum_le hl hd hv, roomFor_eight hx,
    fun code hcode => ?_, fun f hf hfull => ?_, fun f hf hfits => ?_⟩
  · have hstop : s.rcView.frontAfter s.hw (codeSymbols s.regs.rc.finalSymbols (finalCode s.regs.rc).2) = .error code :=
      hcode
    rw [hstop] at hfront
    exact faultsWith_putRc hexec (run_bind_eq_error.2 (.inl hfront))
  · obtain ⟨a, ha⟩ := emitted hf
    exact faultsWith_putRc hexec ((rcEncDone_cases (x := s.rcView) hx hw32 ha).2 hfull)
  · obtain ⟨a, ha⟩ := emitted hf
    obtain ⟨y, hy⟩ := (rcEncDone_cases (x := s.rcView) hx hw32 ha).1 hfits
    obtain ⟨hframe, -, -⟩ := rcEncDone_ok (x := s.rcView) hx.apart hx.window hw32 hy
    obtain ⟨-, -, hpending⟩ := rcEncDone_pending (x := s.rcView) ((Nat.le_add_left _ _).trans hx.apart) hx.window.2.2
      hw32 hy
    obtain ⟨a, z, ha, hz, hfin⟩ := rcEncDone_finished (x := s.rcView) hx hw32 hfits hy
    refine ⟨y.coder, y.mem, completesWith_putRc hexec hy, hframe, hpending, hfin.offs, hfin.endOffs, hfin.nendBits,
      hfin.endWin, fun j hj hj' => hfin.gap hj hj', fun hroom => (hfin.last hroom).trans hfin.endWin.symm, hfin.endBytes,
      fun hsafe => ?_, hfin.mem⟩
    have hvalue := flushed_value hx hw32 hsafe ha hz
    obtain ⟨hge, hlt⟩ := finished_inside (x := s.rcView) hx hfits hfin hvalue
    have hcode := finished_code (x := s.rcView) hx hfits hfin hvalue
    rw [hfin.endWin]
    exact ⟨hcode, hge, hlt, finished_lastBits (x := s.rcView) hx hfits hfin (spare_dvd hvalue hlo (by omega) hdvd)⟩

end Sys2Proof

/-! ### An empty frame -/

namespace Sys2Proof.Machine

/-- An encoder in which nothing was encoded: whatever its frame and its bit counter, R114's registers. -/
structure Coder.Empty (c : Coder) : Prop where
  val : c.val = 0#32
  rng : c.rng = 0x80000000#32
  offs : c.offs = 0#32
  endOffs : c.endOffs = 0#32
  endWin : c.endWin = 0#32
  nendBits : c.nendBits = 0#32
  remValid : c.remValid = false
  ext : c.ext = 0#32

theorem empty_of_init {c : Coder} {n : Nat} {w : Word} (h : c = { encInitCoder n with nbitsTotal := w }) : c.Empty := by
  rw [h]
  exact ⟨rfl, rfl, rfl, rfl, rfl, rfl, rfl, rfl⟩

/-- The whole interval needs no bits (R117). -/
theorem finalCode_empty {c : Coder} (h : c.Empty) : finalCode c = (0, 0) := by
  unfold finalCode
  rw [h.val, h.rng]
  rfl

theorem finalSymbols_empty {c : Coder} (h : c.Empty) : c.finalSymbols = 0 := by
  rw [Coder.finalSymbols, finalCode_empty h]; rfl

theorem finalFront_empty {c : Coder} (h : c.Empty) : c.finalFront = 0 := by
  rw [Coder.finalFront, Coder.symbolsOut, finalSymbols_empty h, h.offs, h.remValid, h.ext]
  rfl

theorem finalEnd_empty {c : Coder} (h : c.Empty) : c.finalEnd = 0 := by
  rw [Coder.finalEnd, h.endOffs, h.nendBits]
  rfl

theorem lastBits_empty {c : Coder} (h : c.Empty) : c.lastBits = 0 := by
  rw [Coder.lastBits, h.endWin, h.nendBits]
  rfl

theorem frameFits_empty {c : Coder} (h : c.Empty) : c.frameFits := by
  refine ⟨?_, .inl ?_⟩
  · rw [finalFront_empty h, finalEnd_empty h]; exact Nat.zero_le _
  · rw [h.nendBits]; rfl

/-- Finishing an empty frame only marks the encoder finished (R117). -/
theorem finished_empty {hw : Params} {x z y : Rc} (he : x.coder.Empty) (hx : x.coder.EncoderOk hw)
    (hw32 : hw.extBits ≤ 32) (hf : FrameFinished x z y) (h : rcEncDone hw x = .ok y) :
    y.coder = { x.coder with fin := true } := by
  obtain ⟨hframe, -, -⟩ := rcEncDone_ok hx.apart hx.window hw32 h
  obtain ⟨-, -, hpending⟩ := rcEncDone_pending ((Nat.le_add_left _ _).trans hx.apart) hx.window.2.2 hw32 h
  rw [if_pos ⟨finalSymbols_empty he, he.remValid, he.ext⟩] at hpending
  obtain ⟨hrem, hvalid, hext⟩ := hpending
  have hoffs : y.coder.offs = x.coder.offs :=
    BitVec.eq_of_toNat_eq (by rw [hf.offs, finalFront_empty he, he.offs]; rfl)
  have hend : y.coder.endOffs = x.coder.endOffs :=
    BitVec.eq_of_toNat_eq (by rw [hf.endOffs, finalEnd_empty he, he.endOffs]; rfl)
  have hwin : y.coder.endWin = x.coder.endWin :=
    BitVec.eq_of_toNat_eq (by rw [hf.endWin, lastBits_empty he, he.endWin]; rfl)
  have hbits : y.coder.nendBits = x.coder.nendBits :=
    BitVec.eq_of_toNat_eq (by rw [hf.nendBits, he.nendBits]; rfl)
  rw [hframe, hrem, hvalid, hext, hoffs, hend, hwin, hbits]

end Sys2Proof.Machine

namespace Sys2Proof

open Machine

/-- Settles O35: nothing is emitted, flushed or left in the window, so the gap is the whole frame. -/
theorem finishEmptyFrame : Obligations.FinishEmptyFrame := by
  intro s hs hr hinit
  have hdata := (State.ok_iff.1 hs).1
  have hx : s.regs.rc.EncoderOk s.hw := hdata.coder.encoder hr.1 hr.2.1
  have hw32 := Params.legal_extBits hdata.legal
  have he : s.regs.rc.Empty := empty_of_init hinit
  have hfits := frameFits_empty he
  have hnone : emitCode s.hw s.regs.rc.finalSymbols (finalCode s.regs.rc).2 s.rcView = .ok s.rcView := by
    rw [finalSymbols_empty he]; rfl
  obtain ⟨y, hy⟩ := (rcEncDone_cases (x := s.rcView) hx hw32 hnone).1 hfits
  obtain ⟨a, z, -, -, hfin⟩ := rcEncDone_finished (x := s.rcView) hx hw32 hfits hy
  have hdone := completesWith_putRc (exec_rcEncDone_checked hr) hy
  rw [finished_empty (x := s.rcView) he hx hw32 hfin hy] at hdone
  refine ⟨y.mem, hdone, fun j hj => ?_, ?_⟩
  · rw [hfin.byte j (by rw [rcView_coder, finalEnd_empty he]; exact hj), rcView_coder, finalFront_empty he,
      lastBits_empty he, if_neg (Nat.not_lt_zero j), ite_self, Nat.or_zero]
  · have hmem := hfin.mem
    rw [rcView_coder, he.offs, he.endOffs] at hmem
    exact hmem

end Sys2Proof

/-! ## The angle and sign commands (R205, R208, R210, R212, R213, R218, R219) -/

namespace Sys2Proof.Machine

/-! ### Magnitudes and weights -/

/-- A sum of squares of NORM elements, each of 16 bits. -/
theorem normSquares_le (m : Memory) (ks : List Nat) : m.normSquares ks ≤ ks.length * 2 ^ 30 := by
  unfold Memory.normSquares
  refine (List.sum_le_card_nsmul _ (2 ^ 30) fun x hx => ?_).trans_eq (by rw [List.length_map, smul_eq_mul])
  obtain ⟨k, -, rfl⟩ := List.mem_map.1 hx
  have hnorm : (m.norm k).natAbs ≤ 2 ^ 15 := by
    have hlo := (m.half (normAddr k)).le_toInt
    have hhi := (m.half (normAddr k)).toInt_lt
    unfold Memory.norm
    omega
  calc (m.norm k).natAbs * (m.norm k).natAbs ≤ 2 ^ 15 * 2 ^ 15 := Nat.mul_le_mul hnorm hnorm
    _ = 2 ^ 30 := by norm_num

/-- The magnitude of a band in use has at most 20 bits (R32, R205). -/
theorem magnitude_le {s : State} {b : Nat} (h : s.stereoBand b) (c : Nat) : s.mem.magnitude b c ≤ 2 ^ 19 := by
  have hlen : ((s.mem.bins b).map (fun j => 2 * j + c)).length ≤ 256 := by
    rw [List.length_map, Memory.bins, List.length_range']
    exact width_le h.1 h.2.2
  have hsquares := (normSquares_le s.mem ((s.mem.bins b).map (fun j => 2 * j + c))).trans (Nat.mul_le_mul_right _ hlen)
  have hroot := (isqrt_spec (s.mem.normSquares ((s.mem.bins b).map (fun j => 2 * j + c)))).1
  exact Nat.mul_self_le_mul_self_iff.1 (hroot.trans (hsquares.trans_eq (by norm_num)))

/-- R210 at the edges and between them. -/
theorem trig_cases (theta n : Nat) :
    (theta = 0 → trig theta n = { mid := 32767, side := 0, delta := -16384 }) ∧
    (theta = 16384 → trig theta n = { mid := 0, side := 32767, delta := 16384 }) ∧
    (theta ≠ 0 → theta ≠ 16384 → trig theta n =
      { mid := bcos theta, side := bcos (16384 - theta)
        delta := (16384 + ((n - 1) * 128 : Nat) * log2tan (bcos (16384 - theta)).toNat (bcos theta).toNat) / 2 ^ 15 }) := by
  refine ⟨fun h => if_pos h, fun h => ?_, fun h0 h1 => (if_neg h0).trans (if_neg h1)⟩
  rw [trig, if_neg (by omega), if_pos h]

section Angle

variable {s : State} {b qb : Byte}

/-- ST_THETA_ENC behind its checks (R212). -/
theorem exec_stThetaEnc_checked (hb : s.stereoBand b.toNat) (hr : s.regs.rc.ready .encode)
    (hq : decide (lowFourBits qb ≤ Config.qbMax) = true) :
    let q := lowFourBits qb
    let m := s.mem.magnitude b.toNat 0
    let sd := s.mem.magnitude b.toNat 1
    let tq := quantize (angleFn s.hw.angle sd m) q
    exec (.stThetaEnc b qb) s = perform (.stThetaEnc b qb) s.frameBytes
      (rcEncode s.hw tq (tq + 1) (2 ^ q + 1) s.rcView >>= fun x =>
        .ok { s with
          regs := { s.regs with
            rc := x.coder, res0 := regNat tq
            st := { setAngle (dequantize tq q) (s.mem.width b.toNat) s.regs.st with magm := regNat m, mags := regNat sd } }
          mem := x.mem }) s := by
  obtain ⟨hm, hc, hlt⟩ := hb
  exact congrArg (fun body => perform (.stThetaEnc b qb) s.frameBytes body s) <|
    (passed_stReq hm hc).trans <| (passed_rcReq hr).trans <| (passed_stBand hlt).trans (passed_check hq)

/-- ST_THETA_DEC behind its checks (R213). -/
theorem exec_stThetaDec_checked (hb : s.stereoBand b.toNat) (hr : s.regs.rc.ready .decode)
    (hq : decide (lowFourBits qb ≤ Config.qbMax) = true) :
    let q := lowFourBits qb
    exec (.stThetaDec b qb) s = perform (.stThetaDec b qb) s.frameBytes
      (rcDecode (2 ^ q + 1) s.regs.rc >>= fun r =>
        rcUpdate s.hw r.1 (r.1 + 1) (2 ^ q + 1) { coder := r.2, mem := s.mem } >>= fun x =>
        .ok { s with
          regs := { s.regs with
            rc := x.coder, res0 := regNat r.1
            st := setAngle (dequantize r.1 q) (s.mem.width b.toNat) s.regs.st } }) s := by
  obtain ⟨hm, hc, hlt⟩ := hb
  exact congrArg (fun body => perform (.stThetaDec b qb) s.frameBytes body s) <|
    (passed_stReq hm hc).trans <| (passed_rcReq hr).trans <| (passed_stBand hlt).trans (passed_check hq)

end Angle

end Sys2Proof.Machine

namespace Sys2Proof

open Machine

/-- Settles O50: ST_THETA_ENC ends as `rc_encode` of the quantized angle does. -/
theorem encodeAngle : Obligations.EncodeAngle := by
  intro s b qb hs hb hr hq15 q m sd tq theta n w v
  have hdata := (State.ok_iff.1 hs).1
  have hq : decide (lowFourBits qb ≤ Config.qbMax) = true := decide_eq_true hq15
  have htq : tq ≤ 2 ^ q := quantize_le q (angleFn_le s.hw.angle sd m)
  have hexec := exec_stThetaEnc_checked hb hr hq
  obtain ⟨hzero, hquarter, hbetween⟩ := trig_cases theta n
  obtain ⟨k, hk, hpass, hroom, hdone, hfault⟩ :=
    rcEncode_outcome hdata hr (symbols_le hq) (Nat.lt_succ_self tq) (Nat.succ_le_succ htq)
  refine ⟨htq, magnitude_le hb 0, magnitude_le hb 1, hzero, hquarter, hbetween, k, hk, hpass, hroom, fun f hf => ?_,
    fun code hcode => faultsWith_of_frameBody hexec ?_⟩
  · obtain ⟨y, hy, henc, hfront, hmem⟩ := hdone f hf
    exact ⟨y.coder, y.mem, completesWith_of_body hexec (run_bind_eq_ok.2 ⟨y, hy, rfl⟩), henc, hfront, hmem⟩
  · exact run_bind_eq_error.2 (.inl (hfault code hcode))

/-- Settles O51: ST_THETA_DEC commits the interval of one that it decoded. -/
theorem decodeAngle : Obligations.DecodeAngle := by
  intro s b qb hs hb hr hq15 q ft rate tq theta n w
  have hdata := (State.ok_iff.1 hs).1
  have hq : decide (lowFourBits qb ≤ Config.qbMax) = true := decide_eq_true hq15
  have hft : ft ≤ 65536 := symbols_le hq
  have hft1 : 1 ≤ ft := Nat.le_add_left 1 _
  obtain ⟨-, htq, hdec⟩ := rcDecode_ok hft1 hft (hdata.coder.decoder hr.1 hr.2.1).rng_gt
  obtain ⟨y, hy, hmem, ⟨k, hk, hpass, hrng, hval, hrem, hoffs, htotal, hcoder⟩, hframe⟩ :=
    rcUpdate_decoded (x := s.rcView) hdata.coder hr hft1 hft hdec
  obtain ⟨hzero, hquarter, hbetween⟩ := trig_cases theta n
  refine ⟨Nat.lt_succ_iff.1 htq, hzero, hquarter, hbetween, y.coder, k, hk,
    completesWith_of_body (exec_stThetaDec_checked hb hr hq) ?_,
    ⟨hpass, hrng, hval, hrem, hoffs, htotal, hcoder⟩, ?_⟩
  · exact run_bind_eq_ok.2 ⟨_, hdec, run_bind_eq_ok.2 ⟨y, hy, rfl⟩⟩
  · rw [hframe]
    exact ⟨rfl, rfl, rfl, rfl⟩

end Sys2Proof

/-! ### The sign of a band of width 2 -/

namespace Sys2Proof.Machine

theorem nonEdge_iff {st : Stereo} : st.nonEdge = true ↔ ¬ (st.theta.toNat = 0 ∨ st.theta.toNat = 16384) := by
  unfold Stereo.nonEdge
  simp only [Bool.and_eq_true, decide_eq_true_eq, not_or]
  exact Iff.rfl

/-- The cross product is negative when the first of its two products is the smaller (R218). -/
theorem crossNegative_eq (m : Memory) (j c : Nat) :
    m.crossNegative j c =
      decide (m.norm (2 * j + c) * m.norm (2 * j + 3 - c) < m.norm (2 * j + 2 + c) * m.norm (2 * j + 1 - c)) :=
  decide_eq_decide.2 sub_neg

/-- One more raw bit drains a full window alone (R116). -/
theorem flushCount_one {u : Nat} (hu : u ≤ 32) : flushCount u 1 = if u = 32 then 4 else 0 := by
  unfold flushCount
  split_ifs <;> omega

/-- One raw bit needs a refill, of four bytes, when the window is empty alone (R135). -/
theorem refillCount_one (u : Nat) : (if u < 1 then (24 - u) / 8 + 1 else 0) = if u = 0 then 4 else 0 := by
  split_ifs <;> omega

section Sign

variable {s : State} {b : Byte}

/-- ST_SIGN2_ENC behind its checks (R218). -/
theorem exec_stSign2Enc_checked (hb : s.stereoBand b.toNat) (hr : s.regs.rc.ready .encode)
    (hw : s.mem.width b.toNat = 2) :
    let sign := s.regs.st.nonEdge && s.mem.crossNegative (s.mem.band b.toNat) s.regs.st.codedChannel
    exec (.stSign2Enc b) s = perform (.stSign2Enc b) s.frameBytes
      ((if s.regs.st.nonEdge then rcEncBits s.hw sign.toNat 1 s.rcView else .ok s.rcView) >>= fun x =>
        .ok { s with
          regs := { s.regs with rc := x.coder, res0 := regNat s.regs.st.codedChannel, st := { s.regs.st with sign := sign } }
          mem := x.mem }) s := by
  intro sign
  obtain ⟨hm, hc, hlt⟩ := hb
  exact congrArg (fun body => perform (.stSign2Enc b) s.frameBytes body s) <|
    (passed_stReq hm hc).trans <| (passed_rcReq hr).trans <| (passed_stBand hlt).trans <|
      (passed_check (decide_eq_true hw)).trans (apply_ite (· >>= _) _ _ _).symm

/-- ST_SIGN2_DEC behind its checks (R219). -/
theorem exec_stSign2Dec_checked (hb : s.stereoBand b.toNat) (hr : s.regs.rc.ready .decode)
    (hw : s.mem.width b.toNat = 2) :
    exec (.stSign2Dec b) s = perform (.stSign2Dec b) s.frameBytes
      ((if s.regs.st.nonEdge then rcDecBits s.hw 1 s.rcView else .ok (0, s.regs.rc)) >>= fun r =>
        .ok { s with
          regs := { s.regs with
            rc := r.2, res0 := regNat s.regs.st.codedChannel, st := { s.regs.st with sign := decide (r.1 = 1) } } }) s := by
  obtain ⟨hm, hc, hlt⟩ := hb
  exact congrArg (fun body => perform (.stSign2Dec b) s.frameBytes body s) <|
    (passed_stReq hm hc).trans <| (passed_rcReq hr).trans <| (passed_stBand hlt).trans <|
      (passed_check (decide_eq_true hw)).trans (apply_ite (· >>= _) _ _ _).symm

/-- At an edge angle no bit moves: the sign is 0 (R218, R219). -/
theorem sign2_edge (hb : s.stereoBand b.toNat) (hw : s.mem.width b.toNat = 2) (he : s.regs.st.nonEdge = false) :
    (s.regs.rc.ready .encode → completesWith (.stSign2Enc b) s
      { s.regs with st := { s.regs.st with sign := false }, res0 := regNat s.regs.st.codedChannel } s.mem) ∧
    (s.regs.rc.ready .decode → completesWith (.stSign2Dec b) s
      { s.regs with st := { s.regs.st with sign := false }, res0 := regNat s.regs.st.codedChannel } s.mem) := by
  refine ⟨fun hr => completesWith_of_body (exec_stSign2Enc_checked hb hr hw) ?_,
    fun hr => completesWith_of_body (exec_stSign2Dec_checked hb hr hw) ?_⟩
  · rw [he]; rfl
  · rw [he]; rfl

/-- At any other angle ST_SIGN2_ENC writes the sign of the cross product as one raw bit (R218). -/
theorem exec_stSign2Enc_nonEdge (hb : s.stereoBand b.toNat) (hr : s.regs.rc.ready .encode)
    (hw : s.mem.width b.toNat = 2) (he : s.regs.st.nonEdge = true) :
    let sign := s.mem.crossNegative (s.mem.band b.toNat) s.regs.st.codedChannel
    exec (.stSign2Enc b) s = perform (.stSign2Enc b) s.frameBytes
      (rcEncBits s.hw sign.toNat 1 s.rcView >>= fun x =>
        .ok { s with
          regs := { s.regs with rc := x.coder, res0 := regNat s.regs.st.codedChannel, st := { s.regs.st with sign := sign } }
          mem := x.mem }) s := by
  have hexec := exec_stSign2Enc_checked hb hr hw
  rwa [he, Bool.true_and] at hexec

/-- At any other angle ST_SIGN2_DEC reads the sign as one raw bit (R219). -/
theorem exec_stSign2Dec_nonEdge (hb : s.stereoBand b.toNat) (hr : s.regs.rc.ready .decode)
    (hw : s.mem.width b.toNat = 2) (he : s.regs.st.nonEdge = true) :
    exec (.stSign2Dec b) s = perform (.stSign2Dec b) s.frameBytes
      (rcDecBits s.hw 1 s.rcView >>= fun r =>
        .ok { s with
          regs := { s.regs with
            rc := r.2, res0 := regNat s.regs.st.codedChannel, st := { s.regs.st with sign := decide (r.1 = 1) } } }) s := by
  have hexec := exec_stSign2Dec_checked hb hr hw
  rwa [he] at hexec

end Sign

end Sys2Proof.Machine

namespace Sys2Proof

open Machine

/-- Settles O54: at an edge angle no bit moves; elsewhere one, as RC_ENC_BITS and RC_DEC_BITS move it. -/
theorem twoCoefficientSign : Obligations.TwoCoefficientSign := by
  intro s b hs hb hw st edge c j rc u
  have hdata := (State.ok_iff.1 hs).1
  have atEdge : edge → st.nonEdge = false := fun he => Bool.eq_false_iff.2 fun h => nonEdge_iff.1 h he
  have offEdge : ¬ edge → st.nonEdge = true := nonEdge_iff.2
  constructor
  · intro hr sign k
    obtain ⟨-, -, -, hst, hap, ⟨hu, hwin, -⟩, -⟩ := hdata.coder.encoder hr.1 hr.2.1
    have hk : flushCount u 1 = k := flushCount_one hu
    have hsign : s.mem.crossNegative j c = sign := crossNegative_eq _ _ _
    refine ⟨fun he => (sign2_edge hb hw (atEdge he)).1 hr, fun he hroom => ?_, fun he hfull => ?_⟩
    · have hexec := exec_stSign2Enc_nonEdge hb hr hw (offEdge he)
      rw [← hk] at hroom
      obtain ⟨y, hy⟩ := rcEncBits_room (hw := s.hw) (v := sign.toNat) (n := 1) (x := s.rcView) hst hroom
      obtain ⟨hframe, hend, hbits, hwindow, htotal, -, hbytes, hmem, -, -⟩ :=
        rcEncBits_ok (by norm_num) (Bool.toNat_lt sign) hu hwin ((Nat.le_add_left _ _).trans hap) hy
      rw [← hsign] at hwindow hy ⊢
      rw [← hk]
      refine ⟨y.coder, y.mem, completesWith_of_body hexec (run_bind_eq_ok.2 ⟨y, hy, rfl⟩), hframe, hend, hbits, hwindow,
        fun hov => ?_, hbytes, hmem⟩
      rw [htotal]
      exact toNat_bitCount hov
    · rw [← hk] at hfull
      exact faultsWith_of_frameBody (exec_stSign2Enc_nonEdge hb hr hw (offEdge he))
        (run_bind_eq_error.2 (.inl (rcEncBits_full hst hap hfull)))
  · intro hr k window
    obtain ⟨-, -, -, hst, -, hend, ⟨hu, hwin, -⟩, -⟩ := hdata.coder.decoder hr.1 hr.2.1
    refine ⟨fun he => (sign2_edge hb hw (atEdge he)).2 hr, fun he => ?_⟩
    obtain ⟨c', hop, hframe, hend', hwindow, hbits, htotal, -⟩ :=
      rcDecBits_ok (hw := s.hw) (n := 1) (x := s.rcView) (by norm_num) hst hend hu hwin
    simp only [refillCount_one] at hop hend' hwindow hbits
    refine ⟨c', completesWith_of_body (exec_stSign2Dec_nonEdge hb hr hw (offEdge he))
      (run_bind_eq_ok.2 ⟨_, hop, rfl⟩), hframe, hend', hwindow, hbits, fun hov => ?_⟩
    rw [htotal]
    exact toNat_bitCount hov

end Sys2Proof

/-! ## The checks of the band and stereo commands (R170, R178, R200, R212, R213, R218 to R220) -/

namespace Sys2Proof.Machine

section Checks

variable {s : State}

theorem refused_beReq {α : Type} {k : Unit → Run α} (h : modeOk s = false) :
    (beReq s >>= k) = .error (.raised .mode) := refused_check h

theorem refused_stReq {α : Type} {k : Unit → Run α} (h : ¬ (modeOk s = true ∧ s.channels = 2)) :
    (stReq s >>= k) = .error (.raised .mode) := by
  rw [stReq_error h]; rfl

theorem refused_stBand {α : Type} {b : Nat} {k : Unit → Run α} (h : ¬ b < s.nbands) :
    (stBand s b >>= k) = .error (.raised .badOperand) := by
  rw [stBand_error h]; rfl

/-- The checks of a coding stereo command before those of its own operands (R200). -/
theorem passed_codingChecks {α : Type} {b : Nat} {dir : Direction} {k : Unit → Run α} (hb : s.stereoBand b)
    (hr : s.regs.rc.ready dir) :
    (stReq s >>= fun _ => rcReq s.regs.rc dir false >>= fun _ => stBand s b >>= k) = k () :=
  (passed_stReq hb.1 hb.2.1).trans <| (passed_rcReq hr).trans (passed_stBand hb.2.2)

/-- A band command begins with `BE_REQ` (R170). -/
theorem exec_band {i : Instr} (hi : i.isBand = true) :
    ∃ touched k, exec i s = perform i touched (beReq s >>= k) s ∧ ∀ a ∈ touched, i.footprint s a := by
  cases i with
  | beCompute => exact ⟨_, _, rfl, fun _ => coveredEnerBytes_inside⟩
  | beNormalise => exact ⟨_, _, rfl, fun _ => coveredNormBytes_inside⟩
  | beDenormalise => exact ⟨_, _, rfl, fun _ => coveredSigBytes_inside⟩
  | beRenormAll => exact ⟨_, _, rfl, fun _ => coveredNormBytes_inside⟩
  | beRenormBand b k => exact ⟨_, _, rfl, fun _ => bandNormBytes_inside⟩
  | _ => cases hi

/-- A stereo command begins with `ST_REQ`; behind it, and behind `RC_REQ` if it codes, it checks its band (R200). -/
theorem exec_stereo {i : Instr} (hi : i.isStereo = true) :
    ∃ touched k, exec i s = perform i touched (stReq s >>= k) s ∧ (∀ a ∈ touched, i.footprint s a) ∧
      ∀ b, i.bandField = some b → i.coderReady s.regs.rc → ∃ k', k () = (stBand s b >>= k') := by
  cases i with
  | stMix b k | stScale b | stSign2Rebuild b =>
    exact ⟨_, _, rfl, fun _ => bandNormBytes_inside, fun b' hb _ => by cases hb; exact ⟨_, rfl⟩⟩
  | stQb b | stSplit b =>
    exact ⟨_, _, rfl, fun _ h => absurd h List.not_mem_nil, fun b' hb _ => by cases hb; exact ⟨_, rfl⟩⟩
  | stThetaEnc b q | stThetaDec b q | stSign2Enc b | stSign2Dec b =>
    exact ⟨_, _, rfl, fun _ => frameBytes_inside, fun b' hb hr => by
      cases hb; exact ⟨_, passed_rcReq (hr _ rfl)⟩⟩
  | _ => cases hi

/-- What BE_RENORM_BAND accepts (R178). -/
theorem renormBandOperands_iff {b k : Byte} :
    (decide (b.toNat < s.nbands) && decide (lowTwoBits k ≠ 0) && !(decide (s.channels = 1) && fieldBit k 1)) = true ↔
      b.toNat < s.nbands ∧ k.toNat % 4 ≠ 0 ∧ ¬ (s.channels = 1 ∧ k.getLsbD 1 = true) := by
  simp only [Bool.and_eq_true, decide_eq_true_eq, Bool.not_eq_true', Bool.eq_false_iff, Ne, and_assoc]
  exact Iff.rfl

end Checks

end Sys2Proof.Machine

namespace Sys2Proof

open Machine

/-- Settles O11: `BE_REQ` is the first check of a band command, and `ST_REQ` of a stereo command. -/
theorem modeChecks : Obligations.ModeChecks := by
  have stereo : ∀ (i : Instr) (s : State), i.isStereo = true → ¬ (modeOk s = true ∧ s.channels = 2) →
      faultsWith i s .mode (i.footprint s) := fun i s hi h => by
    obtain ⟨touched, k, hexec, hfoot, -⟩ := exec_stereo (s := s) hi
    exact faultsWith_of_body hexec (refused_stReq h) hfoot
  refine ⟨fun i s hi hm => ?_, fun i s hi hc => stereo i s hi fun h => hc h.2⟩
  rcases hi with hband | hstereo
  · obtain ⟨touched, k, hexec, hfoot⟩ := exec_band (s := s) hband
    exact faultsWith_of_body hexec (refused_beReq hm) hfoot
  · exact stereo i s hstereo fun h => absurd h.1 (Bool.eq_false_iff.1 hm)

/-- Settles O14: the operand checks follow the mode and the coder check; of them the band index is the first. -/
theorem bandOperandsChecked : Obligations.BandOperandsChecked := by
  refine ⟨fun i s b hi hm hc hr hfield hb => ?_, fun s b k hm h => ?_, fun s b q hs hq => ?_, fun s b hs hw => ?_⟩
  · obtain ⟨touched, k, hexec, hfoot, hband⟩ := exec_stereo (s := s) hi
    obtain ⟨k', hk'⟩ := hband b hfield hr
    exact faultsWith_of_body hexec ((passed_stReq hm hc).trans (hk'.trans (refused_stBand (not_lt.2 hb)))) hfoot
  · refine faultsWith_of_body rfl ((passed_check hm).trans (refused_check (eq_false_of_iff renormBandOperands_iff ?_)))
      fun _ => bandNormBytes_inside
    rintro ⟨hb, hk, hmono⟩
    exact h.elim (not_le.2 hb) fun h => h.elim hk hmono
  · have hqb : decide (lowFourBits q ≤ Config.qbMax) = false := decide_eq_false (by rw [lowFourBits, hq]; decide)
    exact ⟨fun hr => faultsWith_of_frameBody rfl ((passed_codingChecks hs hr).trans (refused_check hqb)),
      fun hr => faultsWith_of_frameBody rfl ((passed_codingChecks hs hr).trans (refused_check hqb))⟩
  · have hwidth : decide (s.mem.width b.toNat = 2) = false := decide_eq_false hw
    have ⟨hm, hc, hb⟩ := hs
    exact ⟨fun hr => faultsWith_of_frameBody rfl ((passed_codingChecks hs hr).trans (refused_check hwidth)),
      fun hr => faultsWith_of_frameBody rfl ((passed_codingChecks hs hr).trans (refused_check hwidth)),
      faultsWith_of_body rfl ((passed_stReq hm hc).trans <| (passed_stBand hb).trans (refused_check hwidth))
        fun _ => bandNormBytes_inside⟩

end Sys2Proof

/-! ## The elements a band energy command writes (R16, R32, R72) -/

namespace Sys2Proof.Machine

section Writes

variable {s : State} {ps : List (Nat × Nat)} {f : Nat × Nat → Nat → Int} {c b j : Nat}

/-- The writes of a band command: in each listed band of a channel, `f (c, b) k` to the element of each index `k`. -/
def State.bandWrites (s : State) (ps : List (Nat × Nat)) (f : Nat × Nat → Nat → Int) : List (Nat × Int) :=
  ps.flatMap fun p => (s.bandIndices p.1 p.2).map fun k => (k, f p k)

theorem map_fst_bandWrites (s : State) (ps : List (Nat × Nat)) (f : Nat × Nat → Nat → Int) :
    (s.bandWrites ps f).map Prod.fst = ps.flatMap fun p => s.bandIndices p.1 p.2 := by
  simp [State.bandWrites, List.map_flatMap, Function.comp_def]

/-- A bin of a listed band in use is written in that channel. -/
theorem mem_bandWrites (hm : modeOk s = true) (hp : (c, b) ∈ ps) (hb : b < s.nbands) (hlo : s.mem.band b ≤ j)
    (hhi : j < s.mem.band (b + 1)) :
    (j * s.channels + c, f (c, b) (j * s.channels + c)) ∈ s.bandWrites ps f :=
  List.mem_flatMap.2 ⟨(c, b), hp, List.mem_map_of_mem ((mem_bandIndices hm hb).2 ⟨j, hlo, hhi, rfl⟩)⟩

theorem nodup_channelBands (s : State) : s.channelBands.Nodup := by
  have hpairs : s.channelBands = List.range s.channels ×ˢ List.range s.nbands := rfl
  rw [hpairs]
  exact List.nodup_range.product List.nodup_range

/-- Different bins stand at different indices of a channel. -/
theorem nodup_map_index {C : Nat} (hC : 0 < C) (c : Nat) {js : List Nat} (hjs : js.Nodup) :
    (js.map fun j => j * C + c).Nodup :=
  hjs.map fun _ _ h => Nat.eq_of_mul_eq_mul_right hC (Nat.add_right_cancel h)

/-- No two bands in use, and no two channels, share an element (R32, R72). -/
theorem nodup_bandIndices (hm : modeOk s = true) (hps : ps.Nodup) (hin : ∀ p ∈ ps, p ∈ s.channelBands) :
    (ps.flatMap fun p => s.bandIndices p.1 p.2).Nodup := by
  refine List.nodup_flatMap.2 ⟨fun p hp => ?_, hps.imp_of_mem fun {p q} hp hq hne => ?_⟩
  · exact nodup_map_index (Nat.zero_lt_of_lt (mem_channelBands.1 (hin p hp)).1) _ List.nodup_range'
  · obtain ⟨hpc, hpb⟩ := mem_channelBands.1 (hin p hp)
    obtain ⟨hqc, hqb⟩ := mem_channelBands.1 (hin q hq)
    intro k hkp hkq
    obtain ⟨j, hlo, hhi, rfl⟩ := (mem_bandIndices hm hpb).1 hkp
    obtain ⟨j', hlo', hhi', heq⟩ := (mem_bandIndices hm hqb).1 hkq
    obtain ⟨rfl, hc⟩ := index_injective hpc hqc heq
    exact hne (Prod.ext hc (band_unique hm hpb hqb hlo hhi hlo' hhi'))

/-- An index BE_DENORMALISE zeroes is that of a bin from the last boundary to the frame length (R175). -/
theorem mem_zeroFilled {k : Nat} : k ∈ s.zeroFilled ↔
    ∃ c j, c < s.channels ∧ s.mem.band s.nbands ≤ j ∧ j < s.frameLen ∧ k = j * s.channels + c := by
  simp only [State.zeroFilled, List.mem_flatMap, List.mem_map, List.mem_range, List.mem_range'_1]
  constructor
  · rintro ⟨c, hc, j, ⟨hlo, hhi⟩, rfl⟩
    exact ⟨c, j, hc, hlo, by omega, rfl⟩
  · rintro ⟨c, j, hc, hlo, hhi, rfl⟩
    exact ⟨c, hc, j, ⟨hlo, by omega⟩, rfl⟩

theorem nodup_zeroFilled (s : State) : s.zeroFilled.Nodup := by
  refine List.nodup_flatMap.2 ⟨fun c hc => ?_, List.nodup_range.imp_of_mem fun {c c'} hc hc' hne => ?_⟩
  · exact nodup_map_index (Nat.zero_lt_of_lt (List.mem_range.1 hc)) _ List.nodup_range'
  · intro k hk hk'
    obtain ⟨j, -, rfl⟩ := List.mem_map.1 hk
    obtain ⟨j', -, heq⟩ := List.mem_map.1 hk'
    exact hne (index_injective (List.mem_range.1 hc) (List.mem_range.1 hc') heq.symm).2

/-- BE_DENORMALISE zeroes no element of a band in use (R175). -/
theorem nodup_denormalised (hm : modeOk s = true) : (s.coveredIndices ++ s.zeroFilled).Nodup := by
  refine (nodup_bandIndices hm (nodup_channelBands s) fun _ h => h).append (nodup_zeroFilled s) fun k hk hz => ?_
  obtain ⟨p, hp, hk⟩ := List.mem_flatMap.1 hk
  obtain ⟨hc, hb⟩ := mem_channelBands.1 hp
  obtain ⟨j, -, hj, rfl⟩ := (mem_bandIndices hm hb).1 hk
  obtain ⟨c', j', hc', hj', -, heq⟩ := mem_zeroFilled.1 hz
  obtain ⟨rfl, -⟩ := index_injective hc hc' heq
  exact absurd ((hj.trans_le (band_mono hm hb (le_refl _))).trans_le hj') (lt_irrefl _)

/-- A bin of the frame is among the first `L*C` elements (R16). -/
theorem index_lt_frame {C L : Nat} (hc : c < C) (hj : j < L) : j * C + c < L * C :=
  calc j * C + c < j * C + C := Nat.add_lt_add_left hc _
    _ = (j + 1) * C := (Nat.succ_mul j C).symm
    _ ≤ L * C := Nat.mul_le_mul_right C hj

/-- BE_DENORMALISE writes among the first `L*C` elements (R175). -/
theorem denormalised_lt {k : Nat} (hm : modeOk s = true) (hk : k ∈ s.coveredIndices ++ s.zeroFilled) :
    k < s.frameLen * s.channels := by
  rcases List.mem_append.1 hk with hk | hk
  · obtain ⟨p, hp, hk⟩ := List.mem_flatMap.1 hk
    obtain ⟨hc, hb⟩ := mem_channelBands.1 hp
    obtain ⟨j, -, hj, rfl⟩ := (mem_bandIndices hm hb).1 hk
    exact index_lt_frame hc (hj.trans_le (band_le_frameLen hm hb))
  · obtain ⟨c, j, hc, -, hj, rfl⟩ := mem_zeroFilled.1 hk
    exact index_lt_frame hc hj

end Writes

/-! ### What an element holds after the writes (R14, R38 to R40) -/

section Elements

variable {m : Memory} {k : Nat} {v : Int}

theorem norm_setNorms {ws : List (Nat × Int)} (hd : (ws.map Prod.fst).Nodup) (h : (k, sat16 v) ∈ ws) :
    (m.setNorms ws).norm k = sat16 v := by
  rw [Memory.norm, Memory.half_setNorms_same m ws k _ hd h]
  exact ofInt16_toInt_of_range (sat16_range v).1 (sat16_range v).2

theorem sig_setSigs {ws : List (Nat × Int)} (hd : (ws.map Prod.fst).Nodup) (h : (k, sat32 v) ∈ ws) :
    (m.setSigs ws).sig k = sat32 v := by
  rw [Memory.sig, Memory.word_setSigs_same m ws k _ hd h]
  exact regInt_toInt_of_range (sat32_range v).1 (sat32_range v).2

theorem ener_setEners {ws : List ((Nat × Nat) × Int)} {c b : Nat} (hws : ∀ w ∈ ws, w.1.2 < 256)
    (hd : (ws.map Prod.fst).Nodup) (h : ((c, b), v) ∈ ws) (h0 : 0 ≤ v) (h1 : v ≤ 4294967295) :
    ((m.setEners ws).ener c b : Int) = v := by
  rw [Memory.ener, Memory.word_setEners_same m ws c b _ hws hd h]
  exact regInt_toNat_of_range h0 h1

end Elements

section Bands

variable {s : State} {ps : List (Nat × Nat)} {f : Nat × Nat → Nat → Int} {c b j : Nat} {v : Int}

/-- A NORM element of a band after the writes of a command that covers it. -/
theorem norm_setNorms_bandWrites (hm : modeOk s = true) (hps : ps.Nodup) (hin : ∀ p ∈ ps, p ∈ s.channelBands)
    (hp : (c, b) ∈ ps) (hlo : s.mem.band b ≤ j) (hhi : j < s.mem.band (b + 1))
    (hf : f (c, b) (j * s.channels + c) = sat16 v) :
    (s.mem.setNorms (s.bandWrites ps f)).norm (j * s.channels + c) = sat16 v := by
  have hmem := mem_bandWrites (f := f) hm hp (mem_channelBands.1 (hin _ hp)).2 hlo hhi
  rw [hf] at hmem
  refine norm_setNorms ?_ hmem
  rw [map_fst_bandWrites]
  exact nodup_bandIndices hm hps hin

/-- A command that writes NORM elements of bands changes no other byte. -/
theorem sameBut_setNorms_bandWrites (s : State) (ps : List (Nat × Nat)) (f : Nat × Nat → Nat → Int) :
    s.mem.sameBut (s.mem.setNorms (s.bandWrites ps f)) (normElems (ps.flatMap fun p => s.bandIndices p.1 p.2)) :=
  fun a ha => Memory.byte_setNorms_other _ _ _ (by rwa [map_fst_bandWrites])

end Bands

end Sys2Proof.Machine

/-! ## BE_NORMALISE, BE_DENORMALISE, BE_RENORM_ALL and BE_RENORM_BAND (R174 to R178) -/

namespace Sys2Proof.Machine

section Coefficients

variable {s : State} {c b j : Nat}

/-- What BE_NORMALISE writes to element `k` of a band of a channel (R174). -/
def State.normalisedAt (s : State) (p : Nat × Nat) (k : Nat) : Int :=
  normalised (s.mem.sig k) (s.mem.ener p.1 p.2)

/-- What BE_DENORMALISE writes to element `k` of a band of a channel (R175). -/
def State.denormalisedAt (s : State) (p : Nat × Nat) (k : Nat) : Int :=
  denormalised (s.mem.norm k) (s.mem.ener p.1 p.2)

/-- What a renormalization writes to element `k` of a band of a channel (R176). -/
def State.renormedAt (s : State) (p : Nat × Nat) (k : Nat) : Int :=
  sat16 (tdiv (s.mem.norm k * 16384) (isqrt (1 + s.mem.normSquares (s.bandIndices p.1 p.2))))

/-- The energies that BE_NORMALISE checks (R174). -/
theorem allEnergies_iff : s.channelBands.all (fun p => decide (s.mem.ener p.1 p.2 ≠ 0)) = true ↔
    ∀ c b, c < s.channels → b < s.nbands → s.mem.ener c b ≠ 0 := by
  simp only [List.all_eq_true, decide_eq_true_eq, Prod.forall, mem_channelBands, and_imp]

/-- The writes of BE_DENORMALISE: the bands in use, then the bins above them (R175). -/
def State.denormalisedWrites (s : State) : List (Nat × Int) :=
  s.bandWrites s.channelBands s.denormalisedAt ++ s.zeroFilled.map fun k => (k, 0)

theorem map_fst_denormalisedWrites (s : State) :
    s.denormalisedWrites.map Prod.fst = s.coveredIndices ++ s.zeroFilled := by
  rw [State.denormalisedWrites, List.map_append, map_fst_bandWrites, List.map_map]
  exact congrArg _ (List.map_id _)

/-- A SIG element after BE_DENORMALISE (R175). -/
theorem sig_denormalised {k : Nat} {v : Int} (hm : modeOk s = true) (h : (k, sat32 v) ∈ s.denormalisedWrites) :
    (s.mem.setSigs s.denormalisedWrites).sig k = sat32 v :=
  sig_setSigs (by rw [map_fst_denormalisedWrites]; exact nodup_denormalised hm) h

/-- BE_DENORMALISE changes bytes of the frame's SIG elements alone (R175). -/
theorem sameBut_denormalised (hm : modeOk s = true) : s.mem.sameBut (s.mem.setSigs s.denormalisedWrites)
    (fun a => ∃ k, k < s.frameLen * s.channels ∧ sigAddr k ≤ a ∧ a ≤ sigAddr k + 3) := by
  refine fun a ha => Memory.byte_setSigs_other _ _ _ ?_
  rw [map_fst_denormalisedWrites]
  rintro ⟨k, hk, hbytes⟩
  exact ha ⟨k, denormalised_lt hm hk, hbytes⟩

/-- The channels of a mask, each with the band: what BE_RENORM_BAND covers (R178). -/
def State.maskedBands (s : State) (b : Nat) (k : Byte) : List (Nat × Nat) := (s.maskedChannels k).map fun c => (c, b)

theorem mem_maskedBands {k : Byte} {p : Nat × Nat} :
    p ∈ s.maskedBands b k ↔ p.1 < s.channels ∧ k.getLsbD p.1 = true ∧ p.2 = b := by
  simp only [State.maskedBands, State.maskedChannels, fieldBit, List.mem_map, List.mem_filter, List.mem_range]
  constructor
  · rintro ⟨c, ⟨hc, hk⟩, rfl⟩; exact ⟨hc, hk, rfl⟩
  · rintro ⟨hc, hk, rfl⟩; exact ⟨p.1, ⟨hc, hk⟩, rfl⟩

theorem nodup_maskedBands (s : State) (b : Nat) (k : Byte) : (s.maskedBands b k).Nodup :=
  (List.nodup_range.filter _).map fun _ _ h => (Prod.mk.inj h).1

/-- The bands BE_RENORM_BAND covers are in use when its band is (R178). -/
theorem maskedBands_inUse {k : Byte} (hb : b < s.nbands) : ∀ p ∈ s.maskedBands b k, p ∈ s.channelBands := by
  intro p hp
  obtain ⟨hpc, -, hpb⟩ := mem_maskedBands.1 hp
  exact mem_channelBands.2 ⟨hpc, hpb ▸ hb⟩

/-- BE_RENORM_BAND writes the bands it covers (R178). -/
theorem renormBand_writes (s : State) (b : Nat) (k : Byte) :
    ((s.maskedChannels k).flatMap fun c => s.mem.renormVec (s.bandIndices c b)) =
      s.bandWrites (s.maskedBands b k) s.renormedAt := by
  rw [State.bandWrites, State.maskedBands, List.flatMap_map]
  rfl

end Coefficients

end Sys2Proof.Machine

namespace Sys2Proof

open Machine

/-- Settles O44: the energies of the bands in use are checked before the first division. -/
theorem normaliseBands : Obligations.NormaliseBands := by
  intro s hm
  refine ⟨fun hener => ?_, fun c b hc hb hzero => ?_⟩
  · refine ⟨s.mem.setNorms (s.bandWrites s.channelBands s.normalisedAt),
      completesWith_of_body rfl ((passed_check hm).trans (passed_check (allEnergies_iff.2 hener))),
      fun c b j hc hb hlo hhi => ?_, sameBut_setNorms_bandWrites s _ _⟩
    exact norm_setNorms_bandWrites hm (nodup_channelBands s) (fun _ h => h) (mem_channelBands.2 ⟨hc, hb⟩) hlo hhi rfl
  · have hfail := eq_false_of_iff (allEnergies_iff (s := s)) fun h => h c b hc hb hzero
    exact faultsWith_of_body rfl ((passed_check hm).trans (refused_check hfail)) fun _ => coveredNormBytes_inside

/-- Settles O45: no element is written twice, so each holds what its own bin's rule gives. -/
theorem denormaliseBands : Obligations.DenormaliseBands := by
  intro s hm
  refine ⟨s.mem.setSigs s.denormalisedWrites, completesWith_of_body rfl (passed_check hm),
    fun c b j hc hb hlo hhi => ?_, fun c j hc hlo hhi => ?_, sameBut_denormalised hm⟩
  · rw [← asr_eq]
    exact sig_denormalised hm (List.mem_append_left _ (mem_bandWrites hm (mem_channelBands.2 ⟨hc, hb⟩) hb hlo hhi))
  · have hzero : j * s.channels + c ∈ s.zeroFilled := mem_zeroFilled.2 ⟨c, j, hc, hlo, hhi, rfl⟩
    exact sig_denormalised (v := 0) hm (List.mem_append_right _ (List.mem_map_of_mem hzero))

/-- Settles O46: a renormalization reads its norms from the memory before the command. -/
theorem renormaliseBands : Obligations.RenormaliseBands := by
  intro s hm
  refine ⟨⟨s.mem.setNorms (s.bandWrites s.channelBands s.renormedAt), completesWith_of_body rfl (passed_check hm),
    fun c b j hc hb hlo hhi => ?_, sameBut_setNorms_bandWrites s _ _⟩, fun b k hb hk hmono => ?_⟩
  · exact norm_setNorms_bandWrites hm (nodup_channelBands s) (fun _ h => h) (mem_channelBands.2 ⟨hc, hb⟩) hlo hhi rfl
  · refine ⟨s.mem.setNorms (s.bandWrites (s.maskedBands b.toNat k) s.renormedAt), completesWith_of_body rfl ?_,
      fun c j hc hsel hlo hhi => ?_, Memory.sameBut_mono (sameBut_setNorms_bandWrites s _ _) fun a ha => ?_⟩
    · rw [← renormBand_writes]
      exact (passed_check hm).trans (passed_check (renormBandOperands_iff.2 ⟨hb, hk, hmono⟩))
    · exact norm_setNorms_bandWrites hm (nodup_maskedBands s _ k) (maskedBands_inUse hb)
        (mem_maskedBands.2 ⟨hc, hsel, rfl⟩) hlo hhi rfl
    · obtain ⟨x, hx, hbytes⟩ := ha
      obtain ⟨p, hp, hx⟩ := List.mem_flatMap.1 hx
      obtain ⟨hpc, hsel, hpb⟩ := mem_maskedBands.1 hp
      exact ⟨p.1, hpc, hsel, x, hpb ▸ hx, hbytes⟩

end Sys2Proof

/-! ## BE_COMPUTE (R171 to R173) -/

namespace Sys2Proof.Machine

/-! ### Scaling by a power of two (R12 to R14) -/

theorem vshr_natCast (x : Int) (n : Nat) : vshr x n = x / 2 ^ n := by
  rw [vshr, if_pos (Int.natCast_nonneg n), asr_eq, Int.toNat_natCast]

theorem vshr_neg_natCast (x : Int) (n : Nat) : vshr x (-n) = x * 2 ^ n := by
  rcases Nat.eq_zero_or_pos n with rfl | hn
  · simp [vshr, asr]
  · rw [vshr, if_neg (by omega), neg_neg, Int.toNat_natCast]
    norm_num

theorem vshr_nonneg {x : Int} (hx : 0 ≤ x) (k : Int) : 0 ≤ vshr x k := by
  unfold vshr
  split_ifs
  · exact Int.ediv_nonneg hx (Int.natCast_nonneg _)
  · exact Int.mul_nonneg hx (Int.natCast_nonneg _)

theorem satu32_natCast (n : Nat) : satu32 n = (min 4294967295 n : Nat) := by
  unfold satu32 clamp
  omega

/-! ### The magnitude of a list of coefficients (R171) -/

/-- The largest absolute value of a list (R171). -/
def peak (xs : List Int) : Nat := (xs.map Int.natAbs).foldl max 0

theorem foldl_max_lt_iff {l : List Nat} {a n : Nat} : l.foldl max a < n ↔ a < n ∧ ∀ x ∈ l, x < n := by
  induction l generalizing a with
  | nil => simp
  | cons y rest ih => simp [ih, and_assoc]

theorem peak_lt_iff {xs : List Int} {n : Nat} (hn : 0 < n) : peak xs < n ↔ ∀ x ∈ xs, x.natAbs < n := by
  simp [peak, foldl_max_lt_iff, hn]

/-- The exponent of the largest absolute value (R13, R171). -/
theorem ilog2_peak {xs : List Int} {p : Nat} (hlt : ∀ x ∈ xs, x.natAbs < 2 ^ (p + 1))
    (hge : ∃ x ∈ xs, 2 ^ p ≤ x.natAbs) : peak xs ≠ 0 ∧ ilog2 (peak xs) = p := by
  have hhi : peak xs < 2 ^ (p + 1) := (peak_lt_iff (Nat.two_pow_pos _)).2 hlt
  have hlo : 2 ^ p ≤ peak xs := by
    obtain ⟨x, hx, hpx⟩ := hge
    exact not_lt.1 fun h => absurd ((peak_lt_iff (Nat.two_pow_pos p)).1 h x hx) (not_lt.2 hpx)
  have hne : peak xs ≠ 0 := (Nat.lt_of_lt_of_le (Nat.two_pow_pos p) hlo).ne'
  exact ⟨hne, (Nat.log2_eq_iff hne).2 ⟨hlo, hhi⟩⟩

/-- The sum of the squares of the coefficients scaled by `2^(-sh)` (R171). -/
def scaledSquares (xs : List Int) (sh : Int) : Nat := (xs.map fun x => (vshr x sh).natAbs * (vshr x sh).natAbs).sum

/-- R171: the floor for a band of zeros, else the scaled root. -/
theorem bandEnergy_eq (xs : List Int) : bandEnergy xs =
    if peak xs = 0 then 1 else
      satu32 (1 + vshr (isqrt (scaledSquares xs (ilog2 (peak xs) - 10))) (-(ilog2 (peak xs) - 10))) := rfl

/-- Every magnitude is at least the floor and fits an ENER element (R173). -/
theorem bandEnergy_range (xs : List Int) : 1 ≤ bandEnergy xs ∧ bandEnergy xs ≤ 4294967295 := by
  rw [bandEnergy_eq]
  split_ifs with hzero
  · norm_num
  · have hroot := vshr_nonneg (Int.natCast_nonneg (isqrt (scaledSquares xs (ilog2 (peak xs) - 10))))
      (-(ilog2 (peak xs) - 10))
    unfold satu32 clamp
    omega

theorem bandEnergy_zeros {xs : List Int} (h : ∀ x ∈ xs, x = 0) : bandEnergy xs = 1 := by
  have hpeak : peak xs < 1 := (peak_lt_iff Nat.one_pos).2 fun x hx => by simp [h x hx]
  rw [bandEnergy_eq, if_pos (Nat.lt_one_iff.1 hpeak)]

section Exponent

variable {xs : List Int} {p : Nat}

/-- Coefficients of more than 11 bits are scaled down (R171). -/
theorem bandEnergy_down (hlt : ∀ x ∈ xs, x.natAbs < 2 ^ (p + 1)) (hge : ∃ x ∈ xs, 2 ^ p ≤ x.natAbs) (hp : 10 ≤ p) :
    bandEnergy xs = (min 4294967295
      (1 + isqrt (xs.map fun x => (x / 2 ^ (p - 10)).natAbs ^ 2).sum * 2 ^ (p - 10)) : Nat) := by
  obtain ⟨hne, hlog⟩ := ilog2_peak hlt hge
  rw [bandEnergy_eq, if_neg hne, hlog, show (p : Int) - 10 = (p - 10 : Nat) by omega, vshr_neg_natCast,
    ← satu32_natCast]
  simp only [scaledSquares, vshr_natCast, sq]
  norm_cast

/-- Coefficients of fewer than 11 bits are scaled up (R171). -/
theorem bandEnergy_up (hlt : ∀ x ∈ xs, x.natAbs < 2 ^ (p + 1)) (hge : ∃ x ∈ xs, 2 ^ p ≤ x.natAbs) (hp : p < 10) :
    bandEnergy xs = (min 4294967295
      (1 + isqrt (xs.map fun x => (x * 2 ^ (10 - p)).natAbs ^ 2).sum / 2 ^ (10 - p)) : Nat) := by
  obtain ⟨hne, hlog⟩ := ilog2_peak hlt hge
  rw [bandEnergy_eq, if_neg hne, hlog, show (p : Int) - 10 = -(10 - p : Nat) by omega, neg_neg, vshr_natCast,
    ← satu32_natCast]
  simp only [scaledSquares, vshr_neg_natCast, sq]
  norm_cast

end Exponent

/-! ### The energies written (R172) -/

section Energies

variable {s : State} {c b : Nat}

/-- The writes of BE_COMPUTE (R172). -/
def State.energyWrites (s : State) : List ((Nat × Nat) × Int) :=
  s.channelBands.map fun p => (p, s.bandEnergy p.1 p.2)

theorem map_fst_energyWrites (s : State) : s.energyWrites.map Prod.fst = s.channelBands := by
  rw [State.energyWrites, List.map_map]
  exact List.map_id _

/-- Each ENER element in use holds its band's magnitude after BE_COMPUTE (R64, R172). -/
theorem ener_computed (hl : s.hw.legal = true) (hm : modeOk s = true) (hc : c < s.channels) (hb : b < s.nbands) :
    ((s.mem.setEners s.energyWrites).ener c b : Int) = s.bandEnergy c b := by
  obtain ⟨-, ⟨-, hnb⟩, -⟩ := (modeOk_iff s).1 hm
  have hmax := Params.legal_nbandsMax hl
  refine ener_setEners (fun w hw => ?_) ?_ (List.mem_map_of_mem (mem_channelBands.2 ⟨hc, hb⟩))
    (zero_le_one.trans (bandEnergy_range _).1) (bandEnergy_range _).2
  · obtain ⟨p, hp, rfl⟩ := List.mem_map.1 hw
    exact (mem_channelBands.1 hp).2.trans_le (by omega)
  · rw [map_fst_energyWrites]
    exact nodup_channelBands s

end Energies

end Sys2Proof.Machine

namespace Sys2Proof

open Machine

/-- Settles O43: each element holds R171's magnitude, which the exponent of the largest coefficient decides. -/
theorem computeEnergies : Obligations.ComputeEnergies := by
  intro s hl hm
  refine ⟨s.mem.setEners s.energyWrites, completesWith_of_body rfl (passed_check hm), fun c b hc hb => ?_,
    fun a ha => Memory.byte_setEners_other _ _ _ (by rwa [map_fst_energyWrites])⟩
  have hener := ener_computed hl hm hc hb
  have hpos : 1 ≤ s.bandEnergy c b := (bandEnergy_range _).1
  refine ⟨hener, by omega, ?_⟩
  intro xs
  have hxs : s.bandEnergy c b = bandEnergy xs := congrArg bandEnergy List.map_map
  rw [hxs] at hener
  refine ⟨fun hzero => ?_, fun p hlt hge => ⟨fun hp => ?_, fun hp => ?_⟩⟩
  · exact_mod_cast hener.trans (bandEnergy_zeros hzero)
  · exact_mod_cast hener.trans (bandEnergy_down hlt hge hp)
  · exact_mod_cast hener.trans (bandEnergy_up hlt hge hp)

end Sys2Proof

/-! ## The band commands and the range coder's state (R180) -/

namespace Sys2Proof.Machine

/-- The addresses of the FBUF window (R65). -/
def frameWindow : Nat → Prop := fun a => 0x4000 ≤ a ∧ a < 0x8000

/-- The same machine with another FBUF, coder and stereo state: `m` is its memory. -/
def State.twin (s : State) (rc : Coder) (st : Stereo) (m : Memory) : State :=
  { s with regs := { s.regs with rc := rc, st := st }, mem := m }

/-! ### What two memories that differ in FBUF alone have in common (R63 to R67) -/

section Reads

variable {m m' : Memory} {a c b k : Nat}

theorem half_outside (h : m.sameBut m' frameWindow) (ha : a + 1 < 0x4000 ∨ 0x8000 ≤ a) : m'.half a = m.half a := by
  unfold Memory.half
  rw [h a (by unfold frameWindow; omega), h (a + 1) (by unfold frameWindow; omega)]

theorem word_outside (h : m.sameBut m' frameWindow) (ha : a + 3 < 0x4000 ∨ 0x8000 ≤ a) : m'.word a = m.word a := by
  unfold Memory.word
  rw [h a (by unfold frameWindow; omega), h (a + 1) (by unfold frameWindow; omega),
    h (a + 2) (by unfold frameWindow; omega), h (a + 3) (by unfold frameWindow; omega)]

theorem band_outside (h : m.sameBut m' frameWindow) (hk : k < 256) : m'.band k = m.band k :=
  congrArg BitVec.toNat (half_outside h (.inl (by unfold bandAddr; omega)))

theorem ener_outside (h : m.sameBut m' frameWindow) (hc : c < 2) (hb : b < 256) : m'.ener c b = m.ener c b :=
  congrArg BitVec.toNat (word_outside h (.inl (by unfold enerAddr; omega)))

theorem sig_outside (h : m.sameBut m' frameWindow) (k : Nat) : m'.sig k = m.sig k :=
  congrArg BitVec.toInt (word_outside h (.inr (Nat.le_add_right _ _)))

theorem norm_outside (h : m.sameBut m' frameWindow) (k : Nat) : m'.norm k = m.norm k :=
  congrArg BitVec.toInt (half_outside h (.inr (Nat.le_add_right_of_le (by norm_num))))

theorem bins_outside (h : m.sameBut m' frameWindow) (hb : b < 255) : m'.bins b = m.bins b := by
  unfold Memory.bins Memory.width
  rw [band_outside h (k := b) (by omega), band_outside h (k := b + 1) (by omega)]

theorem normSquares_outside (h : m.sameBut m' frameWindow) (ks : List Nat) : m'.normSquares ks = m.normSquares ks := by
  unfold Memory.normSquares
  simp only [norm_outside h]

end Reads

/-! ### The mode descriptor and the elements it names are the twin's (R16, R32, R270) -/

section Twin

variable {s : State} {rc : Coder} {st : Stereo} {m : Memory}

@[simp] theorem twin_hw : (s.twin rc st m).hw = s.hw := rfl
@[simp] theorem twin_mem : (s.twin rc st m).mem = m := rfl
@[simp] theorem twin_channels : (s.twin rc st m).channels = s.channels := rfl
@[simp] theorem twin_nbands : (s.twin rc st m).nbands = s.nbands := rfl
@[simp] theorem twin_frameLen : (s.twin rc st m).frameLen = s.frameLen := rfl
@[simp] theorem twin_channelBands : (s.twin rc st m).channelBands = s.channelBands := rfl

theorem coveredEnerBytes_twin : (s.twin rc st m).coveredEnerBytes = s.coveredEnerBytes := rfl

theorem zeroesBin_iff {j : Nat} : s.zeroesBin j = true ↔
    s.nbands ≤ s.hw.nbandsMax ∧ s.mem.band s.nbands ≤ j ∧ j < s.frameLen := by
  simp [State.zeroesBin, and_assoc]

section Legal

variable (hl : s.hw.legal = true) (h : s.mem.sameBut m frameWindow)
include hl h

theorem modeOk_twin : modeOk (s.twin rc st m) = modeOk s := by
  have hmax := Params.legal_nbandsMax hl
  rw [Bool.eq_iff_iff, modeOk_iff, modeOk_iff]
  simp only [twin_hw, twin_mem, twin_channels, twin_nbands, twin_frameLen]
  refine and_congr_right fun _ => and_congr_right fun ⟨_, hnb⟩ => ?_
  have hband : ∀ k, k ≤ s.nbands → m.band k = s.mem.band k := fun k hk => band_outside h (by omega)
  rw [hband 0 (Nat.zero_le _), hband s.nbands (le_refl _)]
  refine and_congr_right fun _ => and_congr_right fun _ => and_congr_left fun _ =>
    forall_congr' fun b => imp_congr_right fun hb => ?_
  rw [hband b (by omega), hband (b + 1) (by omega)]

theorem inBand_twin (b : Nat) : (s.twin rc st m).inBand b = s.inBand b := by
  have hmax := Params.legal_nbandsMax hl
  funext j
  rw [Bool.eq_iff_iff, inBand_iff, inBand_iff]
  simp only [twin_hw, twin_mem, twin_nbands]
  refine and_congr_right fun _ => and_congr_right fun hb => ?_
  rw [band_outside h (k := b) (by omega), band_outside h (k := b + 1) (by omega)]

theorem coversBin_twin : (s.twin rc st m).coversBin = s.coversBin := by
  funext j
  simp only [State.coversBin, inBand_twin hl h, twin_hw, twin_nbands]

theorem zeroesBin_twin : (s.twin rc st m).zeroesBin = s.zeroesBin := by
  have hmax := Params.legal_nbandsMax hl
  funext j
  rw [Bool.eq_iff_iff, zeroesBin_iff, zeroesBin_iff]
  simp only [twin_hw, twin_mem, twin_nbands, twin_frameLen]
  refine and_congr_right fun hnb => ?_
  rw [band_outside h (by omega)]

theorem coveredNormBytes_twin : (s.twin rc st m).coveredNormBytes = s.coveredNormBytes :=
  congrArg (fun p => normBytes (s.indicesOf p)) (coversBin_twin hl h)

theorem bandNormBytes_twin (b : Nat) : (s.twin rc st m).bandNormBytes b = s.bandNormBytes b :=
  congrArg (fun p => normBytes (s.indicesOf p)) (inBand_twin hl h b)

theorem coveredSigBytes_twin : (s.twin rc st m).coveredSigBytes = s.coveredSigBytes :=
  congrArg₂ (fun (p q : Nat → Bool) => (s.indicesOf fun j => p j || q j).flatMap fun k => wordBytes (sigAddr k))
    (coversBin_twin hl h) (zeroesBin_twin hl h)

end Legal

/-! ### What a band command writes is the twin's (R172 to R178) -/

/-- A valid mode descriptor names channels and bands that ENER has (R32, R64). -/
theorem channelBands_lt (hl : s.hw.legal = true) (hm : modeOk s = true) {p : Nat × Nat} (hp : p ∈ s.channelBands) :
    p.1 < 2 ∧ p.2 < 255 := by
  obtain ⟨hch, ⟨-, hnb⟩, -⟩ := (modeOk_iff s).1 hm
  obtain ⟨hc, hb⟩ := mem_channelBands.1 hp
  have hmax := Params.legal_nbandsMax hl
  omega

theorem bandIndices_twin (h : s.mem.sameBut m frameWindow) {b : Nat} (hb : b < 255) (c : Nat) :
    (s.twin rc st m).bandIndices c b = s.bandIndices c b :=
  congrArg (List.map fun j => j * s.channels + c) (bins_outside h hb)

theorem bandWrites_twin (h : s.mem.sameBut m frameWindow) {ps : List (Nat × Nat)} {f f' : Nat × Nat → Nat → Int}
    (hps : ∀ p ∈ ps, p.2 < 255) (hf : ∀ p ∈ ps, ∀ k, f' p k = f p k) :
    (s.twin rc st m).bandWrites ps f' = s.bandWrites ps f :=
  List.flatMap_congr fun p hp => by simp only [bandIndices_twin h (hps p hp), hf p hp]

theorem renormedWrites_twin (h : s.mem.sameBut m frameWindow) {ps : List (Nat × Nat)} (hps : ∀ p ∈ ps, p.2 < 255) :
    (s.twin rc st m).bandWrites ps (s.twin rc st m).renormedAt = s.bandWrites ps s.renormedAt :=
  bandWrites_twin h hps fun p hp k => by
    simp only [State.renormedAt, bandIndices_twin h (hps p hp), twin_mem, norm_outside h, normSquares_outside h]

section InUse

variable (hl : s.hw.legal = true) (hm : modeOk s = true) (h : s.mem.sameBut m frameWindow)
include hl hm h

theorem energies_twin {p : Nat × Nat} (hp : p ∈ s.channelBands) : m.ener p.1 p.2 = s.mem.ener p.1 p.2 := by
  obtain ⟨hc, hb⟩ := channelBands_lt hl hm hp
  exact ener_outside h hc (by omega)

theorem allEnergies_twin :
    s.channelBands.all (fun p => decide (m.ener p.1 p.2 ≠ 0)) =
      s.channelBands.all (fun p => decide (s.mem.ener p.1 p.2 ≠ 0)) := by
  rw [Bool.eq_iff_iff, List.all_eq_true, List.all_eq_true]
  exact forall₂_congr fun p hp => by rw [energies_twin hl hm h hp]

theorem energyWrites_twin : (s.twin rc st m).energyWrites = s.energyWrites :=
  List.map_congr_left fun p hp => by
    simp only [State.bandEnergy, bandIndices_twin h (channelBands_lt hl hm hp).2, twin_mem, sig_outside h]

theorem normalisedWrites_twin :
    (s.twin rc st m).bandWrites s.channelBands (s.twin rc st m).normalisedAt =
      s.bandWrites s.channelBands s.normalisedAt :=
  bandWrites_twin h (fun _ hp => (channelBands_lt hl hm hp).2) fun p hp k => by
    simp only [State.normalisedAt, twin_mem, sig_outside h, energies_twin hl hm h hp]

theorem denormalisedWrites_twin : (s.twin rc st m).denormalisedWrites = s.denormalisedWrites := by
  have hbands : (s.twin rc st m).bandWrites s.channelBands (s.twin rc st m).denormalisedAt =
      s.bandWrites s.channelBands s.denormalisedAt :=
    bandWrites_twin h (fun _ hp => (channelBands_lt hl hm hp).2) fun p hp k => by
      simp only [State.denormalisedAt, twin_mem, norm_outside h, energies_twin hl hm h hp]
  have hlast : m.band s.nbands = s.mem.band s.nbands := by
    obtain ⟨-, ⟨-, hnb⟩, -⟩ := (modeOk_iff s).1 hm
    have hmax := Params.legal_nbandsMax hl
    exact band_outside h (by omega)
  rw [State.denormalisedWrites, twin_channelBands, hbands, State.zeroFilled, twin_mem, twin_nbands, hlast]
  rfl

theorem renormBandWrites_twin {b : Nat} (hb : b < s.nbands) {k : Byte} :
    ((s.twin rc st m).maskedChannels k).flatMap (fun c => m.renormVec ((s.twin rc st m).bandIndices c b)) =
      (s.maskedChannels k).flatMap fun c => s.mem.renormVec (s.bandIndices c b) := by
  have hin : ∀ p ∈ s.maskedBands b k, p.2 < 255 := fun p hp => (channelBands_lt hl hm (maskedBands_inUse hb p hp)).2
  rw [renormBand_writes s, ← renormedWrites_twin h hin]
  exact renormBand_writes (s.twin rc st m) b k

end InUse

end Twin

/-! ### Stores that do not look at memory -/

/-- `f` stores the same bytes in any memory, each at an address in `P`. -/
structure Stores (P : Nat → Prop) (f : Memory → Memory) : Prop where
  agree : ∀ (m m' : Memory) (T : Nat → Prop), m.sameBut m' T → (f m).sameBut (f m') T
  frame : ∀ m : Memory, m.sameBut (f m) P

namespace Stores

variable {P : Nat → Prop}

theorem setByte {a : Nat} (ha : P a) (v : Byte) : Stores P (·.setByte a v) where
  agree m m' T h x hx := by
    simp only [Memory.byte_setByte]
    split_ifs
    · rfl
    · exact h x hx
  frame _ := Memory.sameBut_setByte ha

theorem comp {f g : Memory → Memory} (hg : Stores P g) (hf : Stores P f) : Stores P (fun m => g (f m)) where
  agree _ _ T h := hg.agree _ _ T (hf.agree _ _ T h)
  frame m := Memory.sameBut_trans (hf.frame m) (hg.frame (f m))

theorem foldl {α : Type} {f : Memory → α → Memory} {ws : List α} (hf : ∀ w ∈ ws, Stores P (f · w)) :
    Stores P (fun m => ws.foldl f m) := by
  induction ws with
  | nil => exact ⟨fun _ _ _ h => h, fun m => Memory.sameBut_refl m P⟩
  | cons w rest ih =>
    exact comp (ih fun w' hw' => hf w' (List.mem_cons_of_mem _ hw')) (hf w List.mem_cons_self)

theorem setHalf {a : Nat} (h : ∀ i, i < 2 → P (a + i)) (v : Half) : Stores P (·.setHalf a v) :=
  comp (setByte (h 1 (by norm_num)) _) (setByte (h 0 (by norm_num)) _)

theorem setWord {a : Nat} (h : ∀ i, i < 4 → P (a + i)) (v : Word) : Stores P (·.setWord a v) :=
  comp (setByte (h 3 (by norm_num)) _) <| comp (setByte (h 2 (by norm_num)) _) <|
    comp (setByte (h 1 (by norm_num)) _) (setByte (h 0 (by norm_num)) _)

theorem unspecify (n : Nat) {touched : List Nat} (h : ∀ a ∈ touched, P a) : Stores P (·.unspecify n touched) :=
  foldl fun a ha => setByte (h a ha) _

end Stores

/-- The SIG and NORM windows (R66, R67). -/
def coefficientWindows : Nat → Prop := fun a => 0x8000 ≤ a

/-- The ENER window (R64). -/
def energyBank : Nat → Prop := fun a => 0x0800 ≤ a ∧ a < 0x1000

theorem stores_setNorms (ws : List (Nat × Int)) : Stores coefficientWindows (·.setNorms ws) :=
  .foldl fun _ _ => .setHalf (fun _ _ => by unfold coefficientWindows normAddr; omega) _

theorem stores_setSigs (ws : List (Nat × Int)) : Stores coefficientWindows (·.setSigs ws) :=
  .foldl fun _ _ => .setWord (fun _ _ => by unfold coefficientWindows sigAddr; omega) _

theorem stores_setEners {ws : List ((Nat × Nat) × Int)} (h : ∀ w ∈ ws, w.1.1 < 2 ∧ w.1.2 < 255) :
    Stores energyBank (·.setEners ws) :=
  .foldl fun w hw => .setWord (fun _ _ => by
    obtain ⟨hc, hb⟩ := h w hw
    unfold energyBank enerAddr
    omega) _

theorem normElems_coefficients {ks : List Nat} {a : Nat} (h : normElems ks a) : coefficientWindows a := by
  obtain ⟨k, -, h⟩ := h
  unfold normAddr at h
  unfold coefficientWindows
  omega

theorem sigElems_coefficients {ks : List Nat} {a : Nat} (h : sigElems ks a) : coefficientWindows a := by
  obtain ⟨k, -, h, -⟩ := h
  unfold sigAddr at h
  unfold coefficientWindows
  omega

theorem coveredEnerBytes_energyBank {s : State} (hl : s.hw.legal = true) {a : Nat} (h : a ∈ s.coveredEnerBytes) :
    energyBank a := by
  have hmax := Params.legal_nbandsMax hl
  obtain ⟨c, hc, h⟩ := List.mem_flatMap.1 h
  obtain ⟨b, hb, h⟩ := List.mem_flatMap.1 h
  rw [List.mem_range] at hc hb
  have hbytes := mem_wordBytes.1 h
  unfold enerAddr at hbytes
  unfold energyBank
  omega

/-! ### Two runs of one command that end alike (R180) -/

section Alike

variable {s : State} {rc : Coder} {st : Stereo} {m : Memory} {P : Nat → Prop}

/-- Both stretches of pseudocode raise the same fault, or both make the same stores, in `P`, and nothing else. -/
def bodiesAlike (P : Nat → Prop) (s s' : State) (x x' : Run State) : Prop :=
  (∃ c, x = .error (.raised c) ∧ x' = .error (.raised c)) ∨
  ∃ f, Stores P f ∧ x = .ok { s with mem := f s.mem } ∧ x' = .ok { s' with mem := f s'.mem }

theorem bodiesAlike_check {s' : State} {p p' : Bool} {c : FaultCode} {k k' : Unit → Run State} (hp : p' = p)
    (hk : p = true → bodiesAlike P s s' (k ()) (k' ())) :
    bodiesAlike P s s' (check p c >>= k) (check p' c >>= k') := by
  subst hp
  cases hp : p'
  · exact .inl ⟨c, rfl, rfl⟩
  · exact hk hp

/-- Both store the same list of elements. -/
theorem bodiesAlike_stores {α : Type} {s' : State} {store : Memory → List α → Memory} {ws ws' : List α}
    (hws : ws' = ws) (hstore : Stores P (store · ws)) :
    bodiesAlike P s s' (.ok { s with mem := store s.mem ws }) (.ok { s' with mem := store s'.mem ws' }) :=
  .inr ⟨(store · ws), hstore, rfl, by rw [hws]⟩

/-- From `s` and its twin the outcomes are next states that are twins again: the coder and stereo registers are as they
were, the memories agree outside FBUF, and each run changed bytes of `P` alone. -/
structure EndsAlike (P : Nat → Prop) (s : State) (rc : Coder) (st : Stereo) (m : Memory)
    (o o' : Host.Outcome State Fault Refusal) (t t' : State) : Prop where
  left : o = .next t
  right : o' = .next t'
  twin : t' = t.twin rc st t'.mem
  coder : t.regs.rc = s.regs.rc
  stereo : t.regs.st = s.regs.st
  agree : t.mem.sameBut t'.mem frameWindow
  frameLeft : s.mem.sameBut t.mem P
  frameRight : m.sameBut t'.mem P

theorem perform_endsAlike {i : Instr} {touched touched' : List Nat} {x x' : Run State}
    (h : s.mem.sameBut m frameWindow) (htouched : touched' = touched) (hP : ∀ a ∈ touched, P a)
    (hx : bodiesAlike P s (s.twin rc st m) x x') :
    ∃ t t', EndsAlike P s rc st m (perform i touched x s) (perform i touched' x' (s.twin rc st m)) t t' := by
  subst htouched
  rcases hx with ⟨c, hraise, hraise'⟩ | ⟨f, hf, hok, hok'⟩
  · have hstores := Stores.unspecify s.draws hP
    exact ⟨_, _, perform_raised hraise, perform_raised hraise', rfl, rfl, rfl, hstores.agree _ _ _ h, hstores.frame _,
      hstores.frame _⟩
  · exact ⟨_, _, perform_ok hok, perform_ok hok', rfl, rfl, rfl, hf.agree _ _ _ h, hf.frame _, hf.frame _⟩

/-- BE_COMPUTE stores energies, any other band command coefficients (R172 to R178). -/
def bandStores (i : Instr) : Nat → Prop := if i = .beCompute then energyBank else coefficientWindows

/-- Each band command ends alike from `s` and its twin: its checks and its stores read nothing that differs (R180). -/
theorem exec_endsAlike {i : Instr} (hi : i.isBand = true) (hl : s.hw.legal = true)
    (h : s.mem.sameBut m frameWindow) :
    ∃ t t', EndsAlike (bandStores i) s rc st m (exec i s) (exec i (s.twin rc st m)) t t' := by
  have hmode := modeOk_twin (rc := rc) (st := st) hl h
  have hcovered : ∀ a ∈ s.coveredNormBytes, coefficientWindows a :=
    fun _ ha => normElems_coefficients (coveredNormBytes_inside ha)
  cases i with
  | beCompute =>
    refine perform_endsAlike h coveredEnerBytes_twin (fun _ => coveredEnerBytes_energyBank hl) <|
      bodiesAlike_check hmode fun hm =>
        bodiesAlike_stores (store := Memory.setEners) (energyWrites_twin hl hm h) (stores_setEners fun w hw => ?_)
    obtain ⟨p, hp, rfl⟩ := List.mem_map.1 hw
    exact channelBands_lt hl hm hp
  | beNormalise =>
    exact perform_endsAlike h (coveredNormBytes_twin hl h) hcovered <| bodiesAlike_check hmode fun hm =>
      bodiesAlike_check (allEnergies_twin hl hm h) fun _ =>
        bodiesAlike_stores (store := Memory.setNorms) (normalisedWrites_twin hl hm h) (stores_setNorms _)
  | beDenormalise =>
    exact perform_endsAlike h (coveredSigBytes_twin hl h)
      (fun _ ha => sigElems_coefficients (coveredSigBytes_inside ha)) <| bodiesAlike_check hmode fun hm =>
        bodiesAlike_stores (store := Memory.setSigs) (denormalisedWrites_twin hl hm h) (stores_setSigs _)
  | beRenormAll =>
    exact perform_endsAlike h (coveredNormBytes_twin hl h) hcovered <| bodiesAlike_check hmode fun hm =>
      bodiesAlike_stores (store := Memory.setNorms)
        (renormedWrites_twin h fun _ hp => (channelBands_lt hl hm hp).2) (stores_setNorms _)
  | beRenormBand b k =>
    exact perform_endsAlike h (bandNormBytes_twin hl h _)
      (fun _ ha => normElems_coefficients (bandNormBytes_inside ha)) <| bodiesAlike_check hmode fun hm =>
        bodiesAlike_check rfl fun hops =>
          bodiesAlike_stores (store := Memory.setNorms)
            (renormBandWrites_twin hl hm h (renormBandOperands_iff.1 hops).1) (stores_setNorms _)
  | _ => cases hi

end Alike

end Sys2Proof.Machine

namespace Sys2Proof

open Machine

/-- Settles O47: a band command's checks and stores read bytes outside FBUF alone, and it stores none inside. -/
theorem bandCommandsIgnoreTheCoder : Obligations.BandCommandsIgnoreTheCoder := by
  intro i s s' hl hi hs' hbytes
  obtain ⟨t, t', hend⟩ := exec_endsAlike (rc := s'.regs.rc) (st := s'.regs.st) hi hl hbytes
  refine ⟨t, t', hend.left, (congrArg (exec i) hs').trans hend.right, hend.twin, hend.coder, hend.stereo, hend.agree,
    fun a hlo hhi => ?_, fun hne a hlo hhi => hend.frameLeft a ?_⟩
  · have ha : ¬ bandStores i a := by
      unfold bandStores energyBank coefficientWindows
      split_ifs <;> omega
    exact ⟨hend.frameLeft a ha, hend.frameRight a ha⟩
  · rw [bandStores, if_neg hne]
    unfold coefficientWindows
    omega

end Sys2Proof

/-! ## The angle functions (R206 to R209) -/

namespace Sys2Proof.Machine

/-! ### Quantizing an angle (R208) -/

/-- With a step of a `q`-th of the quarter turn, rounding half up leaves an error of at most half a step. -/
theorem roundHalfUp_nearest {t q step : Nat} (hq : 0 < q) (hstep : q * step = 16384) :
    let d := (t * q + 8192) / 16384 * step
    2 * d ≤ 2 * t + step ∧ 2 * t < 2 * d + step := by
  intro d
  have hlo : (t * q + 8192) / 16384 * (q * step) ≤ t * q + 8192 := by rw [hstep]; exact Nat.div_mul_le_self _ _
  have hhi : t * q + 8192 < (t * q + 8192) / 16384 * (q * step) + q * step := by
    rw [hstep]; exact Nat.lt_div_mul_add (by norm_num)
  have hd : (t * q + 8192) / 16384 * (q * step) = q * d := Nat.mul_left_comm _ _ _
  rw [hd] at hlo hhi
  constructor
  · refine Nat.le_of_mul_le_mul_left ?_ hq
    linarith
  · refine Nat.lt_of_mul_lt_mul_left (a := q) ?_
    linarith

/-! ### The free angle functions (R207) -/

theorem maxUpTo_le_iff {f : Nat → Nat} {n bound : Nat} : maxUpTo f n ≤ bound ↔ ∀ i ≤ n, f i ≤ bound := by
  induction n with
  | zero => simp [maxUpTo]
  | succ n ih =>
    rw [maxUpTo, max_le_iff, ih]
    simp only [Nat.le_succ_iff, or_imp, forall_and, forall_eq, and_comm]

theorem le_maxUpTo {f : Nat → Nat} {i n : Nat} (h : i ≤ n) : f i ≤ maxUpTo f n := maxUpTo_le_iff.1 (le_refl _) i h

/-- A maximum over more arguments, each answered at least as high somewhere among them, is no smaller. -/
theorem maxUpTo_le_maxUpTo {f g : Nat → Nat} {n n' : Nat} (h : ∀ i ≤ n, ∃ j ≤ n', f i ≤ g j) :
    maxUpTo f n ≤ maxUpTo g n' :=
  maxUpTo_le_iff.2 fun i hi => by
    obtain ⟨j, hj, hle⟩ := h i hi
    exact hle.trans (le_maxUpTo hj)

@[simp] theorem angleOther_zero_left (k m : Nat) : angleOther k 0 m = 0 := if_pos rfl

theorem angleOther_zero_right {k s : Nat} (hs : s ≠ 0) : angleOther k s 0 = 16384 := by
  rw [angleOther, if_neg hs, if_pos rfl]
  rfl

theorem angleOther_above {k s m : Nat} (hm : magnitudeMax < m) : angleOther k s m = 0 := by
  rw [angleOther, if_neg (Nat.ne_zero_of_lt hm), if_pos hm, ite_self]

/-- Between the edges a free angle function is the largest raw angle of no more side and no less mid (R207). -/
theorem angleOther_inside {k s m : Nat} (hs : s ≠ 0) (hm : m ≠ 0) (hmax : m ≤ magnitudeMax) :
    angleOther k s m =
      maxUpTo (fun i => maxUpTo (fun j => min Config.thetaMax (Config.angleRaw k (1 + i) (m + j))) (magnitudeMax - m))
        (s - 1) := by
  rw [angleOther, if_neg hs, if_neg hm, if_neg (not_lt.2 hmax)]

/-- More side turns a free angle function no further back (R207). -/
theorem angleOther_mono_left {s s' : Nat} (k m : Nat) (h : s ≤ s') : angleOther k s m ≤ angleOther k s' m := by
  rcases Nat.eq_zero_or_pos s with rfl | hs
  · simp
  have hs' : s' ≠ 0 := (hs.trans_le h).ne'
  rcases Nat.eq_zero_or_pos m with rfl | hm
  · rw [angleOther_zero_right hs.ne', angleOther_zero_right hs']
  rcases Nat.lt_or_ge magnitudeMax m with hmax | hmax
  · rw [angleOther_above hmax, angleOther_above hmax]
  rw [angleOther_inside hs.ne' hm.ne' hmax, angleOther_inside hs' hm.ne' hmax]
  exact maxUpTo_le_maxUpTo fun i hi => ⟨i, by omega, le_refl _⟩

/-- More mid turns a free angle function no further on (R207). -/
theorem angleOther_anti_right {m m' : Nat} (k s : Nat) (h : m ≤ m') : angleOther k s m' ≤ angleOther k s m := by
  rcases Nat.eq_zero_or_pos s with rfl | hs
  · simp
  rcases Nat.eq_zero_or_pos m with rfl | hm
  · rw [angleOther_zero_right hs.ne']
    exact angleOther_le k s m'
  rcases Nat.lt_or_ge magnitudeMax m' with hmax | hmax
  · rw [angleOther_above hmax]
    exact Nat.zero_le _
  rw [angleOther_inside hs.ne' (hm.trans_le h).ne' hmax, angleOther_inside hs.ne' hm.ne' (h.trans hmax)]
  refine maxUpTo_le_maxUpTo fun i hi => ⟨i, hi, maxUpTo_le_maxUpTo fun j hj => ⟨m' - m + j, by omega, ?_⟩⟩
  rw [show m + (m' - m + j) = m' + j by omega]

/-- Every ANGLE_FN is exact at the two edges (R207). -/
theorem angleFn_edges (a : AngleSel) (s m : Nat) : angleFn a 0 m = 0 ∧ (0 < s → angleFn a s 0 = 16384) := by
  cases a with
  | reference =>
    unfold angleFn angleReference
    refine ⟨if_pos rfl, fun hs => ?_⟩
    rw [if_neg hs.ne', if_pos rfl]
    rfl
  | other k => exact ⟨angleOther_zero_left k m, fun hs => angleOther_zero_right hs.ne'⟩

/-! ### The reference angle (R207) -/

section Reference

variable {s m : Nat} {v : Int}

/-- The gap never rises with the angle: the mid weight falls and the side weight rises (R206, R207). -/
theorem angleGap_antitone (s m : Nat) : Antitone (angleGap s m) := fun _ _ h =>
  sub_le_sub (mul_le_mul_of_nonneg_left (bcos_antitone h) (Int.natCast_nonneg s))
    (mul_le_mul_of_nonneg_left (bcos_antitone (Nat.sub_le_sub_left h _)) (Int.natCast_nonneg m))

/-- The binary search finds the first angle with a gap of at most `v`, when there is one in the interval and none
before it. -/
theorem angleSearch_spec (k : Nat) {lo : Nat} (htop : angleGap s m (lo + 2 ^ k - 1) ≤ v)
    (hbefore : ∀ t < lo, v < angleGap s m t) :
    angleGap s m (angleSearch s m v k lo) ≤ v ∧ ∀ t < angleSearch s m v k lo, v < angleGap s m t := by
  induction k generalizing lo with
  | zero => exact ⟨htop, hbefore⟩
  | succ k ih =>
    unfold angleSearch
    split_ifs with hmiddle
    · exact ih hmiddle hbefore
    · refine ih (by rwa [add_assoc, ← two_mul, ← pow_succ']) fun t ht => ?_
      exact (not_le.1 hmiddle).trans_le (angleGap_antitone s m (by omega))

/-- Every angle before `angleFirst` has a gap above `v`. -/
theorem lt_angleGap_of_lt_angleFirst {t : Nat} (ht : t < angleFirst s m v) : v < angleGap s m t := by
  unfold angleFirst at ht
  split_ifs at ht with hlast
  · exact (angleSearch_spec 14 hlast nofun).2 t ht
  · exact (not_le.1 hlast).trans_le (angleGap_antitone s m (by omega))

/-- Only at the last angle may `angleFirst` have a gap above `v`. -/
theorem angleGap_angleFirst_le (h : angleFirst s m v < 16384) : angleGap s m (angleFirst s m v) ≤ v := by
  unfold angleFirst at h ⊢
  split_ifs at h ⊢ with hlast
  · exact (angleSearch_spec 14 hlast nofun).1
  · exact absurd h (lt_irrefl _)

/-- Where an angle has a gap of at most `v`, `angleFirst` is no later and has one too. -/
theorem angleFirst_of_angleGap_le {t : Nat} (ht : t ≤ 16384) (h : angleGap s m t ≤ v) :
    angleFirst s m v ≤ t ∧ angleGap s m (angleFirst s m v) ≤ v := by
  have hle : angleFirst s m v ≤ t := not_lt.1 fun hlt => absurd h (not_le.2 (lt_angleGap_of_lt_angleFirst hlt))
  refine ⟨hle, ?_⟩
  rcases Nat.lt_or_ge (angleFirst s m v) 16384 with hlt | hge
  · exact angleGap_angleFirst_le hlt
  · rwa [le_antisymm hle (ht.trans hge)]

/-- `r` is the smallest angle whose gap has the least absolute value (R207). -/
def bestAngle (s m r : Nat) : Prop := ∀ t ≤ 16384,
  (angleGap s m r).natAbs ≤ (angleGap s m t).natAbs ∧
    ((angleGap s m t).natAbs = (angleGap s m r).natAbs → r ≤ t)

/-- The first angle as near as `z`, of positive gap, is the best one when no later angle is nearer than `z`. -/
theorem bestAngle_angleFirst {z : Nat} (hz : z ≤ 16384) (hpos : 0 < angleGap s m z)
    (hlater : ∀ t ≤ 16384, z < t → angleGap s m z ≤ (angleGap s m t).natAbs) :
    bestAngle s m (angleFirst s m (angleGap s m z)) := by
  obtain ⟨hle, hgap⟩ := angleFirst_of_angleGap_le hz (le_refl (angleGap s m z))
  have hplateau : angleGap s m (angleFirst s m (angleGap s m z)) = angleGap s m z :=
    le_antisymm hgap (angleGap_antitone s m hle)
  intro t ht
  rw [hplateau]
  constructor
  · rcases Nat.lt_or_ge z t with hzt | htz
    · have := hlater t ht hzt
      omega
    · have := angleGap_antitone s m htz
      omega
  · intro heq
    by_contra hbefore
    have := lt_angleGap_of_lt_angleFirst (not_le.1 hbefore)
    omega

/-- An angle whose gap is not positive is the best one when every earlier gap is further above 0. -/
theorem bestAngle_of_nonpos {z : Nat} (hneg : angleGap s m z ≤ 0)
    (hearlier : ∀ t < z, -angleGap s m z < angleGap s m t) :
    bestAngle s m z := by
  intro t ht
  rcases Nat.lt_or_ge t z with htz | hzt
  · have := hearlier t htz
    omega
  · have := angleGap_antitone s m hzt
    omega

/-- R207's reference is the smallest angle of least error: the gap never rises, so the nearest to 0 are the last
positive gap and the first that is not positive. -/
theorem bestAngle_reference (hs : 0 < s) (hm : 0 < m) : bestAngle s m (angleReference s m) := by
  simp only [angleReference, if_neg hs.ne', if_neg hm.ne']
  have hle := angleFirst_le s m 0
  have hbefore : ∀ t < angleFirst s m 0, 0 < angleGap s m t := fun _ => lt_angleGap_of_lt_angleFirst
  have hfirst : angleFirst s m 0 < 16384 → angleGap s m (angleFirst s m 0) ≤ 0 := angleGap_angleFirst_le
  generalize angleFirst s m 0 = z at hle hbefore hfirst ⊢
  split_ifs with hzero hpos hprevious
  · subst hzero
    exact bestAngle_of_nonpos (hfirst (by norm_num)) nofun
  · obtain rfl : z = 16384 := le_antisymm hle (not_lt.1 fun hlt => absurd hpos (not_lt.2 (hfirst hlt)))
    exact bestAngle_angleFirst (le_refl _) hpos fun t ht hlt => absurd ht (not_le.2 hlt)
  · refine bestAngle_angleFirst (by omega) (hbefore _ (by omega)) fun t _ hlt => ?_
    have := angleGap_antitone s m (show z ≤ t by omega)
    omega
  · refine bestAngle_of_nonpos (not_lt.1 hpos) fun t ht => (not_le.1 hprevious).trans_le ?_
    exact angleGap_antitone s m (by omega)

end Reference

/-! ### The cosine and the log-tangent (R206, R209) -/

theorem fracMul16_eq (a b : Int) : fracMul16 a b = (16384 + a * b) / 32768 := asr_eq _ 15

/-- R206 as the rule writes it. -/
theorem bcos_eq (x : Nat) :
    let t : Int := min 32767 ((4096 + x * x) / 8192 : Nat)
    bcos x = 1 + min 32766 (32767 - t + fracMul16 t (-7651 + fracMul16 t (8277 + fracMul16 (-626) t))) := by
  intro t
  have ht : min (32767 : Int) (asr (4096 + x * x) 13) = t := by
    rw [asr_eq]
    push_cast [t]
    rfl
  simp only [bcos, ht]
  rw [min_comm (32766 : Int)]

/-- R209 for weights of `p + 1` and `q + 1` bits. -/
theorem log2tan_of_bits {isin icos p q : Nat} (hp : ilog isin = p + 1) (hq : ilog icos = q + 1) :
    log2tan isin icos = ((p : Int) - q) * 2048 + log2Correction ((isin * 2 ^ (14 - p) : Nat) : Int)
      - log2Correction ((icos * 2 ^ (14 - q) : Nat) : Int) := by
  rw [log2tan_eq, log2Term, log2Term, hp, hq, show 15 - (p + 1) = 14 - p by omega,
    show 15 - (q + 1) = 14 - q by omega]
  push_cast
  ring

end Sys2Proof.Machine

namespace Sys2Proof

open Machine

/-- Settles O60: the step is a `2^qb`-th of the quarter turn. -/
theorem quantizedAngleIsNearest : Obligations.QuantizedAngleIsNearest := by
  intro t qb ht hqb d
  have hstep : 2 ^ qb * 2 ^ (14 - qb) = 16384 := by rw [← pow_add, Nat.add_sub_cancel' hqb]; norm_num
  have htq := quantize_le qb ht
  obtain ⟨hlo, hhi⟩ := roundHalfUp_nearest (t := t) (Nat.two_pow_pos qb) hstep
  refine ⟨htq, Nat.mul_mod_left _ _, dequantize_le hqb htq, hlo, hhi, fun hzero => ?_, fun hquarter => ?_⟩
  · subst hzero
    simp [d, quantize, dequantize]
  · subst hquarter
    have hlast : quantize 16384 qb = 2 ^ qb := by unfold quantize; omega
    rw [← hstep, ← hlast]
    rfl

/-- Settles O59: each angle function is exact at the edges, and a free one is a maximum that more side widens and more
mid narrows. -/
theorem angleFunctionsAreAllowed : Obligations.AngleFunctionsAreAllowed :=
  ⟨fun a s m => ⟨angleFn_le a s m, angleFn_edges a s m⟩, fun k _ _ m => angleOther_mono_left k m,
    fun k s _ _ => angleOther_anti_right k s⟩

/-- Settles O58: the search finds the last positive and the first non-positive gap, and the nearer of the two is the
least error. -/
theorem referenceAngleIsBest : Obligations.ReferenceAngleIsBest := by
  refine ⟨fun x _ => ⟨?_, bcos_range x⟩, fun isin icos p q hp hp' _ hq hq' _ => ?_,
    fun s m hs hm => ⟨angleReference_le s m, bestAngle_reference hs hm⟩⟩
  · rw [bcos_eq]
    simp only [fracMul16_eq]
  · rw [log2tan_of_bits (ilog_eq hp hp') (ilog_eq hq hq')]
    simp only [log2Correction, fracMul16_eq]

end Sys2Proof

/-! ## ST_QB, ST_SPLIT, ST_MIX, ST_SCALE and ST_SIGN2_REBUILD (R201, R203, R211, R215 to R217, R220) -/

namespace Sys2Proof.Machine

/-! ### Stereo commands that do not code, and the pairs they store (R200, R203) -/

section Pairs

variable {s : State} {b j : Nat} {f : Int → Int → Int × Int}

/-- The checks of a stereo command that does not code (R200). -/
theorem passed_stereoChecks {α : Type} {k : Unit → Run α} (hb : s.stereoBand b) :
    (stReq s >>= fun _ => stBand s b >>= k) = k () :=
  (passed_stReq hb.1 hb.2.1).trans (passed_stBand hb.2.2)

theorem map_fst_mapPairs (m : Memory) (js : List Nat) (f : Int → Int → Int × Int) :
    (m.mapPairs js f).map Prod.fst = js.flatMap fun j => [2 * j, 2 * j + 1] := by
  simp [Memory.mapPairs, List.map_flatMap]

/-- No two bins share an element of a pair (R203). -/
theorem nodup_pairs {js : List Nat} (hjs : js.Nodup) : (js.flatMap fun j => [2 * j, 2 * j + 1]).Nodup := by
  refine List.nodup_flatMap.2 ⟨fun j _ => by simp, hjs.imp fun {j j'} hne k hk hk' => hne ?_⟩
  simp only [List.mem_cons, List.not_mem_nil, or_false] at hk hk'
  omega

/-- The pair of a bin of the band after a command has stored saturated values in every pair (R203, R217). -/
theorem norm_setNorms_mapPairs {x y : Int} (hb : s.stereoBand b) (hlo : s.mem.band b ≤ j)
    (hhi : j < s.mem.band (b + 1)) (hf : f (s.mem.norm (2 * j)) (s.mem.norm (2 * j + 1)) = (sat16 x, sat16 y)) :
    (s.mem.setNorms (s.mem.mapPairs (s.mem.bins b) f)).norm (2 * j) = sat16 x ∧
    (s.mem.setNorms (s.mem.mapPairs (s.mem.bins b) f)).norm (2 * j + 1) = sat16 y := by
  have hj : j ∈ s.mem.bins b := (mem_bins hb.1 hb.2.2).2 ⟨hlo, hhi⟩
  have hd : ((s.mem.mapPairs (s.mem.bins b) f).map Prod.fst).Nodup := by
    rw [map_fst_mapPairs]
    exact nodup_pairs List.nodup_range'
  exact ⟨norm_setNorms hd (List.mem_flatMap.2 ⟨j, hj, by simp [hf]⟩),
    norm_setNorms hd (List.mem_flatMap.2 ⟨j, hj, by simp [hf]⟩)⟩

/-- A command that stores pairs of a band changes no other byte. -/
theorem sameBut_setNorms_mapPairs (hb : s.stereoBand b) :
    s.mem.sameBut (s.mem.setNorms (s.mem.mapPairs (s.mem.bins b) f)) (normElems (s.bandElements b)) := by
  refine fun a ha => Memory.byte_setNorms_other _ _ _ fun ⟨k, hk, hbytes⟩ => ha ⟨k, ?_, hbytes⟩
  obtain ⟨w, hw, rfl⟩ := List.mem_map.1 hk
  exact mem_mapPairs hb.2.1 hw

end Pairs

/-! ### The mixing weights (R201) -/

/-- R201's scaling of an energy by `2^(13 - p)`. -/
def scaledEnergy (e p : Nat) : Nat := if 13 ≤ p then e / 2 ^ (p - 13) else e * 2 ^ (13 - p)

theorem vshr_energy (e p : Nat) : vshr e ((p : Int) - 13) = (scaledEnergy e p : Nat) := by
  unfold scaledEnergy
  split_ifs
  · rw [show (p : Int) - 13 = (p - 13 : Nat) by omega, vshr_natCast]
    norm_cast
  · rw [show (p : Int) - 13 = -(13 - p : Nat) by omega, vshr_neg_natCast]
    norm_cast

/-- R201's weights of two scaled energies: each divided by their norm, in Q14. -/
def intensityWeights (l r : Nat) : Int × Int :=
  let n := 1 + isqrt (1 + l * l + r * r)
  (((l * 16384 / n : Nat) : Int), ((r * 16384 / n : Nat) : Int))

theorem tdiv_natCast (a b : Nat) : tdiv a b = (a / b : Nat) := by rw [tdiv_eq]; rfl

/-- Mid/side mixing weighs both slots by W_MS (R201). -/
theorem mixWeights_midSide (m : Memory) (b : Nat) : mixWeights m b false = (11585, 11585) := rfl

/-- Intensity mixing weighs by the two energies, scaled by the exponent of the larger (R201). -/
theorem mixWeights_intensity (m : Memory) (b : Nat) :
    let p := zlog2 (max (m.ener 0 b) (m.ener 1 b))
    mixWeights m b true = intensityWeights (scaledEnergy (m.ener 0 b) p) (scaledEnergy (m.ener 1 b) p) := by
  intro p
  have h0 := vshr_energy (m.ener 0 b) p
  have h1 := vshr_energy (m.ener 1 b) p
  have hquotient : ∀ x n : Nat, tdiv ((x : Int) * 16384) ((1 : Nat) + (n : Int)) = (x * 16384 / (1 + n) : Nat) :=
    fun x n => by exact_mod_cast tdiv_natCast (x * 16384) (1 + n)
  simp only [mixWeights, if_true, p] at h0 h1 ⊢
  rw [h0, h1]
  simp only [Int.natAbs_natCast, Config.eps, hquotient]
  rfl

theorem zlog2_eq {x p : Nat} (hlo : 2 ^ p ≤ x) (hhi : x < 2 ^ (p + 1)) : zlog2 x = p := by
  have hx : x ≠ 0 := ((Nat.two_pow_pos p).trans_le hlo).ne'
  rw [zlog2, if_neg hx]
  exact (Nat.log2_eq_iff hx).2 ⟨hlo, hhi⟩

@[simp] theorem scaledEnergy_zero (p : Nat) : scaledEnergy 0 p = 0 := by simp [scaledEnergy]

theorem intensityWeights_zero : intensityWeights 0 0 = (0, 0) := by decide

/-- Two quotients in Q14 by a number above the norm of their numerators have a norm below 1. -/
theorem squares_lt_of_norm_lt {l r n x y : Nat} (hnorm : l * l + r * r < n * n) (hx : x * n ≤ l * 16384)
    (hy : y * n ≤ r * 16384) : x * x + y * y < 2 ^ 28 := by
  refine Nat.lt_of_mul_lt_mul_right (a := n * n) ?_
  calc (x * x + y * y) * (n * n) = x * n * (x * n) + y * n * (y * n) := by ring
    _ ≤ l * 16384 * (l * 16384) + r * 16384 * (r * 16384) :=
        Nat.add_le_add (Nat.mul_le_mul hx hx) (Nat.mul_le_mul hy hy)
    _ = 2 ^ 28 * (l * l + r * r) := by ring
    _ < 2 ^ 28 * (n * n) := Nat.mul_lt_mul_of_pos_left hnorm (by norm_num)

/-- The denominator exceeds the norm of the two energies (R201). -/
theorem intensityWeights_norm (l r : Nat) :
    (intensityWeights l r).1 * (intensityWeights l r).1 +
      (intensityWeights l r).2 * (intensityWeights l r).2 < 2 ^ 28 := by
  have hroot := (isqrt_spec (1 + l * l + r * r)).2
  rw [Nat.add_comm (isqrt _)] at hroot
  have hsquares := squares_lt_of_norm_lt (l := l) (r := r) (by omega) (Nat.div_mul_le_self (l * 16384) _)
    (Nat.div_mul_le_self (r * 16384) (1 + isqrt (1 + l * l + r * r)))
  simp only [intensityWeights]
  exact_mod_cast hsquares

/-- ST_MIX's weights have a norm below 1, in Q14 (R201). -/
theorem mixWeights_norm (m : Memory) (b : Nat) (intensity : Bool) :
    (mixWeights m b intensity).1 * (mixWeights m b intensity).1 +
      (mixWeights m b intensity).2 * (mixWeights m b intensity).2 < 2 ^ 28 := by
  cases intensity with
  | false => rw [mixWeights_midSide]; norm_num
  | true => rw [mixWeights_intensity]; exact intensityWeights_norm _ _

/-! ### The angle's resolution (R211) -/

/-- A dividend below the divisor has no positive quotient (R13). -/
theorem tdiv_nonpos_of_lt {a : Int} {n : Nat} (h : a < n) : tdiv a n ≤ 0 := by
  rw [tdiv_eq]
  rcases lt_or_ge a 0 with hneg | hpos
  · rw [← neg_nonneg, ← Int.neg_tdiv]
    exact Int.tdiv_nonneg (neg_nonneg.2 hneg.le) (Int.natCast_nonneg n)
  · exact (Int.tdiv_eq_zero_of_lt hpos h).le

/-! ### Scaling by the angle's weights (R215, R217) -/

/-- What ST_SCALE makes of the two coefficients of a bin (R217). -/
def Stereo.scaledPair (st : Stereo) (x y : Int) : Int × Int := (scaled x st.imid.toNat, scaled y st.iside.toNat)

theorem scaled_eq (v : Int) (w : Nat) : scaled v w = sat16 ((v * w + 16384) / 2 ^ 15) := by rw [scaled, asr_eq]

/-- Half a unit rounds a zero product to zero (R215). -/
theorem scaled_zero (v : Int) : scaled v 0 = 0 := by simp [scaled_eq]

/-! ### The budget's split (R216) -/

theorem splitBits_sum (bits : Int) (n : Nat) (st : Stereo) :
    (splitBits bits n st).1 + (splitBits bits n st).2 = bits := by
  unfold splitBits
  split
  · exact Int.sub_add_cancel _ _
  · exact add_sub_cancel _ _

/-- A choice by whether the angle is away from the edges, said of the two edge angles (R216). -/
theorem ite_nonEdge {α : Type} (st : Stereo) (x y : α) :
    (if st.nonEdge then x else y) = if st.theta.toNat = 0 ∨ st.theta.toNat = 16384 then y else x :=
  (if_congr nonEdge_iff rfl rfl).trans (ite_not _ _ _)

/-! ### The rebuilt vector (R220) -/

section Rebuilt

variable {m : Memory} {j c : Nat} {sign : Bool}

/-- R220's turn by the sign, slot by slot. -/
theorem rebuilt_eq (m : Memory) (j c : Nat) (sign : Bool) : m.rebuilt j c sign =
    [(2 * j + 1 - c, sat16 (if sign then m.norm (2 * j + 2 + c) else -m.norm (2 * j + 2 + c))),
      (2 * j + 3 - c, sat16 (if sign then -m.norm (2 * j + c) else m.norm (2 * j + c)))] := by
  cases sign <;> simp [Memory.rebuilt]

/-- The two elements of the slot that is not coded, after ST_SIGN2_REBUILD (R220). -/
theorem norm_rebuilt (hc : c ≤ 1) :
    (m.setNorms (m.rebuilt j c sign)).norm (2 * j + 1 - c) =
      sat16 (if sign then m.norm (2 * j + 2 + c) else -m.norm (2 * j + 2 + c)) ∧
    (m.setNorms (m.rebuilt j c sign)).norm (2 * j + 3 - c) =
      sat16 (if sign then -m.norm (2 * j + c) else m.norm (2 * j + c)) := by
  have hd : ((m.rebuilt j c sign).map Prod.fst).Nodup :=
    List.nodup_cons.2 ⟨fun h => absurd (List.mem_singleton.1 h) (by omega), List.nodup_singleton _⟩
  exact ⟨norm_setNorms hd (by simp [rebuilt_eq]), norm_setNorms hd (by simp [rebuilt_eq])⟩

/-- ST_SIGN2_REBUILD leaves every other element (R220). -/
theorem norm_rebuilt_other {k : Nat} (hk : k ≠ 2 * j + 1 - c ∧ k ≠ 2 * j + 3 - c) :
    (m.setNorms (m.rebuilt j c sign)).norm k = m.norm k := by
  unfold Memory.norm
  rw [Memory.half_setNorms_other]
  simp [Memory.rebuilt, hk]

end Rebuilt

end Sys2Proof.Machine

namespace Sys2Proof

open Machine

/-- Settles O49: a budget of at most 47 leaves at most 15 above the offset 32, and the divisor is at least 16. -/
theorem angleResolution : Obligations.AngleResolution := by
  intro s b hb
  have hrange := clamp_range (lo := 0) (hi := 14) (x := tdiv (s.arg0Signed - 32)
    (16 * max 1 (s.mem.width b.toNat - 1) : Nat)) (by norm_num)
  obtain ⟨q, hq⟩ := Int.eq_ofNat_of_zero_le hrange.1
  refine ⟨q, by omega, completesWith_of_body rfl ((passed_stereoChecks hb).trans ?_), hq.symm, fun hbits => ?_⟩
  · change Except.ok { s with regs := { s.regs with res0 := regInt (clamp 0 14 _) } } = _
    rw [hq]
    rfl
  · have hshort := tdiv_nonpos_of_lt (a := s.arg0Signed - 32) (n := 16 * max 1 (s.mem.width b.toNat - 1)) (by omega)
    unfold clamp at hq
    omega

/-- Settles O52: in either case the side's share is what the mid's leaves. -/
theorem splitBudget : Obligations.SplitBudget := by
  intro s b hb
  refine ⟨(splitBits s.arg0Signed (s.mem.width b.toNat) s.regs.st).1,
    (splitBits s.arg0Signed (s.mem.width b.toNat) s.regs.st).2, splitBits_sum _ _ _,
    completesWith_of_body rfl (passed_stereoChecks hb), fun hw => ?_, fun hw => ?_⟩
  · rw [splitBits, if_pos hw]
    exact ite_nonEdge _ _ _
  · rw [splitBits, if_neg hw]

/-- Settles O53: each slot of a bin is stored once, as its weight's scaled value. -/
theorem scaleBand : Obligations.ScaleBand := by
  intro s b hb
  refine ⟨_, completesWith_of_body rfl (passed_stereoChecks hb), fun j hlo hhi => ?_, sameBut_setNorms_mapPairs hb⟩
  obtain ⟨hmid, hside⟩ := norm_setNorms_mapPairs (f := s.regs.st.scaledPair) hb hlo hhi rfl
  refine ⟨hmid.trans (scaled_eq _ _), hside.trans (scaled_eq _ _), fun hzero => hmid.trans ?_,
    fun hzero => hside.trans ?_⟩
  · rw [hzero]
    exact scaled_zero _
  · rw [hzero]
    exact scaled_zero _

/-- Settles O48: each pair of a bin is stored once, turned by weights that the band's energies or the mid/side constant
give. -/
theorem mixBand : Obligations.MixBand := by
  intro s b sel hb w d
  refine ⟨fun hms => ?_, fun hint => ?_, mixWeights_norm _ _ _, _,
    completesWith_of_body rfl (passed_stereoChecks hb), fun j hlo hhi => ?_, sameBut_setNorms_mapPairs hb⟩
  · change mixWeights _ _ _ = _
    rw [hms]
    rfl
  · have hw : w = _ := (congrArg (mixWeights s.mem b.toNat) hint).trans (mixWeights_intensity _ _)
    intro e0 e1
    refine ⟨fun h0 h1 => ?_, fun p hlo hhi => ?_⟩
    · rw [hw]
      change intensityWeights (scaledEnergy e0 _) (scaledEnergy e1 _) = _
      rw [h0, h1, scaledEnergy_zero, intensityWeights_zero]
    · rw [hw, zlog2_eq hlo hhi]
      rfl
  · intro l r
    simp only [← asr_eq]
    exact norm_setNorms_mapPairs hb hlo hhi rfl

/-- Settles O55: the two stores are in the slot that is not coded. -/
theorem rebuildVector : Obligations.RebuildVector := by
  intro s b hb hw c j x0 x1
  have hc : c ≤ 1 := codedChannel_le s.regs.st
  obtain ⟨hfirst, hsecond⟩ := norm_rebuilt (m := s.mem) (j := j) (sign := s.regs.st.sign) hc
  exact ⟨s.mem.setNorms (s.mem.rebuilt j c s.regs.st.sign),
    completesWith_of_body rfl ((passed_stereoChecks hb).trans (passed_check (decide_eq_true hw))), hfirst, hsecond,
    norm_rebuilt_other (by omega), norm_rebuilt_other (by omega), fun a ha =>
      Memory.byte_setNorms_other _ (s.mem.rebuilt j c s.regs.st.sign) a ha⟩

end Sys2Proof

/-! ## What a stereo command may store (R223, R270) -/

namespace Sys2Proof.Machine

/-- The addresses of the NORM window and above (R67). -/
def normWindow : Nat → Prop := fun a => 0xC000 ≤ a

theorem normElems_normWindow {ks : List Nat} {a : Nat} (h : normElems ks a) : normWindow a := by
  obtain ⟨k, -, h⟩ := h
  unfold normAddr at h
  unfold normWindow
  omega

/-- The implemented bytes of the frame are in the FBUF window (R9, R65). -/
theorem frameRange_frameWindow {hw : Params} {n a : Nat} (hl : hw.legal = true)
    (h : frameRange 0 (min n hw.fbufBytes) a) : frameWindow a := by
  simp only [Params.legal, Bool.and_eq_true, decide_eq_true_eq] at hl
  unfold frameRange fbufAddr at h
  unfold frameWindow
  omega

/-- The stereo commands that write NORM (R203, R217, R220). -/
def normWriters : List String := ["ST_MIX", "ST_SCALE", "ST_SIGN2_REBUILD"]

section Command

variable {s : State} {i : Instr}

/-- Every next state the outcome can be has stored in the frame's implemented bytes alone. -/
def nextInFrame (s : State) (o : Host.Outcome State Fault Refusal) : Prop :=
  ∀ t, o = .next t → s.mem.StoresIn (frameRange 0 (min s.regs.rc.storage.toNat s.hw.fbufBytes)) t.mem

/-- A coding command stores what its pseudocode does, or leaves the frame's bytes unspecified (R270). -/
theorem perform_nextInFrame {body : Run State}
    (hb : yields body fun t => s.mem.StoresIn (frameRange 0 (min s.regs.rc.storage.toNat s.hw.fbufBytes)) t.mem) :
    nextInFrame s (perform i s.frameBytes body s) := by
  intro t hnext
  rcases perform_eq_next.1 hnext with ⟨u, hu, rfl⟩ | ⟨c, -, rfl⟩
  · exact hb u hu
  · refine .unspecify _ fun a ha => ?_
    obtain ⟨k, hk, rfl⟩ := List.mem_map.1 ha
    rw [List.mem_range] at hk
    unfold frameRange fbufAddr
    omega

theorem execStThetaEnc_nextInFrame (b qb : Byte) : nextInFrame s (execStThetaEnc b qb s) :=
  perform_nextInFrame <| yields_stReq fun _ => yields_rcReq fun _ => yields_check fun _ => yields_check fun _ =>
    yields_bind fun y hy => yields_ok (rcEncode_staysInFrame _ _ _ y hy).2

theorem execStThetaDec_nextInFrame (b qb : Byte) : nextInFrame s (execStThetaDec b qb s) :=
  perform_nextInFrame <| yields_stReq fun _ => yields_rcReq fun _ => yields_check fun _ => yields_check fun _ =>
    yields_bind fun _ _ => yields_bind fun _ _ => yields_ok .refl

theorem execStSign2Enc_nextInFrame (b : Byte) : nextInFrame s (execStSign2Enc b s) := by
  refine perform_nextInFrame <| yields_stReq fun _ => yields_rcReq fun _ => yields_check fun _ =>
    yields_check fun _ => ?_
  split_ifs
  · exact yields_bind fun y hy => yields_ok (rcEncBits_staysInFrame _ _ y hy).2
  · exact yields_ok .refl

theorem execStSign2Dec_nextInFrame (b : Byte) : nextInFrame s (execStSign2Dec b s) := by
  refine perform_nextInFrame <| yields_stReq fun _ => yields_rcReq fun _ => yields_check fun _ =>
    yields_check fun _ => ?_
  split_ifs
  · exact yields_bind fun _ _ => yields_ok .refl
  · exact yields_ok .refl

/-- What a stereo command may store however it ends: FBUF if it codes, NORM if its rule writes it (R223, R270). -/
def stereoStores (i : Instr) : Nat → Prop :=
  fun a => (i.mnemonic ∈ stereoWriters ∧ frameWindow a) ∨ (i.mnemonic ∈ normWriters ∧ normWindow a)

theorem stereoStores_iff {a : Nat} : stereoStores i a ↔
    (i.mnemonic ∈ stereoWriters ∧ 0x4000 ≤ a ∧ a < 0x8000) ∨ (i.mnemonic ∈ normWriters ∧ 0xC000 ≤ a) := Iff.rfl

/-- A stereo command stores in the window its rule names, whether it completes or faults (R223, R270). -/
theorem exec_stereoStores {t : State} (hl : s.hw.legal = true) (hi : i.isStereo = true) (hnext : exec i s = .next t) :
    s.mem.StoresIn (stereoStores i) t.mem := by
  have hcoder (hm : i.mnemonic ∈ stereoWriters) (h : nextInFrame s (exec i s)) :
      s.mem.StoresIn (stereoStores i) t.mem :=
    (h t hnext).mono fun _ ha => .inl ⟨hm, frameRange_frameWindow hl ha⟩
  have hended := (exec_stores i s t hnext).ended
  cases i with
  | stThetaEnc b qb => exact hcoder (by simp [Instr.mnemonic, stereoWriters]) (execStThetaEnc_nextInFrame b qb)
  | stThetaDec b qb => exact hcoder (by simp [Instr.mnemonic, stereoWriters]) (execStThetaDec_nextInFrame b qb)
  | stSign2Enc b => exact hcoder (by simp [Instr.mnemonic, stereoWriters]) (execStSign2Enc_nextInFrame b)
  | stSign2Dec b => exact hcoder (by simp [Instr.mnemonic, stereoWriters]) (execStSign2Dec_nextInFrame b)
  | stMix b k | stScale b | stSign2Rebuild b =>
    exact hended.mono fun _ ha => .inr ⟨by simp [Instr.mnemonic, normWriters], normElems_normWindow ha.1⟩
  | stQb b | stSplit b => exact hended.mono fun _ ha => ha.1.elim
  | _ => cases hi

/-- Of the stereo commands that complete, ST_THETA_ENC and ST_SIGN2_ENC alone write below the NORM window (R223). -/
theorem stereo_writes_normWindow {a : Nat} (hi : i.isStereo = true)
    (hm : i.mnemonic ∉ ["ST_THETA_ENC", "ST_SIGN2_ENC"]) (h : i.writes s a) : normWindow a := by
  cases i with
  | stThetaEnc b qb | stSign2Enc b => simp [Instr.mnemonic] at hm
  | stMix b k | stScale b | stSign2Rebuild b => exact normElems_normWindow h
  | stQb b | stThetaDec b qb | stSplit b | stSign2Dec b => exact h.elim
  | _ => cases hi

end Command

end Sys2Proof.Machine

namespace Sys2Proof

open Machine

/-- Settles O56: a stereo command stores in FBUF if it codes and in NORM if its rule writes NORM; ENER and SIG are in
neither window. -/
theorem stereoCommandsKeepEnergies : Obligations.StereoCommandsKeepEnergies := by
  intro i s t hl hi hnext a
  have hkeeps : ¬ stereoStores i a → t.mem.byte a = s.mem.byte a := (exec_stereoStores hl hi hnext).sameBut a
  rw [stereoStores_iff] at hkeeps
  refine ⟨fun ha => hkeeps ?_, fun hlo hhi hm => hkeeps ?_, fun hlo hhi hm _ hfault => ?_, fun ha hm => hkeeps ?_⟩
  · omega
  · rintro (⟨hcodes, -⟩ | ⟨-, hnorm⟩)
    · exact hm hcodes
    · omega
  · refine ((exec_stores i s t hnext).completed hfault).sameBut a fun ha => absurd hhi ?_
    have hnorm : 0xC000 ≤ a := stereo_writes_normWindow hi hm ha.1
    omega
  · rintro (⟨-, hframe⟩ | ⟨hwrites, -⟩)
    · omega
    · exact hm hwrites

end Sys2Proof

/-! ## The system command (R250) -/

namespace Sys2Proof.Machine

/-- NOP's pseudocode is empty: it checks nothing, and a fault of it would leave no byte unspecified (R250). -/
theorem exec_nop (s : State) : exec .nop s = perform .nop [] (.ok s) s := rfl

end Sys2Proof.Machine

namespace Sys2Proof

open Machine

/-- Settles O28: the empty pseudocode cannot raise a fault and hands back the registers and memory it got. -/
theorem nopCompletes : Obligations.NopCompletes :=
  fun s => completesWith_of_body (exec_nop s) rfl

end Sys2Proof

/-! ## How a performed command leaves STATUS (R262, R270, R273) -/

namespace Sys2Proof.Machine

/-- No pseudocode writes STATUS.FAULT: only the fault entry behind it does (R262). -/
theorem exec_body_keepsFault (i : Instr) (s : State) :
    ∃ touched body, exec i s = perform i touched body s ∧ yields body fun u => u.regs.fault = s.regs.fault := by
  cases i with
  | nop => exact ⟨_, _, exec_nop s, yields_ok rfl⟩
  | rcEncInit | beCompute | beDenormalise | beRenormAll => exact ⟨_, _, rfl, yields_bind fun _ _ => yields_ok rfl⟩
  | rcEncDone | rcDecInit | beNormalise | beRenormBand | stMix | stQb | stSplit | stScale =>
    exact ⟨_, _, rfl, yields_bind fun _ _ => yields_bind fun _ _ => yields_ok rfl⟩
  | rcEncode | rcEncBits | rcDecode | rcDecBits | stSign2Rebuild =>
    exact ⟨_, _, rfl, yields_bind fun _ _ => yields_bind fun _ _ => yields_bind fun _ _ => yields_ok rfl⟩
  | rcDecUpdate | stThetaEnc =>
    exact ⟨_, _, rfl, yields_bind fun _ _ => yields_bind fun _ _ => yields_bind fun _ _ => yields_bind fun _ _ =>
      yields_bind fun _ _ => yields_ok rfl⟩
  | stThetaDec =>
    exact ⟨_, _, rfl, yields_bind fun _ _ => yields_bind fun _ _ => yields_bind fun _ _ => yields_bind fun _ _ =>
      yields_bind fun _ _ => yields_bind fun _ _ => yields_ok rfl⟩
  | rcTell =>
    refine ⟨_, _, rfl, yields_bind fun _ _ => yields_bind fun _ _ => ?_⟩
    split_ifs
    · exact yields_error _
    · exact yields_ok rfl
  | stSign2Enc | stSign2Dec =>
    refine ⟨_, _, rfl, yields_bind fun _ _ => yields_bind fun _ _ => yields_bind fun _ _ => yields_bind fun _ _ => ?_⟩
    split_ifs
    · exact yields_bind fun _ _ => yields_ok rfl
    · exact yields_ok rfl

/-- The two ways a command reaches a next state: it completes with STATUS.FAULT as before, or it takes one fault from the
state before it (R262, R270, R273). -/
theorem exec_ends {i : Instr} {s t : State} (h : exec i s = .next t) :
    (∃ u : State, t = u.complete ∧ u.regs.fault = s.regs.fault) ∨
    ∃ c touched, t = faultEntry c (encode i) touched s := by
  obtain ⟨touched, body, hexec, hfault⟩ := exec_body_keepsFault i s
  rcases perform_eq_next.1 (hexec ▸ h) with ⟨u, hu, ht⟩ | ⟨c, -, ht⟩
  · exact .inl ⟨u, ht, hfault u hu⟩
  · exact .inr ⟨c, touched, ht⟩

/-- A performed command sets DONE and leaves PHASE idle, whether it completes, faults or is no command (R95, R273). -/
theorem engineStep_busy_done {s t : State} {w : Word} {n : Nat} (hbusy : s.phase = .busy w n)
    (h : engineStep s = .next t) : t.regs.done = true ∧ t.phase = .idle := by
  cases hw : decode w with
  | ok i =>
    rw [engineStep_decoded hbusy hw] at h
    rcases exec_ends h with ⟨u, rfl, -⟩ | ⟨c, touched, rfl⟩
    · exact ⟨rfl, rfl⟩
    · exact ⟨rfl, rfl⟩
  | error err =>
    rw [engineStep_undecoded hbusy hw] at h
    cases h
    exact ⟨rfl, rfl⟩

/-- The engine never clears DONE. -/
theorem engineStep_keeps_done {s t : State} (hdone : s.regs.done = true) (h : engineStep s = .next t) :
    t.regs.done = true := by
  cases hphase : s.phase with
  | idle =>
    rw [engineStep_idle hphase] at h
    cases h
    exact hdone
  | busy w n => exact (engineStep_busy_done hphase h).1

/-! ### What a host event does to STATUS (R24, R25, R276, R290, R291) -/

/-- A hardware reset, or the CTRL write that is a soft reset (R290, R291). -/
def PortEvent.resets (e : PortEvent) : Prop :=
  e = .powerOn ∨ ∃ v : Word, e = .write 0x0004#16 4 v ∧ v.getLsbD 0 = true

/-- The STATUS write that clears DONE (R25). -/
def PortEvent.clearsDone (e : PortEvent) : Prop := ∃ v : Word, e = .write 0x0008#16 4 v ∧ v.getLsbD 1 = true

/-- Only CTRL resets the registers and only STATUS clears DONE; no other register write changes STATUS. -/
theorem writeReg_status (s : State) (v : Word) (r : Reg) :
    (r = .ctrl ∧ v.getLsbD 0 = true ∧ (writeReg s v r).regs = Regs.reset) ∨
    ((writeReg s v r).regs.fault = s.regs.fault ∧
      ((writeReg s v r).regs.done = s.regs.done ∨ (r = .status ∧ v.getLsbD 1 = true))) := by
  cases r with
  | ctrl =>
    cases hbit : v.getLsbD 0 with
    | true => exact .inl ⟨rfl, rfl, by rw [writeReg, writeCtrl, if_pos hbit, softReset_regs]⟩
    | false => exact .inr (by rw [writeReg, writeCtrl_flag hbit]; exact ⟨rfl, .inl rfl⟩)
  | status =>
    refine .inr ?_
    rw [writeReg, writeStatus_eq]
    refine ⟨rfl, ?_⟩
    cases v.getLsbD 1 with
    | true => exact .inr ⟨rfl, rfl⟩
    | false => exact .inl (Bool.and_true _)
  | cmd =>
    have hregs : (writeCmd s v).regs = s.regs := by unfold writeCmd; split <;> rfl
    exact .inr (by rw [writeReg, hregs]; exact ⟨rfl, .inl rfl⟩)
  | _ => exact .inr ⟨rfl, .inl rfl⟩

/-- A register is reached at its own offset of the map alone (R61). -/
theorem mem_regMap_of_target {hw : Params} {a : Nat} {r : Reg} (h : target hw a = .reg r) : (a, r) ∈ regMap := by
  simp only [target] at h
  split_ifs at h
  rcases regAt_cases a with habs | ⟨r', hr', hreg⟩
  · rw [habs] at h; cases h
  · rw [hreg] at h; cases h; exact hr'

theorem addr_of_target_ctrl {hw : Params} {a : BitVec 16} (h : target hw a.toNat = .reg .ctrl) : a = 0x0004#16 := by
  have hmap : ∀ p ∈ regMap, p.2 = .ctrl → p.1 = 0x0004 := by decide
  exact BitVec.toNat_inj.1 (hmap _ (mem_regMap_of_target h) rfl)

theorem addr_of_target_status {hw : Params} {a : BitVec 16} (h : target hw a.toNat = .reg .status) : a = 0x0008#16 := by
  have hmap : ∀ p ∈ regMap, p.2 = .status → p.1 = 0x0008 := by decide
  exact BitVec.toNat_inj.1 (hmap _ (mem_regMap_of_target h) rfl)

/-- A host event resets every register, or it keeps STATUS.FAULT and its code, and DONE too unless it is the STATUS write
that clears it. -/
theorem serve_status (e : PortEvent) (s : State) :
    (e.resets ∧ (serve e s).regs = Regs.reset) ∨
    ((serve e s).regs.fault = s.regs.fault ∧ ((serve e s).regs.done = s.regs.done ∨ e.clearsDone)) := by
  cases e with
  | read a n =>
    obtain ⟨r, p, h⟩ := serve_read s a n
    rw [h]
    exact .inr ⟨rfl, .inl rfl⟩
  | powerOn => exact .inl ⟨.inl rfl, rfl⟩
  | write a n v =>
    by_cases hlegal : legalAccess a n = true
    · obtain ⟨rfl, ha⟩ := legalAccess_iff.1 hlegal
      rw [serve_write_legal ha]
      cases htarget : target s.hw a.toNat with
      | reg r =>
        rcases writeReg_status s v r with ⟨rfl, hbit, hregs⟩ | ⟨hfault, hdone | ⟨rfl, hbit⟩⟩
        · exact .inl ⟨.inr ⟨v, by rw [addr_of_target_ctrl htarget], hbit⟩, hregs⟩
        · exact .inr ⟨hfault, .inl hdone⟩
        · exact .inr ⟨hfault, .inr ⟨v, by rw [addr_of_target_status htarget], hbit⟩⟩
      | band | ener | fbuf | sig | norm | absent => exact .inr ⟨rfl, .inl rfl⟩
    · rw [(serve_illegal (not_and_or.1 (mt legalAccess_iff.2 hlegal))).2 v]
      exact .inr ⟨rfl, .inl rfl⟩

/-- A step is the oldest event's or the engine's (R20). -/
theorem step_cases {s t : State} (h : step s = .next t) :
    engineStep s = .next t ∨ ∃ e rest, s.port = e :: rest ∧ t = serve e { s with port := rest } := by
  unfold step at h
  split at h
  · exact .inl h
  · next e rest hport =>
    split_ifs at h
    · cases h
      exact .inr ⟨e, rest, hport, rfl⟩
    · exact .inl h

/-! ### IRQ (R272) -/

theorem readReg_ctrl_irqEn (s : State) : (readReg s .ctrl).getLsbD 1 = s.regs.irqEn :=
  getLsbD_flagBit s.regs.irqEn (show 1 < 32 by norm_num) 1

theorem readReg_status_done (s : State) : (readReg s .status).getLsbD 1 = s.regs.done := by
  rw [readReg_status, getLsbD_statusWord s (show 1 < 32 by norm_num)]
  simp

/-! ### The block with every register reset (R292, R294) -/

theorem faultsWith_mono {i : Instr} {s : State} {c : FaultCode} {p q : Nat → Prop} (h : faultsWith i s c p)
    (hpq : ∀ a, p a → q a) : faultsWith i s c q := by
  obtain ⟨m, hexec, hmem⟩ := h
  exact ⟨m, hexec, Memory.sameBut_mono hmem hpq⟩

section NoChannels

variable {s : State}

theorem modeOk_noChannels (hc : s.channels = 0) : modeOk s = false := by
  simp [modeOk, hc]

/-- With C = 0 there is no `(c, b)`, no element of a band and no bin to set to 0 (R16). -/
theorem noChannels_elements (hc : s.channels = 0) :
    s.channelBands = [] ∧ s.coveredIndices = [] ∧ s.zeroFilled = [] ∧ ∀ b, s.bandElements b = [] := by
  simp [State.channelBands, State.coveredIndices, State.zeroFilled, State.bandElements, hc]

/-- With C = 0 and RC_STORAGE = 0 no command may change a byte of memory. -/
theorem footprint_noChannels (hc : s.channels = 0) (hst : s.regs.rc.storage = 0#32) (i : Instr) {a : Nat}
    (h : i.footprint s a) : noByte a := by
  obtain ⟨hpairs, hcovered, hzero, hband⟩ := noChannels_elements hc
  have hframe : ¬ frameRange 0 s.regs.rc.storage.toNat a := by
    rw [hst]
    exact fun hr => absurd (lt_of_le_of_lt hr.1 hr.2) (lt_irrefl _)
  have hnorm : ¬ normElems [] a := by simp [normElems]
  cases i with
  | nop | stQb | stSplit => exact h
  | rcEncInit | rcEncode | rcEncBits | rcEncDone | rcTell | rcDecInit | rcDecode | rcDecUpdate | rcDecBits | stThetaEnc
  | stThetaDec | stSign2Enc | stSign2Dec => exact hframe h
  | beCompute =>
    rw [Instr.footprint, Instr.writes, hpairs] at h
    simp [enerElems] at h
  | beDenormalise =>
    rw [Instr.footprint, Instr.writes, hcovered, hzero] at h
    simp [sigElems] at h
  | beNormalise | beRenormAll =>
    rw [Instr.footprint, Instr.writes, hcovered] at h
    exact hnorm h
  | beRenormBand | stMix | stScale | stSign2Rebuild =>
    rw [Instr.footprint, Instr.writes, hband] at h
    exact hnorm h

end NoChannels

/-- A coder that no init command has set up is ready in no direction (R110). -/
theorem not_coderReady_uninitialised {i : Instr} {c : Coder} (hi : i.direction ≠ none) (hc : c.inited = false) :
    ¬ i.coderReady c := by
  obtain ⟨dir, hdir⟩ := Option.ne_none_iff_exists'.1 hi
  rw [coderReady_iff hdir]
  exact fun hready => absurd hready.1 (Bool.eq_false_iff.1 hc)

/-- RC_TELL is the one coder command, the inits aside, that runs in either direction (R110, R141). -/
theorem coder_direction {i : Instr} (hi : i.isCoder = true) : i.direction ≠ none ∨ ∃ g, i = .rcTell g := by
  cases i with
  | rcEncode | rcEncBits | rcEncDone | rcDecode | rcDecUpdate | rcDecBits => exact .inl nofun
  | rcTell g => exact .inr ⟨g, rfl⟩
  | _ => cases hi

end Sys2Proof.Machine

namespace Sys2Proof

open Machine

/-- Settles O7: a command ends in one of the two ways of `exec_ends`, and its footprint holds every byte it changes. -/
theorem faultsArePrecise : Obligations.FaultsArePrecise := by
  intro i s t hfault hnext
  rcases exec_ends hnext with ⟨u, rfl, hkept⟩ | ⟨c, touched, rfl⟩
  · exact .inl (hkept.trans hfault)
  · have hmem := (commandsStayInTheirElements i s _ hnext).1
    exact .inr ⟨c, ⟨_, hnext, hmem⟩, rfl⟩

/-- Settles O8: both endings of a command set DONE, and of the host events only the two of `serve_status` clear it. -/
theorem doneAndIrq : Obligations.DoneAndIrq := by
  refine ⟨fun s t w n hbusy hnext => ?_, fun s v rest hidle hport hfault => ?_, fun s t hnext hdone hclear => ?_,
    fun s => ?_⟩
  · obtain ⟨hdone, hidle⟩ := engineStep_busy_done hbusy hnext
    exact ⟨hdone, hidle, by rw [State.irq, hdone, Bool.and_true]⟩
  · exact ⟨_, (commandWrites s v rest hidle hport).2 hfault, rfl⟩
  · rcases step_cases hnext with hengine | ⟨e, rest, hport, rfl⟩
    · exact absurd (engineStep_keeps_done hdone hengine) (Bool.eq_false_iff.1 hclear)
    · refine ⟨e, rest, hport, ?_⟩
      rcases serve_status e { s with port := rest } with ⟨hpower | hsoft, -⟩ | ⟨-, hkept | hstatus⟩
      · exact .inl hpower
      · exact .inr (.inr hsoft)
      · exact absurd (hkept.trans hdone) (Bool.eq_false_iff.1 hclear)
      · exact .inr (.inl hstatus)
  · rw [readReg_ctrl_irqEn, readReg_status_done]
    exact ⟨rfl, rfl, rfl, fun hclear => by rw [State.irq, hclear, Bool.and_false]⟩

/-- Settles O15: C = 0 is no valid mode, RC_INIT = 0 is no state to code in, and the footprint of every command is
empty. -/
theorem commandsAfterReset : Obligations.CommandsAfterReset := by
  intro s hreset
  have hchannels : s.channels = 0 := by rw [State.channels, hreset]; rfl
  have hstorage : s.regs.rc.storage = 0#32 := by rw [hreset]; rfl
  have hinited : s.regs.rc.inited = false := by rw [hreset]; rfl
  obtain ⟨hmode, -⟩ := modeChecks
  obtain ⟨hcoding, -, htell⟩ := coderStateChecked
  have hnoByte : ∀ i : Instr, ∀ a, i.footprint s a → noByte a := fun i _ => footprint_noChannels hchannels hstorage i
  refine ⟨fun i hi => faultsWith_mono (hmode i s hi (modeOk_noChannels hchannels)) (hnoByte i),
    fun i hi => faultsWith_mono ?_ (hnoByte i), nopCompletes s⟩
  rcases coder_direction hi with hdir | ⟨g, rfl⟩
  · exact hcoding i s hi hdir (not_coderReady_uninitialised hdir hinited)
  · exact htell g s hinited

/-- Settles O17: under the invariant a faulted block is idle, so the engine waits (R275), and a host event keeps the
fault or resets every register. -/
theorem onlyResetClearsFault : Obligations.OnlyResetClearsFault := by
  intro s t hok hnext hfault
  have hidle : s.phase = .idle := (State.ok_iff.1 hok).2 hfault
  rcases step_cases hnext with hengine | ⟨e, rest, hport, rfl⟩
  · rw [engineStep_idle hidle] at hengine
    cases hengine
    exact .inl rfl
  · rcases serve_status e { s with port := rest } with ⟨hresets, hregs⟩ | ⟨hkept, -⟩
    · exact .inr ⟨hregs, e, rest, hport, hresets⟩
    · exact .inl hkept

end Sys2Proof

/-! ## The soft reset and the power-on reset (R290 to R292) -/

namespace Sys2Proof.Machine

/-- A legal write of CTRL is `writeCtrl`, answered (R24, R61). -/
theorem serve_writeCtrl (s : State) (v : Word) : serve (.write 0x0004#16 4 v) s = (writeCtrl s v).answer .written := rfl

/-- A power-on waits for no command (R290; assumption 6). -/
theorem portReady_powerOn (s : State) : portReady s .powerOn = true := by
  cases hphase : s.phase with
  | idle => exact portReady_idle hphase _
  | busy w n => simp [portReady, hphase]

/-- With SRST written, the other bits of CTRL are ignored (R24, R291). -/
theorem writeCtrl_srst {v : Word} (h : v.getLsbD 0 = true) (s : State) : writeCtrl s v = softReset s := if_pos h

/-- At an idle block the soft reset writes the registers alone. -/
theorem softReset_of_idle {s : State} (h : s.phase = .idle) : softReset s = { s with regs := Regs.reset } := by
  rw [softReset, ← h]

/-- The idle blocks with every register reset are the states that the soft reset leaves as they are. -/
theorem softReset_eq_self_iff {s : State} : softReset s = s ↔ s.regs = Regs.reset ∧ s.phase = .idle := by
  refine ⟨fun h => by rw [← h]; exact ⟨rfl, rfl⟩, fun ⟨hregs, hidle⟩ => ?_⟩
  rw [softReset_of_idle hidle, ← hregs]

/-- IRQ_EN and DONE are 0 after a reset (R292). -/
theorem irq_softReset (s : State) : (softReset s).irq = false := rfl

/-- After a reset the registers that hold no constant or parameter read 0, STATUS with its BUSY among them (R292). -/
theorem readReg_softReset_zero (s : State) {r : Reg} (hid : r ≠ .id) (h0 : r ≠ .hwcfg0) (h1 : r ≠ .hwcfg1) :
    readReg (softReset s) r = 0#32 := by
  cases r with
  | id => exact absurd rfl hid
  | hwcfg0 => exact absurd rfl h0
  | hwcfg1 => exact absurd rfl h1
  | status =>
    have hstatus : State.reset.statusWord = 0#32 := by decide
    exact hstatus
  | rcRem =>
    have hrem : Coder.reset.remWord = 0#32 := by decide
    exact hrem
  | _ => rfl

/-- HWCFG1 packs three parameters (R28). -/
theorem readReg_hwcfg1 (s : State) :
    readReg s .hwcfg1 = BitVec.ofNat 32 (s.hw.nbandsMax + s.hw.extBits * 256 + s.hw.frameMax * 65536) := by
  rw [Nat.mul_comm s.hw.extBits, Nat.mul_comm s.hw.frameMax]
  rfl

end Sys2Proof.Machine

namespace Sys2Proof

open Machine

/-- Settles O18: a running command holds the CTRL write but not the power-on, and an idle block with every register
reset is one that `softReset` leaves as it is. -/
theorem resetsWork : Obligations.ResetsWork := by
  refine ⟨fun s v rest hidle hport hsrst => ?_, fun s w v n rest hbusy hport => ?_, fun s rest hport => ?_,
    fun s r hregs hidle => ?_⟩
  · rw [step_eq_serve hport (portReady_idle hidle _), serve_writeCtrl, writeCtrl_srst hsrst,
      softReset_of_idle (s := { s with port := rest }) hidle]
    rfl
  · refine step_eq_engineStep fun e rest' h => ?_
    rw [hport] at h
    cases h
    exact portReady_held hbusy nofun nofun
  · exact ⟨_, step_eq_serve hport (portReady_powerOn s)⟩
  · have hself : softReset s = s := softReset_eq_self_iff.2 ⟨hregs, hidle⟩
    refine ⟨hself ▸ irq_softReset s, ?_⟩
    split_ifs with hid h0 h1
    · rw [hid]; rfl
    · rw [h0]; rfl
    · rw [h1, readReg_hwcfg1]
    · exact hself ▸ readReg_softReset_zero s hid h0 h1

end Sys2Proof
